-- ==== Sys2Proof/Word.lean ====
section
/-! DEFINITION. The word types of the port registers, fixed-size tables with one read and one write, and host sets. -/

namespace Sys2Proof

/-- A 32-bit word of a port register, a staging word or the memory data bus (R177). -/
abbrev Word := BitVec 32

/-- A byte address on the memory master port, 0 to 2^32 - 1 (00_scope.md section 4.3). -/
abbrev Addr := BitVec 32

/-- One 8-bit field of the REQUEST word (R177). -/
abbrev Operand := BitVec 8

/-- A host set: bit i set when Hi is a member (R177, "Host set"). -/
abbrev HostSet := BitVec 4

/-- A fixed number of like records. -/
abbrev Table (α : Type) (n : Nat) := Vector α n

/-- The record at an index. -/
def look {α : Type} {n : Nat} (t : Table α n) (i : Fin n) : α := t[i.val]

/-- The table with the record at one index replaced. -/
def put {α : Type} {n : Nat} (t : Table α n) (i : Fin n) (a : α) : Table α n := t.set i.val a i.isLt

/-- The table with every record changed in the same way. -/
def mapTable {α β : Type} {n : Nat} (f : α → β) (t : Table α n) : Table β n := Vector.ofFn fun i => f (look t i)

@[simp] theorem look_put_self {α : Type} {n : Nat} (t : Table α n) (i : Fin n) (a : α) :
    look (put t i a) i = a := by
  simp [look, put]

theorem look_put_ne {α : Type} {n : Nat} (t : Table α n) {i j : Fin n} (a : α) (h : j ≠ i) :
    look (put t i a) j = look t j := by
  have hv : i.val ≠ j.val := fun e => h (Fin.ext e.symm)
  simp [look, put, hv]

theorem look_put {α : Type} {n : Nat} (t : Table α n) (i j : Fin n) (a : α) :
    look (put t i a) j = if j = i then a else look t j := by
  by_cases h : j = i
  · subst h; simp
  · simp [h, look_put_ne t a h]

@[simp] theorem look_replicate {α : Type} {n : Nat} (a : α) (i : Fin n) :
    look (Vector.replicate n a) i = a := by
  simp [look]

/-- The unsigned value of `len` bits of a word from bit `lo` up (R177). -/
def field (w : Word) (lo len : Nat) : Nat := w.toNat / 2 ^ lo % 2 ^ len

/-- One bit of a word. -/
def flag (w : Word) (i : Nat) : Bool := w.getLsbD i

/-- A word assembled from (bit position, value) pairs that do not overlap; every other bit is 0. -/
def packWord (fs : List (Nat × Nat)) : Word :=
  BitVec.ofNat 32 (fs.foldr (fun f acc => f.2 * 2 ^ f.1 + acc) 0)

/-- A flag as the value of a one-bit field. -/
def bit (b : Bool) : Nat := if b then 1 else 0

end Sys2Proof
end

