-- ==== Sys2Proof/Syntax.lean ====
section
/-! DEFINITION. Names of the part's objects (00_scope.md section 4.1) and the commands: one constructor of Instr per row of
spec/opcode_table.json. -/

namespace Sys2Proof

/-- A host H0 to H3, and its port P0 to P3. -/
abbrev HostId := Fin 4

/-- An event source S0 to S63, and its Event Table entry. -/
abbrev Source := Fin 64

/-- A transfer descriptor D0 to D127. -/
abbrev DescId := Fin 128

/-- A transfer channel C0 or C1. -/
abbrev ChannelId := Fin 2

/-- An event line EVT[0] to EVT[47]. -/
abbrev LineId := Fin 48

/-- What a notice that waits to be appended belongs to: the claims on one host's session, one channel's run, or one entry
(R163: the order within each sequence is kept, and other appends may come between). That the notices of one host, channel or entry are
one sequence across claims is the model's choice (log 12). -/
inductive Origin
  | host (h : HostId)
  | channel (c : ChannelId)
  | entry (e : Source)
deriving DecidableEq, Repr

/-- The commands. A request carries the host whose port it is written to and those fields of the REQUEST word (R177) that
the request uses; the fields it does not use are ignored (R171). -/
inductive Instr
  /-- ATTACH (R44). -/
  | attach (h : HostId)
  /-- DETACH (R46). -/
  | detach (h : HostId)
  /-- SET_THRESHOLD (R48). -/
  | setThreshold (h : HostId) (value : Operand)
  /-- TAKE (R77). -/
  | take (h : HostId) (object : Operand)
  /-- FINISH (R86). -/
  | finish (h : HostId) (object : Operand)
  /-- RELEASE (R89). -/
  | release (h : HostId) (object : Operand)
  /-- POST (R29). -/
  | post (h : HostId) (object : Operand)
  /-- READ_ENTRY (R19). -/
  | readEntry (h : HostId) (object : Operand)
  /-- READ_DESC (R124). -/
  | readDesc (h : HostId) (object : Operand)
  /-- READ_WINDOW (R156). -/
  | readWindow (h : HostId) (object sub : Operand)
  /-- READ_HOST (R61). -/
  | readHost (h : HostId) (object : Operand)
  /-- POP_NOTICE (R164). -/
  | popNotice (h : HostId)
  /-- READ_NOTICE_STATUS (R165). -/
  | readNoticeStatus (h : HostId)
  /-- WRITE_ENTRY (R18). -/
  | writeEntry (h : HostId) (object : Operand)
  /-- ENABLE (R36): code 15 with a value other than 0; 1 is ENABLE and any other is answered RANGE (section 11.3). -/
  | enable (h : HostId) (object value : Operand)
  /-- DISABLE (R37): code 15 with value 0. -/
  | disable (h : HostId) (object : Operand)
  /-- CLEAR_ENTRY (R20). -/
  | clearEntry (h : HostId) (object : Operand)
  /-- RETRY (R107). -/
  | retry (h : HostId) (object : Operand)
  /-- WRITE_BINDING (R117). -/
  | writeBinding (h : HostId) (object : Operand)
  /-- ARM (R118). -/
  | arm (h : HostId) (object : Operand)
  /-- DISARM (R119). -/
  | disarm (h : HostId) (object : Operand)
  /-- WRITE_DESC (R123). -/
  | writeDesc (h : HostId) (object : Operand)
  /-- WRITE_WINDOW (R155). -/
  | writeWindow (h : HostId) (object sub : Operand)
  /-- SET_HOST_LIMITS (R53). -/
  | setHostLimits (h : HostId) (object sub value : Operand)
  /-- SET_RIGHTS (R51). -/
  | setRights (h : HostId) (object value : Operand)
  /-- HAND_OVER (R52). -/
  | handOver (h : HostId) (object : Operand)
  /-- EVICT (R56). -/
  | evict (h : HostId) (object : Operand)
  /-- A REQUEST write whose code is not 1 to 26 (R171 check 1). -/
  | unknownRequest (h : HostId) (code : Operand)
  /-- A REQUEST write while the port is WORKING (R175). -/
  | lostRequest (h : HostId)
  /-- A write to a word of the port window other than REQUEST (R169, R177): word `offset` stands at byte offset 4 * offset. -/
  | registerWrite (h : HostId) (offset : Fin 16) (word : Word)
  /-- A change that EVT[line] has held for 0.25 us: the line is now `high` (R23, R24). -/
  | lineChange (line : LineId) (high : Bool)
  /-- Assertion of HRST_n[h] (R58, R59). -/
  | hostReset (h : HostId)
  /-- Release of HRST_n[h] (R59). -/
  | hostResetRelease (h : HostId)
  /-- RESET_n goes low (R22). -/
  | fullReset
  /-- Release of RESET_n, with the levels EVT[47:0] then hold and the straps then sampled (R23, R181). -/
  | fullResetRelease (evt : BitVec 48) (clksel supsel : BitVec 2)
  /-- Expiry of a host's offer timer (R75). -/
  | offerExpiry (h : HostId)
  /-- The Host Context Unit takes the host's lapse report (R54). -/
  | lapseReport (h : HostId)
  /-- The Offer Unit takes the answer to the host's lapse report (R75). -/
  | lapseAnswer (h : HostId)
  /-- The Host Context Unit takes the host's matched take (R84). -/
  | takePush (h : HostId)
  /-- The Event Table takes the host's pushed take (R84 step 3). -/
  | takeHold (h : HostId)
  /-- The Host Context Unit removes a pushed record whose entry was cleared first (R84). -/
  | takeUndo (h : HostId)
  /-- The Event Table takes the host's FINISH of an entry (R87). -/
  | finishReport (h : HostId) (e : Source)
  /-- The Event Table takes the host's RELEASE of an entry (R89). -/
  | releaseReport (h : HostId) (e : Source)
  /-- The Event Table takes the next release of the host's whole-stack give-back (R91). -/
  | stackRelease (h : HostId)
  /-- The Event Table takes the host's next owed-set departure (R46, R54, R111). -/
  | owedDeparture (h : HostId)
  /-- The Event Table takes the host's next withdrawn offer (R73). -/
  | withdrawalReport (h : HostId)
  /-- The Delegation Unit inserts a QUEUED entry (R134). -/
  | delegationInsert (e : Source)
  /-- The Delegation Unit takes the release of a channel (R137). -/
  | channelRelease (c : ChannelId)
  /-- A channel arrives at a descriptor (R125). -/
  | descriptorArrival (c : ChannelId)
  /-- The Window Table checks the channel's next unit (R152). -/
  | unitCheck (c : ChannelId)
  /-- The Memory Port grants a waiting channel (R143). -/
  | memoryGrant
  /-- A response of shared memory: its tag, whether its status is ERROR, and the data on MD (R144). -/
  | memoryResponse (tag : BitVec 4) (error : Bool) (data : Word)
  /-- The outstanding access reaches its deadline (R145). -/
  | memoryTimeout
  /-- The Window Table records the channel's oldest completed write (R154). -/
  | writeRecord (c : ChannelId)
  /-- The Delegation Unit takes a cut request that names the entry (R141). -/
  | cutRequest (e : Source)
  /-- The Event Table takes the channel's success (R130). -/
  | runSuccess (c : ChannelId)
  /-- The Event Table takes the channel's failure (R131). -/
  | runFailure (c : ChannelId)
  /-- The Event Table takes the channel's cut (R131). -/
  | runCut (c : ChannelId)
  /-- The Notice Queue takes the oldest notice handed to it for one origin (R162). -/
  | noticeAppend (o : Origin)
  /-- The Event Table takes the oldest change of S63's level (R31, R167). -/
  | noticeLevelChange
deriving DecidableEq, Repr

end Sys2Proof
end

