-- ==== Sys2Proof/WellFormed.lean ====
section
/-! DEFINITION. Which terms of Instr spell a command of their own row. -/

namespace Sys2Proof

/-- Is this one of the request codes 1 to 26 (R171 check 1, R177)? -/
def knownCode (code : Operand) : Bool := decide (1 ≤ code.toNat ∧ code.toNat ≤ 26)

/-- A term is well formed when it does not spell another row's command (log 11): code 15 with value 0 is DISABLE and not
ENABLE, a request code 1 to 26 is not UNKNOWN, and a write at word offset 0 is a request and no other register write. -/
def Instr.wellFormed : Instr → Bool
  | .enable _ _ value => value != 0
  | .unknownRequest _ code => !knownCode code
  | .registerWrite _ offset _ => offset != 0
  | _ => true

end Sys2Proof
end

