-- ==== Sys2Proof/Decode.lean ====
section
/-! DEFINITION. From words to commands: the opcode table's bits (it gives none), and the REQUEST word by R177. -/

namespace Sys2Proof

/-- The command a word spells by the bits of spec/opcode_table.json. The table gives no row any bits, so no word spells
one (log 22). -/
def decodeTableWord (_nbits _w : Nat) : Option Instr := none

/-- The request codes of R177, each with the command that a REQUEST word of that code spells at port h. -/
def requestOfCode (h : HostId) (code : Nat) (object sub value : Operand) : Option Instr :=
  match code with
  | 1 => some (.attach h)
  | 2 => some (.detach h)
  | 3 => some (.setThreshold h value)
  | 4 => some (.take h object)
  | 5 => some (.finish h object)
  | 6 => some (.release h object)
  | 7 => some (.post h object)
  | 8 => some (.readEntry h object)
  | 9 => some (.readDesc h object)
  | 10 => some (.readWindow h object sub)
  | 11 => some (.readHost h object)
  | 12 => some (.popNotice h)
  | 13 => some (.readNoticeStatus h)
  | 14 => some (.writeEntry h object)
  | 15 => some (if value = 0 then .disable h object else .enable h object value)
  | 16 => some (.clearEntry h object)
  | 17 => some (.retry h object)
  | 18 => some (.writeBinding h object)
  | 19 => some (.arm h object)
  | 20 => some (.disarm h object)
  | 21 => some (.writeDesc h object)
  | 22 => some (.writeWindow h object sub)
  | 23 => some (.setHostLimits h object sub value)
  | 24 => some (.setRights h object value)
  | 25 => some (.handOver h object)
  | 26 => some (.evict h object)
  | _ => none

/-- The command that a write of word w to port h's REQUEST spells (R177): bits 7:0 the code, 15:8 the object operand, 23:16
the sub-operand, 31:24 the value. A code that is not 1 to 26 is an unknown request (R171). -/
def requestOfWord (h : HostId) (w : Word) : Instr :=
  let code : Operand := w.extractLsb' 0 8
  match requestOfCode h code.toNat (w.extractLsb' 8 8) (w.extractLsb' 16 8) (w.extractLsb' 24 8) with
  | some i => i
  | none => .unknownRequest h code

/-- The command that a write of word w to the word at `offset` of port h's window spells: REQUEST stands at offset 0. -/
def portWrite (h : HostId) (offset : Fin 16) (w : Word) : Instr :=
  if offset = 0 then requestOfWord h w else .registerWrite h offset w

/-- The request code that a request command carries (R177): the echoed code of its answer. 0 for every other command. -/
def Instr.code : Instr → Operand
  | .attach .. => 1
  | .detach .. => 2
  | .setThreshold .. => 3
  | .take .. => 4
  | .finish .. => 5
  | .release .. => 6
  | .post .. => 7
  | .readEntry .. => 8
  | .readDesc .. => 9
  | .readWindow .. => 10
  | .readHost .. => 11
  | .popNotice .. => 12
  | .readNoticeStatus .. => 13
  | .writeEntry .. => 14
  | .enable .. => 15
  | .disable .. => 15
  | .clearEntry .. => 16
  | .retry .. => 17
  | .writeBinding .. => 18
  | .arm .. => 19
  | .disarm .. => 20
  | .writeDesc .. => 21
  | .writeWindow .. => 22
  | .setHostLimits .. => 23
  | .setRights .. => 24
  | .handOver .. => 25
  | .evict .. => 26
  | _ => 0

end Sys2Proof
end

