-- ==== Sys2Proof/Config.lean ====
section
/-! DEFINITION. The numbers of the part (00_scope.md section 5), the values log 17 and log 18 choose, and the one free
value (log 5). -/

namespace Sys2Proof.Config

/-- Depth of an in-service stack (R81, R82). -/
def stackDepth : Nat := 8

/-- Records the Notice Queue holds (R161). -/
def noticeDepth : Nat := 16

/-- Descriptors a run executes at most (R127). -/
def chainLimit : Nat := 16

/-- Longest run length of a descriptor (R122). -/
def maxRunLength : Nat := 4096

/-- Microseconds of one unit of the offer timeout setting (R74). -/
def offerUnit : Nat := 16

/-- The memory response limit in microseconds (R145). -/
def responseLimit : Nat := 64

/-- Bytes of a page (R149). -/
def pageSize : Nat := 4096

/-- Pages of the address space (R149). -/
def pageLimit : Nat := 1048576

/-- Most pages one window covers (R149). -/
def maxPageCount : Nat := 65536

/-- DESIGN CHOICE (log 17, unsafe): the levels the EVT lines hold when the machine starts. -/
def linesAtReset : BitVec 48 := 0

/-- DESIGN CHOICE (log 17, unsafe): the CLKSEL strap sampled when the machine starts. -/
def clkselAtReset : BitVec 2 := 0

/-- DESIGN CHOICE (log 17, unsafe): the host the SUPSEL strap selects when the machine starts. -/
def supervisorAtReset : Fin 4 := 0

/-- FREE VALUE (log 5, safe): which of the 24 orders of the four hosts a CLEAR_ENTRY's fresh offer choices follow; R20 and
R73 make each of them a claim of its own and fix no order. Drawn at a count that State holds. -/
opaque slotOrder : Nat → Fin 24

end Sys2Proof.Config
end

