-- ==== Sys2Proof/Machine/State.lean ====
section
/-! DEFINITION. The state of the part: the state of each block of 00_scope.md section 2.1, the claims handed between blocks and
not yet taken (log 1), the queue of commands, and the state after reset. -/

namespace Sys2Proof.Machine

/-! ### Event Table -/

/-- How arrivals are recognised (R2). -/
inductive Kind
  | levelHigh | levelLow | rising | falling | both | posted | notice
deriving DecidableEq, Repr

/-- The routing rule of an entry (R2, R98). -/
inductive Policy
  | directed | any | all
deriving DecidableEq, Repr

/-- When a host is told of a run (R3, R130). -/
inductive Deliver
  | atLast | eachRun | quiet
deriving DecidableEq, Repr

/-- The six states of an entry (R4, section 1.2). -/
inductive EntryState
  | idle | latched | queued | running | delivering | parked
deriving DecidableEq, Repr

/-- How the current event reached delivery (R6). -/
inductive Outcome
  | plain | ran | ranLast | failed | cut
deriving DecidableEq, Repr

/-- A level of urgency, 0 to 15 (00_scope.md section 4.2). -/
abbrev Level := Fin 16

/-- The configuration part of an entry (R2). -/
structure EntryConfig where
  kind    : Kind
  level   : Level
  policy  : Policy
  targets : HostSet
  enable  : Bool
deriving DecidableEq, Repr

/-- The binding part of an entry (R3). -/
structure Binding where
  head     : Option DescId
  runsLeft : Fin 65536
  reload   : Option (Fin 65536)
  deliver  : Deliver
  armed    : Bool
deriving DecidableEq, Repr

/-- The state part of an entry (R4). -/
structure Progress where
  state         : EntryState
  again         : Bool
  merged        : Fin 256
  saturated     : Bool
  hold          : Bool
  disarmPending : Bool
  outcome       : Option Outcome
  offered       : HostSet
  held          : HostSet
  owed          : Option HostSet
  decline       : Option HostSet
deriving DecidableEq, Repr

/-- An entry of the Event Table: its three parts (R1). -/
structure Entry where
  cfg  : EntryConfig
  bind : Binding
  prog : Progress
deriving DecidableEq, Repr

/-- The Event Table: 64 entries and the arrival order list, head first (R1, R16). -/
structure EventTable where
  entries : Table Entry 64
  order   : List Source
deriving DecidableEq, Repr

/-! ### Host Context Unit -/

/-- A host's standing with the dispatcher (R42). -/
inductive Session
  | detached | attached | lapsed
deriving DecidableEq, Repr

/-- The contents of a filled offer slot (R62). A stack record holds the same four fields (R81). -/
structure Offer where
  source  : Source
  level   : Level
  policy  : Policy
  outcome : Outcome
deriving DecidableEq, Repr

/-- A stack record: the fields copied from the offer that was taken (R81). -/
abbrev StackRecord := Offer

/-- One host context (R40). The stack is written bottom first (R81). -/
structure HostContext where
  session     : Session
  threshold   : Level
  stack       : List StackRecord
  lapseCount  : Fin 16
  lapseLimit  : Fin 16
  timeout     : Fin 256
  configRight : Bool
  descRight   : Bool
deriving DecidableEq, Repr

/-- The Host Context Unit: four contexts and the supervisor designation (R40, R50). -/
structure HostUnit where
  ctx        : Table HostContext 4
  supervisor : HostId
deriving DecidableEq, Repr

/-! ### Offer Unit -/

/-- An offer slot and its timer: the timer is stopped (none) or holds its expiry time in microseconds (R62, R74). -/
structure Slot where
  offer : Option Offer
  timer : Option Nat
deriving DecidableEq, Repr

/-- The Offer Unit: four slots and the ANY rotation pointer (R62), and its view of the four in-service stacks, bottom first: a
record that FINISH or RELEASE has removed stands in the view until the report is taken (R63, R87). The sessions and thresholds it
judges by are those of the contexts, since their changes are told in the claim that makes them (R41, log 3). -/
structure OfferUnit where
  slots    : Table Slot 4
  rotation : HostId
  views    : Table (List StackRecord) 4
deriving DecidableEq, Repr

/-! ### Delegation Unit -/

/-- How an address moves after a unit (R122); `unset` is the encoding 0 that full reset leaves (R122, R180). -/
inductive AddrStep
  | unset | inc | dec | fixed
deriving DecidableEq, Repr

/-- A transfer descriptor (R122). -/
structure Descriptor where
  valid     : Bool
  owner     : Option HostId
  src       : Addr
  dst       : Addr
  unitSize  : Nat
  srcStep   : AddrStep
  dstStep   : AddrStep
  runLength : Nat
  link      : Option DescId
  active    : Bool
  faulted   : Bool
deriving DecidableEq, Repr

/-- Where a channel is on its chain (R125, R135): going to a descriptor whose arrival the Delegation Unit has yet to take,
waiting at one that is active on the other channel, or executing one. -/
inductive Position
  | nowhere
  | arriving (d : DescId)
  | waiting (d : DescId)
  | executing (d : DescId)
deriving DecidableEq, Repr

/-- The phase of the unit being made (R135), with "check asked of the Window Table and not yet taken" of R141. -/
inductive Phase
  | idle | checking | waitingPort | reading | writing
deriving DecidableEq, Repr

/-- A channel record (R135). -/
structure Channel where
  running   : Bool
  entry     : Option Source
  position  : Position
  completed : Nat
  units     : Nat
  phase     : Phase
  cutMark   : Bool
  reported  : Bool
deriving DecidableEq, Repr

/-- The Delegation Unit: delegation list, channels, last-grant mark, Descriptor Table (R122, R134, R135, R136). -/
structure DelegationUnit where
  list      : List Source
  channels  : Table Channel 2
  lastGrant : ChannelId
  descs     : Table Descriptor 128
deriving DecidableEq, Repr

/-! ### Memory Port -/

/-- An access on the memory master port (R143, R144). -/
structure Access where
  isWrite  : Bool
  addr     : Addr
  size     : Nat
  tag      : BitVec 4
  deadline : Nat
deriving DecidableEq, Repr

/-- The Memory Port (R143). A channel's waiting request is that channel's phase `waitingPort`. -/
structure MemoryPort where
  grant       : Option ChannelId
  access      : Option Access
  heldData    : Option Word
  alternation : ChannelId
  tagCounter  : BitVec 4
deriving DecidableEq, Repr

/-! ### Window Table -/

/-- The right a window grants (R149). -/
inductive WindowAccess
  | none | read | readWrite
deriving DecidableEq, Repr

/-- A window record (R149). -/
structure Window where
  base    : Nat
  count   : Nat
  access  : WindowAccess
  written : Bool
deriving DecidableEq, Repr

/-! ### Notice Queue -/

/-- The twelve kinds of notice (R160). -/
inductive NoticeKind
  | windowRead | windowWrite | memError | memTimeout | descBad | chainLong
  | lapsed | evicted | skipped | undelivered | parked | mergeSaturated
deriving DecidableEq, Repr

/-- A notice record (R159). -/
structure Notice where
  kind   : NoticeKind
  source : Option Source
  host   : Option HostId
  desc   : Option DescId
  addr   : Option Addr
deriving DecidableEq, Repr

/-- The Notice Queue: its records, oldest first, and the overflow count (R161). -/
structure NoticeQueue where
  records  : List Notice
  overflow : Fin 256
deriving DecidableEq, Repr

/-! ### Host ports -/

/-- The ten result codes (R172). -/
inductive ResultCode
  | none | ok | empty | stale | busy | state | rights | range | detached | unknown
deriving DecidableEq, Repr

/-- A REQUEST write that the port has taken and whose bus cycle it has not yet completed: a matched TAKE (R84, R170), or an
ATTACH that waits for the effects of the host's last departure (R46, R170). -/
inductive BusWait
  | take | attach
deriving DecidableEq, Repr

/-- A host port (R168). `working` is the port state WORKING and the WORKING flag of RESULT, which are one fact. -/
structure Port where
  working       : Bool
  result        : ResultCode
  echo          : Operand
  lost          : Bool
  stage         : Table Word 8
  pendingDisarm : Option Source
  waiting       : Option BusWait
deriving DecidableEq, Repr

/-! ### Claims handed on and not yet taken (log 1) -/

/-- A matched TAKE on its way from the Offer Unit to the Host Context Unit (R77, R84). -/
structure TakeClaim where
  offer : Offer
  /-- The Event Table has taken a CLEAR_ENTRY of the entry since the match (R84, log 7). -/
  cleared : Bool
  /-- The host's session has been ended by a host reset since the match (R85, log 8). -/
  ended : Bool
deriving DecidableEq, Repr

/-- A lapse report on its way to the Host Context Unit, or its answer on its way back (R75). A report is overtaken when a DETACH, EVICT
or host reset of the host is taken before it (R76, log 35). -/
inductive LapseClaim
  | none
  | reported
  | overtaken
  | answered (session : Session)
deriving DecidableEq, Repr

/-- A claim on an entry that the Host Context Unit or the Offer Unit has handed to the Event Table for one host. -/
inductive Handed
  /-- The host holds e (R84 step 3); `cleared` as in TakeClaim. -/
  | hold (e : Source) (cleared : Bool)
  /-- The host's FINISH of e (R87). -/
  | finish (e : Source)
  /-- The host's RELEASE of e, and whether the host was LAPSED (R89). -/
  | release (e : Source) (lapsed : Bool)
  /-- The host's offer of e is withdrawn (R73). -/
  | withdraw (e : Source)
  /-- A release of a whole-stack give-back (R91). -/
  | stackRelease (e : Source)
  /-- The host leaves e's owed set (R46 step 3, R54 step 3). -/
  | depart (e : Source)
deriving DecidableEq, Repr

/-- A cut request on its way to the Delegation Unit (R120). `stale` once the channel that carried the entry is released
(R121: no later run is cut by it; log 15). -/
structure CutClaim where
  source : Source
  stale  : Bool
deriving DecidableEq, Repr

/-- A run result a channel reports (R137). -/
inductive RunResult
  | success | failure | cut
deriving DecidableEq, Repr

/-- The claims handed on and not yet taken. -/
structure Claims where
  takes    : Table (Option TakeClaim) 4
  lapses   : Table LapseClaim 4
  handed   : Table (List Handed) 4
  undos    : Table (Option Source) 4
  /-- Notices handed to the Notice Queue, oldest first (R162, R163). -/
  notices  : List (Origin × Notice)
  /-- Changes of S63's level, oldest first: true is an assertion (R167). -/
  levels   : List Bool
  /-- QUEUED entries handed to the Delegation Unit (R134). -/
  inserts  : List Source
  cuts     : List CutClaim
  /-- Completed writes told to the Window Table: the owner and the destination address, oldest first (R154). -/
  writes   : Table (List (HostId × Addr)) 2
  reports  : Table (Option RunResult) 2
  /-- A channel release; the flag says that the result re-latched the entry to QUEUED (R137). -/
  releases : Table (Option Bool) 2
deriving DecidableEq, Repr

/-! ### Timebase and pins -/

/-- The Timebase: the microsecond count and the sampled CLKSEL strap (R181). -/
structure Timebase where
  micros : Nat
  clksel : BitVec 2
deriving DecidableEq, Repr

/-- The reset pins: RESET_n is low; the set of hosts whose HRST_n is low (R59, R168). -/
structure Pins where
  resetLow : Bool
  hrst     : HostSet
deriving DecidableEq, Repr

/-- The state of the part. -/
structure State where
  /-- Sampled values of EVT[47:0] (R23). -/
  lines     : BitVec 48
  et        : EventTable
  hcu       : HostUnit
  ou        : OfferUnit
  du        : DelegationUnit
  mp        : MemoryPort
  /-- Windows Wh.k, by host and then by index (R149). -/
  wt        : Table (Table Window 8) 4
  nq        : NoticeQueue
  ports     : Table Port 4
  tb        : Timebase
  pins      : Pins
  claims    : Claims
  /-- How many free values have been drawn (log 5). -/
  freeCount : Nat
  /-- The commands that wait, first in, first out (log 22). -/
  pending   : List Instr
deriving DecidableEq, Repr

/-- The part never stops by itself: every failure the manual describes is a notice, a result code or an entry's outcome. No
meaning raises a fault, so this type has no constructor. -/
inductive Fault
deriving DecidableEq, Repr

/-- Why a command has no next state. -/
inductive Refusal
  /-- Raised by an arm of exec for a command that has no meaning yet. Safe. -/
  | notModelled (mnemonic : String)
  /-- Raised by a request at a port whose previous REQUEST write the part has not yet completed on the bus (R170), so that the
  host cannot have written it (log 10). Safe: the model stops where the hardware has no such step. -/
  | busHeld
  /-- Raised by a term that spells another row's command: an ill-formed term, or LOST_REQUEST at a port that is not WORKING
  (log 11). Safe: the hardware takes that write as the other row's command. -/
  | otherCommand
deriving DecidableEq, Repr

/-- What a meaning answers. -/
abbrev Result := Host.Outcome State Fault Refusal

/-! ### Reset values -/

/-- The kind of an entry after full reset, by its class (R1, R2). -/
def resetKind (e : Source) : Kind :=
  if e.val < 48 then .rising else if e.val < 63 then .posted else .notice

/-- The binding part after full reset (R3). -/
def resetBinding : Binding :=
  { head := none, runsLeft := 0, reload := none, deliver := .atLast, armed := false }

/-- The state part after full reset (R4). -/
def resetProgress : Progress :=
  { state := .idle, again := false, merged := 0, saturated := false, hold := false, disarmPending := false,
    outcome := none, offered := 0, held := 0, owed := none, decline := none }

/-- The entry Sn after full reset (R2, R3, R4, R22). -/
def resetEntry (e : Source) : Entry :=
  { cfg := { kind := resetKind e, level := 0, policy := .directed, targets := 1, enable := false },
    bind := resetBinding, prog := resetProgress }

/-- The Event Table after full reset (R22). -/
def resetEventTable : EventTable :=
  { entries := Vector.ofFn resetEntry, order := [] }

/-- A host context after full reset (R40). -/
def resetContext : HostContext :=
  { session := .detached, threshold := 0, stack := [], lapseCount := 0, lapseLimit := 3, timeout := 0,
    configRight := false, descRight := false }

/-- The Offer Unit after full reset (R62). -/
def resetOfferUnit : OfferUnit :=
  { slots := Vector.replicate 4 { offer := none, timer := none }, rotation := 3, views := Vector.replicate 4 [] }

/-- A descriptor after full reset (R122). -/
def resetDescriptor : Descriptor :=
  { valid := false, owner := none, src := 0, dst := 0, unitSize := 0, srcStep := .unset, dstStep := .unset,
    runLength := 0, link := none, active := false, faulted := false }

/-- A channel after full reset, and after its release (R135, R137). -/
def resetChannel : Channel :=
  { running := false, entry := none, position := .nowhere, completed := 0, units := 0, phase := .idle,
    cutMark := false, reported := false }

/-- The Delegation Unit after full reset (R122, R134, R135, R136). -/
def resetDelegationUnit : DelegationUnit :=
  { list := [], channels := Vector.replicate 2 resetChannel, lastGrant := 1,
    descs := Vector.replicate 128 resetDescriptor }

/-- The Memory Port after full reset (R143). -/
def resetMemoryPort : MemoryPort :=
  { grant := none, access := none, heldData := none, alternation := 1, tagCounter := 0 }

/-- A window after full reset (R149). -/
def resetWindow : Window := { base := 0, count := 1, access := .none, written := false }

/-- A port after full reset and after host reset of its host (R168). -/
def resetPort : Port :=
  { working := false, result := .none, echo := 0, lost := false, stage := Vector.replicate 8 0,
    pendingDisarm := none, waiting := none }

/-- No claim handed on: full reset abandons every event and run (R22, log 1). -/
def resetClaims : Claims :=
  { takes := Vector.replicate 4 none, lapses := Vector.replicate 4 .none, handed := Vector.replicate 4 [],
    undos := Vector.replicate 4 none, notices := [], levels := [], inserts := [], cuts := [],
    writes := Vector.replicate 2 [], reports := Vector.replicate 2 none, releases := Vector.replicate 2 none }

/-- Every block at its full-reset values (R22, R39, R40, R62, R133, R148, R149, R161, R168), with what full reset does not
set given as operands: the sampled lines, the supervisor, the pins, the CLKSEL strap, the draws and the queue. -/
def resetBlocks (lines : BitVec 48) (supervisor : HostId) (pins : Pins) (clksel : BitVec 2) (freeCount : Nat)
    (pending : List Instr) : State :=
  { lines := lines
    et := resetEventTable
    hcu := { ctx := Vector.replicate 4 resetContext, supervisor := supervisor }
    ou := resetOfferUnit
    du := resetDelegationUnit
    mp := resetMemoryPort
    wt := Vector.replicate 4 (Vector.replicate 8 resetWindow)
    nq := { records := [], overflow := 0 }
    ports := Vector.replicate 4 resetPort
    tb := { micros := 0, clksel := clksel }
    pins := pins
    claims := resetClaims
    freeCount := freeCount
    pending := pending }

/-- The machine right after reset: RESET_n just released with the straps and lines of Config (log 17). -/
def State.reset : State :=
  resetBlocks Config.linesAtReset Config.supervisorAtReset { resetLow := false, hrst := 0 } Config.clkselAtReset 0 []

end Sys2Proof.Machine
end

