-- ==== Sys2Proof/Machine/Ops.lean ====
section
/-! DEFINITION. The shared operations: host sets, access to the records of each block, the effective level, the port's answer, the
hand-over of notices and claims. -/

namespace Sys2Proof.Machine

/-! ### Host sets -/

/-- The four hosts, H0 first. -/
def allHosts : List HostId := [0, 1, 2, 3]

/-- Is h a member? -/
def hasHost (hs : HostSet) (h : HostId) : Bool := hs.getLsbD h.val

/-- The set with h in it. -/
def addHost (hs : HostSet) (h : HostId) : HostSet := hs ||| (1#4 <<< h.val)

/-- The set without h. -/
def dropHost (hs : HostSet) (h : HostId) : HostSet := hs &&& ~~~(1#4 <<< h.val)

/-- Does the second set contain every host of the first? -/
def hostsWithin (as bs : HostSet) : Bool := as &&& bs == as

/-- Does the set hold exactly one host? -/
def isOneHost (hs : HostSet) : Bool := (allHosts.filter (hasHost hs)).length == 1

/-- The set of the hosts that pass a test. -/
def hostsWhere (p : HostId → Bool) : HostSet :=
  allHosts.foldr (fun h acc => if p h then addHost acc h else acc) 0

/-! ### Access to the records -/

/-- The Event Table entry of a source (R1). -/
def State.entry (s : State) (e : Source) : Entry := look s.et.entries e

/-- The configuration part of an entry (R2). -/
def State.cfg (s : State) (e : Source) : EntryConfig := (s.entry e).cfg

/-- The binding part of an entry (R3). -/
def State.bind (s : State) (e : Source) : Binding := (s.entry e).bind

/-- The state part of an entry (R4). -/
def State.prog (s : State) (e : Source) : Progress := (s.entry e).prog

/-- The context of a host (R40). -/
def State.ctx (s : State) (h : HostId) : HostContext := look s.hcu.ctx h

/-- The offer slot of a host (R62). -/
def State.slot (s : State) (h : HostId) : Slot := look s.ou.slots h

/-- The Offer Unit's view of a host's stack (R63). -/
def State.viewOf (s : State) (h : HostId) : List StackRecord := look s.ou.views h

/-- A channel record (R135). -/
def State.channel (s : State) (c : ChannelId) : Channel := look s.du.channels c

/-- A descriptor (R122). -/
def State.desc (s : State) (d : DescId) : Descriptor := look s.du.descs d

/-- A host's port (R168). -/
def State.port (s : State) (h : HostId) : Port := look s.ports h

/-- The eight windows of a host (R149). -/
def State.windows (s : State) (h : HostId) : Table Window 8 := look s.wt h

/-- Replace an entry. -/
def State.setEntry (s : State) (e : Source) (x : Entry) : State :=
  { s with et := { s.et with entries := put s.et.entries e x } }

/-- Replace the configuration part of an entry. -/
def State.setCfg (s : State) (e : Source) (c : EntryConfig) : State := s.setEntry e { s.entry e with cfg := c }

/-- Replace the binding part of an entry. -/
def State.setBind (s : State) (e : Source) (b : Binding) : State := s.setEntry e { s.entry e with bind := b }

/-- Replace the state part of an entry. -/
def State.setProg (s : State) (e : Source) (p : Progress) : State := s.setEntry e { s.entry e with prog := p }

/-- Replace the arrival order list. -/
def State.setOrder (s : State) (l : List Source) : State := { s with et := { s.et with order := l } }

/-- Replace a host context. -/
def State.setCtx (s : State) (h : HostId) (c : HostContext) : State :=
  { s with hcu := { s.hcu with ctx := put s.hcu.ctx h c } }

/-- Replace an offer slot. -/
def State.setSlot (s : State) (h : HostId) (x : Slot) : State :=
  { s with ou := { s.ou with slots := put s.ou.slots h x } }

/-- Replace the Offer Unit's view of a host's stack. -/
def State.setView (s : State) (h : HostId) (l : List StackRecord) : State :=
  { s with ou := { s.ou with views := put s.ou.views h l } }

/-- Replace a channel record. -/
def State.setChannel (s : State) (c : ChannelId) (x : Channel) : State :=
  { s with du := { s.du with channels := put s.du.channels c x } }

/-- Replace a descriptor. -/
def State.setDesc (s : State) (d : DescId) (x : Descriptor) : State :=
  { s with du := { s.du with descs := put s.du.descs d x } }

/-- Replace a port. -/
def State.setPort (s : State) (h : HostId) (p : Port) : State := { s with ports := put s.ports h p }

/-- Replace the windows of a host. -/
def State.setWindows (s : State) (h : HostId) (w : Table Window 8) : State := { s with wt := put s.wt h w }

/-- Replace the claims handed to the Event Table for a host. -/
def State.setHanded (s : State) (h : HostId) (l : List Handed) : State :=
  { s with claims := { s.claims with handed := put s.claims.handed h l } }

/-- The claims handed to the Event Table for a host. -/
def State.handedOf (s : State) (h : HostId) : List Handed := look s.claims.handed h

/-- Replace the matched take of a host. -/
def State.setTake (s : State) (h : HostId) (t : Option TakeClaim) : State :=
  { s with claims := { s.claims with takes := put s.claims.takes h t } }

/-- The matched take of a host that has not been pushed. -/
def State.takeOf (s : State) (h : HostId) : Option TakeClaim := look s.claims.takes h

/-- Replace the lapse report or answer of a host. -/
def State.setLapse (s : State) (h : HostId) (l : LapseClaim) : State :=
  { s with claims := { s.claims with lapses := put s.claims.lapses h l } }

/-- The lapse report or answer of a host. -/
def State.lapseOf (s : State) (h : HostId) : LapseClaim := look s.claims.lapses h

/-- A session change is taken before the report, if one is outstanding (R76). -/
def LapseClaim.overtake : LapseClaim → LapseClaim
  | .reported => .overtaken
  | x => x

/-- Replace the record a host's cleared take has to have removed. -/
def State.setUndo (s : State) (h : HostId) (e : Option Source) : State :=
  { s with claims := { s.claims with undos := put s.claims.undos h e } }

/-- The record a host's cleared take has to have removed. -/
def State.undoOf (s : State) (h : HostId) : Option Source := look s.claims.undos h

/-! ### Hosts -/

/-- The effective level that a threshold and a stack give: the greater of the threshold and the top record's level (R43). -/
def levelOver (threshold : Level) (stack : List StackRecord) : Level :=
  match stack.getLast? with
  | none => threshold
  | some r => max threshold r.level

/-- The effective level of a host (R43). -/
def effectiveLevel (c : HostContext) : Level := levelOver c.threshold c.stack

/-- The effective level of a host in a state (R43). -/
def State.level (s : State) (h : HostId) : Level := effectiveLevel (s.ctx h)

/-- The effective level by which the Offer Unit judges: that of its view of the stack (R43, R63). -/
def State.viewLevel (s : State) (h : HostId) : Level := levelOver (s.ctx h).threshold (s.viewOf h)

/-- The hosts whose session is ATTACHED. -/
def State.attachedHosts (s : State) : HostSet := hostsWhere fun h => (s.ctx h).session == .attached

/-- Does the stack hold a record of the source? -/
def holdsRecord (c : HostContext) (e : Source) : Bool := c.stack.any fun r => r.source == e

/-- The context with the record of a source removed; the records above it move down in order (R86). A stack holds no source
twice (R82). -/
def dropRecord (c : HostContext) (e : Source) : HostContext :=
  { c with stack := c.stack.filter fun r => r.source != e }

/-- The right a request needs (R173). -/
inductive Right
  | none | config | desc | supervisor
deriving DecidableEq, Repr

/-- Does the host hold the right (R49)? The supervisor holds every right. -/
def State.holdsRight (s : State) (h : HostId) (r : Right) : Bool :=
  match r with
  | .none => true
  | .config => (s.ctx h).configRight || s.hcu.supervisor == h
  | .desc => (s.ctx h).descRight || s.hcu.supervisor == h
  | .supervisor => s.hcu.supervisor == h

/-! ### Ports -/

/-- The port writes an answer: result code and echoed request code (R170). -/
def State.answer (s : State) (h : HostId) (code : Operand) (r : ResultCode) : State :=
  s.setPort h { s.port h with result := r, echo := code }

/-- The port answers OK and writes a record to its staging words (R170, R179). -/
def State.answerRecord (s : State) (h : HostId) (code : Operand) (words : Table Word 8) : State :=
  s.setPort h { s.port h with result := .ok, echo := code, stage := words }

/-- A write to REQUEST of port h with one of the codes 1 to 26 or an unknown one (R170, R171, R175): ignored while RESET_n or
the host's HRST_n is low (R59, R168); lost while the port is WORKING; otherwise taken, with the lost flag cleared, the right
checked, then the session, and then handed on. A port whose last write is still unanswered on the bus has none (log 10). The checks
and the owning block's claim are one step, with no claim between them (R176, log 38). -/
def request (h : HostId) (code : Operand) (right : Right) (needsSession : Bool) (body : State → State) (s : State) :
    Result :=
  if s.pins.resetLow || hasHost s.pins.hrst h then .next s
  else if (s.port h).working then .next (s.setPort h { s.port h with lost := true })
  else if (s.port h).waiting.isSome then .refused .busHeld
  else
    let t := s.setPort h { s.port h with lost := false }
    .next <|
      if !t.holdsRight h right then t.answer h code .rights
      else if needsSession && (t.ctx h).session == .detached then t.answer h code .detached
      else body t

/-- Check 4 of R171 for an operand that indexes one of n objects: RANGE, or the object. -/
def withIndex (n : Nat) (h : HostId) (code : Operand) (x : Operand) (body : Fin n → State → State) (s : State) : State :=
  if hx : x.toNat < n then body ⟨x.toNat, hx⟩ s else s.answer h code .range

/-! ### Notices -/

/-- The Notice Queue places or drops a record (R162); whether this asserts S63's level is the caller's to present. -/
def NoticeQueue.append (q : NoticeQueue) (n : Notice) : NoticeQueue :=
  if q.records.length < Config.noticeDepth then { q with records := q.records ++ [n] }
  else { q with overflow := if q.overflow = 255 then 255 else q.overflow + 1 }

/-- The Notice Queue takes one append and presents S63's assertion if the queue was empty (R162, R167). -/
def State.takeAppend (s : State) (n : Notice) : State :=
  { s with
    nq := s.nq.append n
    claims := if s.nq.records.isEmpty then { s.claims with levels := s.claims.levels ++ [true] } else s.claims }

/-- Is it the sequence of a host? -/
def isHostSequence : Origin → Bool
  | .host _ => true
  | _ => false

/-- The sequence in which the Event Table's next notice about entry e is handed on: behind the last notice about e that still waits
in a host's sequence, so that a SKIPPED comes before what the same claim appends next (R111); else e's own. That it then keeps its place
among that host's later notices too is the model's choice (log 12). -/
def State.sequenceOf (s : State) (e : Source) : Origin :=
  match s.claims.notices.reverse.find? (fun x => x.2.source == some e && isHostSequence x.1) with
  | some x => x.1
  | none => .entry e

/-- A block hands a notice to the Notice Queue (R163). -/
def State.handNotice (s : State) (o : Origin) (n : Notice) : State :=
  { s with claims := { s.claims with notices := s.claims.notices ++ [(o, n)] } }

/-- The Notice Queue takes every notice handed to it for one origin, oldest first. -/
def State.flushNotices (s : State) (o : Origin) : State :=
  let mine := s.claims.notices.filter fun x => x.1 == o
  let rest := s.claims.notices.filter fun x => x.1 != o
  (mine.map Prod.snd).foldl State.takeAppend { s with claims := { s.claims with notices := rest } }

/-- A claim on entry e appends a notice. On S63 the append and the assertion are part of the claim (R32, R167), after the
notices of the same sequence (R163, log 12); on any other entry the notice is handed on. -/
def State.noteOn (s : State) (e : Source) (o : Origin) (n : Notice) : State :=
  if e = 63 then
    let t := s.flushNotices o
    { t with nq := t.nq.append n }
  else s.handNotice o n

/-- A delivery notice (R160): source and host as given, descriptor and address absent. -/
def deliveryNotice (k : NoticeKind) (e : Option Source) (h : Option HostId) : Notice :=
  { kind := k, source := e, host := h, desc := none, addr := none }

/-! ### Claims handed to the Event Table -/

/-- The source a handed claim names. -/
def Handed.source : Handed → Source
  | .hold e _ => e
  | .finish e => e
  | .release e _ => e
  | .withdraw e => e
  | .stackRelease e => e
  | .depart e => e

/-- Is it one of the claims that R46 hands on in order? -/
def Handed.isGiveBack : Handed → Bool
  | .withdraw _ => true
  | .stackRelease _ => true
  | .depart _ => true
  | _ => false

/-- Is it a hold? -/
def Handed.isHold : Handed → Bool
  | .hold .. => true
  | _ => false

/-- Must the earlier of two claims handed for one host be taken before the later? Claims on one entry keep their order, a hold comes
before what is handed after it (R84), and the claims of one session end keep theirs (R46, R54). Withdrawals, releases of a
whole stack and departures of different claims keep theirs too, an earlier SET_THRESHOLD's withdrawal or a lapse's departure
before what a later DETACH hands on, which is the model's choice (log 2). -/
def Handed.before (first later : Handed) : Bool :=
  first.source == later.source || (first.isGiveBack && later.isGiveBack) || first.isHold

/-- The first claim that passes the test, with the list without it, unless a claim before it must be taken first. -/
def pickHanded (p : Handed → Bool) : List Handed → List Handed → Option (Handed × List Handed)
  | _, [] => none
  | seen, x :: xs =>
    if p x then (if seen.any (fun y => y.before x) then none else some (x, seen.reverse ++ xs))
    else pickHanded p (x :: seen) xs

/-- Take a handed claim of host h that passes the test: what it is, and the state without it. -/
def State.takeHanded (s : State) (h : HostId) (p : Handed → Bool) : Option (Handed × State) :=
  (pickHanded p [] (s.handedOf h)).map fun x => (x.1, s.setHanded h x.2)

/-- Hand claims to the Event Table for a host, after those already handed. -/
def State.hand (s : State) (h : HostId) (xs : List Handed) : State := s.setHanded h (s.handedOf h ++ xs)

/-- The 64 sources in ascending order. -/
def allSources : List Source := List.finRange 64

end Sys2Proof.Machine
end

