-- ==== Sys2Proof/Machine/OfferUnit.lean ====
section
/-! DEFINITION. The Offer Unit's choices (chapter 4) and the ANY arbiter (section 6.3.2). -/

namespace Sys2Proof.Machine

/-- The eligibility of entry e for host h (R64), with the effective level and the stack that the Offer Unit's view has (R63). -/
def State.eligible (s : State) (e : Source) (h : HostId) : Bool :=
  let x := s.entry e
  x.prog.state == .delivering && decide (s.viewLevel h < x.cfg.level) && (s.ctx h).session == .attached &&
    decide ((s.viewOf h).length < Config.stackDepth) &&
    match x.cfg.policy with
    | .directed => hasHost x.cfg.targets h && x.prog.held == 0
    | .any => hasHost x.cfg.targets h && !hasHost (x.prog.decline.getD 0) h && x.prog.held == 0 &&
        dropHost x.prog.offered h == 0
    | .all => hasHost (x.prog.owed.getD 0) h && !hasHost x.prog.held h

/-- The Offer Unit makes no choice for h from a matched TAKE to its push (R77), nor while a lapse report is outstanding
(R75). -/
def State.choiceWaits (s : State) (h : HostId) : Bool :=
  (s.takeOf h).isSome || s.lapseOf h != .none

/-- The member of highest level among those that pass the test, nearest the head of the list at equal level (R17, R66). -/
def bestOf (p : Source → Bool) (level : Source → Level) : List Source → Option Source
  | [] => none
  | e :: es =>
    match bestOf p level es with
    | none => if p e then some e else none
    | some b => if p e && decide (level b ≤ level e) then some e else some b

/-- The entry that a choice would place in h's slot (R67, R69): the best entry, if the slot is empty or the standing offer's
level is below it. `displaced` are the entries replaced in this same claim, which are considered when the claim is over (R69). -/
def State.wanted (s : State) (displaced : List Source) (h : HostId) : Option Source :=
  match bestOf (fun e => s.eligible e h && !displaced.contains e) (fun e => (s.cfg e).level) s.et.order with
  | none => none
  | some b =>
    match (s.slot h).offer with
    | none => some b
    | some o => if o.level < (s.cfg b).level then some b else none

/-- The rotation order: it starts at the host after the one the pointer names (R103). -/
def rotationFrom (pointer : HostId) : List HostId := [pointer + 1, pointer + 2, pointer + 3, pointer]

/-- The ANY arbiter's three steps over the candidates (R103). -/
def State.arbitrate (s : State) (candidates : List HostId) : Option HostId :=
  let empties := candidates.filter fun h => (s.slot h).offer.isNone
  let first := if empties.isEmpty then candidates else empties
  let lowest := first.filter fun h => first.all fun k => decide (s.viewLevel h ≤ s.viewLevel k)
  (rotationFrom s.ou.rotation).find? fun h => lowest.contains h

/-- The timer an offer to the host starts: stopped at setting 0, else N * 16 us from now (R74). -/
def State.newTimer (s : State) (h : HostId) : Option Nat :=
  let n := (s.ctx h).timeout.val
  if n = 0 then none else some (s.tb.micros + n * Config.offerUnit)

/-- The offer of an entry as a slot holds it (R62). -/
def State.offerOf (s : State) (e : Source) : Offer :=
  { source := e, level := (s.cfg e).level, policy := (s.cfg e).policy, outcome := (s.prog e).outcome.getD .plain }

/-- The Event Table is told that h leaves e's offered set. -/
def State.leaveOffered (s : State) (e : Source) (h : HostId) : State :=
  s.setProg e { s.prog e with offered := dropHost (s.prog e).offered h }

/-- Make an offer of b to h, or replace h's standing offer by it (R67, R69): the displaced entry, and the state. A withdrawal
of the same offer that the Event Table has yet to take is taken with it (log 6). -/
def State.placeOffer (s : State) (b : Source) (h : HostId) : Option Source × State :=
  let old := (s.slot h).offer
  let s1 := match old with
    | none => s
    | some o => s.leaveOffered o.source h
  let s2 := s1.setSlot h { offer := some (s1.offerOf b), timer := s1.newTimer h }
  let s3 := s2.setHanded h ((s2.handedOf h).filter fun x => x != .withdraw b)
  (old.map Offer.source, s3.setProg b { s3.prog b with offered := addHost (s3.prog b).offered h })

/-- One claim at the Offer Unit that makes choices for several hosts (R67, R68, R104): each open host's choice is settled, an
ANY entry best for several of them by the arbiter. Of groups with different best entries the one of the first open host is
settled first (log 32). Each round closes one host's choice, so as many rounds as hosts are enough. Answers the entries
displaced. -/
def settle : Nat → List HostId → List Source → State → List Source × State
  | 0, _, displaced, s => (displaced, s)
  | _ + 1, [], displaced, s => (displaced, s)
  | n + 1, h :: open', displaced, s =>
    match s.wanted displaced h with
    | none => settle n open' displaced s
    | some b =>
      let group := if (s.cfg b).policy == .any
        then (h :: open').filter fun k => s.wanted displaced k == some b else [h]
      let winner := (s.arbitrate group).getD h
      let (old, t) := s.placeOffer b winner
      settle n ((h :: open').erase winner) (displaced ++ old.toList) t

/-- The hosts for which news of entry e starts a choice (R67): those it is eligible for, less those whose choice waits. -/
def State.hostsFor (s : State) (e : Source) : List HostId :=
  allHosts.filter fun h => s.eligible e h && !s.choiceWaits h

/-- The Offer Unit takes the news that entries have become unoffered or entered DELIVERING (R67), one after another, with the
news of each entry displaced on the way (R69). Every replacement raises a slot's level, so the rounds are bounded. -/
def newsLoop : Nat → List Source → State → State
  | 0, _, s => s
  | _ + 1, [], s => s
  | n + 1, e :: es, s =>
    let (displaced, t) := settle 4 (s.hostsFor e) [] s
    newsLoop n (es ++ displaced) t

/-- Rounds enough for every chain of replacements: four slots of fifteen levels, and the first news. -/
def newsRounds : Nat := 65

/-- Only entries, slots and withdrawals not yet taken are changed by offer choices. -/
def State.withOffers (s t : State) : State :=
  { s with et := t.et, ou := t.ou, claims := { s.claims with handed := t.claims.handed } }

/-- The news that entry e stands unoffered (R11 step 4, R12, R67). -/
def State.offerNews (s : State) (e : Source) : State := s.withOffers (newsLoop newsRounds [e] s)

/-- The choice for one host (R67): its session, effective level or stack has changed, or its slot has been emptied. -/
def State.choose (s : State) (h : HostId) : State :=
  if s.choiceWaits h then s
  else
    let (displaced, t) := settle 4 [h] [] s
    s.withOffers (newsLoop newsRounds displaced t)

/-- Empty a slot and stop its timer, which deasserts INT_n[h] (R71, R73, R75, R77). -/
def State.emptySlot (s : State) (h : HostId) : State := s.setSlot h { offer := none, timer := none }

/-- Withdraw h's standing offer, if there is one (R73): the slot empties and the Event Table is handed the withdrawal. -/
def State.withdrawOffer (s : State) (h : HostId) : State :=
  match (s.slot h).offer with
  | none => s
  | some o => (s.emptySlot h).hand h [.withdraw o.source]

end Sys2Proof.Machine
end

