-- ==== Sys2Proof/Machine/EventTable.lean ====
section
/-! DEFINITION. The entry state machine (chapters 1, 2 and 6): arrivals, latching, delivery, completion, declines. -/

namespace Sys2Proof.Machine

/-- Is it a level kind (R26)? -/
def Kind.isLevel : Kind → Bool
  | .levelHigh => true
  | .levelLow => true
  | .notice => true
  | _ => false

/-- Is the entry's level asserted (R26)? The edge kinds have none. -/
def State.levelAsserted (s : State) (e : Source) : Bool :=
  match (s.cfg e).kind with
  | .levelHigh => s.lines.getLsbD e.val
  | .levelLow => !s.lines.getLsbD e.val
  | .notice => !s.nq.records.isEmpty
  | _ => false

/-- The state part of an entry that returns to IDLE (R14, R20): outcome dropped, sets emptied or dropped. -/
def Progress.toIdle (p : Progress) : Progress :=
  { p with state := .idle, outcome := none, offered := 0, held := 0, owed := none, decline := none }

/-- The entry returns to IDLE and leaves the arrival order list (R14, R16). -/
def State.toIdle (s : State) (e : Source) : State :=
  (s.setProg e (s.prog e).toIdle).setOrder (s.et.order.erase e)

/-- An arrival latches an IDLE entry at the tail of the arrival order list (R7, R16). -/
def State.latch (s : State) (e : Source) : State :=
  (s.setProg e { s.prog e with state := .latched }).setOrder (s.et.order ++ [e])

/-- The entry becomes QUEUED and is handed to the Delegation Unit (R8). -/
def State.enqueue (s : State) (e : Source) : State :=
  let t := s.setProg e { s.prog e with state := .queued }
  { t with claims := { t.claims with inserts := t.claims.inserts ++ [e] } }

/-- The entry becomes DELIVERING with an outcome, its host sets not yet formed (R6, R11). -/
def State.startDelivery (s : State) (e : Source) (o : Outcome) : State :=
  s.setProg e { s.prog e with state := .delivering, outcome := some o, offered := 0, held := 0, owed := none,
                              decline := none }

/-! ### The Event Table's part of a claim

Each operation here answers the state that the Event Table leaves and whether the Offer Unit is to have the news that the entry stands
unoffered (R67 rows 1 and 2). Most claims have the news taken at once (`tell`); after FINISH and RELEASE the choice for the host comes
before it (R87). -/

/-- The transition into DELIVERING (R11), with the immediate completion of steps 1 and 2 and what follows it (R15, R28). An
immediate completion with the again flag set goes round once more; the flag is then clear, so `rounds` 1 is enough. -/
def deliver (rounds : Nat) (o : Outcome) (e : Source) (s : State) : State × Bool :=
  let s1 := s.startDelivery e o
  let completeAtOnce (t : State) : State × Bool :=
    let t1 := t.toIdle e
    if (t1.prog e).again then
      let t2 := (t1.setProg e { t1.prog e with again := false }).latch e
      if (t2.cfg e).enable && !(t2.prog e).hold then
        if (t2.bind e).armed then (t2.enqueue e, false)
        else match rounds with
          | 0 => (t2, false)
          | n + 1 => deliver n .plain e t2
      else (t2, false)
    else if (t1.cfg e).kind.isLevel && t1.levelAsserted e then
      let t2 := t1.latch e
      (t2.setProg e { t2.prog e with hold := true }, false)
    else (t1, false)
  if (s1.cfg e).level = 0 then completeAtOnce s1
  else match (s1.cfg e).policy with
    | .directed => (s1, true)
    | .any => (s1.setProg e { s1.prog e with decline := some 0 }, true)
    | .all =>
      let owed := (s1.cfg e).targets &&& s1.attachedHosts
      if owed = 0 then completeAtOnce (s1.noteOn e (s1.sequenceOf e) (deliveryNotice .undelivered (some e) none))
      else (s1.setProg e { s1.prog e with owed := some owed }, true)

/-- The entry leaves LATCHED: QUEUED if its binding is armed, else DELIVERING with PLAIN (R8). -/
def State.leaveLatchedPart (s : State) (e : Source) : State × Bool :=
  if (s.bind e).armed then (s.enqueue e, false) else deliver 1 .plain e s

/-- The entry latches and, with enable set and no level hold mark, leaves LATCHED in the same claim (R7, R35). -/
def State.latchAndGoPart (s : State) (e : Source) : State × Bool :=
  let t := s.latch e
  if (t.cfg e).enable && !(t.prog e).hold then t.leaveLatchedPart e else (t, false)

/-- Completion that is not immediate, and the re-latch that may follow it (R14, R15). -/
def State.completePart (s : State) (e : Source) : State × Bool :=
  let t := s.toIdle e
  if (t.prog e).again then (t.setProg e { t.prog e with again := false }).latchAndGoPart e
  else if (t.cfg e).kind.isLevel && t.levelAsserted e then t.latchAndGoPart e
  else (t, false)

/-- Host h declines an ANY entry it held or was offered (R102), and the parking test follows (R106): the entry parks with a
PARKED notice, or stands unoffered. -/
def State.declinePart (s : State) (e : Source) (h : HostId) : State × Bool :=
  let p := s.prog e
  let d := addHost (p.decline.getD 0) h
  let q := { p with offered := dropHost p.offered h, held := dropHost p.held h, decline := some d }
  if hostsWithin (s.cfg e).targets d then
    ((s.setProg e { q with state := .parked, offered := 0, held := 0 }).noteOn e (.host h)
      (deliveryNotice .parked (some e) (some h)), false)
  else (s.setProg e q, true)

/-- Host h leaves an ALL entry's owed set by a cause other than FINISH: a SKIPPED notice, and completion if the set is then
empty (R111). It leaves the offered and held sets first (R109). -/
def State.skipPart (s : State) (e : Source) (h : HostId) : State × Bool :=
  let p := s.prog e
  let o := dropHost (p.owed.getD 0) h
  let t := (s.setProg e { p with offered := dropHost p.offered h, held := dropHost p.held h, owed := some o }).noteOn e
    (.host h) (deliveryNotice .skipped (some e) (some h))
  if o = 0 then t.completePart e else (t, false)

/-- The Event Table takes host h's FINISH of an entry it holds (R87). -/
def State.finishPart (s : State) (e : Source) (h : HostId) : State × Bool :=
  let p := s.prog e
  if p.state = .delivering && hasHost p.held h then
    match (s.cfg e).policy with
    | .all =>
      let o := dropHost (p.owed.getD 0) h
      let t := s.setProg e { p with held := dropHost p.held h, owed := some o }
      if o = 0 then t.completePart e else (t, false)
    | _ => (s.setProg e { p with held := dropHost p.held h }).completePart e
  else (s, false)

/-- The Event Table takes a release by host h of an entry it holds, with the meaning of the entry's policy (R89). `skips` says
that an ALL part is given up, which is so for a LAPSED host's RELEASE (R55) and not in a whole-stack give-back (R91). -/
def State.releasePart (s : State) (e : Source) (h : HostId) (skips : Bool) : State × Bool :=
  let p := s.prog e
  if p.state = .delivering && hasHost p.held h then
    match (s.cfg e).policy with
    | .directed => (s.setProg e { p with held := dropHost p.held h }, true)
    | .any => s.declinePart e h
    | .all => if skips then s.skipPart e h else (s.setProg e { p with held := dropHost p.held h }, true)
  else (s, false)

/-! ### With the news taken -/

/-- The Offer Unit takes the news of entry e, if there is any, in the same claim (R67). -/
def tell (e : Source) (x : State × Bool) : State := if x.2 then x.1.offerNews e else x.1

/-- The entry enters DELIVERING (R11). -/
def State.enterDelivering (s : State) (e : Source) (o : Outcome) : State := tell e (deliver 1 o e s)

/-- The entry leaves LATCHED (R8). -/
def State.leaveLatched (s : State) (e : Source) : State := tell e (s.leaveLatchedPart e)

/-- The entry latches and may leave LATCHED in the same claim (R7, R35). -/
def State.latchAndGo (s : State) (e : Source) : State := tell e (s.latchAndGoPart e)

/-- The entry completes, and may latch again (R14, R15). -/
def State.complete (s : State) (e : Source) : State := tell e (s.completePart e)

/-- An arrival at an entry that is not IDLE sets the again flag or is counted as merged (R33, R34). -/
def State.merge (s : State) (e : Source) : State :=
  let p := s.prog e
  if !p.again then s.setProg e { p with again := true }
  else if p.merged = 255 then s
  else
    let m := p.merged + 1
    if m = 255 && !p.saturated then
      (s.setProg e { p with merged := m, saturated := true }).noteOn e (s.sequenceOf e)
        (deliveryNotice .mergeSaturated (some e) none)
    else s.setProg e { p with merged := m }

/-- The Event Table takes an arrival at an entry (R7, R33). -/
def State.arrive (s : State) (e : Source) : State :=
  if (s.prog e).state = .idle then s.latchAndGo e else s.merge e

/-- The entry's level is asserted: an arrival at an IDLE entry, and nothing at any other (R26, R31). -/
def State.assertLevel (s : State) (e : Source) : State :=
  if (s.prog e).state = .idle then s.latchAndGo e else s

/-- The entry's level is deasserted: the level hold mark is cleared, and with enable set the entry leaves LATCHED (R27, R28,
R35). Without the mark nothing changes. -/
def State.deassertLevel (s : State) (e : Source) : State :=
  if (s.prog e).hold then
    let t := s.setProg e { s.prog e with hold := false }
    if (t.prog e).state = .latched && (t.cfg e).enable then t.leaveLatched e else t
  else s

/-- A line change judged by the entry's kind and state (R24, R25, R26, R28). -/
def State.judgeLine (s : State) (e : Source) (high : Bool) : State :=
  match (s.cfg e).kind with
  | .rising => if high then s.arrive e else s
  | .falling => if high then s else s.arrive e
  | .both => s.arrive e
  | .levelHigh => if high then s.assertLevel e else s.deassertLevel e
  | .levelLow => if high then s.deassertLevel e else s.assertLevel e
  | .posted => s
  | .notice => s

/-- Host h declines an ANY entry it held or was offered (R102, R106). -/
def State.declineBy (s : State) (e : Source) (h : HostId) : State := tell e (s.declinePart e h)

/-- The Event Table takes a release by host h whose session is over (R91), so that no choice for h follows. -/
def State.releaseAt (s : State) (e : Source) (h : HostId) : State := tell e (s.releasePart e h false)

/-- The Event Table takes the news that host h's offer of an entry is withdrawn (R73): a host in none of the entry's sets
changes nothing (R85). -/
def State.withdrawAt (s : State) (e : Source) (h : HostId) : State :=
  if (s.prog e).state = .delivering && hasHost (s.prog e).offered h then (s.leaveOffered e h).offerNews e else s

/-- The Event Table takes host h's departure from an owed set (R111); a host that no longer owes changes nothing. -/
def State.departAt (s : State) (e : Source) (h : HostId) : State :=
  if (s.prog e).state = .delivering && hasHost ((s.prog e).owed.getD 0) h then tell e (s.skipPart e h) else s

end Sys2Proof.Machine
end

