-- ==== Sys2Proof/Machine/Flags.lean ====
section
/-! DEFINITION. The codes of the register layouts, the views that the part assembles at each read, and the signals it drives
(chapter 12). -/

namespace Sys2Proof.Machine

/-! ### Codes (R177, R179) -/

def ResultCode.code : ResultCode → Nat
  | .none => 0 | .ok => 1 | .empty => 2 | .stale => 3 | .busy => 4
  | .state => 5 | .rights => 6 | .range => 7 | .detached => 8 | .unknown => 9

def Kind.code : Kind → Nat
  | .levelHigh => 1 | .levelLow => 2 | .rising => 3 | .falling => 4 | .both => 5 | .posted => 6 | .notice => 7

def Kind.ofCode : Nat → Option Kind
  | 1 => some .levelHigh | 2 => some .levelLow | 3 => some .rising | 4 => some .falling | 5 => some .both
  | 6 => some .posted | 7 => some .notice | _ => none

def Policy.code : Policy → Nat
  | .directed => 1 | .any => 2 | .all => 3

def Policy.ofCode : Nat → Option Policy
  | 1 => some .directed | 2 => some .any | 3 => some .all | _ => none

def Deliver.code : Deliver → Nat
  | .atLast => 1 | .eachRun => 2 | .quiet => 3

def Deliver.ofCode : Nat → Option Deliver
  | 1 => some .atLast | 2 => some .eachRun | 3 => some .quiet | _ => none

def AddrStep.code : AddrStep → Nat
  | .unset => 0 | .inc => 1 | .dec => 2 | .fixed => 3

/-- A staged step: 0 is no step (R123). -/
def AddrStep.ofCode : Nat → Option AddrStep
  | 1 => some .inc | 2 => some .dec | 3 => some .fixed | _ => none

def WindowAccess.code : WindowAccess → Nat
  | .none => 1 | .read => 2 | .readWrite => 3

def WindowAccess.ofCode : Nat → Option WindowAccess
  | 1 => some .none | 2 => some .read | 3 => some .readWrite | _ => Option.none

def Outcome.code : Outcome → Nat
  | .plain => 1 | .ran => 2 | .ranLast => 3 | .failed => 4 | .cut => 5

/-- The outcome field, 0 when absent (R177). -/
def outcomeCode : Option Outcome → Nat
  | none => 0
  | some o => o.code

def EntryState.code : EntryState → Nat
  | .idle => 0 | .latched => 1 | .queued => 2 | .running => 3 | .delivering => 4 | .parked => 5

def Session.code : Session → Nat
  | .detached => 0 | .attached => 1 | .lapsed => 2

def NoticeKind.code : NoticeKind → Nat
  | .windowRead => 1 | .windowWrite => 2 | .memError => 3 | .memTimeout => 4 | .descBad => 5 | .chainLong => 6
  | .lapsed => 7 | .evicted => 8 | .skipped => 9 | .undelivered => 10 | .parked => 11 | .mergeSaturated => 12

/-! ### Views -/

/-- The fields of PORT_STATUS as bit positions and values (R178). -/
def State.statusFields (s : State) (h : HostId) : List (Nat × Nat) :=
  let c := s.ctx h
  [(0, c.session.code), (4, (s.level h).val), (8, c.stack.length), (12, c.lapseCount.val), (16, bit c.configRight),
   (17, bit c.descRight), (18, bit (s.hcu.supervisor == h))]

/-- PORT_STATUS of port h (R178). -/
def State.portStatus (s : State) (h : HostId) : Word := packWord (s.statusFields h)

/-- The OFFER view of port h: 0 in every field while the slot is empty (R72, R178). -/
def State.offerView (s : State) (h : HostId) : Word :=
  match (s.slot h).offer with
  | none => 0
  | some o => packWord [(0, 1), (8, o.source.val), (16, o.level.val), (20, o.outcome.code), (24, o.policy.code)]

/-- RESULT of port h (R177). -/
def State.resultWord (s : State) (h : HostId) : Word :=
  let p := s.port h
  packWord [(0, p.result.code), (8, p.echo.toNat), (16, bit p.working), (17, bit p.lost)]

/-- What a read of the word at `offset` of port h's window returns (R169, R177): word 1 RESULT, 2 the OFFER view, 3
PORT_STATUS, 8 to 15 the staging words, and 0 for REQUEST and for an offset not listed. A read changes nothing. -/
def readPort (s : State) (h : HostId) (offset : Fin 16) : Word :=
  if offset = 1 then s.resultWord h
  else if offset = 2 then s.offerView h
  else if offset = 3 then s.portStatus h
  else if hx : 8 ≤ offset.val then look (s.port h).stage ⟨offset.val - 8, by omega⟩
  else 0

/-- Is INT_n[h] asserted, that is low (R71)? -/
def State.intAsserted (s : State) (h : HostId) : Bool := (s.slot h).offer.isSome

/-- The INT_n[3:0] lines, active low (R71, R181). -/
def State.intLines (s : State) : BitVec 4 := ~~~(hostsWhere fun h => s.intAsserted h)

/-- The request the Memory Port drives on the memory master port: address, MSZ, MWR and MTAG of the outstanding access, and
MD for a write (R181); none while no access is outstanding. -/
def State.memoryRequest (s : State) : Option (Addr × BitVec 2 × Bool × BitVec 4 × Option Word) :=
  s.mp.access.map fun a =>
    (a.addr, (if a.size = 4 then 3 else if a.size = 2 then 2 else 1), a.isWrite, a.tag,
      if a.isWrite then s.mp.heldData else none)

end Sys2Proof.Machine
end

