-- ==== Sys2Proof/Machine/Operands.lean ====
section
/-! DEFINITION. The staging layouts (R179, R180): the records a request reads from the staging words, with the RANGE checks of
their owning rules, and the records a request returns. -/

namespace Sys2Proof.Machine

/-- A staging word of a port. -/
def stageWord (st : Table Word 8) (i : Fin 8) : Word := look st i

/-- The staging words that hold these words from STAGE0 on and 0 in the rest (R179). -/
def stageRecord (ws : List Word) : Table Word 8 :=
  Vector.ofFn fun i => (ws[i.val]?).getD 0

/-! ### Entries -/

/-- The kinds that the class of a source allows (R1). -/
def kindAllowed (e : Source) (k : Kind) : Bool :=
  if e.val < 48 then k != .posted && k != .notice
  else if e.val < 63 then k == .posted else k == .notice

/-- The entry configuration staged for WRITE_ENTRY, if it passes the checks of R18. -/
def stagedConfig (e : Source) (st : Table Word 8) : Option EntryConfig :=
  let w := stageWord st 0
  let targets : HostSet := BitVec.ofNat 4 (field w 12 4)
  match Kind.ofCode (field w 0 4), Policy.ofCode (field w 8 2) with
  | some k, some p =>
    if !kindAllowed e k then none
    else if targets = 0 then none
    else if p == .directed && !isOneHost targets then none
    else some { kind := k, level := Fin.ofNat 16 (field w 4 4), policy := p, targets := targets, enable := flag w 16 }
  | _, _ => none

/-- The staged head or link: an 8-bit value with a present bit. The outer none is a present index above 127 (R117, R123). -/
def stagedIndex (w : Word) : Option (Option DescId) :=
  if flag w 8 then
    if hx : field w 0 8 < 128 then some (some ⟨field w 0 8, hx⟩) else none
  else some none

/-- The binding staged for WRITE_BINDING, if it passes the checks of R117; its armed field is not staged. -/
def stagedBinding (st : Table Word 8) : Option Binding :=
  let w1 := stageWord st 1
  let w2 := stageWord st 2
  let reload := Fin.ofNat 65536 (field w1 16 16)
  match stagedIndex w2, Deliver.ofCode (field w2 12 2) with
  | some head, some d =>
    if flag w2 9 && reload == 0 then none
    else some { head := head, runsLeft := Fin.ofNat 65536 (field w1 0 16),
                reload := if flag w2 9 then some reload else none, deliver := d, armed := false }
  | _, _ => none

/-- The number of entries ahead of e in the arrival order list, absent if the list does not hold it (R19). -/
def State.position (s : State) (e : Source) : Option Nat :=
  if s.et.order.contains e then some (s.et.order.idxOf e) else none

/-- STAGE0 of an entry record (R179). -/
def configWord (c : EntryConfig) : Word :=
  packWord [(0, c.kind.code), (4, c.level.val), (8, c.policy.code), (12, c.targets.toNat), (16, bit c.enable)]

/-- STAGE1 of an entry record (R179). -/
def countWord (b : Binding) : Word := packWord [(0, b.runsLeft.val), (16, (b.reload.getD 0).val)]

/-- STAGE2 of an entry record (R179). -/
def bindingWord (b : Binding) : Word :=
  packWord [(0, (b.head.getD 0).val), (8, bit b.head.isSome), (9, bit b.reload.isSome), (12, b.deliver.code),
            (16, bit b.armed)]

/-- STAGE3 of an entry record (R179). -/
def progressWord (p : Progress) (position : Option Nat) : Word :=
  packWord [(0, p.state.code), (4, bit p.again), (5, bit p.saturated), (6, bit p.hold), (7, bit p.disarmPending),
            (8, outcomeCode p.outcome), (16, p.merged.val), (24, position.getD 0), (30, bit position.isSome)]

/-- STAGE4 of an entry record (R179). -/
def setsWord (p : Progress) : Word :=
  packWord [(0, p.offered.toNat), (4, p.held.toNat), (8, (p.owed.getD 0).toNat), (12, bit p.owed.isSome),
            (16, (p.decline.getD 0).toNat), (20, bit p.decline.isSome)]

/-- The record READ_ENTRY returns (R19, R179). -/
def State.entryRecord (s : State) (e : Source) : Table Word 8 :=
  let x := s.entry e
  stageRecord [configWord x.cfg, countWord x.bind, bindingWord x.bind, progressWord x.prog (s.position e), setsWord x.prog]

/-! ### Notices -/

/-- The record POP_NOTICE returns (R179). -/
def noticeRecord (n : Notice) : Table Word 8 :=
  stageRecord
    [packWord [(0, n.kind.code), (4, bit n.source.isSome), (5, bit n.host.isSome), (6, bit n.desc.isSome),
               (7, bit n.addr.isSome), (8, (n.source.getD 0).val), (16, (n.host.getD 0).val), (24, (n.desc.getD 0).val)],
     n.addr.getD 0]

/-- The record READ_NOTICE_STATUS returns (R165, R179). -/
def statusRecord (q : NoticeQueue) : Table Word 8 :=
  stageRecord [packWord [(0, q.records.length), (8, q.overflow.val)]]

/-! ### Descriptors -/

/-- Is the address a multiple of the unit size (R123)? -/
def aligned (a : Addr) (size : Nat) : Bool := a.toNat % size == 0

/-- The descriptor staged for WRITE_DESC by a host, if it passes the checks of R123: written fields as staged, valid set, the
host as owner, faulted and active clear. -/
def stagedDescriptor (h : HostId) (st : Table Word 8) : Option Descriptor :=
  let src := stageWord st 0
  let dst := stageWord st 1
  let w2 := stageWord st 2
  let size := field w2 0 3
  let len := field w2 16 13
  match AddrStep.ofCode (field w2 4 2), AddrStep.ofCode (field w2 6 2), stagedIndex (stageWord st 3) with
  | some ss, some ds, some link =>
    if !(size == 1 || size == 2 || size == 4) then none
    else if len == 0 || decide (Config.maxRunLength < len) then none
    else if !(aligned src size && aligned dst size) then none
    else some { valid := true, owner := some h, src := src, dst := dst, unitSize := size, srcStep := ss, dstStep := ds,
                runLength := len, link := link, active := false, faulted := false }
  | _, _, _ => none

/-- The record READ_DESC returns (R124, R180). -/
def descRecord (d : Descriptor) : Table Word 8 :=
  stageRecord
    [d.src, d.dst,
     packWord [(0, d.unitSize), (4, d.srcStep.code), (6, d.dstStep.code), (16, d.runLength)],
     packWord [(0, (d.link.getD 0).val), (8, bit d.link.isSome), (16, (d.owner.getD 0).val), (18, bit d.owner.isSome),
               (24, bit d.valid), (25, bit d.active), (26, bit d.faulted)]]

/-! ### Windows -/

/-- The window staged for WRITE_WINDOW, if it passes the checks of R155; its written indicator is clear. -/
def stagedWindow (st : Table Word 8) : Option Window :=
  let base := field (stageWord st 0) 0 21
  let count := field (stageWord st 1) 0 17
  match WindowAccess.ofCode (field (stageWord st 2) 0 2) with
  | none => none
  | some a =>
    if base ≥ Config.pageLimit then none
    else if count = 0 || decide (Config.maxPageCount < count) then none
    else if Config.pageLimit < base + count then none
    else some { base := base, count := count, access := a, written := false }

/-- The record READ_WINDOW returns (R156, R180). -/
def windowRecord (w : Window) : Table Word 8 :=
  stageRecord [packWord [(0, w.base)], packWord [(0, w.count)], packWord [(0, w.access.code), (8, bit w.written)]]

/-! ### Host contexts -/

/-- One 16-bit stack record; a record at or above the depth reads 0 (R180). -/
def stackHalf (stack : List StackRecord) (k : Nat) : Nat :=
  match stack[k]? with
  | none => 0
  | some r => r.source.val + r.policy.code * 2 ^ 6 + r.level.val * 2 ^ 8 + r.outcome.code * 2 ^ 12

/-- The word that holds stack records k (low half) and k + 1 (R180). -/
def stackWord (stack : List StackRecord) (k : Nat) : Word :=
  packWord [(0, stackHalf stack k), (16, stackHalf stack (k + 1))]

/-- The record READ_HOST returns (R61, R180). -/
def State.hostRecord (s : State) (h : HostId) : Table Word 8 :=
  let c := s.ctx h
  stageRecord
    [packWord (s.statusFields h ++ [(20, c.threshold.val), (24, c.lapseLimit.val)]),
     packWord [(0, c.timeout.val)],
     s.offerView h,
     0,
     stackWord c.stack 0, stackWord c.stack 2, stackWord c.stack 4, stackWord c.stack 6]

end Sys2Proof.Machine
end

