-- ==== Sys2Proof/Machine/HostContexts.lean ====
section
/-! DEFINITION. The Host Context Unit's shared operations (chapters 3 and 5) and the requests on contexts: ATTACH, DETACH,
SET_THRESHOLD, TAKE, FINISH, RELEASE, SET_HOST_LIMITS, SET_RIGHTS, HAND_OVER, EVICT. -/

namespace Sys2Proof.Machine

/-! ### Shared operations -/

/-- The count one up, kept at 15 (R54: it cannot pass 15). -/
def lapseCountUp (n : Fin 16) : Fin 16 := if n = 15 then 15 else n + 1

/-- The session becomes ATTACHED with lapse count 0, and the Offer Unit makes its choice (R44). -/
def State.attachNow (s : State) (h : HostId) : State :=
  (s.setCtx h { s.ctx h with session := .attached, lapseCount := 0 }).choose h

/-- Has the Event Table yet to take a release or a departure that a session's end or a lapse handed on (R45, R46, log 9)? -/
def State.givingBack (s : State) (h : HostId) : Bool :=
  (s.handedOf h).any fun x => match x with
    | .stackRelease _ => true
    | .depart _ => true
    | _ => false

/-- An ATTACH that waited is taken after the last of the host's releases and departures, and answered then (R46, R170). -/
def State.resumeAttach (s : State) (h : HostId) : State :=
  if (s.port h).waiting == some .attach && !s.givingBack h then
    let t := s.setPort h { s.port h with waiting := none }
    (t.attachNow h).answer h 1 .ok
  else s

/-- The ALL entries in delivery whose owed set holds h, in ascending order (R46 step 3, R54 step 3). -/
def State.owedBy (s : State) (h : HostId) : List Source :=
  allSources.filter fun e =>
    (s.prog e).state == .delivering && (s.cfg e).policy == .all && hasHost ((s.prog e).owed.getD 0) h

/-- The host leaves ATTACHED or LAPSED for DETACHED (R46, R91): the session, the stack and the slot change now; the Event Table
is handed the withdrawal, the releases from the top record down, and the owed-set departures in ascending order. A take not
yet pushed is ended (R85, log 8), a lapse report not yet taken is overtaken (R76, log 35), and no record is left for a cleared
take to have removed. -/
def State.giveBack (s : State) (h : HostId) : State :=
  let c := s.ctx h
  let departures := (s.owedBy h).map Handed.depart
  let s1 := (s.setCtx h { c with session := .detached, stack := [] }).setView h []
  let s2 := s1.withdrawOffer h
  let s3 := s2.hand h ((c.stack.reverse.map fun r => Handed.stackRelease r.source) ++ departures)
  let s4 := s3.setTake h ((s3.takeOf h).map fun t => { t with ended := true })
  let s5 := s4.setLapse h (s4.lapseOf h).overtake
  s5.setUndo h none

/-- The Offer Unit is told that h's record of e has left the stack (R87 step 2, R88): no record of e stays in its view but one that
the stack holds. -/
def State.tellRemoval (s : State) (h : HostId) (e : Source) : State :=
  s.setView h ((s.viewOf h).filter fun r => r.source != e || (s.ctx h).stack.contains r)

/-- The port of a TAKE is answered, if the TAKE is still unanswered there (R84, R59). -/
def State.answerTake (s : State) (h : HostId) (r : ResultCode) : State :=
  if (s.port h).waiting = some .take then
    (s.setPort h { s.port h with waiting := none }).answer h 4 r
  else s

/-- Remove h's record of a source and hand the Event Table what became of it (R86, R89): STATE if there is none. -/
def State.endService (s : State) (h : HostId) (code : Operand) (e : Source) (x : Handed) : State :=
  if holdsRecord (s.ctx h) e then ((s.setCtx h (dropRecord (s.ctx h) e)).hand h [x]).answer h code .ok
  else s.answer h code .state

/-! ### Requests -/

/-- ATTACH (R44): an ATTACHED host is answered OK unchanged; another is attached, at once or, where the effects of its last
departure are outstanding, after the last of them (R46). -/
def attachBody (h : HostId) (s : State) : State :=
  if (s.ctx h).session = .attached then s.answer h 1 .ok
  else if s.givingBack h then s.setPort h { s.port h with waiting := some .attach }
  else (s.attachNow h).answer h 1 .ok

def execAttach (h : HostId) (s : State) : Result := request h 1 .none false (attachBody h) s

/-- DETACH (R46). -/
def detachBody (h : HostId) (s : State) : State :=
  if (s.ctx h).session = .detached then s.answer h 2 .ok else (s.giveBack h).answer h 2 .ok

def execDetach (h : HostId) (s : State) : Result := request h 2 .none false (detachBody h) s

/-- SET_THRESHOLD of a value 0 to 15 (R48): the offer whose level is no longer above the effective level is withdrawn, and a
changed effective level or an emptied slot starts a choice (R67, R73). -/
def State.writeThreshold (s : State) (h : HostId) (v : Level) : State :=
  let t := s.setCtx h { s.ctx h with threshold := v }
  let standing := (t.slot h).offer
  let rises := match standing with
    | none => false
    | some o => decide (o.level ≤ t.viewLevel h)
  let u := if rises then t.withdrawOffer h else t
  if rises || t.level h != s.level h then u.choose h else u

def setThresholdBody (h : HostId) (value : Operand) (s : State) : State :=
  withIndex 16 h 3 value (fun v t => (t.writeThreshold h v).answer h 3 .ok) s

def execSetThreshold (h : HostId) (value : Operand) (s : State) : Result :=
  request h 3 .none false (setThresholdBody h value) s

/-- The Offer Unit matches a TAKE against the slot (R77): STALE, or the slot empties and the take goes to the Host Context Unit,
its answer to follow (R84). An ANY take sets the rotation pointer (R105). -/
def State.matchTake (s : State) (h : HostId) (e : Source) : State :=
  match (s.slot h).offer with
  | none => s.answer h 4 .stale
  | some o =>
    if o.source = e then
      let s1 := (s.emptySlot h).setTake h (some { offer := o, cleared := false, ended := false })
      let s2 := if o.policy == .any then { s1 with ou := { s1.ou with rotation := h } } else s1
      s2.setPort h { s2.port h with waiting := some .take }
    else s.answer h 4 .stale

def takeBody (h : HostId) (object : Operand) (s : State) : State :=
  withIndex 64 h 4 object (fun e t => t.matchTake h e) s

def execTake (h : HostId) (object : Operand) (s : State) : Result := request h 4 .none true (takeBody h object) s

/-- FINISH (R86, R87). -/
def finishBody (h : HostId) (object : Operand) (s : State) : State :=
  withIndex 64 h 5 object (fun e t => t.endService h 5 e (.finish e)) s

def execFinish (h : HostId) (object : Operand) (s : State) : Result := request h 5 .none true (finishBody h object) s

/-- RELEASE (R89): the report carries whether the host is LAPSED (R55). -/
def releaseBody (h : HostId) (object : Operand) (s : State) : State :=
  withIndex 64 h 6 object
    (fun e t => t.endService h 6 e (.release e (decide ((t.ctx h).session = .lapsed)))) s

def execRelease (h : HostId) (object : Operand) (s : State) : Result := request h 6 .none true (releaseBody h object) s

/-- SET_HOST_LIMITS (R53): lapse limit as sub-operand, offer timeout as value; the 8-bit value cannot be out of range. -/
def setHostLimitsBody (h : HostId) (object sub value : Operand) (s : State) : State :=
  withIndex 4 h 23 object
    (fun k t => withIndex 16 h 23 sub
      (fun limit u =>
        if limit = 0 then u.answer h 23 .range
        else (u.setCtx k { u.ctx k with lapseLimit := limit, timeout := Fin.ofNat 256 value.toNat }).answer h 23 .ok) t) s

def execSetHostLimits (h : HostId) (object sub value : Operand) (s : State) : Result :=
  request h 23 .supervisor false (setHostLimitsBody h object sub value) s

/-- SET_RIGHTS (R51, R177): bit 0 of the value is CONFIG, bit 1 is DESC, any other bit set is RANGE. -/
def setRightsBody (h : HostId) (object value : Operand) (s : State) : State :=
  withIndex 4 h 24 object
    (fun k t =>
      if value.toNat < 4 then
        (t.setCtx k { t.ctx k with configRight := value.getLsbD 0, descRight := value.getLsbD 1 }).answer h 24 .ok
      else t.answer h 24 .range) s

def execSetRights (h : HostId) (object value : Operand) (s : State) : Result :=
  request h 24 .supervisor false (setRightsBody h object value) s

/-- HAND_OVER (R52). -/
def handOverBody (h : HostId) (object : Operand) (s : State) : State :=
  withIndex 4 h 25 object
    (fun k t =>
      if k = t.hcu.supervisor then t.answer h 25 .ok
      else if (t.ctx k).session = .attached then
        State.answer { t with hcu := { t.hcu with supervisor := k } } h 25 .ok
      else t.answer h 25 .state) s

def execHandOver (h : HostId) (object : Operand) (s : State) : Result :=
  request h 25 .supervisor false (handOverBody h object) s

/-- EVICT (R56): the EVICTED notice comes before those of the give-back (R163). A TAKE of the evicted host that waits for the
removal of its record is answered STALE, the record being given back (R84, log 7). -/
def evictBody (h : HostId) (object : Operand) (s : State) : State :=
  withIndex 4 h 26 object
    (fun k t =>
      if k ≠ t.hcu.supervisor ∧ (t.ctx k).session = .lapsed then
        let u := (t.handNotice (.host k) (deliveryNotice .evicted none (some k))).giveBack k
        (if (t.undoOf k).isSome then u.answerTake k .stale else u).answer h 26 .ok
      else t.answer h 26 .state) s

def execEvict (h : HostId) (object : Operand) (s : State) : Result :=
  request h 26 .supervisor false (evictBody h object) s

end Sys2Proof.Machine
end

