-- ==== Sys2Proof/Machine/Board.lean ====
section
/-! DEFINITION. The events of the board: line changes, host reset and full reset with their releases. -/

namespace Sys2Proof.Machine

/-- A change that an EVT line has held for 0.25 us (R23, R24): the sampled value takes the new value and the change is judged
in the same claim. A line that holds its sampled value shows no change, and while RESET_n is low the sampled values are not
altered. -/
def execLineChange (line : LineId) (high : Bool) (s : State) : Result :=
  if s.pins.resetLow || s.lines.getLsbD line.val == high then .next s
  else
    let mask : BitVec 48 := 1#48 <<< line.val
    let t := { s with lines := if high then s.lines ||| mask else s.lines &&& ~~~mask }
    .next (t.judgeLine (line.castLE (by decide)) high)

/-- Assertion of HRST_n[h] (R58, R59): the DETACH treatment, threshold and lapse count 0, the port at its reset values. -/
def execHostReset (h : HostId) (s : State) : Result :=
  let s1 := if (s.ctx h).session = .detached then s else s.giveBack h
  let s2 := s1.setCtx h { s1.ctx h with threshold := 0, lapseCount := 0 }
  let s3 := s2.setPort h resetPort
  .next { s3 with pins := { s3.pins with hrst := addHost s3.pins.hrst h } }

/-- Release of HRST_n[h] (R58, R59): the port takes requests again; nothing else changes. -/
def execHostResetRelease (h : HostId) (s : State) : Result :=
  .next { s with pins := { s.pins with hrst := dropHost s.pins.hrst h } }

/-- RESET_n goes low (R22, R39, R133, R148): every block at its reset values, every event, run and claim abandoned. The sampled
lines are not altered while it is low (R23), the HRST_n pins are the board's (R60), and the supervisor and the CLKSEL strap
stand until the release samples the straps (R50, R181, log 19). -/
def execFullReset (s : State) : Result :=
  .next (resetBlocks s.lines s.hcu.supervisor { s.pins with resetLow := true } s.tb.clksel s.freeCount s.pending)

/-- Release of RESET_n (R23, R50, R181): the sampled values are loaded from the lines and present no change; the straps are
sampled. With RESET_n high there is no release. -/
def execFullResetRelease (evt : BitVec 48) (clksel supsel : BitVec 2) (s : State) : Result :=
  if s.pins.resetLow then
    .next { s with
      lines := evt
      hcu := { s.hcu with supervisor := supsel.toFin }
      tb := { s.tb with clksel := clksel }
      pins := { s.pins with resetLow := false } }
  else .next s

end Sys2Proof.Machine
end

