-- ==== Sys2Proof/Machine/Delegation.lean ====
section
/-! DEFINITION. Delegated transfers (chapters 7 to 9): the delegation list, the channels, the unit, the cut, the Memory Port, the
window checks, and the run results at the Event Table. A command whose claim is not outstanding does not occur and changes
nothing (log 1). -/

namespace Sys2Proof.Machine

/-! ### Windows -/

/-- The page of an address (R149). -/
def pageOf (a : Addr) : Nat := a.toNat / Config.pageSize

/-- Does the window contain the address (R151)? -/
def Window.contains (w : Window) (a : Addr) : Bool :=
  decide (w.base ≤ pageOf a) && decide (pageOf a < w.base + w.count)

/-- The deciding window of an address: the first, in index order, that contains it (R151). -/
def decidingWindow (ws : Table Window 8) (a : Addr) : Option (Fin 8) :=
  (List.finRange 8).find? fun k => (look ws k).contains a

/-- The access the deciding window grants; none without one (R152). -/
def grantedAt (ws : Table Window 8) (a : Addr) : WindowAccess :=
  match decidingWindow ws a with
  | none => .none
  | some k => (look ws k).access

/-- The read check (R152). -/
def readPasses (ws : Table Window 8) (a : Addr) : Bool := grantedAt ws a != .none

/-- The write check (R152). -/
def writePasses (ws : Table Window 8) (a : Addr) : Bool := grantedAt ws a == .readWrite

/-! ### Channels -/

/-- The other channel. -/
def otherChannel (c : ChannelId) : ChannelId := c + 1

/-- The descriptor the channel is executing. -/
def State.executing (s : State) (c : ChannelId) : Option DescId :=
  match (s.channel c).position with
  | .executing d => some d
  | _ => none

/-- The channel reports a run result and issues nothing further (R137). That it stands at no descriptor and in no phase from the report
on, and not from its release, is the model's choice (R135, log 37). -/
def State.reportRun (s : State) (c : ChannelId) (r : RunResult) : State :=
  let t := s.setChannel c { s.channel c with position := .nowhere, phase := .idle, reported := true }
  { t with claims := { t.claims with reports := put t.claims.reports c (some r) } }

/-- A descriptor's active field is cleared (R126, R141, R146). -/
def State.deactivate (s : State) (d : DescId) : State := s.setDesc d { s.desc d with active := false }

/-- The run fails: its notice is handed on before the failure is reported (R128, R146, R147). -/
def State.failRun (s : State) (c : ChannelId) (kind : NoticeKind) (host : Option HostId) (d : DescId) (addr : Option Addr) :
    State :=
  (s.handNotice (.channel c)
    { kind := kind, source := (s.channel c).entry, host := host, desc := some d, addr := addr }).reportRun c .failure

/-- The channel stops for a cut (R141): the descriptor it holds active is cleared and not faulted, and a cut is reported. -/
def State.stopForCut (s : State) (c : ChannelId) : State :=
  let t := match s.executing c with
    | none => s
    | some d => s.deactivate d
  t.reportRun c .cut

/-! ### The grant of a channel -/

/-- The best entry of the delegation list (R136). -/
def State.bestQueued (s : State) : Option Source :=
  bestOf (fun e => s.du.list.contains e) (fun e => (s.cfg e).level) s.et.order

/-- The channel takes the best entry of the list, if there is one, and goes to the binding's head (R9, R125, R136). -/
def State.grantChannel (s : State) (c : ChannelId) : State :=
  match s.bestQueued with
  | none => s
  | some e =>
    let position := match (s.bind e).head with
      | none => Position.nowhere
      | some d => .arriving d
    let t := s.setChannel c { running := true, entry := some e, position := position, completed := 0, units := 0,
                              phase := .idle, cutMark := false, reported := false }
    let u := { t with du := { t.du with list := t.du.list.filter (fun x => x != e), lastGrant := c } }
    u.setProg e { u.prog e with state := .running }

/-- Is the entry carried by a channel? -/
def State.carried (s : State) (e : Source) : Bool :=
  (s.channel 0).entry == some e || (s.channel 1).entry == some e

/-- The Delegation Unit takes the insertion of a QUEUED entry; with a channel free, the grant is made in the same claim, with
both free by the one that the last-grant mark does not name (R134, R136). An insertion waits while a channel still carries
the entry (R135, log 14). -/
def execDelegationInsert (e : Source) (s : State) : Result :=
  if s.claims.inserts.contains e && !s.carried e then
    let t := { s with
      du := { s.du with list := s.du.list ++ [e] }
      claims := { s.claims with inserts := s.claims.inserts.filter fun x => x != e } }
    let other := otherChannel t.du.lastGrant
    if !(t.channel other).running then .next (t.grantChannel other)
    else if !(t.channel t.du.lastGrant).running then .next (t.grantChannel t.du.lastGrant)
    else .next t
  else .next s

/-- The Delegation Unit takes the release of a channel (R137): the channel is IDLE, an entry the result re-latched to QUEUED
joins the list, cut requests that name the entry become void (R121, log 15), and the channel's grant follows (R136). -/
def execChannelRelease (c : ChannelId) (s : State) : Result :=
  match look s.claims.releases c with
  | none => .next s
  | some reinsert =>
    let e := (s.channel c).entry
    let t := s.setChannel c resetChannel
    let u := { t with
      du := { t.du with list := if reinsert then t.du.list ++ e.toList else t.du.list }
      claims := { t.claims with
        releases := put t.claims.releases c none
        cuts := t.claims.cuts.map fun (x : CutClaim) => if some x.source = e then { x with stale := true } else x } }
    .next (u.grantChannel c)

/-! ### The walk -/

/-- A channel's arrival at a descriptor (R125): a cut asked for meanwhile stops it (R140), a descriptor not valid or faulted
fails the run with DESC_BAD (R128), one active on the other channel is waited for, and any other becomes active and the first
unit's check is asked. -/
def State.arriveAt (s : State) (c : ChannelId) (d : DescId) : State :=
  let x := s.desc d
  if (s.channel c).cutMark then s.stopForCut c
  else if !x.valid || x.faulted then s.failRun c .descBad x.owner d none
  else if x.active then s.setChannel c { s.channel c with position := .waiting d }
  else
    (s.setDesc d { x with active := true }).setChannel c
      { s.channel c with position := .executing d, units := 0, phase := .checking }

def execDescriptorArrival (c : ChannelId) (s : State) : Result :=
  match (s.channel c).position with
  | .arriving d => .next (s.arriveAt c d)
  | .waiting d => .next (s.arriveAt c d)
  | _ => .next s

/-! ### The Memory Port -/

/-- An access is issued with the tag counter's tag and a deadline 64 us on (R144). -/
def State.issueAccess (s : State) (isWrite : Bool) (addr : Addr) (size : Nat) : State :=
  { s with mp := { s.mp with
      access := some { isWrite := isWrite, addr := addr, size := size, tag := s.mp.tagCounter,
                       deadline := s.tb.micros + Config.responseLimit }
      tagCounter := s.mp.tagCounter + 1 } }

/-- Does the channel have a request waiting at the Memory Port (R143)? -/
def State.portAsked (s : State) (c : ChannelId) : Bool := (s.channel c).phase == .waitingPort

/-- The port grants a channel: the alternation flag names it and the read of its unit is issued (R143, R139 step 3). -/
def State.grantPort (s : State) (c : ChannelId) : State :=
  match s.executing c with
  | none => s
  | some d =>
    let t := { s with mp := { s.mp with grant := some c, alternation := c } }
    (t.issueAccess false (s.desc d).src (s.desc d).unitSize).setChannel c { s.channel c with phase := .reading }

/-- The grant, when it is free and a request waits: the channel alone, or of two the one the alternation flag does not name
(R143). -/
def State.nextGrant (s : State) : State :=
  if s.mp.grant.isSome then s
  else
    let other := otherChannel s.mp.alternation
    if s.portAsked other then s.grantPort other
    else if s.portAsked s.mp.alternation then s.grantPort s.mp.alternation
    else s

def execMemoryGrant (s : State) : Result := .next s.nextGrant

/-- The grant is freed with the access and the held data, and a request still waiting is granted in the same claim (R143). -/
def State.freePort (s : State) : State :=
  State.nextGrant { s with mp := { s.mp with grant := none, access := none, heldData := none } }

/-! ### Transfer faults -/

/-- A unit fails (R146): the descriptor is marked faulted and no longer active, its addresses as they were; the Memory Port is
freed if the failure came there; the notice of its kind is handed on (R147); the failure is reported. -/
def State.failUnit (s : State) (c : ChannelId) (d : DescId) (atPort : Bool) (kind : NoticeKind) (addr : Addr) : State :=
  let t := s.setDesc d { s.desc d with active := false, faulted := true }
  let u := if atPort then
      State.freePort (t.setChannel c { t.channel c with phase := .idle })
    else t
  u.failRun c kind (s.desc d).owner d (some addr)

/-- The windows that govern a descriptor: those of its owner (R150); none without an owner. -/
def State.ownerWindows (s : State) (d : DescId) : Option (Table Window 8) := (s.desc d).owner.map s.windows

/-- The Window Table checks the channel's next unit (R139 step 1, R152): a failed read check, else a failed write check, fails the
unit; a pass asks for the Memory Port, or stands unused if a cut was asked for meanwhile (R141). -/
def execUnitCheck (c : ChannelId) (s : State) : Result :=
  match (s.channel c).phase, s.executing c with
  | .checking, some d =>
    let x := s.desc d
    let reads := match s.ownerWindows d with
      | none => false
      | some ws => readPasses ws x.src
    let writes := match s.ownerWindows d with
      | none => false
      | some ws => writePasses ws x.dst
    if !reads then .next (s.failUnit c d false .windowRead x.src)
    else if !writes then .next (s.failUnit c d false .windowWrite x.dst)
    else if (s.channel c).cutMark then .next (s.stopForCut c)
    else .next (s.setChannel c { s.channel c with phase := .waitingPort })
  | _, _ => .next s

/-! ### The end of a unit -/

/-- An address moved by its step (R122, R126). -/
def stepAddr (st : AddrStep) (size : Nat) (a : Addr) : Addr :=
  match st with
  | .inc => a + BitVec.ofNat 32 size
  | .dec => a - BitVec.ofNat 32 size
  | _ => a

/-- The unit boundary after a unit that ended in success (R140): a cut asked for stops the channel, but at a boundary at which the
run has just ended in success, which reports success (R137, log 16); units that remain go on; a descriptor whose run length is
complete is left, and the run ends in success, fails with CHAIN_LONG or goes to the linked descriptor (R126, R127). -/
def State.boundary (s : State) (c : ChannelId) (d : DescId) : State :=
  let ch := s.channel c
  let x := s.desc d
  if ch.cutMark && (decide (ch.units < x.runLength) || x.link.isSome) then s.stopForCut c
  else if ch.units < x.runLength then s.setChannel c { ch with phase := .checking }
  else
    let t := (s.deactivate d).setChannel c { ch with completed := ch.completed + 1, units := 0, phase := .idle }
    match x.link with
    | none => t.reportRun c .success
    | some next =>
      if Config.chainLimit ≤ ch.completed + 1 then t.failRun c .chainLong x.owner next none
      else t.setChannel c { t.channel c with position := .arriving next }

/-- The claim that takes a write's OK (R139 step 5): the addresses advance, the Window Table is told of the write, the unit is
counted, the grant is freed, and the boundary follows. A cut at the end of a run length leaves that length as the count until the
release (R135, log 34). -/
def State.endUnit (s : State) (c : ChannelId) (d : DescId) : State :=
  let x := s.desc d
  let s1 := s.setDesc d { x with src := stepAddr x.srcStep x.unitSize x.src, dst := stepAddr x.dstStep x.unitSize x.dst }
  let told := match x.owner with
    | none => []
    | some o => [(o, x.dst)]
  let s2 := { s1 with claims := { s1.claims with writes := put s1.claims.writes c (look s1.claims.writes c ++ told) } }
  let s3 := s2.setChannel c { s2.channel c with units := (s2.channel c).units + 1, phase := .idle }
  s3.freePort.boundary c d

/-- The Memory Port takes a response (R144): one whose tag is not the outstanding access's, one with none outstanding, and one
after the deadline (R145, log 18) are ignored; a read's OK holds the data and issues the write; a write's OK ends the unit; an ERROR
fails it with MEM_ERROR. -/
def execMemoryResponse (tag : BitVec 4) (error : Bool) (data : Word) (s : State) : Result :=
  match s.mp.access, s.mp.grant with
  | some a, some c =>
    match s.executing c with
    | none => .next s
    | some d =>
      if a.tag ≠ tag || decide (a.deadline < s.tb.micros) then .next s
      else if error then .next (s.failUnit c d true .memError a.addr)
      else if a.isWrite then .next (s.endUnit c d)
      else
        let t := { s with mp := { s.mp with heldData := some data } }
        .next ((t.issueAccess true (s.desc d).dst (s.desc d).unitSize).setChannel c { s.channel c with phase := .writing })
  | _, _ => .next s

/-- The outstanding access reaches its deadline (R145): the unit fails with MEM_TIMEOUT at the access's address. The Timebase is
then at the deadline or past it (log 18). -/
def execMemoryTimeout (s : State) : Result :=
  match s.mp.access, s.mp.grant with
  | some a, some c =>
    match s.executing c with
    | none => .next s
    | some d =>
      .next (State.failUnit { s with tb := { s.tb with micros := max s.tb.micros a.deadline } } c d true .memTimeout a.addr)
  | _, _ => .next s

/-- The Window Table records a completed write of the channel, the oldest first (log 33): the deciding window's indicator is set, as
the owner's windows stand now (R154). -/
def execWriteRecord (c : ChannelId) (s : State) : Result :=
  match look s.claims.writes c with
  | [] => .next s
  | (o, a) :: rest =>
    let t := { s with claims := { s.claims with writes := put s.claims.writes c rest } }
    match decidingWindow (t.windows o) a with
    | none => .next t
    | some k => .next (t.setWindows o (put (t.windows o) k { look (t.windows o) k with written := true }))

/-! ### The cut -/

/-- The effect of a cut request on the channel that carries the entry (R141): the mark is set; a check not yet taken and a unit
in flight go on, and a channel anywhere else stops. A channel whose descriptor the other has cleared, and whose arrival is to be taken
again, stops without making it active, which is the model's choice (R142, log 36). -/
def State.cutChannel (s : State) (c : ChannelId) : State :=
  let ch := s.channel c
  if ch.reported then s
  else
    let t := s.setChannel c { ch with cutMark := true }
    match ch.phase with
    | .checking => t
    | .reading => t
    | .writing => t
    | _ => t.stopForCut c

/-- The Delegation Unit takes the oldest cut request that names an entry (R137, R141): discarded when no channel carries the
entry, or when the channel that did has been released since (R121). -/
def execCutRequest (e : Source) (s : State) : Result :=
  match s.claims.cuts.find? (fun x => x.source == e) with
  | none => .next s
  | some x =>
    let t := { s with claims := { s.claims with cuts := s.claims.cuts.erase x } }
    if x.stale then .next t
    else if (t.channel 0).entry = some e then .next (t.cutChannel 0)
    else if (t.channel 1).entry = some e then .next (t.cutChannel 1)
    else .next t

/-! ### Run results at the Event Table -/

/-- Every port whose DISARM waits on the entry is answered OK and returns to READY (R120, R174). -/
def State.answerDisarms (s : State) (e : Source) : State :=
  let settled (p : Port) : Port :=
    if p.pendingDisarm = some e then { p with result := .ok, working := false, pendingDisarm := none } else p
  { s with ports := mapTable settled s.ports }

/-- The runs left, the reload and the armed field after a successful run (R130 steps 1 to 3). -/
def countRun (b : Binding) (disarmPending : Bool) : Binding :=
  let left := if b.runsLeft = 0 then 0 else b.runsLeft - 1
  let counted : Binding :=
    if left = 0 then
      match b.reload with
      | some r => { b with runsLeft := r }
      | none => { b with runsLeft := 0, armed := false }
    else { b with runsLeft := left }
  if disarmPending then { counted with armed := false } else counted

/-- Was the run terminal (R130 step 2)? -/
def isTerminal (b : Binding) : Bool := b.runsLeft.val ≤ 1

/-- A successful run result at a RUNNING entry (R130). -/
def State.succeedAt (s : State) (e : Source) : State :=
  let x := s.entry e
  let t := s.setEntry e { x with bind := countRun x.bind x.prog.disarmPending,
                                 prog := { x.prog with disarmPending := false } }
  match x.bind.deliver, isTerminal x.bind with
  | .eachRun, false => t.enterDelivering e .ran
  | .eachRun, true => t.enterDelivering e .ranLast
  | .atLast, true => t.enterDelivering e .ranLast
  | .atLast, false => t.complete e
  | .quiet, _ => t.complete e

/-- A failure or a cut at a RUNNING entry (R131). -/
def State.endRunAt (s : State) (e : Source) (o : Outcome) : State :=
  let x := s.entry e
  (s.setEntry e { x with bind := { x.bind with armed := false },
                         prog := { x.prog with disarmPending := false } }).enterDelivering e o

/-- The Event Table takes a run result of channel c, answers the DISARMs that wait, and hands the Delegation Unit the channel's
release together with the insertion of the entry if the result re-latched it to QUEUED (R137). -/
def State.takeResult (s : State) (c : ChannelId) (apply : State → Source → State) : State :=
  let s1 := { s with claims := { s.claims with reports := put s.claims.reports c none } }
  match (s.channel c).entry with
  | none => { s1 with claims := { s1.claims with releases := put s1.claims.releases c (some false) } }
  | some e =>
    let s2 := if (s1.prog e).state = .running then (apply s1 e).answerDisarms e else s1
    { s2 with claims := { s2.claims with
        inserts := s2.claims.inserts.filter fun x => x != e
        releases := put s2.claims.releases c (some (s2.claims.inserts.contains e)) } }

def execRunSuccess (c : ChannelId) (s : State) : Result :=
  if look s.claims.reports c = some .success then .next (s.takeResult c State.succeedAt) else .next s

/-- A failure is taken after its notice (R128, R147, log 13). -/
def execRunFailure (c : ChannelId) (s : State) : Result :=
  if look s.claims.reports c = some .failure && !(s.claims.notices.any fun x => x.1 == .channel c) then
    .next (s.takeResult c fun t e => t.endRunAt e .failed)
  else .next s

def execRunCut (c : ChannelId) (s : State) : Result :=
  if look s.claims.reports c = some .cut then .next (s.takeResult c fun t e => t.endRunAt e .cut) else .next s

end Sys2Proof.Machine
end

