-- ==== Sys2Proof/Machine/EntryRequests.lean ====
section
/-! DEFINITION. The requests on entries and bindings: POST, WRITE_ENTRY, ENABLE, DISABLE, CLEAR_ENTRY, RETRY, WRITE_BINDING,
ARM, DISARM. -/

namespace Sys2Proof.Machine

/-- POST (R29): RANGE outside S48 to S62, then STATE from a LAPSED host, then an arrival. -/
def postBody (h : HostId) (object : Operand) (s : State) : State :=
  withIndex 64 h 7 object
    (fun e t =>
      if e.val < 48 ∨ 62 < e.val then t.answer h 7 .range
      else if (t.ctx h).session = .lapsed then t.answer h 7 .state
      else (t.arrive e).answer h 7 .ok) s

def execPost (h : HostId) (object : Operand) (s : State) : Result := request h 7 .none true (postBody h object) s

/-- WRITE_ENTRY of a valid configuration at an IDLE entry (R18), and the arrival of a level kind whose level is asserted
(R26). -/
def State.writeConfig (s : State) (e : Source) (c : EntryConfig) : State :=
  let t := s.setEntry e { s.entry e with cfg := c, prog := { s.prog e with merged := 0, saturated := false } }
  if c.kind.isLevel && t.levelAsserted e then t.latchAndGo e else t

/-- WRITE_ENTRY (R18). -/
def writeEntryBody (h : HostId) (object : Operand) (s : State) : State :=
  withIndex 64 h 14 object
    (fun e t =>
      match stagedConfig e (t.port h).stage with
      | none => t.answer h 14 .range
      | some c => if (t.prog e).state = .idle then (t.writeConfig e c).answer h 14 .ok else t.answer h 14 .busy) s

def execWriteEntry (h : HostId) (object : Operand) (s : State) : Result :=
  request h 14 .config false (writeEntryBody h object) s

/-- ENABLE of an entry (R36). -/
def State.enableEntry (s : State) (e : Source) : State :=
  let t := s.setCfg e { s.cfg e with enable := true }
  if (t.prog e).state = .latched && !(t.prog e).hold then t.leaveLatched e else t

/-- ENABLE (R36): the value field must be 1 (section 11.3). -/
def enableBody (h : HostId) (object value : Operand) (s : State) : State :=
  withIndex 64 h 15 object
    (fun e t => if value = 1 then (t.enableEntry e).answer h 15 .ok else t.answer h 15 .range) s

/-- Code 15 with value 0 is DISABLE, so the term is another row's command (log 11). -/
def execEnable (h : HostId) (object value : Operand) (s : State) : Result :=
  if value = 0 then .refused .otherCommand else request h 15 .config false (enableBody h object value) s

/-- DISABLE (R37). -/
def disableBody (h : HostId) (object : Operand) (s : State) : State :=
  withIndex 64 h 15 object (fun e t => (t.setCfg e { t.cfg e with enable := false }).answer h 15 .ok) s

def execDisable (h : HostId) (object : Operand) (s : State) : Result :=
  request h 15 .config false (disableBody h object) s

/-- One of the 24 orders of the four hosts. -/
def hostOrder (i : Fin 24) : List HostId :=
  let a := i.val / 6
  let b := i.val / 2 % 3
  let c := i.val % 2
  let l1 := allHosts.eraseIdx a
  let l2 := l1.eraseIdx b
  [allHosts.getD a 0, l1.getD b 0, l2.getD c 0] ++ l2.eraseIdx c

/-- The hosts whose slot holds an offer of e. -/
def State.offeredHosts (s : State) (e : Source) : List HostId :=
  allHosts.filter fun h => match (s.slot h).offer with
    | none => false
    | some o => o.source == e

/-- The fresh offer choices of hosts whose offers a CLEAR_ENTRY withdrew, each a claim of its own (R20, R73). With two or more
the order is a free value (log 5). -/
def State.chooseEach (s : State) (hs : List HostId) : State :=
  if hs.length ≤ 1 then hs.foldl State.choose s
  else
    let order := (hostOrder (Config.slotOrder s.freeCount)).filter fun h => hs.contains h
    order.foldl State.choose { s with freeCount := s.freeCount + 1 }

/-- A matched take of e, or the hold that follows its push, finds the entry cleared (R84, log 7). -/
def State.clearTakes (s : State) (e : Source) : State :=
  let markTake (x : TakeClaim) : TakeClaim := if x.offer.source = e then { x with cleared := true } else x
  let markHold (x : Handed) : Handed := match x with
    | .hold e' c => .hold e' (c || e' == e)
    | y => y
  { s with claims := { s.claims with
      takes := mapTable (Option.map markTake) s.claims.takes
      handed := mapTable (List.map markHold) s.claims.handed } }

/-- CLEAR_ENTRY takes a LATCHED, PARKED or unheld DELIVERING entry back to IDLE (R20): its offers are withdrawn, the again flag
and the level hold mark are cleared, the hosts whose offers were withdrawn have fresh choices over the other entries (R73), and
then a level still asserted latches it again (R26). That the choices come before the re-latch is the model's reading (log 5). -/
def State.clearNow (s : State) (e : Source) : State :=
  let hs := s.offeredHosts e
  let s1 := (hs.foldl State.emptySlot s).clearTakes e
  let s2 := s1.setProg e { s1.prog e with again := false, hold := false }
  let s3 := s2.toIdle e
  let s4 := s3.chooseEach hs
  if (s4.cfg e).kind.isLevel && s4.levelAsserted e then s4.latchAndGo e else s4

/-- CLEAR_ENTRY by the entry's state (R20). -/
def clearEntryBody (h : HostId) (object : Operand) (s : State) : State :=
  withIndex 64 h 16 object
    (fun e t =>
      match (t.prog e).state with
      | .idle => t.answer h 16 .ok
      | .latched => (t.clearNow e).answer h 16 .ok
      | .parked => (t.clearNow e).answer h 16 .ok
      | .delivering => if (t.prog e).held = 0 then (t.clearNow e).answer h 16 .ok else t.answer h 16 .busy
      | .queued => t.answer h 16 .busy
      | .running => t.answer h 16 .busy) s

def execClearEntry (h : HostId) (object : Operand) (s : State) : Result :=
  request h 16 .config false (clearEntryBody h object) s

/-- RETRY (R13, R107). -/
def retryBody (h : HostId) (object : Operand) (s : State) : State :=
  withIndex 64 h 17 object
    (fun e t =>
      if (t.prog e).state = .parked then
        ((t.setProg e { t.prog e with state := .delivering, decline := some 0 }).offerNews e).answer h 17 .ok
      else t.answer h 17 .state) s

def execRetry (h : HostId) (object : Operand) (s : State) : Result := request h 17 .config false (retryBody h object) s

/-- WRITE_BINDING (R117). -/
def writeBindingBody (h : HostId) (object : Operand) (s : State) : State :=
  withIndex 64 h 18 object
    (fun e t =>
      if e = 63 then t.answer h 18 .range
      else match stagedBinding (t.port h).stage with
        | none => t.answer h 18 .range
        | some b => if (t.bind e).armed then t.answer h 18 .busy else (t.setBind e b).answer h 18 .ok) s

def execWriteBinding (h : HostId) (object : Operand) (s : State) : Result :=
  request h 18 .config false (writeBindingBody h object) s

/-- ARM (R118). -/
def armBody (h : HostId) (object : Operand) (s : State) : State :=
  withIndex 64 h 19 object
    (fun e t =>
      if e = 63 then t.answer h 19 .range
      else if (t.bind e).armed then t.answer h 19 .ok
      else if (t.bind e).runsLeft = 0 || (t.bind e).head.isNone then t.answer h 19 .range
      else (t.setBind e { t.bind e with armed := true }).answer h 19 .ok) s

def execArm (h : HostId) (object : Operand) (s : State) : Result := request h 19 .config false (armBody h object) s

/-- The entry leaves the delegation list, or the hand-over on its way to it (R9, R119, R134). -/
def State.unqueue (s : State) (e : Source) : State :=
  { s with
    du := { s.du with list := s.du.list.filter fun x => x != e }
    claims := { s.claims with
      inserts := s.claims.inserts.filter fun x => x != e
      releases := Vector.ofFn fun c =>
        if (s.channel c).entry = some e then (look s.claims.releases c).map fun _ => false
        else look s.claims.releases c } }

/-- DISARM of a RUNNING entry (R120, R174): the first asks for a cut, a later one joins it; the port goes WORKING. -/
def State.askCut (s : State) (h : HostId) (e : Source) : State :=
  let t := if (s.prog e).disarmPending then s
    else
      let u := s.setProg e { s.prog e with disarmPending := true }
      { u with claims := { u.claims with cuts := u.claims.cuts ++ [{ source := e, stale := false }] } }
  t.setPort h { t.port h with working := true, echo := 20, pendingDisarm := some e }

/-- DISARM by the entry's state (R119). -/
def disarmBody (h : HostId) (object : Operand) (s : State) : State :=
  withIndex 64 h 20 object
    (fun e t =>
      match (t.prog e).state with
      | .running => t.askCut h e
      | .queued =>
        (((t.setBind e { t.bind e with armed := false }).unqueue e).enterDelivering e .plain).answer h 20 .ok
      | _ => (t.setBind e { t.bind e with armed := false }).answer h 20 .ok) s

def execDisarm (h : HostId) (object : Operand) (s : State) : Result :=
  request h 20 .config false (disarmBody h object) s

end Sys2Proof.Machine
end

