-- ==== Sys2Proof/Machine/HostClaims.lean ====
section
/-! DEFINITION. The claims between the Offer Unit, the Host Context Unit and the Event Table. A command whose claim is not
outstanding does not occur and changes nothing (log 1). -/

namespace Sys2Proof.Machine

/-- Expiry of h's offer timer (R75): the slot empties, the entry or h's part of it becomes unoffered or declined, and the lapse
report goes out, which makes h's choice wait. A timer that is stopped does not expire (R75). The Timebase is then at the
expiry time or past it (log 18). -/
def execOfferExpiry (h : HostId) (s : State) : Result :=
  match (s.slot h).offer, (s.slot h).timer with
  | some o, some due =>
    let s1 := ({ s with tb := { s.tb with micros := max s.tb.micros due } }.emptySlot h).setLapse h .reported
    let e := o.source
    if (s1.prog e).state = .delivering && hasHost (s1.prog e).offered h then
      if (s1.cfg e).policy = .any then .next (s1.declineBy e h)
      else .next ((s1.leaveOffered e h).offerNews e)
    else .next s1
  | _, _ => .next s

/-- Does the host hold the entry's current delivery, as far as its stack shows (R54, R55)? A record whose take CLEAR_ENTRY has
cleared is one of an abandoned event (R84, log 29). -/
def State.holdsCurrent (s : State) (h : HostId) (e : Source) : Bool :=
  holdsRecord (s.ctx h) e && !(s.handedOf h).contains (.hold e true) && s.undoOf h != some e

/-- A counted lapse that reaches the limit (R54): LAPSED with its notice, the stack kept, and a departure for every ALL entry
that h owes and does not hold, in ascending order. A standing offer would be withdrawn (R73). -/
def State.becomeLapsed (s : State) (h : HostId) : State :=
  let departures := ((s.owedBy h).filter fun e => !s.holdsCurrent h e).map Handed.depart
  let s1 := s.setCtx h { s.ctx h with session := .lapsed }
  let s2 := s1.handNotice (.host h) (deliveryNotice .lapsed none (some h))
  (s2.withdrawOffer h).hand h departures

/-- The count of a lapse of an ATTACHED host (R54): at the limit the host becomes LAPSED. Any other host's lapse is not counted. -/
def State.countLapse (s : State) (h : HostId) : State :=
  if (s.ctx h).session = .attached then
    let n := lapseCountUp (s.ctx h).lapseCount
    let u := s.setCtx h { s.ctx h with lapseCount := n }
    if (u.ctx h).lapseLimit ≤ n then u.becomeLapsed h else u
  else s

/-- The Host Context Unit takes h's lapse report (R54), and its answer goes to the Offer Unit (R75). A report that a DETACH, EVICT or
host reset of h has come before is not counted, whatever the session is by then (R76, log 35). -/
def execLapseReport (h : HostId) (s : State) : Result :=
  let answered (t : State) : State := t.setLapse h (.answered (t.ctx h).session)
  match s.lapseOf h with
  | .reported => .next (answered (s.countLapse h))
  | .overtaken => .next (answered s)
  | _ => .next s

/-- The Offer Unit takes the answer to h's lapse report (R75): ATTACHED starts the choice for h; at LAPSED or DETACHED it makes no
choice and the slot stays empty, even if the host has attached since (log 31). -/
def execLapseAnswer (h : HostId) (s : State) : Result :=
  match s.lapseOf h with
  | .answered .attached => .next ((s.setLapse h .none).choose h)
  | .answered _ => .next (s.setLapse h .none)
  | _ => .next s

/-- The Host Context Unit takes h's matched take (R84): the record is pushed on top, the lapse count is 0, the Event Table is
handed the hold, and the choice for h is made against the raised effective level. A host that is not ATTACHED, or whose
session a host reset has ended since the match, pushes nothing and the offer is withdrawn at the Event Table (R85). -/
def execTakePush (h : HostId) (s : State) : Result :=
  match s.takeOf h with
  | none => .next s
  | some t =>
    let s1 := s.setTake h none
    if (s.ctx h).session = .attached && !t.ended then
      let c := s1.ctx h
      let s2 := (s1.setCtx h { c with stack := c.stack ++ [t.offer], lapseCount := 0 }).setView h (s1.viewOf h ++ [t.offer])
      .next ((s2.hand h [.hold t.offer.source t.cleared]).choose h)
    else .next ((s1.hand h [.withdraw t.offer.source]).choose h)

/-- The Event Table takes h's hold of an entry (R5, R84 step 3): h moves from the offered to the held set and the TAKE is
answered OK; where the entry was cleared first, nothing changes at it and the record is to be removed; a record given back since is
gone already, and the TAKE is answered STALE unless a host reset left it unanswered (log 7). -/
def execTakeHold (h : HostId) (s : State) : Result :=
  match s.takeHanded h Handed.isHold with
  | some (.hold e cleared, t) =>
    let p := t.prog e
    if !cleared && p.state == .delivering && hasHost p.offered h then
      .next ((t.setProg e { p with offered := dropHost p.offered h, held := addHost p.held h }).answerTake h .ok)
    else .next (if holdsRecord (t.ctx h) e then t.setUndo h (some e) else t.answerTake h .stale)
  | _ => .next s

/-- The Host Context Unit removes a pushed record whose entry was cleared first, with no release meaning; the choice for h
follows and the TAKE is answered STALE (R84). -/
def execTakeUndo (h : HostId) (s : State) : Result :=
  match s.undoOf h with
  | none => .next s
  | some e =>
    let s1 := s.setUndo h none
    .next ((((s1.setCtx h (dropRecord (s1.ctx h) e)).tellRemoval h e).choose h).answerTake h .stale)

/-- The Event Table has taken h's report of entry e, and the Offer Unit takes the change of h's stack (R87 step 2). Where the Event
Table has left e DELIVERING and unoffered, the news of e makes the choices of every host it is eligible for, h with its stack as it
now is among them, in one claim, with the ANY arbiter among those that find e best (R68, R103, section 6.6 step 8; log 4). The choice
for h alone follows. -/
def tellStack (h : HostId) (e : Source) (x : State × Bool) : State := (tell e (x.1.tellRemoval h e, x.2)).choose h

/-- The Event Table takes h's FINISH of entry e, and then the Offer Unit the change of h's stack (R87). -/
def execFinishReport (h : HostId) (e : Source) (s : State) : Result :=
  match s.takeHanded h (fun x => x == .finish e) with
  | none => .next s
  | some (_, t) => .next (tellStack h e (t.finishPart e h))

/-- The Event Table takes h's RELEASE of entry e, and then the Offer Unit the change of h's stack (R89). -/
def execReleaseReport (h : HostId) (e : Source) (s : State) : Result :=
  match s.takeHanded h (fun x => x == .release e false || x == .release e true) with
  | some (.release _ lapsed, t) => .next (tellStack h e (t.releasePart e h lapsed))
  | _ => .next s

/-- The Event Table takes the next release of h's whole-stack give-back: an ALL part is handed back as owed (R91). -/
def execStackRelease (h : HostId) (s : State) : Result :=
  match s.takeHanded h (fun x => match x with | .stackRelease _ => true | _ => false) with
  | none => .next s
  | some (x, t) => .next ((t.releaseAt x.source h).resumeAttach h)

/-- The Event Table takes h's next departure from an owed set (R46, R54, R111). -/
def execOwedDeparture (h : HostId) (s : State) : Result :=
  match s.takeHanded h (fun x => match x with | .depart _ => true | _ => false) with
  | none => .next s
  | some (x, t) => .next ((t.departAt x.source h).resumeAttach h)

/-- The Event Table takes h's next withdrawn offer (R73). -/
def execWithdrawalReport (h : HostId) (s : State) : Result :=
  match s.takeHanded h (fun x => match x with | .withdraw _ => true | _ => false) with
  | none => .next s
  | some (x, t) => .next (t.withdrawAt x.source h)

/-- The Notice Queue takes the oldest notice handed to it for one origin (R162, R163). That notices of one origin from different claims
keep their order too is the model's choice (log 12). -/
def execNoticeAppend (o : Origin) (s : State) : Result :=
  match s.claims.notices.find? (fun x => x.1 == o) with
  | none => .next s
  | some x => .next (State.takeAppend { s with claims := { s.claims with notices := s.claims.notices.erase x } } x.2)

/-- The Event Table takes the oldest change of S63's level (R31, R167). -/
def execNoticeLevelChange (s : State) : Result :=
  match s.claims.levels with
  | [] => .next s
  | up :: rest =>
    let t := { s with claims := { s.claims with levels := rest } }
    .next (if up then t.assertLevel 63 else t.deassertLevel 63)

end Sys2Proof.Machine
end

