-- ==== Sys2Proof/Machine/PortWrites.lean ====
section
/-! DEFINITION. WRITE_DESC and WRITE_WINDOW, the requests that no block takes, and the other writes to a port's window. -/

namespace Sys2Proof.Machine

/-- WRITE_DESC (R123). -/
def writeDescBody (h : HostId) (object : Operand) (s : State) : State :=
  withIndex 128 h 21 object
    (fun d t =>
      match stagedDescriptor h (t.port h).stage with
      | none => t.answer h 21 .range
      | some x => if (t.desc d).active then t.answer h 21 .busy else (t.setDesc d x).answer h 21 .ok) s

def execWriteDesc (h : HostId) (object : Operand) (s : State) : Result :=
  request h 21 .desc false (writeDescBody h object) s

/-- WRITE_WINDOW (R155). -/
def writeWindowBody (h : HostId) (object sub : Operand) (s : State) : State :=
  withIndex 4 h 22 object
    (fun k t => withIndex 8 h 22 sub
      (fun i u =>
        match stagedWindow (u.port h).stage with
        | none => u.answer h 22 .range
        | some w => (u.setWindows k (put (u.windows k) i w)).answer h 22 .ok) t) s

def execWriteWindow (h : HostId) (object sub : Operand) (s : State) : Result :=
  request h 22 .supervisor false (writeWindowBody h object sub) s

/-- A REQUEST write whose code is not 1 to 26 (R171): UNKNOWN, with echoed code 0 (R177). -/
def execUnknownRequest (h : HostId) (code : Operand) (s : State) : Result :=
  if knownCode code then .refused .otherCommand
  else request h 0 .none false (fun t => t.answer h 0 .unknown) s

/-- A REQUEST write while the port is WORKING (R175); ignored while RESET_n or the host's HRST_n is low (R59, R168). At a
port that is not WORKING the write is some request's own command (log 11). -/
def execLostRequest (h : HostId) (s : State) : Result :=
  if s.pins.resetLow || hasHost s.pins.hrst h then .next s
  else if (s.port h).working then .next (s.setPort h { s.port h with lost := true })
  else .refused .otherCommand

/-- A write to a word of the port window (R169, R177): a staging word takes it, whatever the port state; a read-only register or
an offset not listed ignores it; so does every word while RESET_n or the host's HRST_n is low (R59, R168). -/
def execRegisterWrite (h : HostId) (offset : Fin 16) (word : Word) (s : State) : Result :=
  if offset = 0 then .refused .otherCommand
  else if s.pins.resetLow || hasHost s.pins.hrst h then .next s
  else if hx : 8 ≤ offset.val then
    .next (s.setPort h { s.port h with stage := put (s.port h).stage ⟨offset.val - 8, by omega⟩ word })
  else .next s

end Sys2Proof.Machine
end

