-- ==== Sys2Proof/Machine/Reads.lean ====
section
/-! DEFINITION. The requests that return a record: READ_ENTRY, READ_DESC, READ_WINDOW, READ_HOST, POP_NOTICE,
READ_NOTICE_STATUS. -/

namespace Sys2Proof.Machine

/-- READ_ENTRY (R19). -/
def readEntryBody (h : HostId) (object : Operand) (s : State) : State :=
  withIndex 64 h 8 object (fun e t => t.answerRecord h 8 (t.entryRecord e)) s

def execReadEntry (h : HostId) (object : Operand) (s : State) : Result :=
  request h 8 .none false (readEntryBody h object) s

/-- READ_DESC (R124). -/
def readDescBody (h : HostId) (object : Operand) (s : State) : State :=
  withIndex 128 h 9 object (fun d t => t.answerRecord h 9 (descRecord (t.desc d))) s

def execReadDesc (h : HostId) (object : Operand) (s : State) : Result :=
  request h 9 .none false (readDescBody h object) s

/-- READ_WINDOW (R156). -/
def readWindowBody (h : HostId) (object sub : Operand) (s : State) : State :=
  withIndex 4 h 10 object
    (fun k t => withIndex 8 h 10 sub (fun i u => u.answerRecord h 10 (windowRecord (look (u.windows k) i))) t) s

def execReadWindow (h : HostId) (object sub : Operand) (s : State) : Result :=
  request h 10 .none false (readWindowBody h object sub) s

/-- READ_HOST (R61). -/
def readHostBody (h : HostId) (object : Operand) (s : State) : State :=
  withIndex 4 h 11 object (fun k t => t.answerRecord h 11 (t.hostRecord k)) s

def execReadHost (h : HostId) (object : Operand) (s : State) : Result :=
  request h 11 .none false (readHostBody h object) s

/-- POP_NOTICE (R164): the last record's removal presents S63's deassertion (R167). -/
def popNoticeBody (h : HostId) (s : State) : State :=
  match s.nq.records with
  | [] => s.answer h 12 .empty
  | n :: rest =>
    let t := { s with
      nq := { s.nq with records := rest }
      claims := if rest.isEmpty then { s.claims with levels := s.claims.levels ++ [false] } else s.claims }
    t.answerRecord h 12 (noticeRecord n)

def execPopNotice (h : HostId) (s : State) : Result := request h 12 .none false (popNoticeBody h) s

/-- READ_NOTICE_STATUS (R165). -/
def readNoticeStatusBody (h : HostId) (s : State) : State :=
  State.answerRecord { s with nq := { s.nq with overflow := 0 } } h 13 (statusRecord s.nq)

def execReadNoticeStatus (h : HostId) (s : State) : Result := request h 13 .none false (readNoticeStatusBody h) s

end Sys2Proof.Machine
end

