-- ==== Sys2Proof/Machine/Dispatch.lean ====
section
/-! DEFINITION. What each command does to everything but the queue: one arm per constructor of Instr. -/

namespace Sys2Proof.Machine

def exec (i : Instr) (s : State) : Host.Outcome State Fault Refusal :=
  match i with
  | .attach h => Sys2Proof.Machine.execAttach h s
  | .detach h => Sys2Proof.Machine.execDetach h s
  | .setThreshold h value => Sys2Proof.Machine.execSetThreshold h value s
  | .take h object => Sys2Proof.Machine.execTake h object s
  | .finish h object => Sys2Proof.Machine.execFinish h object s
  | .release h object => Sys2Proof.Machine.execRelease h object s
  | .post h object => Sys2Proof.Machine.execPost h object s
  | .readEntry h object => Sys2Proof.Machine.execReadEntry h object s
  | .readDesc h object => Sys2Proof.Machine.execReadDesc h object s
  | .readWindow h object sub => Sys2Proof.Machine.execReadWindow h object sub s
  | .readHost h object => Sys2Proof.Machine.execReadHost h object s
  | .popNotice h => Sys2Proof.Machine.execPopNotice h s
  | .readNoticeStatus h => Sys2Proof.Machine.execReadNoticeStatus h s
  | .writeEntry h object => Sys2Proof.Machine.execWriteEntry h object s
  | .enable h object value => Sys2Proof.Machine.execEnable h object value s
  | .disable h object => Sys2Proof.Machine.execDisable h object s
  | .clearEntry h object => Sys2Proof.Machine.execClearEntry h object s
  | .retry h object => Sys2Proof.Machine.execRetry h object s
  | .writeBinding h object => Sys2Proof.Machine.execWriteBinding h object s
  | .arm h object => Sys2Proof.Machine.execArm h object s
  | .disarm h object => Sys2Proof.Machine.execDisarm h object s
  | .writeDesc h object => Sys2Proof.Machine.execWriteDesc h object s
  | .writeWindow h object sub => Sys2Proof.Machine.execWriteWindow h object sub s
  | .setHostLimits h object sub value => Sys2Proof.Machine.execSetHostLimits h object sub value s
  | .setRights h object value => Sys2Proof.Machine.execSetRights h object value s
  | .handOver h object => Sys2Proof.Machine.execHandOver h object s
  | .evict h object => Sys2Proof.Machine.execEvict h object s
  | .unknownRequest h code => Sys2Proof.Machine.execUnknownRequest h code s
  | .lostRequest h => Sys2Proof.Machine.execLostRequest h s
  | .registerWrite h offset word => Sys2Proof.Machine.execRegisterWrite h offset word s
  | .lineChange line high => Sys2Proof.Machine.execLineChange line high s
  | .hostReset h => Sys2Proof.Machine.execHostReset h s
  | .hostResetRelease h => Sys2Proof.Machine.execHostResetRelease h s
  | .fullReset => Sys2Proof.Machine.execFullReset s
  | .fullResetRelease evt clksel supsel => Sys2Proof.Machine.execFullResetRelease evt clksel supsel s
  | .offerExpiry h => Sys2Proof.Machine.execOfferExpiry h s
  | .lapseReport h => Sys2Proof.Machine.execLapseReport h s
  | .lapseAnswer h => Sys2Proof.Machine.execLapseAnswer h s
  | .takePush h => Sys2Proof.Machine.execTakePush h s
  | .takeHold h => Sys2Proof.Machine.execTakeHold h s
  | .takeUndo h => Sys2Proof.Machine.execTakeUndo h s
  | .finishReport h e => Sys2Proof.Machine.execFinishReport h e s
  | .releaseReport h e => Sys2Proof.Machine.execReleaseReport h e s
  | .stackRelease h => Sys2Proof.Machine.execStackRelease h s
  | .owedDeparture h => Sys2Proof.Machine.execOwedDeparture h s
  | .withdrawalReport h => Sys2Proof.Machine.execWithdrawalReport h s
  | .delegationInsert e => Sys2Proof.Machine.execDelegationInsert e s
  | .channelRelease c => Sys2Proof.Machine.execChannelRelease c s
  | .descriptorArrival c => Sys2Proof.Machine.execDescriptorArrival c s
  | .unitCheck c => Sys2Proof.Machine.execUnitCheck c s
  | .memoryGrant => Sys2Proof.Machine.execMemoryGrant s
  | .memoryResponse tag error data => Sys2Proof.Machine.execMemoryResponse tag error data s
  | .memoryTimeout => Sys2Proof.Machine.execMemoryTimeout s
  | .writeRecord c => Sys2Proof.Machine.execWriteRecord c s
  | .cutRequest e => Sys2Proof.Machine.execCutRequest e s
  | .runSuccess c => Sys2Proof.Machine.execRunSuccess c s
  | .runFailure c => Sys2Proof.Machine.execRunFailure c s
  | .runCut c => Sys2Proof.Machine.execRunCut c s
  | .noticeAppend o => Sys2Proof.Machine.execNoticeAppend o s
  | .noticeLevelChange => Sys2Proof.Machine.execNoticeLevelChange s

end Sys2Proof.Machine
end

