-- ==== Sys2Proof/Machine/Step.lean ====
section
/-! DEFINITION. One step of the block: the command at the front of the queue, or a microsecond of idling. -/

namespace Sys2Proof.Machine

/-- One step: the front command runs on the state with the rest of the queue; with no command waiting, one microsecond of the
Timebase passes and nothing else happens (DESIGN CHOICE, log 18). -/
def step (s : State) : Host.Outcome State Fault Refusal :=
  match s.pending with
  | [] => .next { s with tb := { s.tb with micros := s.tb.micros + 1 } }
  | i :: rest => exec i { s with pending := rest }

/-- The state with the command that a table word spells put at the front of the queue; the table gives no bits, so no word
spells one and the state is unchanged (log 22). -/
def State.withFetchWord (s : State) (nbits w : Nat) : State :=
  match decodeTableWord nbits w with
  | none => s
  | some i => { s with pending := i :: s.pending }

end Sys2Proof.Machine
end

