-- ==== Sys2Proof/Safety.lean ====
section
/-! DEFINITION. What counts as a lawful state and a safe run, in the terms the statements use: the laws the manual states of the
part's records, each over one state. -/

namespace Sys2Proof.Machine

/-! ### Host contexts and offer slots -/

/-- R82: at most 8 records, levels strictly increasing from bottom to top. -/
abbrev StackLaw (stack : List StackRecord) : Prop :=
  stack.length ≤ Config.stackDepth ∧ stack.Pairwise fun lower upper => lower.level < upper.level

/-- Is a FINISH or RELEASE of the record's source on its way to the Event Table? -/
def State.removalTold (s : State) (h : HostId) (r : StackRecord) : Bool :=
  (s.handedOf h).any fun x => x == .finish r.source || x == .release r.source false || x == .release r.source true

/-- R63, R87: the Offer Unit's view of a stack is the stack with the records whose FINISH or RELEASE is still to be taken. -/
abbrev ViewLaw (s : State) (h : HostId) : Prop :=
  StackLaw (s.viewOf h) ∧ (s.ctx h).stack.Sublist (s.viewOf h) ∧
  (∀ r ∈ s.viewOf h, r ∈ (s.ctx h).stack ∨ s.removalTold h r = true) ∧
  ((s.ctx h).session = .detached → s.viewOf h = [])

/-- R65: a standing offer's host is ATTACHED, has room on its stack, and is at an effective level below the offer's, as the Offer
Unit sees it and so in its context too. -/
abbrev SlotLaw (s : State) (h : HostId) : Prop :=
  ∀ o ∈ (s.slot h).offer,
    (s.ctx h).session = .attached ∧ (s.viewOf h).length < Config.stackDepth ∧ s.viewLevel h < o.level ∧
    (s.ctx h).stack.length < Config.stackDepth ∧ s.level h < o.level

/-- R75, R77: a filled slot, a take not yet pushed and a lapse report not yet answered exclude one another; a stopped slot has no
running timer; and a take whose session has not ended finds room above every record (R77, R84). -/
abbrev ClaimLaw (s : State) (h : HostId) : Prop :=
  ((s.slot h).offer = none → (s.slot h).timer = none) ∧
  ((s.slot h).offer ≠ none → s.takeOf h = none ∧ s.lapseOf h = .none) ∧
  (∀ t ∈ s.takeOf h, s.lapseOf h = .none ∧
    (t.ended = false → (s.ctx h).session = .attached ∧ (s.viewOf h).length < Config.stackDepth ∧
      ∀ r ∈ s.viewOf h, r.level < t.offer.level))

/-- R47: a DETACHED host has an empty stack; it has no standing offer by SlotLaw. R53: the lapse limit is at least 1. -/
abbrev SessionLaw (s : State) (h : HostId) : Prop :=
  ((s.ctx h).session = .detached → (s.ctx h).stack = []) ∧ (s.ctx h).lapseLimit ≠ 0

/-- The laws of the four hosts. -/
abbrev HostLaw (s : State) : Prop :=
  ∀ h : HostId, StackLaw (s.ctx h).stack ∧ ViewLaw s h ∧ SlotLaw s h ∧ ClaimLaw s h ∧ SessionLaw s h

/-! ### Entries -/

/-- R1, R2: the kind is one the class allows, the targets are not empty, and DIRECTED has one target. -/
abbrev ConfigLaw (e : Source) (c : EntryConfig) : Prop :=
  kindAllowed e c.kind = true ∧ c.targets ≠ 0 ∧ (c.policy = .directed → isOneHost c.targets = true)

/-- R116, R3: an armed binding has runs left and a head, a QUEUED or RUNNING entry is armed, a reload is not 0, and S63 keeps its
reset binding. -/
abbrev BindingLaw (e : Source) (b : Binding) (st : EntryState) : Prop :=
  (b.armed = true → b.runsLeft ≠ 0 ∧ b.head ≠ none) ∧ (st = .queued ∨ st = .running → b.armed = true) ∧
  b.reload ≠ some 0 ∧ (e = 63 → b = resetBinding)

/-- The entry is DELIVERING or PARKED. -/
abbrev inDelivery (p : Progress) : Prop := p.state = .delivering ∨ p.state = .parked

/-- R4: which fields of the state part have a value in which state; R7 and R15: the again flag is clear in IDLE and for a level
kind; R28: the level hold mark stands only in LATCHED; R13: only an ANY entry parks. -/
abbrev ProgressLaw (c : EntryConfig) (p : Progress) : Prop :=
  (p.outcome ≠ none ↔ inDelivery p) ∧
  (p.state ≠ .delivering → p.offered = 0 ∧ p.held = 0) ∧
  (p.owed ≠ none ↔ p.state = .delivering ∧ c.policy = .all) ∧
  (p.decline ≠ none ↔ inDelivery p ∧ c.policy = .any) ∧
  (p.state = .parked → c.policy = .any) ∧
  (p.disarmPending = true → p.state = .running) ∧
  (p.hold = true → p.state = .latched) ∧
  (p.again = true → p.state ≠ .idle ∧ c.kind.isLevel = false)

/-- R16: the arrival order list holds an entry exactly while it is not IDLE, and at most once. -/
abbrev OrderLaw (s : State) : Prop :=
  s.et.order.Nodup ∧ ∀ e : Source, e ∈ s.et.order ↔ (s.prog e).state ≠ .idle

/-- The entry that the release of a channel will insert (R137). -/
def State.reinserted (s : State) (c : ChannelId) : List Source :=
  if look s.claims.releases c = some true then (s.channel c).entry.toList else []

/-- The entries that wait for a channel: in the delegation list, or handed on towards it (R134, R137). -/
def State.waitingForChannel (s : State) : List Source :=
  s.du.list ++ (s.claims.inserts ++ (s.reinserted 0 ++ s.reinserted 1))

/-- R134, R135: the entries that wait for a channel are the QUEUED ones, each once. -/
abbrev QueuedLaw (s : State) : Prop :=
  s.waitingForChannel.Nodup ∧ ∀ e : Source, e ∈ s.waitingForChannel ↔ (s.prog e).state = .queued

/-- The laws of the Event Table. -/
abbrev EntryLaw (s : State) : Prop :=
  (∀ e : Source,
    ConfigLaw e (s.cfg e) ∧ BindingLaw e (s.bind e) (s.prog e).state ∧ ProgressLaw (s.cfg e) (s.prog e)) ∧
  OrderLaw s ∧ QueuedLaw s

/-! ### Deliveries -/

/-- R62: a standing offer is the copy of a DELIVERING entry that has the host in its offered set. -/
abbrev CopyLaw (s : State) (h : HostId) : Prop :=
  ∀ o ∈ (s.slot h).offer,
    (s.prog o.source).state = .delivering ∧ hasHost (s.prog o.source).offered h = true ∧ o = s.offerOf o.source

/-- R99: a DIRECTED or ANY entry is offered to at most one host or held by at most one, never both, and a target in either case;
R109: the offered and held hosts of an ALL entry are different ones and all owe it. -/
abbrev PartsLaw (c : EntryConfig) (p : Progress) : Prop :=
  (c.policy ≠ .all →
    (p.offered = 0 ∨ p.held = 0) ∧
    (∀ h k : HostId, hasHost (p.offered ||| p.held) h = true → hasHost (p.offered ||| p.held) k = true → h = k) ∧
    hostsWithin (p.offered ||| p.held) c.targets = true) ∧
  (c.policy = .all →
    p.offered &&& p.held = 0 ∧ hostsWithin (p.offered ||| p.held) (p.owed.getD 0) = true)

/-- R102, R106: the decline set of an ANY entry is a set of targets, which covers them exactly when the entry is PARKED. -/
abbrev DeclineLaw (c : EntryConfig) (p : Progress) : Prop :=
  ∀ d ∈ p.decline, hostsWithin d c.targets = true ∧ (hostsWithin c.targets d = true ↔ p.state = .parked)

/-- A withdrawal not yet taken names no offer that stands in the slot (log 6), and a host whose releases and departures are
outstanding is not ATTACHED (R45, R46). -/
abbrev HandedLaw (s : State) (h : HostId) : Prop :=
  (∀ o ∈ (s.slot h).offer, Handed.withdraw o.source ∉ s.handedOf h) ∧
  (s.givingBack h = true → (s.ctx h).session ≠ .attached)

/-- Is it a release or a departure of a host that leaves its session, or has lapsed (R45, R46, R54)? -/
def Handed.isReturn : Handed → Bool
  | .stackRelease _ => true
  | .depart _ => true
  | _ => false

/-- Is it a hold whose entry was cleared (R84, log 7)? -/
def Handed.cleared : Handed → Bool
  | .hold _ c => c
  | _ => false

/-- Entry e counts h among the hosts it is offered to, and no withdrawal is on its way. -/
def State.offeredStill (s : State) (h : HostId) (e : Source) : Bool :=
  (s.prog e).state == .delivering && hasHost (s.prog e).offered h && !(s.handedOf h).contains (.withdraw e)

/-- R77, R84: a take not yet pushed is the only part of its TAKE; its session not ended, the TAKE waits at the port, and its entry,
not cleared, has the offer's level and counts h as offered. -/
abbrev PendingLaw (s : State) (h : HostId) : Prop :=
  ∀ t ∈ s.takeOf h, s.undoOf h = none ∧ (∀ x ∈ s.handedOf h, x.isHold = false) ∧
    (t.ended = false → (s.port h).waiting = some .take ∧
      (t.cleared = false → s.offeredStill h t.offer.source = true ∧ t.offer.level = (s.cfg t.offer.source).level))

/-- R84, R91: a hold on its way is that of the record on the stack, for which the TAKE waits at the port, or a release of the record
follows it; its entry, not cleared, has the record's level and counts h as offered. -/
abbrev HoldLaw (s : State) (h : HostId) (e : Source) (cleared : Bool) : Prop :=
  s.undoOf h = none ∧ (cleared = false → s.offeredStill h e = true) ∧
  (((s.port h).waiting = some .take ∧
      ∃ r ∈ (s.ctx h).stack, r.source = e ∧ (cleared = false → r.level = (s.cfg e).level)) ∨
    ((s.ctx h).session = .detached ∧ Handed.stackRelease e ∈ s.handedOf h))

/-- R84, R85: a matched TAKE is in one place, as the take, the hold or the record to be removed; no release or departure stands
before a hold. -/
abbrev TakeLaw (s : State) (h : HostId) : Prop :=
  PendingLaw s h ∧
  (s.handedOf h).Pairwise (fun first later => later.isHold = true → first.isHold = false ∧ first.isReturn = false) ∧
  (∀ x ∈ s.handedOf h, x.isHold = true → HoldLaw s h x.source x.cleared) ∧
  (∀ e ∈ s.undoOf h, (s.port h).waiting = some .take ∧ holdsRecord (s.ctx h) e = true)

/-- R66, R69: no eligible entry has a level above a standing offer of a host whose choice does not wait. -/
abbrev SettledLaw (s : State) (h : HostId) : Prop :=
  s.choiceWaits h = false → ∀ o ∈ (s.slot h).offer, ∀ e : Source, s.eligible e h = true → (s.cfg e).level ≤ o.level

/-- The laws of deliveries. -/
abbrev DeliveryLaw (s : State) : Prop :=
  (∀ h : HostId, CopyLaw s h ∧ HandedLaw s h) ∧ (∀ h : HostId, TakeLaw s h) ∧ (∀ h : HostId, SettledLaw s h) ∧
  ∀ e : Source, PartsLaw (s.cfg e) (s.prog e) ∧ DeclineLaw (s.cfg e) (s.prog e)

/-! ### Delegated transfers -/

/-- R122, R123: a valid descriptor has an owner, a unit size of 1, 2 or 4, aligned addresses, both steps and a run length of 1 to
4,096; any other stands at its full-reset values. -/
abbrev DescriptorLaw (x : Descriptor) : Prop :=
  (x.valid = false → x = resetDescriptor) ∧
  (x.valid = true →
    x.owner ≠ none ∧ (x.unitSize = 1 ∨ x.unitSize = 2 ∨ x.unitSize = 4) ∧
    aligned x.src x.unitSize = true ∧ aligned x.dst x.unitSize = true ∧
    x.srcStep ≠ .unset ∧ x.dstStep ≠ .unset ∧ 1 ≤ x.runLength ∧ x.runLength ≤ Config.maxRunLength)

/-- R135, R137, R127: a channel carries an entry exactly while RUNNING, its result-reported mark stands exactly between its report
and its release, its unit phase is that of a descriptor being executed, and its counts keep their ranges. -/
abbrev ChannelLaw (s : State) (c : ChannelId) : Prop :=
  ((s.channel c).running = true ↔ (s.channel c).entry ≠ none) ∧
  ((s.channel c).reported = true ↔ look s.claims.reports c ≠ none ∨ look s.claims.releases c ≠ none) ∧
  (look s.claims.reports c = none ∨ look s.claims.releases c = none) ∧
  ((s.channel c).reported = true → (s.channel c).running = true ∧ (s.channel c).position = .nowhere) ∧
  ((s.channel c).position ≠ .nowhere → (s.channel c).running = true ∧ (s.channel c).completed < Config.chainLimit) ∧
  ((s.channel c).phase ≠ .idle ↔ s.executing c ≠ none) ∧
  (∀ d ∈ s.executing c, (s.desc d).active = true ∧ (s.channel c).units < (s.desc d).runLength)

/-- R125: a descriptor is active exactly while one channel, and only one, executes it. -/
abbrev ActiveLaw (s : State) : Prop :=
  (∀ d : DescId, (s.desc d).active = true → s.executing 0 = some d ∨ s.executing 1 = some d) ∧
  (s.executing 0 ≠ none → s.executing 0 ≠ s.executing 1)

/-- R143, R144, R152: the grant is held by the channel whose unit is in flight, the outstanding access is that unit's, at the
executed descriptor's own address and unit size, and data is held exactly between the read and the write's response. -/
abbrev MemoryLaw (s : State) : Prop :=
  (∀ c : ChannelId, s.mp.grant = some c ↔ (s.channel c).phase = .reading ∨ (s.channel c).phase = .writing) ∧
  (s.mp.grant = none ↔ s.mp.access = none) ∧
  (s.mp.access = none → s.mp.heldData = none) ∧
  (∀ c ∈ s.mp.grant, ∀ a ∈ s.mp.access, ∀ d ∈ s.executing c,
    s.mp.alternation = c ∧
    (a.isWrite = true ↔ (s.channel c).phase = .writing) ∧
    (s.mp.heldData ≠ none ↔ a.isWrite = true) ∧
    a.size = (s.desc d).unitSize ∧ a.addr = (if a.isWrite then (s.desc d).dst else (s.desc d).src))

/-- The laws of delegated transfers. -/
abbrev DelegationLaw (s : State) : Prop :=
  (∀ d : DescId, DescriptorLaw (s.desc d)) ∧ (∀ c : ChannelId, ChannelLaw s c) ∧ ActiveLaw s ∧ MemoryLaw s

/-! ### Windows, notices, ports -/

/-- R149: a window's pages are 1 to 65,536 in number and lie in the address space. -/
abbrev WindowLaw (w : Window) : Prop :=
  1 ≤ w.count ∧ w.count ≤ Config.maxPageCount ∧ w.base + w.count ≤ Config.pageLimit

/-- R168: the port is WORKING exactly while a pending DISARM is recorded; it then holds no bus write back (R174), and the echoed
code is 0 or a request code. -/
abbrev PortLaw (p : Port) : Prop :=
  (p.working = true ↔ p.pendingDisarm ≠ none) ∧ (p.working = true → p.waiting = none) ∧ p.echo.toNat ≤ 26

/-- The laws of the windows, the Notice Queue (R161) and the ports. -/
abbrev BoardLaw (s : State) : Prop :=
  (∀ (h : HostId) (k : Fin 8), WindowLaw (look (s.windows h) k)) ∧
  s.nq.records.length ≤ Config.noticeDepth ∧ ∀ h : HostId, PortLaw (s.port h)

/-- A lawful state: every law holds. A safe run keeps to lawful states. -/
abbrev Lawful (s : State) : Prop := HostLaw s ∧ EntryLaw s ∧ DeliveryLaw s ∧ DelegationLaw s ∧ BoardLaw s

/-! ### Terms of the statements: requests at a port -/

/-- R170, R59, R168, logs 10 and 38: port h takes a request: RESET_n and its HRST_n are high, it is READY and no bus write is held. -/
abbrev PortTakes (s : State) (h : HostId) : Prop :=
  s.pins.resetLow = false ∧ hasHost s.pins.hrst h = false ∧ (s.port h).working = false ∧ (s.port h).waiting = none

/-- The answer with the queue q in its next state. -/
def withQueue (q : List Instr) : Result → Result
  | .next t => .next { t with pending := q }
  | .fault f => .fault f
  | .refused r => .refused r

/-- Nothing but port h has changed: it has taken a request and answered it with a code (R170). -/
def State.answered (s : State) (h : HostId) (code : Operand) (r : ResultCode) : State :=
  { s with ports := put s.ports h { look s.ports h with lost := false, result := r, echo := code } }

/-- Nothing but port h has changed: it has answered OK with a record in its staging words (R170). -/
def State.answeredWith (s : State) (h : HostId) (code : Operand) (words : Table Word 8) : State :=
  { s with ports := put s.ports h { look s.ports h with lost := false, result := .ok, echo := code, stage := words } }

end Sys2Proof.Machine

namespace Sys2Proof

open Machine (Right)

/-- The host at whose port the command is a request of the catalogue (R173). -/
def Instr.port : Instr → Option HostId
  | .attach h => some h
  | .detach h => some h
  | .setThreshold h _ => some h
  | .take h _ => some h
  | .finish h _ => some h
  | .release h _ => some h
  | .post h _ => some h
  | .readEntry h _ => some h
  | .readDesc h _ => some h
  | .readWindow h _ _ => some h
  | .readHost h _ => some h
  | .popNotice h => some h
  | .readNoticeStatus h => some h
  | .writeEntry h _ => some h
  | .enable h _ _ => some h
  | .disable h _ => some h
  | .clearEntry h _ => some h
  | .retry h _ => some h
  | .writeBinding h _ => some h
  | .arm h _ => some h
  | .disarm h _ => some h
  | .writeDesc h _ => some h
  | .writeWindow h _ _ => some h
  | .setHostLimits h _ _ _ => some h
  | .setRights h _ _ => some h
  | .handOver h _ => some h
  | .evict h _ => some h
  | _ => none

/-- The right the request needs (R173). -/
def Instr.right : Instr → Right
  | .writeEntry _ _ => .config
  | .enable _ _ _ => .config
  | .disable _ _ => .config
  | .clearEntry _ _ => .config
  | .retry _ _ => .config
  | .writeBinding _ _ => .config
  | .arm _ _ => .config
  | .disarm _ _ => .config
  | .writeDesc _ _ => .desc
  | .writeWindow _ _ _ => .supervisor
  | .setHostLimits _ _ _ _ => .supervisor
  | .setRights _ _ _ => .supervisor
  | .handOver _ _ => .supervisor
  | .evict _ _ => .supervisor
  | _ => .none

/-- Does the request need a session (R173)? -/
def Instr.session : Instr → Bool
  | .take _ _ => true
  | .finish _ _ => true
  | .release _ _ => true
  | .post _ _ => true
  | _ => false

/-- Are the operands of the REQUEST word in the range the request allows (R171 check 4)? -/
def Instr.inRange : Instr → Bool
  | .setThreshold _ v => decide (v.toNat < 16)
  | .take _ x => decide (x.toNat < 64)
  | .finish _ x => decide (x.toNat < 64)
  | .release _ x => decide (x.toNat < 64)
  | .post _ x => decide (48 ≤ x.toNat ∧ x.toNat ≤ 62)
  | .readEntry _ x => decide (x.toNat < 64)
  | .readDesc _ x => decide (x.toNat < 128)
  | .readWindow _ x y => decide (x.toNat < 4 ∧ y.toNat < 8)
  | .readHost _ x => decide (x.toNat < 4)
  | .writeEntry _ x => decide (x.toNat < 64)
  | .enable _ x v => decide (x.toNat < 64 ∧ v = 1)
  | .disable _ x => decide (x.toNat < 64)
  | .clearEntry _ x => decide (x.toNat < 64)
  | .retry _ x => decide (x.toNat < 64)
  | .writeBinding _ x => decide (x.toNat < 63)
  | .arm _ x => decide (x.toNat < 63)
  | .disarm _ x => decide (x.toNat < 64)
  | .writeDesc _ x => decide (x.toNat < 128)
  | .writeWindow _ x y => decide (x.toNat < 4 ∧ y.toNat < 8)
  | .setHostLimits _ x y _ => decide (x.toNat < 4 ∧ 1 ≤ y.toNat ∧ y.toNat ≤ 15)
  | .setRights _ x v => decide (x.toNat < 4 ∧ v.toNat < 4)
  | .handOver _ x => decide (x.toNat < 4)
  | .evict _ x => decide (x.toNat < 4)
  | _ => true

end Sys2Proof

namespace Sys2Proof.Machine

/-! ### Terms of the statements: offers -/

/-- R66, R17: e is the best entry for h: eligible, of the highest level of all that are, and of those the nearest the head of the
arrival order list. -/
abbrev IsBest (s : State) (h : HostId) (e : Source) : Prop :=
  e ∈ s.et.order ∧ s.eligible e h = true ∧
  ∀ f ∈ s.et.order, s.eligible f h = true →
    (s.cfg f).level < (s.cfg e).level ∨ ((s.cfg f).level = (s.cfg e).level ∧ s.et.order.idxOf e ≤ s.et.order.idxOf f)

/-- The slot as an offer of e to h fills it (R62, R67, R74). -/
def State.filled (s : State) (h : HostId) (e : Source) : Slot :=
  { offer := some { source := e, level := (s.cfg e).level, policy := (s.cfg e).policy,
                    outcome := (s.prog e).outcome.getD .plain }
    timer := if (s.ctx h).timeout = 0 then none else some (s.tb.micros + (s.ctx h).timeout.val * 16) }

/-- R67, R69: what a choice for h in the state s makes of its slot in t: with no entry eligible nothing; else the best entry fills
an empty slot, replaces a standing offer of lower level, and leaves one of equal or higher level. -/
abbrev ChoiceFor (s t : State) (h : HostId) : Prop :=
  ((∀ e ∈ s.et.order, s.eligible e h = false) → t.slot h = s.slot h) ∧
  (∀ e : Source, IsBest s h e →
    ((s.slot h).offer = none → t.slot h = s.filled h e) ∧
    (∀ o ∈ (s.slot h).offer,
      (o.level < (s.cfg e).level → t.slot h = s.filled h e) ∧ ((s.cfg e).level ≤ o.level → t.slot h = s.slot h)))

/-- The hosts in whose slot a choice would place entry e, were it their best (R67, R69, R103): eligible, not waiting, and with a slot
that is empty or holds an offer of lower level. -/
def State.candidates (s : State) (e : Source) : List HostId :=
  allHosts.filter fun h => s.eligible e h && !s.choiceWaits h &&
    match (s.slot h).offer with
    | none => true
    | some o => decide (o.level < (s.cfg e).level)

/-- Every host whose choice does not wait has, of the entries that pass the test, none eligible but such as its standing offer is
level with or above. -/
abbrev SettledOver (s : State) (p : Source → Bool) : Prop :=
  ∀ h : HostId, s.choiceWaits h = false → ∀ f : Source, p f = true → s.eligible f h = true →
    ∃ o ∈ (s.slot h).offer, (s.cfg f).level ≤ o.level

/-- R67 rows 1 and 2, R68, R69, R103, R104: t is s after the news of entry e was taken in a state with every other choice settled.
With no candidate nothing changes. Every candidate's slot is filled with e, but under ANY only that of the host the arbiter names;
e is then offered to them, and the news of the entries displaced has been taken, so that no choice is left open. -/
abbrev Placed (s : State) (e : Source) (t : State) : Prop :=
  (s.candidates e = [] → t = s) ∧
  (∀ w : HostId, (if (s.cfg e).policy = .any then s.arbitrate (s.candidates e) = some w else w ∈ s.candidates e) →
    t.slot w = s.filled w e ∧ hasHost (t.prog e).offered w = true) ∧
  SettledOver t (fun _ => true)

/-- R63, R67 to R69: t is s after offer choices and nothing else. Only offered sets, slots and withdrawals not yet taken (log 6)
differ; a slot whose choice waits keeps what it held; no offer goes but for one of higher level. -/
abbrev OffersOnly (s t : State) : Prop :=
  t = { s with
    et := { s.et with entries := t.et.entries }
    ou := { s.ou with slots := t.ou.slots }
    claims := { s.claims with handed := t.claims.handed } } ∧
  (∀ e : Source, t.entry e = { s.entry e with prog := { s.prog e with offered := (t.prog e).offered } }) ∧
  (∀ h : HostId, (t.handedOf h).Sublist (s.handedOf h) ∧
    ∀ x ∈ s.handedOf h, x ∈ t.handedOf h ∨ ∃ e : Source, x = .withdraw e) ∧
  (∀ h : HostId, s.choiceWaits h = true → t.slot h = s.slot h) ∧
  (∀ h : HostId, ∀ o ∈ (s.slot h).offer, t.slot h = s.slot h ∨ ∃ q ∈ (t.slot h).offer, o.level < q.level)

/-- Before the news of e: every choice over the other entries is settled, the standing offers have their entries' levels (R62), and
the arrival order list holds every entry in delivery (R16). -/
abbrev SettledBut (s : State) (e : Source) : Prop :=
  SettledOver s (fun f => f != e) ∧ (∀ h : HostId, ∀ o ∈ (s.slot h).offer, o.level = (s.cfg o.source).level) ∧
  ∀ f : Source, (s.prog f).state = .delivering → f ∈ s.et.order

/-- R67: t is s after the news that entry e has entered DELIVERING or become unoffered: offer choices and nothing else, and, where
every choice but that for e was settled, e is placed. -/
abbrev NewsTaken (s : State) (e : Source) (t : State) : Prop :=
  OffersOnly s t ∧ (SettledBut s e → Placed s e t)

/-- The candidates for entry e whose best entry it is: the hosts whose choice would place it in their slot (R103). -/
def State.seekers (s : State) (e : Source) : List HostId :=
  (s.candidates e).filter fun k => decide (IsBest s k e)

/-- Before the news of e, with h's own choice open: every choice of the other hosts over the other entries is settled, the standing
offers have their entries' levels (R62), the arrival order list holds every entry in delivery (R16), and h is offered another entry. -/
abbrev SettledApart (s : State) (h : HostId) (e : Source) : Prop :=
  (∀ k : HostId, k ≠ h → s.choiceWaits k = false → ∀ f : Source, f ≠ e → s.eligible f k = true →
    ∃ o ∈ (s.slot k).offer, (s.cfg f).level ≤ o.level) ∧
  (∀ k : HostId, ∀ o ∈ (s.slot k).offer, o.level = (s.cfg o.source).level) ∧
  (∀ f : Source, (s.prog f).state = .delivering → f ∈ s.et.order) ∧
  ∀ o ∈ (s.slot h).offer, o.source ≠ e

/-- R68, R103, R104: t is s after the news of entry e, whose first claim settles it on every host that finds it best, but under ANY on
the one that the arbiter names among them, whatever else h's choice may find. -/
abbrev NewsShared (s : State) (h : HostId) (e : Source) (t : State) : Prop :=
  ∃ y : State, OffersOnly s y ∧ OffersOnly y t ∧
    (SettledApart s h e →
      ∀ w : HostId, (if (s.cfg e).policy = .any then s.arbitrate (s.seekers e) = some w else w ∈ s.seekers e) →
        y.slot w = s.filled w e ∧ hasHost (y.prog e).offered w = true)

/-- R67, R69, R87 step 2: t is s after the choice for h alone, where it does not wait, as one claim on h's slot that touches no other
slot, and after the news of the entry that h's slot gave up, if it gave one up. -/
abbrev Chooses (s : State) (h : HostId) (t : State) : Prop :=
  (s.choiceWaits h = true → t = s) ∧
  (s.choiceWaits h = false →
    ∃ w : State, OffersOnly s w ∧ ChoiceFor s w h ∧ (∀ k : HostId, k ≠ h → w.slot k = s.slot k) ∧ OffersOnly w t ∧
      ((s.slot h).offer = none ∨ w.slot h = s.slot h → t = w))

/-- R46, R44, R170: the ATTACH of h that waited is taken after v, the last of the effects it waited for: the session opens with lapse
count 0, the port answers OK, and the choice for h follows. `s` is the state before the command. -/
abbrev SessionOpens (s v : State) (h : HostId) (t : State) : Prop :=
  OffersOnly ((v.setCtx h { v.ctx h with session := .attached, lapseCount := 0 }).setPort h
    { v.port h with waiting := none, result := .ok, echo := 1 }) t ∧
  (Lawful s → s.choiceWaits h = false →
    ChoiceFor ((v.setCtx h { v.ctx h with session := .attached, lapseCount := 0 }).setPort h
      { v.port h with waiting := none, result := .ok, echo := 1 }) t h)

/-! ### Terms of the statements: the life of an entry -/

/-- The state part as an entry enters DELIVERING with an outcome (R11). -/
def Progress.delivering (p : Progress) (o : Outcome) : Progress :=
  { p with state := .delivering, outcome := some o, offered := 0, held := 0, owed := none, decline := none }

/-- Entry e at rest: IDLE with its sets dropped, out of the arrival order list (R14). -/
def State.rested (s : State) (e : Source) : State :=
  (s.setProg e (s.prog e).toIdle).setOrder (s.et.order.erase e)

/-- Entry e latched afresh: LATCHED at the tail of the arrival order list, with its again flag clear (R7, R15). -/
def State.latchedAnew (s : State) (e : Source) : State :=
  (s.setProg e { (s.prog e).toIdle with state := .latched, again := false }).setOrder (s.et.order.erase e ++ [e])

/-- Entry e QUEUED and handed to the Delegation Unit (R8). -/
def State.queuedNow (s : State) (e : Source) : State :=
  { (s.setProg e { s.prog e with state := .queued }) with
    claims := { s.claims with inserts := s.claims.inserts ++ [e] } }

/-- The hosts of a set that are ATTACHED. -/
def State.attachedOf (s : State) (hs : HostSet) : HostSet :=
  hs &&& hostsWhere fun h => (s.ctx h).session == .attached

/- The terms below say what the Event Table leaves of an entry, and what must hold of the state it leaves: `done` where the Offer Unit
has no news of the entry, `news` where the entry stands unoffered and the Offer Unit is to have that news (R67). -/

/-- R11 steps 2 to 4: entry e enters DELIVERING with outcome o in the state s, at a level other than 0 and, under ALL, with a host that
is to owe it: it stands unoffered. -/
abbrev DeliversTo (s : State) (e : Source) (o : Outcome) (news : State → Prop) : Prop :=
  ((s.cfg e).policy = .directed → news (s.setProg e ((s.prog e).delivering o))) ∧
  ((s.cfg e).policy = .any → news (s.setProg e { (s.prog e).delivering o with decline := some 0 })) ∧
  ((s.cfg e).policy = .all → s.attachedOf (s.cfg e).targets ≠ 0 →
    news (s.setProg e { (s.prog e).delivering o with owed := some (s.attachedOf (s.cfg e).targets) }))

/-- R14, R15, R28: an immediate completion of entry e in the state s: with the again flag clear it rests, or, its level still
asserted, is latched again with its level hold mark set; with the flag set it is latched again, waits with enable clear, and is
QUEUED with its binding armed; with neither it is delivered once more, which `first` begins, and rests. -/
abbrev CompletesAtOnce (s : State) (e : Source) (first : State → State) (done : State → Prop) : Prop :=
  ((s.prog e).again = false →
    (((s.cfg e).kind.isLevel && s.levelAsserted e) = false → done (s.rested e)) ∧
    (((s.cfg e).kind.isLevel && s.levelAsserted e) = true →
      done ((s.latchedAnew e).setProg e { (s.latchedAnew e).prog e with hold := true }))) ∧
  ((s.prog e).again = true →
    ((s.cfg e).enable = false → done (s.latchedAnew e)) ∧
    ((s.cfg e).enable = true → (s.bind e).armed = true → done ((s.latchedAnew e).queuedNow e)) ∧
    ((s.cfg e).enable = true → (s.bind e).armed = false → done ((first (s.latchedAnew e)).rested e)))

/-- R11: entry e enters DELIVERING with outcome o in the state s. -/
abbrev DeliversInto (s : State) (e : Source) (o : Outcome) (done news : State → Prop) : Prop :=
  let undelivered := fun u : State => u.noteOn e (u.sequenceOf e) (deliveryNotice .undelivered (some e) none)
  ((s.cfg e).level = 0 → CompletesAtOnce s e id done) ∧
  ((s.cfg e).level ≠ 0 → DeliversTo s e o news) ∧
  ((s.cfg e).level ≠ 0 → (s.cfg e).policy = .all → s.attachedOf (s.cfg e).targets = 0 →
    CompletesAtOnce (undelivered s) e undelivered done)

/-- R8: entry e leaves LATCHED in the state s: QUEUED with its binding armed, else delivered with PLAIN. -/
abbrev LeavesLatchedInto (s : State) (e : Source) (done news : State → Prop) : Prop :=
  ((s.bind e).armed = true → done (s.queuedNow e)) ∧ ((s.bind e).armed = false → DeliversInto s e .plain done news)

/-- R7, R35: entry e latches in the state s, to wait with enable clear and to leave LATCHED with it set. -/
abbrev LatchesInto (s : State) (e : Source) (done news : State → Prop) : Prop :=
  ((s.cfg e).enable = false → done (s.latchedAnew e)) ∧
  ((s.cfg e).enable = true → LeavesLatchedInto (s.latchedAnew e) e done news)

/-- R14, R15: entry e completes in the state s, its again flag or its asserted level making a new event. -/
abbrev CompletesInto (s : State) (e : Source) (done news : State → Prop) : Prop :=
  (((s.prog e).again || (s.cfg e).kind.isLevel && s.levelAsserted e) = false → done (s.rested e)) ∧
  (((s.prog e).again || (s.cfg e).kind.isLevel && s.levelAsserted e) = true → LatchesInto s e done news)

/-- R11: t is s after entry e has entered DELIVERING with outcome o, the news of e taken. -/
abbrev Delivers (s : State) (e : Source) (o : Outcome) (t : State) : Prop :=
  DeliversInto s e o (fun u => t = u) fun u => NewsTaken u e t

/-- R8: t is s after entry e has left LATCHED, the news of e taken. -/
abbrev LeavesLatched (s : State) (e : Source) (t : State) : Prop :=
  LeavesLatchedInto s e (fun u => t = u) fun u => NewsTaken u e t

/-- R7, R35: t is s after entry e has latched, the news of e taken. -/
abbrev Latches (s : State) (e : Source) (t : State) : Prop :=
  LatchesInto s e (fun u => t = u) fun u => NewsTaken u e t

/-- R14, R15: t is s after entry e has completed, the news of e taken. -/
abbrev Completes (s : State) (e : Source) (t : State) : Prop :=
  CompletesInto s e (fun u => t = u) fun u => NewsTaken u e t

/-- R33, R34: t is s after an arrival at an entry e, not S63, that is not IDLE. -/
abbrev Remembers (s : State) (e : Source) (t : State) : Prop :=
  ((s.prog e).again = false → t = s.setProg e { s.prog e with again := true }) ∧
  ((s.prog e).again = true →
    ((s.prog e).merged < 254 → t = s.setProg e { s.prog e with merged := (s.prog e).merged + 1 }) ∧
    ((s.prog e).merged = 254 → (s.prog e).saturated = true → t = s.setProg e { s.prog e with merged := 255 }) ∧
    ((s.prog e).merged = 254 → (s.prog e).saturated = false →
      t = (s.setProg e { s.prog e with merged := 255, saturated := true }).handNotice (s.sequenceOf e)
        (deliveryNotice .mergeSaturated (some e) none)) ∧
    ((s.prog e).merged = 255 → t = s))

/-- R7, R33: t is s after an arrival at entry e. -/
abbrev Arrives (s : State) (e : Source) (t : State) : Prop :=
  ((s.prog e).state = .idle → Latches s e t) ∧ ((s.prog e).state ≠ .idle → Remembers s e t)

/-! ### Terms of the statements: claims handed on -/

/-- R46, log 2: x is the next claim handed for host h that passes the test, and `rest` is what stays handed without it: nothing
before it passes the test or has to be taken first. -/
abbrev NextHanded (s : State) (h : HostId) (p : Handed → Bool) (x : Handed) (rest : List Handed) : Prop :=
  p x = true ∧ ∃ before after : List Handed,
    s.handedOf h = before ++ x :: after ∧ rest = before ++ after ∧ ∀ y ∈ before, p y = false ∧ y.before x = false

/-- R46 step 3: the entries that h owes, in ascending order. -/
abbrev OwedInOrder (s : State) (h : HostId) (es : List Source) : Prop :=
  es.Pairwise (fun a b => a < b) ∧
  ∀ e : Source, e ∈ es ↔
    (s.prog e).state = .delivering ∧ (s.cfg e).policy = .all ∧ hasHost ((s.prog e).owed.getD 0) h = true

/-- R46, R91: h has left its session in the state s: DETACHED with an empty stack and slot; the withdrawal, the releases from the
top record down and the departures from the owed sets are handed to the Event Table in this order; a take not yet pushed is
ended (log 8), and a lapse report not yet taken is overtaken (R76). -/
def State.gaveBack (s : State) (h : HostId) (es : List Source) : State :=
  { s with
    hcu := { s.hcu with ctx := put s.hcu.ctx h { s.ctx h with session := .detached, stack := [] } }
    ou := { s.ou with
      slots := put s.ou.slots h { offer := none, timer := none }
      views := put s.ou.views h [] }
    claims := { s.claims with
      handed := put s.claims.handed h (s.handedOf h ++
        ((s.slot h).offer.toList.map fun o => Handed.withdraw o.source) ++
        ((s.ctx h).stack.reverse.map fun r => Handed.stackRelease r.source) ++ es.map Handed.depart)
      takes := put s.claims.takes h ((s.takeOf h).map fun t => { t with ended := true })
      lapses := put s.claims.lapses h (if s.lapseOf h = .reported then .overtaken else s.lapseOf h)
      undos := put s.claims.undos h none } }

/-! ### Terms of the statements: delegated transfers -/

/-- R136: e is the best of the entries on a list: of the highest level, and of those nearest the head of the arrival order. -/
abbrev IsBestOf (s : State) (l : List Source) (e : Source) : Prop :=
  e ∈ l ∧ e ∈ s.et.order ∧
  ∀ f ∈ l, f ∈ s.et.order →
    (s.cfg f).level < (s.cfg e).level ∨ ((s.cfg f).level = (s.cfg e).level ∧ s.et.order.idxOf e ≤ s.et.order.idxOf f)

/-- R136, R125: channel c has taken entry e from the list `l` of those that waited, and goes to the binding's head d. -/
def State.granted (s : State) (c : ChannelId) (e : Source) (d : DescId) (l : List Source) : State :=
  State.setProg
    { s with du := { s.du with
        list := l.filter fun x => x != e
        lastGrant := c
        channels := put s.du.channels c
          { running := true, entry := some e, position := .arriving d, completed := 0, units := 0, phase := .idle,
            cutMark := false, reported := false } } }
    e { s.prog e with state := .running }

/-- R137: channel c has reported a result and stands nowhere (log 37). -/
def State.reporting (s : State) (c : ChannelId) (r : RunResult) : State :=
  { s with
    du := { s.du with
      channels := put s.du.channels c { s.channel c with position := .nowhere, phase := .idle, reported := true } }
    claims := { s.claims with reports := put s.claims.reports c (some r) } }

/-- R146, R147: the run on channel c fails at descriptor d: faulted and no longer active, its addresses kept; the notice is handed
on before the failure is reported. -/
def State.unitFailed (s : State) (c : ChannelId) (d : DescId) (kind : NoticeKind) (addr : Addr) : State :=
  State.reporting
    (State.handNotice (s.setDesc d { s.desc d with active := false, faulted := true }) (.channel c)
      { kind := kind, source := (s.channel c).entry, host := (s.desc d).owner, desc := some d, addr := some addr })
    c .failure

/-- R144: an access is outstanding with the tag counter's tag and a deadline 64 us on, and the counter has advanced. -/
def State.accessed (s : State) (isWrite : Bool) (addr : Addr) (size : Nat) : State :=
  { s with mp := { s.mp with
      access := some { isWrite := isWrite, addr := addr, size := size, tag := s.mp.tagCounter,
                       deadline := s.tb.micros + 64 }
      tagCounter := s.mp.tagCounter + 1 } }

/-- R143: channel c, executing d, holds the grant and its read is issued. -/
def State.reads (s : State) (c : ChannelId) (d : DescId) : State :=
  State.setChannel
    (State.accessed { s with mp := { s.mp with grant := some c, alternation := c } } false (s.desc d).src (s.desc d).unitSize)
    c { s.channel c with phase := .reading }

/-- R143: the grant, the access and the held data are gone, and the other channel, if its request waits at d', is granted. -/
abbrev PortFreed (s : State) (c : ChannelId) (t : State) : Prop :=
  let u : State := { s with mp := { s.mp with grant := none, access := none, heldData := none } }
  ((s.channel (c + 1)).phase ≠ .waitingPort → t = u) ∧
  ((s.channel (c + 1)).phase = .waitingPort → ∀ d ∈ s.executing (c + 1), t = u.reads (c + 1) d)

end Sys2Proof.Machine
end

