-- ==== Sys2Proof/Certificates/Slice0/Obligations.lean ====
section
/-! DEFINITION. The statements for the provers. The terms they share stand in Sys2Proof/Safety.lean. A clause that rests on a
choice of the model names the log entry. -/

open Sys2Proof Sys2Proof.Machine

/-! ### The step -/

/-- With commands waiting, a step is exec of the front command on the state with the rest of the queue (log 22); with none, one
microsecond passes (the model's choice, log 18). -/
def Obligations.StepRunsTheFrontCommand : Prop :=
  ∀ s : State,
    (∀ (c : Instr) (rest : List Instr), step { s with pending := c :: rest } = exec c { s with pending := rest }) ∧
    (s.pending = [] → step s = .next { s with tb := { s.tb with micros := s.tb.micros + 1 } })

/-- No command reads or changes the queue behind it (log 22): what it does to every other part of the state it does with any
queue, and it leaves the queue as it found it. -/
def Obligations.ExecKeepsTheQueue : Prop :=
  ∀ (c : Instr) (s : State) (q : List Instr), exec c { s with pending := q } = withQueue q (exec c s)

/-- R177: the REQUEST word has the request code in bits 7:0, the object operand in 15:8, the sub-operand in 23:16 and the value in
31:24; a code of 1 to 26 spells a request of that code at that port, and a code outside 1 to 26 an unknown request. -/
def Obligations.RequestWordFieldsAreRead : Prop :=
  ∀ (h : HostId) (code object sub value : Operand),
    requestOfWord h (value ++ sub ++ object ++ code) =
      (requestOfCode h code.toNat object sub value).getD (.unknownRequest h code) ∧
    ((requestOfCode h code.toNat object sub value).isSome = true ↔ 1 ≤ code.toNat ∧ code.toNat ≤ 26) ∧
    (∀ c : Instr, requestOfCode h code.toNat object sub value = some c → c.code = code ∧ c.port = some h)

/-! ### The port -/

/-- R171 checks 1 to 4 over the catalogue of R173: a taken request with an unknown code is answered UNKNOWN with echoed code 0; one
whose right the host lacks RIGHTS; one that needs a session from a DETACHED host DETACHED; one with an operand out of range RANGE.
Nothing but the port changes. The checks are of the state at the request's one step (log 38). -/
def Obligations.RequestsAreCheckedInOrder : Prop :=
  ∀ (s : State) (h : HostId), PortTakes s h →
    (∀ code : Operand, ¬(1 ≤ code.toNat ∧ code.toNat ≤ 26) →
      exec (.unknownRequest h code) s = .next (s.answered h 0 .unknown)) ∧
    (∀ c : Instr, c.port = some h → c.wellFormed = true →
      (s.holdsRight h c.right = false → exec c s = .next (s.answered h c.code .rights)) ∧
      (s.holdsRight h c.right = true →
        (c.session = true → (s.ctx h).session = .detached → exec c s = .next (s.answered h c.code .detached)) ∧
        ((c.session = true → (s.ctx h).session ≠ .detached) → c.inRange = false →
          exec c s = .next (s.answered h c.code .range))))

/-- R59, R168, R175: a request is ignored while RESET_n or the host's HRST_n is low, and sets the lost flag and nothing else while
the port is WORKING. LOST_REQUEST is such a request of any code. -/
def Obligations.PortsThatTakeNoRequest : Prop :=
  ∀ (c : Instr) (h : HostId) (s : State),
    ((c.port = some h ∧ c.wellFormed = true) ∨ c = .lostRequest h ∨
      ∃ code : Operand, ¬(1 ≤ code.toNat ∧ code.toNat ≤ 26) ∧ c = .unknownRequest h code) →
    (s.pins.resetLow = true ∨ hasHost s.pins.hrst h = true → exec c s = .next s) ∧
    (s.pins.resetLow = false → hasHost s.pins.hrst h = false → (s.port h).working = true →
      exec c s = .next (s.setPort h { s.port h with lost := true }))

/-- The stops of the model (log 10, log 11): a request, known or unknown, while the host's last REQUEST write is still held on the
bus, a term that spells another row's command, and LOST_REQUEST at a port that is READY. Any other command answers a next
state. -/
def Obligations.CommandsThatCannotOccurAreRefused : Prop :=
  ∀ (h : HostId) (s : State),
    (∀ c : Instr, c.port = some h → c.wellFormed = true → s.pins.resetLow = false → hasHost s.pins.hrst h = false →
      (s.port h).working = false → (s.port h).waiting ≠ none → exec c s = .refused .busHeld) ∧
    (∀ c : Instr, c.wellFormed = false → exec c s = .refused .otherCommand) ∧
    (∀ code : Operand, ¬(1 ≤ code.toNat ∧ code.toNat ≤ 26) → s.pins.resetLow = false → hasHost s.pins.hrst h = false →
      (s.port h).working = false → (s.port h).waiting ≠ none → exec (.unknownRequest h code) s = .refused .busHeld) ∧
    (s.pins.resetLow = false → hasHost s.pins.hrst h = false → (s.port h).working = false →
      exec (.lostRequest h) s = .refused .otherCommand) ∧
    (∀ c : Instr, c.wellFormed = true →
      (∀ k : HostId, (c.port = some k ∨ ∃ code : Operand, c = .unknownRequest k code) →
        s.pins.resetLow = true ∨ hasHost s.pins.hrst k = true ∨ (s.port k).working = true ∨ (s.port k).waiting = none) →
      (∀ k : HostId, c = .lostRequest k →
        s.pins.resetLow = true ∨ hasHost s.pins.hrst k = true ∨ (s.port k).working = true) →
      ∃ t : State, exec c s = .next t)

/-- R169, R177: a staging word takes a write whatever the port state; a read-only register or an unlisted offset ignores it; so
does every word while RESET_n or the host's HRST_n is low. -/
def Obligations.RegisterWriteStagesAWord : Prop :=
  ∀ (h : HostId) (w : Word) (s : State),
    (∀ i : Fin 8, s.pins.resetLow = false → hasHost s.pins.hrst h = false →
      exec (.registerWrite h ⟨8 + i.val, by omega⟩ w) s =
        .next (s.setPort h { s.port h with stage := put (s.port h).stage i w })) ∧
    (∀ offset : Fin 16, 1 ≤ offset.val → offset.val < 8 → exec (.registerWrite h offset w) s = .next s) ∧
    (∀ offset : Fin 16, offset ≠ 0 → s.pins.resetLow = true ∨ hasHost s.pins.hrst h = true →
      exec (.registerWrite h offset w) s = .next s)

/-! ### Host contexts -/

/-- R44, R46, R170: ATTACH of an ATTACHED host changes nothing; else the session becomes ATTACHED with lapse count 0 and the choice
for the host follows; while the effects of the host's last departure are outstanding the bus write is held back. -/
def Obligations.AttachOpensTheSession : Prop :=
  ∀ (s : State) (h : HostId), PortTakes s h →
    ((s.ctx h).session = .attached → exec (.attach h) s = .next (s.answered h 1 .ok)) ∧
    ((s.ctx h).session ≠ .attached → s.givingBack h = true →
      exec (.attach h) s = .next (s.setPort h { s.port h with lost := false, waiting := some .attach })) ∧
    ((s.ctx h).session ≠ .attached → s.givingBack h = false →
      ∃ t : State, exec (.attach h) s = .next t ∧
        OffersOnly ((s.setCtx h { s.ctx h with session := .attached, lapseCount := 0 }).answered h 1 .ok) t ∧
        (Lawful s → s.choiceWaits h = false →
          ChoiceFor ((s.setCtx h { s.ctx h with session := .attached, lapseCount := 0 }).answered h 1 .ok) t h))

/-- R46, R91: DETACH of a DETACHED host changes nothing; else the session, the stack and the slot are given back at once, and the
withdrawal, the releases top first and the departures in ascending order are handed on. A take not yet pushed is ended (R85, log 8),
and a lapse report not yet taken is overtaken (R76, log 35). -/
def Obligations.DetachGivesEverythingBack : Prop :=
  ∀ (s : State) (h : HostId), PortTakes s h →
    ((s.ctx h).session = .detached → exec (.detach h) s = .next (s.answered h 2 .ok)) ∧
    ((s.ctx h).session ≠ .detached → ((s.slot h).offer = none → (s.slot h).timer = none) →
      ∃ es : List Source, OwedInOrder s h es ∧ exec (.detach h) s = .next ((s.gaveBack h es).answered h 2 .ok))

/-- R48, R67, R73: SET_THRESHOLD writes the threshold; a standing offer whose level is no longer above the effective level, as the
Offer Unit sees it (R63, log 3), is withdrawn; a withdrawal or a changed effective level starts the choice, and nothing else follows. -/
def Obligations.SetThresholdWritesTheThreshold : Prop :=
  ∀ (s : State) (h : HostId) (v : Level) (value : Operand), PortTakes s h → value.toNat = v.val →
    let u := (s.setCtx h { s.ctx h with threshold := v }).answered h 3 .ok
    ((∀ o ∈ (s.slot h).offer, u.viewLevel h < o.level) → u.level h = s.level h → exec (.setThreshold h value) s = .next u) ∧
    ((∀ o ∈ (s.slot h).offer, u.viewLevel h < o.level) → u.level h ≠ s.level h →
      ∃ t : State, exec (.setThreshold h value) s = .next t ∧ OffersOnly u t ∧
        (Lawful s → s.choiceWaits h = false → ChoiceFor u t h)) ∧
    (∀ o ∈ (s.slot h).offer, o.level ≤ u.viewLevel h →
      let w := (u.setSlot h { offer := none, timer := none }).setHanded h (s.handedOf h ++ [.withdraw o.source])
      ∃ t : State, exec (.setThreshold h value) s = .next t ∧ OffersOnly w t ∧
        (Lawful s → s.choiceWaits h = false → ChoiceFor w t h))

/-- R77, R105: a TAKE of the source that the slot holds empties the slot, stops the timer and hands the take on, an ANY take moving
the rotation pointer, and its answer is to follow (R84); a TAKE of any other source is answered STALE. -/
def Obligations.TakeEmptiesTheSlot : Prop :=
  ∀ (s : State) (h : HostId) (e : Source) (object : Operand), PortTakes s h → (s.ctx h).session ≠ .detached →
    object.toNat = e.val →
    (∀ o ∈ (s.slot h).offer, o.source = e →
      exec (.take h object) s = .next { s with
        ou := { s.ou with
          slots := put s.ou.slots h { offer := none, timer := none }
          rotation := if o.policy = .any then h else s.ou.rotation }
        claims := { s.claims with takes := put s.claims.takes h (some { offer := o, cleared := false, ended := false }) }
        ports := put s.ports h { s.port h with lost := false, waiting := some .take } }) ∧
    ((∀ o ∈ (s.slot h).offer, o.source ≠ e) → exec (.take h object) s = .next (s.answered h 4 .stale))

/-- R86, R89, R55: FINISH and RELEASE remove the named record from where it stands and hand the Event Table the report, a RELEASE
with whether the host is LAPSED; with no such record they are answered STATE. -/
def Obligations.FinishAndReleaseRemoveTheRecord : Prop :=
  ∀ (s : State) (h : HostId) (e : Source) (object : Operand), PortTakes s h → (s.ctx h).session ≠ .detached →
    object.toNat = e.val →
    let u := s.setCtx h { s.ctx h with stack := (s.ctx h).stack.filter fun r => r.source != e }
    ((∃ r ∈ (s.ctx h).stack, r.source = e) →
      exec (.finish h object) s = .next ((u.setHanded h (s.handedOf h ++ [.finish e])).answered h 5 .ok) ∧
      exec (.release h object) s = .next
        ((u.setHanded h (s.handedOf h ++ [.release e (decide ((s.ctx h).session = .lapsed))])).answered h 6 .ok)) ∧
    ((∀ r ∈ (s.ctx h).stack, r.source ≠ e) →
      exec (.finish h object) s = .next (s.answered h 5 .state) ∧
      exec (.release h object) s = .next (s.answered h 6 .state))

/-- R53, R51, R52, R49: the supervisor's SET_HOST_LIMITS writes limit and timeout, SET_RIGHTS the two stored flags, and HAND_OVER
moves the designation to an ATTACHED host, changes nothing for the supervisor itself and is answered STATE for any other. -/
def Obligations.SupervisorRequestsWriteTheContexts : Prop :=
  ∀ (s : State) (h k : HostId) (object : Operand), PortTakes s h → s.hcu.supervisor = h → object.toNat = k.val →
    (∀ (limit : Fin 16) (sub value : Operand), limit ≠ 0 → sub.toNat = limit.val →
      exec (.setHostLimits h object sub value) s =
        .next ((s.setCtx k { s.ctx k with lapseLimit := limit, timeout := value.toFin }).answered h 23 .ok)) ∧
    (∀ config desc : Bool,
      exec (.setRights h object (BitVec.ofNat 8 (bit config + 2 * bit desc))) s =
        .next ((s.setCtx k { s.ctx k with configRight := config, descRight := desc }).answered h 24 .ok)) ∧
    (k = h → exec (.handOver h object) s = .next (s.answered h 25 .ok)) ∧
    (k ≠ h → (s.ctx k).session = .attached →
      exec (.handOver h object) s = .next (State.answered { s with hcu := { s.hcu with supervisor := k } } h 25 .ok)) ∧
    (k ≠ h → (s.ctx k).session ≠ .attached → exec (.handOver h object) s = .next (s.answered h 25 .state))

/-- R56, R46, R163: EVICT of another, LAPSED host hands on the EVICTED notice and gives everything of that host back; of the
supervisor itself, or of a host that is not LAPSED, it is answered STATE. A TAKE of the evicted host that waits for the removal of
its record is answered STALE (R84, log 7), its take not yet pushed is ended (R85, log 8), and its lapse report not yet taken is
overtaken (R76, log 35). -/
def Obligations.EvictGivesEverythingBack : Prop :=
  ∀ (s : State) (h k : HostId) (object : Operand), PortTakes s h → s.hcu.supervisor = h → object.toNat = k.val →
    (k ≠ h → (s.ctx k).session = .lapsed → ((s.slot k).offer = none → (s.slot k).timer = none) →
      ∃ es : List Source, OwedInOrder s k es ∧
        let u := State.gaveBack (s.handNotice (.host k) (deliveryNotice .evicted none (some k))) k es
        (s.undoOf k = none ∨ (s.port k).waiting ≠ some .take →
          exec (.evict h object) s = .next (u.answered h 26 .ok)) ∧
        (s.undoOf k ≠ none → (s.port k).waiting = some .take →
          exec (.evict h object) s =
            .next ((u.setPort k { s.port k with waiting := none, result := .stale, echo := 4 }).answered h 26 .ok))) ∧
    (k = h ∨ (s.ctx k).session ≠ .lapsed → exec (.evict h object) s = .next (s.answered h 26 .state))

/-! ### Reads -/

/-- R19, R61, R179, R180: READ_ENTRY and READ_HOST return the record with every field at its bits, an absent field with value 0
and its present bit clear, and words the layout does not use as 0. Nothing but the port changes. -/
def Obligations.EntryAndHostReadsReturnTheRecord : Prop :=
  ∀ (s : State) (h : HostId) (object : Operand), PortTakes s h → OrderLaw s →
    (∀ e : Source, object.toNat = e.val →
      ∃ w : Table Word 8, exec (.readEntry h object) s = .next (s.answeredWith h 8 w) ∧
        let c := s.cfg e
        let b := s.bind e
        let p := s.prog e
        (∀ f ∈ [(0, 4, c.kind.code), (4, 4, c.level.val), (8, 2, c.policy.code), (12, 4, c.targets.toNat),
            (16, 1, bit c.enable), (17, 15, 0)], field (look w 0) f.1 f.2.1 = f.2.2) ∧
        (∀ f ∈ [(0, 16, b.runsLeft.val), (16, 16, (b.reload.getD 0).val)], field (look w 1) f.1 f.2.1 = f.2.2) ∧
        (∀ f ∈ [(0, 8, (b.head.getD 0).val), (8, 1, bit b.head.isSome), (9, 1, bit b.reload.isSome), (12, 2, b.deliver.code),
            (16, 1, bit b.armed), (17, 15, 0)], field (look w 2) f.1 f.2.1 = f.2.2) ∧
        (∀ f ∈ [(0, 3, p.state.code), (4, 1, bit p.again), (5, 1, bit p.saturated), (6, 1, bit p.hold),
            (7, 1, bit p.disarmPending), (8, 3, outcomeCode p.outcome), (16, 8, p.merged.val),
            (24, 6, if p.state = .idle then 0 else s.et.order.idxOf e), (30, 1, if p.state = .idle then 0 else 1)],
          field (look w 3) f.1 f.2.1 = f.2.2) ∧
        (∀ f ∈ [(0, 4, p.offered.toNat), (4, 4, p.held.toNat), (8, 4, (p.owed.getD 0).toNat), (12, 1, bit p.owed.isSome),
            (16, 4, (p.decline.getD 0).toNat), (20, 1, bit p.decline.isSome), (21, 11, 0)],
          field (look w 4) f.1 f.2.1 = f.2.2) ∧
        look w 5 = 0 ∧ look w 6 = 0 ∧ look w 7 = 0) ∧
    (∀ k : HostId, object.toNat = k.val → (s.ctx k).stack.length ≤ 8 →
      ∃ w : Table Word 8, exec (.readHost h object) s = .next (s.answeredWith h 11 w) ∧
        let c := s.ctx k
        (∀ f ∈ [(0, 2, c.session.code), (4, 4, (s.level k).val), (8, 4, c.stack.length), (12, 4, c.lapseCount.val),
            (16, 1, bit c.configRight), (17, 1, bit c.descRight), (18, 1, if s.hcu.supervisor = k then 1 else 0),
            (20, 4, c.threshold.val), (24, 4, c.lapseLimit.val), (28, 4, 0)], field (look w 0) f.1 f.2.1 = f.2.2) ∧
        look w 1 = BitVec.ofNat 32 c.timeout.val ∧
        ((s.slot k).offer = none → look w 2 = 0) ∧
        (∀ o ∈ (s.slot k).offer,
          ∀ f ∈ [(0, 1, 1), (8, 6, o.source.val), (16, 4, o.level.val), (20, 3, o.outcome.code), (24, 2, o.policy.code)],
            field (look w 2) f.1 f.2.1 = f.2.2) ∧
        look w 3 = 0 ∧
        (∀ (i : Fin 8) (r : StackRecord), c.stack[i.val]? = some r →
          ∀ f ∈ [(0, 6, r.source.val), (6, 2, r.policy.code), (8, 4, r.level.val), (12, 3, r.outcome.code)],
            field (look w ⟨4 + i.val / 2, by omega⟩) (16 * (i.val % 2) + f.1) f.2.1 = f.2.2) ∧
        (∀ i : Fin 8, c.stack[i.val]? = none →
          field (look w ⟨4 + i.val / 2, by omega⟩) (16 * (i.val % 2)) 16 = 0))

/-- R124, R156, R180: READ_DESC and READ_WINDOW return the record with every field at its bits, a missing owner or link with
value 0 and its present bit clear. Nothing but the port changes. -/
def Obligations.DescriptorAndWindowReadsReturnTheRecord : Prop :=
  ∀ (s : State) (h : HostId) (object : Operand), PortTakes s h →
    (∀ d : DescId, object.toNat = d.val → DescriptorLaw (s.desc d) →
      ∃ w : Table Word 8, exec (.readDesc h object) s = .next (s.answeredWith h 9 w) ∧
        let x := s.desc d
        look w 0 = x.src ∧ look w 1 = x.dst ∧
        (∀ f ∈ [(0, 3, x.unitSize), (4, 2, x.srcStep.code), (6, 2, x.dstStep.code), (16, 13, x.runLength), (29, 3, 0)],
          field (look w 2) f.1 f.2.1 = f.2.2) ∧
        (∀ f ∈ [(0, 8, (x.link.getD 0).val), (8, 1, bit x.link.isSome), (16, 2, (x.owner.getD 0).val),
            (18, 1, bit x.owner.isSome), (24, 1, bit x.valid), (25, 1, bit x.active), (26, 1, bit x.faulted)],
          field (look w 3) f.1 f.2.1 = f.2.2) ∧
        look w 4 = 0 ∧ look w 5 = 0 ∧ look w 6 = 0 ∧ look w 7 = 0) ∧
    (∀ (k : HostId) (i : Fin 8) (sub : Operand), object.toNat = k.val → sub.toNat = i.val →
      WindowLaw (look (s.windows k) i) →
      ∃ w : Table Word 8, exec (.readWindow h object sub) s = .next (s.answeredWith h 10 w) ∧
        let x := look (s.windows k) i
        (look w 0).toNat = x.base ∧ (look w 1).toNat = x.count ∧
        (∀ f ∈ [(0, 2, x.access.code), (2, 6, 0), (8, 1, bit x.written), (9, 23, 0)],
          field (look w 2) f.1 f.2.1 = f.2.2) ∧
        look w 3 = 0 ∧ look w 4 = 0 ∧ look w 5 = 0 ∧ look w 6 = 0 ∧ look w 7 = 0)

/-- R164, R167, R179: POP_NOTICE of an empty queue is answered EMPTY and changes nothing else; else the oldest record leaves the
queue and stands in the staging words, and the removal of the last one presents S63's deassertion. -/
def Obligations.PopNoticeTakesTheOldest : Prop :=
  ∀ (s : State) (h : HostId), PortTakes s h →
    (s.nq.records = [] → exec (.popNotice h) s = .next (s.answered h 12 .empty)) ∧
    (∀ (n : Notice) (rest : List Notice), s.nq.records = n :: rest →
      ∃ w : Table Word 8,
        exec (.popNotice h) s = .next (State.answeredWith { s with
          nq := { s.nq with records := rest }
          claims := { s.claims with levels := if rest = [] then s.claims.levels ++ [false] else s.claims.levels } } h 12 w) ∧
        (∀ f ∈ [(0, 4, n.kind.code), (4, 1, bit n.source.isSome), (5, 1, bit n.host.isSome), (6, 1, bit n.desc.isSome),
            (7, 1, bit n.addr.isSome), (8, 6, (n.source.getD 0).val), (16, 2, (n.host.getD 0).val),
            (24, 7, (n.desc.getD 0).val)], field (look w 0) f.1 f.2.1 = f.2.2) ∧
        look w 1 = n.addr.getD 0 ∧
        ∀ i : Fin 8, 2 ≤ i.val → look w i = 0)

/-- R165: READ_NOTICE_STATUS needs no right and no session, copies the record count and the overflow count into the port's staging
words, sets the overflow count to 0, and is answered OK; no record changes and S63 is not acted on. -/
def Obligations.NoticeStatusIsReadAndCleared : Prop :=
  ∀ (s : State) (h : HostId), PortTakes s h → s.nq.records.length ≤ 16 →
    ∃ w : Table Word 8,
      exec (.readNoticeStatus h) s =
        .next (State.answeredWith { s with nq := { s.nq with overflow := 0 } } h 13 w) ∧
      field (look w 0) 0 5 = s.nq.records.length ∧ field (look w 0) 8 8 = s.nq.overflow.val ∧
      field (look w 0) 5 3 = 0 ∧ field (look w 0) 16 16 = 0 ∧ ∀ i : Fin 8, 1 ≤ i.val → look w i = 0

/-! ### Requests on entries -/

/-- R29, R7, R33: a POST from an ATTACHED host to S48 to S62 makes an arrival and is answered OK; from a LAPSED host it is answered
STATE. -/
def Obligations.PostMakesAnArrival : Prop :=
  ∀ (s : State) (h : HostId) (e : Source) (object : Operand), PortTakes s h → object.toNat = e.val →
    48 ≤ e.val → e.val ≤ 62 →
    ((s.ctx h).session = .attached → EntryLaw s →
      ∃ t : State, exec (.post h object) s = .next t ∧ Arrives (s.answered h 7 .ok) e t) ∧
    ((s.ctx h).session = .lapsed → exec (.post h object) s = .next (s.answered h 7 .state))

/-- R18, R26, R179: WRITE_ENTRY of a valid configuration at an IDLE entry writes the five fields and clears the merged count and
the saturation mark, and a level kind whose level is asserted then latches; at any other entry it is answered BUSY, and with no
valid configuration staged RANGE. -/
def Obligations.WriteEntryReplacesTheConfiguration : Prop :=
  ∀ (s : State) (h : HostId) (e : Source) (object : Operand), PortTakes s h → s.holdsRight h .config = true →
    object.toNat = e.val →
    let w := look (s.port h).stage 0
    let staged := fun c : EntryConfig => field w 0 4 = c.kind.code ∧ field w 4 4 = c.level.val ∧ field w 8 2 = c.policy.code ∧
      field w 12 4 = c.targets.toNat ∧ flag w 16 = c.enable
    (∀ c : EntryConfig, ConfigLaw e c → staged c →
      let u := (s.setEntry e { s.entry e with cfg := c, prog := { s.prog e with merged := 0, saturated := false } }).answered
        h 14 .ok
      ((s.prog e).state = .idle → EntryLaw s →
        ∃ t : State, exec (.writeEntry h object) s = .next t ∧
          ((c.kind.isLevel && u.levelAsserted e) = false → t = u) ∧
          ((c.kind.isLevel && u.levelAsserted e) = true → Latches u e t)) ∧
      ((s.prog e).state ≠ .idle → exec (.writeEntry h object) s = .next (s.answered h 14 .busy))) ∧
    ((∀ c : EntryConfig, ConfigLaw e c → ¬staged c) → exec (.writeEntry h object) s = .next (s.answered h 14 .range))

/-- R36, R37, R35: ENABLE sets the enable field, and a LATCHED entry whose level hold mark is clear leaves LATCHED; DISABLE clears
the field and nothing follows. -/
def Obligations.EnableAndDisableWriteTheField : Prop :=
  ∀ (s : State) (h : HostId) (e : Source) (object : Operand), PortTakes s h → s.holdsRight h .config = true →
    object.toNat = e.val → EntryLaw s →
    let u := (s.setCfg e { s.cfg e with enable := true }).answered h 15 .ok
    (¬((s.prog e).state = .latched ∧ (s.prog e).hold = false) → exec (.enable h object 1) s = .next u) ∧
    ((s.prog e).state = .latched → (s.prog e).hold = false →
      ∃ t : State, exec (.enable h object 1) s = .next t ∧ LeavesLatched u e t) ∧
    exec (.disable h object) s = .next ((s.setCfg e { s.cfg e with enable := false }).answered h 15 .ok)

/-- R20, R26, R73, R84: CLEAR_ENTRY of an IDLE entry changes nothing; a QUEUED, a RUNNING or a held entry is answered BUSY; any other
returns to IDLE with its again flag and level hold mark clear, and every standing offer of it is withdrawn with its timer
stopped. Each host whose offer was withdrawn has a fresh choice over the other entries; then, by the model's reading of R20 and R73
(log 5), a level still asserted latches the entry again. The count of free values drawn is left open (log 5). Takes of the entry
on their way are marked (log 7). -/
def Obligations.ClearEntryAbandonsTheEvent : Prop :=
  ∀ (s : State) (h : HostId) (e : Source) (object : Operand), PortTakes s h → s.holdsRight h .config = true →
    object.toNat = e.val → Lawful s →
    let markTake := fun x : TakeClaim => if x.offer.source = e then { x with cleared := true } else x
    let markHold := fun x : Handed => match x with
      | .hold f c => .hold f (c || f == e)
      | y => y
    let ofE := fun x : Slot => x.offer.map Offer.source = some e
    let idled := s.setProg e { (s.prog e).toIdle with again := false, hold := false }
    let cleared : State := State.answered { idled with
      et := { idled.et with order := s.et.order.erase e }
      ou := { s.ou with slots := mapTable (fun x => if ofE x then { offer := none, timer := none } else x) s.ou.slots }
      claims := { s.claims with
        takes := mapTable (Option.map markTake) s.claims.takes
        handed := mapTable (List.map markHold) s.claims.handed } } h 16 .ok
    let asserted := (s.cfg e).kind.isLevel && s.levelAsserted e
    let clearable := (s.prog e).state = .latched ∨ (s.prog e).state = .parked ∨
      ((s.prog e).state = .delivering ∧ (s.prog e).held = 0)
    ((s.prog e).state = .idle → exec (.clearEntry h object) s = .next (s.answered h 16 .ok)) ∧
    ((s.prog e).state = .queued ∨ (s.prog e).state = .running ∨ ((s.prog e).state = .delivering ∧ (s.prog e).held ≠ 0) →
      exec (.clearEntry h object) s = .next (s.answered h 16 .busy)) ∧
    (clearable → ∃ t u : State, exec (.clearEntry h object) s = .next t ∧
      OffersOnly { cleared with freeCount := u.freeCount } u ∧
      (asserted = false → t = u) ∧ (asserted = true → Latches u e t) ∧
      ((∀ k : HostId, ¬ofE (s.slot k)) → u = cleared) ∧
      (∀ k : HostId, ¬ofE (u.slot k) ∧
        (ofE (s.slot k) → ∀ f : Source, u.eligible f k = true → ∃ o ∈ (u.slot k).offer, (s.cfg f).level ≤ o.level)) ∧
      (∀ k : HostId, ofE (s.slot k) → (∀ j : HostId, j ≠ k → ¬ofE (s.slot j)) → ChoiceFor cleared u k))

/-- R107, R13: RETRY of a PARKED entry empties its decline set and makes it DELIVERING, unoffered, with its outcome kept, and the
choices follow; at any other entry it is answered STATE. -/
def Obligations.RetryReopensAParkedEntry : Prop :=
  ∀ (s : State) (h : HostId) (e : Source) (object : Operand), PortTakes s h → s.holdsRight h .config = true →
    object.toNat = e.val →
    ((s.prog e).state = .parked →
      ∃ t : State, exec (.retry h object) s = .next t ∧
        NewsTaken ((s.setProg e { s.prog e with state := .delivering, decline := some 0 }).answered h 17 .ok) e t) ∧
    ((s.prog e).state ≠ .parked → exec (.retry h object) s = .next (s.answered h 17 .state))

/-- R117, R118, R179: WRITE_BINDING of a valid binding replaces the four fields of a binding that is not armed and is answered BUSY
by an armed one, RANGE with none valid staged; ARM arms a binding that has runs left and a head, changes nothing at an armed one,
and is answered RANGE at any other. S63 answers RANGE. -/
def Obligations.BindingsAreWrittenAndArmed : Prop :=
  ∀ (s : State) (h : HostId) (e : Source) (object : Operand), PortTakes s h → s.holdsRight h .config = true →
    object.toNat = e.val → e ≠ 63 →
    let w1 := look (s.port h).stage 1
    let w2 := look (s.port h).stage 2
    let staged := fun b : Binding => b.armed = false ∧ field w1 0 16 = b.runsLeft.val ∧
      (flag w2 8 = b.head.isSome ∧ ∀ d ∈ b.head, field w2 0 8 = d.val) ∧
      (flag w2 9 = b.reload.isSome ∧ ∀ r ∈ b.reload, r ≠ 0 ∧ field w1 16 16 = r.val) ∧ field w2 12 2 = b.deliver.code
    (∀ b : Binding, staged b →
      ((s.bind e).armed = false → exec (.writeBinding h object) s = .next ((s.setBind e b).answered h 18 .ok)) ∧
      ((s.bind e).armed = true → exec (.writeBinding h object) s = .next (s.answered h 18 .busy))) ∧
    ((∀ b : Binding, ¬staged b) → exec (.writeBinding h object) s = .next (s.answered h 18 .range)) ∧
    ((s.bind e).armed = true → exec (.arm h object) s = .next (s.answered h 19 .ok)) ∧
    ((s.bind e).armed = false → (s.bind e).runsLeft = 0 ∨ (s.bind e).head = none →
      exec (.arm h object) s = .next (s.answered h 19 .range)) ∧
    ((s.bind e).armed = false → (s.bind e).runsLeft ≠ 0 → (s.bind e).head ≠ none →
      exec (.arm h object) s = .next ((s.setBind e { s.bind e with armed := true }).answered h 19 .ok))

/-- R119, R120, R174: DISARM clears the armed field of an IDLE, LATCHED, DELIVERING or PARKED entry; takes a QUEUED one off the
delegation list, or off its way there, to DELIVERING with PLAIN; and of a RUNNING one marks a DISARM pending, asks once for a cut and
puts the port into WORKING. -/
def Obligations.DisarmTakesTheEventBack : Prop :=
  ∀ (s : State) (h : HostId) (e : Source) (object : Operand), PortTakes s h → s.holdsRight h .config = true →
    object.toNat = e.val →
    let u := (s.setBind e { s.bind e with armed := false }).answered h 20 .ok
    ((s.prog e).state ≠ .queued → (s.prog e).state ≠ .running → exec (.disarm h object) s = .next u) ∧
    ((s.prog e).state = .queued → EntryLaw s →
      ∃ t : State, exec (.disarm h object) s = .next t ∧
        Delivers { u with
          du := { u.du with list := u.du.list.filter fun x => x != e }
          claims := { u.claims with
            inserts := u.claims.inserts.filter fun x => x != e
            releases := Vector.ofFn fun c =>
              if (s.channel c).entry = some e then (look s.claims.releases c).map fun _ => false
              else look s.claims.releases c } } e .plain t) ∧
    ((s.prog e).state = .running →
      exec (.disarm h object) s = .next { s with
        et := (s.setProg e { s.prog e with disarmPending := true }).et
        claims := { s.claims with
          cuts := if (s.prog e).disarmPending then s.claims.cuts
            else s.claims.cuts ++ [{ source := e, stale := false }] }
        ports := put s.ports h
          { s.port h with lost := false, working := true, echo := 20, pendingDisarm := some e } })

/-- R123, R155, R180: WRITE_DESC of a valid descriptor writes every programmable field of one that is not active, makes the host its
owner, sets valid and clears faulted, and is answered BUSY by an active one; WRITE_WINDOW of a valid window writes its fields and
clears its written indicator; with nothing valid staged each is answered RANGE. -/
def Obligations.DescriptorsAndWindowsAreWritten : Prop :=
  ∀ (s : State) (h : HostId) (object : Operand), PortTakes s h →
    let w0 := look (s.port h).stage 0
    let w1 := look (s.port h).stage 1
    let w2 := look (s.port h).stage 2
    let w3 := look (s.port h).stage 3
    let stagedDesc := fun x : Descriptor => x.valid = true ∧ x.owner = some h ∧ x.active = false ∧ x.faulted = false ∧
      DescriptorLaw x ∧ w0 = x.src ∧ w1 = x.dst ∧ field w2 0 3 = x.unitSize ∧ field w2 4 2 = x.srcStep.code ∧
      field w2 6 2 = x.dstStep.code ∧ field w2 16 13 = x.runLength ∧ flag w3 8 = x.link.isSome ∧
      ∀ d ∈ x.link, field w3 0 8 = d.val
    let stagedWindow := fun x : Window => x.written = false ∧ WindowLaw x ∧ field w0 0 21 = x.base ∧ field w1 0 17 = x.count ∧
      field w2 0 2 = x.access.code
    (s.holdsRight h .desc = true → ∀ d : DescId, object.toNat = d.val →
      (∀ x : Descriptor, stagedDesc x →
        ((s.desc d).active = false → exec (.writeDesc h object) s = .next ((s.setDesc d x).answered h 21 .ok)) ∧
        ((s.desc d).active = true → exec (.writeDesc h object) s = .next (s.answered h 21 .busy))) ∧
      ((∀ x : Descriptor, ¬stagedDesc x) → exec (.writeDesc h object) s = .next (s.answered h 21 .range))) ∧
    (s.hcu.supervisor = h → ∀ (k : HostId) (i : Fin 8) (sub : Operand), object.toNat = k.val → sub.toNat = i.val →
      (∀ x : Window, stagedWindow x →
        exec (.writeWindow h object sub) s = .next ((s.setWindows k (put (s.windows k) i x)).answered h 22 .ok)) ∧
      ((∀ x : Window, ¬stagedWindow x) → exec (.writeWindow h object sub) s = .next (s.answered h 22 .range)))

/-! ### The board -/

/-- R23 to R28, R35: the sampled value takes the new value. A rising change is an arrival for RISING and BOTH, a falling one for
FALLING and BOTH; a change in the asserting direction of a level kind latches an IDLE entry and leaves any other alone; one in the
deasserting direction clears a level hold mark, with enable set sends the entry on, and otherwise changes nothing. -/
def Obligations.LineChangesAreJudgedByTheKind : Prop :=
  ∀ (s : State) (line : LineId) (high : Bool), s.pins.resetLow = false → s.lines.getLsbD line.val ≠ high → EntryLaw s →
    let e : Source := ⟨line.val, by omega⟩
    ∃ t : State, exec (.lineChange line high) s = .next t ∧ ∃ u : State,
      u = { s with lines := u.lines } ∧ (∀ l : LineId, u.lines.getLsbD l.val = if l = line then high else s.lines.getLsbD l.val) ∧
      let k := (s.cfg e).kind
      ((k = .rising ∧ high = true) ∨ (k = .falling ∧ high = false) ∨ k = .both → Arrives u e t) ∧
      ((k = .rising ∧ high = false) ∨ (k = .falling ∧ high = true) → t = u) ∧
      ((k = .levelHigh ∧ high = true) ∨ (k = .levelLow ∧ high = false) →
        ((s.prog e).state = .idle → Latches u e t) ∧ ((s.prog e).state ≠ .idle → t = u)) ∧
      ((k = .levelHigh ∧ high = false) ∨ (k = .levelLow ∧ high = true) →
        ((s.prog e).hold = false → t = u) ∧
        ((s.prog e).hold = true → (s.cfg e).enable = false → t = u.setProg e { u.prog e with hold := false }) ∧
        ((s.prog e).hold = true → (s.cfg e).enable = true →
          LeavesLatched (u.setProg e { u.prog e with hold := false }) e t))

/-- R58, R59: a host reset gives a session back as DETACH does, sets threshold and lapse count to 0 and the port to its reset
values; rights, limits, timeout and designation stand. A take not yet pushed is ended (R85, log 8), and a lapse report not yet taken
is overtaken (R76, log 35). The release of HRST_n opens the port again and changes nothing else. -/
def Obligations.HostResetDetachesTheHost : Prop :=
  ∀ (s : State) (h : HostId),
    let reset := fun u : State => State.setPort
      { (u.setCtx h { u.ctx h with threshold := 0, lapseCount := 0 }) with
        pins := { u.pins with hrst := addHost u.pins.hrst h } } h resetPort
    ((s.ctx h).session = .detached → exec (.hostReset h) s = .next (reset s)) ∧
    ((s.ctx h).session ≠ .detached → ((s.slot h).offer = none → (s.slot h).timer = none) →
      ∃ es : List Source, OwedInOrder s h es ∧ exec (.hostReset h) s = .next (reset (s.gaveBack h es))) ∧
    exec (.hostResetRelease h) s = .next { s with pins := { s.pins with hrst := dropHost s.pins.hrst h } } ∧
    (∀ k : HostId, hasHost (addHost s.pins.hrst h) k = (k == h || hasHost s.pins.hrst k) ∧
      hasHost (dropHost s.pins.hrst h) k = (k != h && hasHost s.pins.hrst k))

/-- R22, R39, R40, R62, R133, R148, R149, R161, R168: full reset puts every block at its reset values and abandons every claim,
whatever went on, with the Timebase's count at 0 (log 18); its release loads the sampled lines and the straps and changes nothing else
(R23, R50, R181). What stands while RESET_n is low (the pins of HRST_n, the designation, CLKSEL) is the model's reading (log 19). -/
def Obligations.FullResetClearsEveryBlock : Prop :=
  ∀ s : State,
    exec .fullReset s = .next { State.reset with
      lines := s.lines
      hcu := { State.reset.hcu with supervisor := s.hcu.supervisor }
      pins := { s.pins with resetLow := true }
      tb := { micros := 0, clksel := s.tb.clksel }
      freeCount := s.freeCount
      pending := s.pending } ∧
    ∀ (evt : BitVec 48) (clksel supsel : BitVec 2),
      (s.pins.resetLow = true →
        exec (.fullResetRelease evt clksel supsel) s = .next { s with
          lines := evt
          hcu := { s.hcu with supervisor := supsel.toFin }
          tb := { s.tb with clksel := clksel }
          pins := { s.pins with resetLow := false } }) ∧
      (s.pins.resetLow = false → exec (.fullResetRelease evt clksel supsel) s = .next s)

/-! ### Offers -/

/-- R64: the eligibility of entry e for host h, by the entry's state and level, the host's session, the stack and effective level
that the Offer Unit's view of the host has (R63, log 3), and the condition of the entry's policy. -/
def Obligations.EligibilityIsByPolicy : Prop :=
  ∀ (s : State) (e : Source) (h : HostId),
    s.eligible e h = true ↔
      (s.prog e).state = .delivering ∧ s.viewLevel h < (s.cfg e).level ∧ (s.ctx h).session = .attached ∧
      (s.viewOf h).length < 8 ∧
      ((s.cfg e).policy = .directed → hasHost (s.cfg e).targets h = true ∧ (s.prog e).held = 0) ∧
      ((s.cfg e).policy = .any → hasHost (s.cfg e).targets h = true ∧ hasHost ((s.prog e).decline.getD 0) h = false ∧
        (s.prog e).held = 0 ∧ ∀ k : HostId, hasHost (s.prog e).offered k = true → k = h) ∧
      ((s.cfg e).policy = .all →
        hasHost ((s.prog e).owed.getD 0) h = true ∧ hasHost (s.prog e).held h = false)

/-- R103: the ANY arbiter's choice among candidates: a host with an empty slot if any has one, of those one of lowest effective
level in the Offer Unit's view (R63, log 3), and of those the first in the rotation that starts at the host after the pointer.
R107, R68: RETRY of a PARKED ANY entry whose choices are otherwise settled fills the slot of the candidate that the arbiter names. -/
def Obligations.TheArbiterNarrowsInThreeSteps : Prop :=
  (∀ (s : State) (candidates : List HostId), candidates ≠ [] →
    ∃ h : HostId, s.arbitrate candidates = some h ∧ h ∈ candidates ∧
      let kept := fun k : HostId => k ∈ candidates ∧
        ((∃ j ∈ candidates, (s.slot j).offer = none) → (s.slot k).offer = none)
      kept h ∧ (∀ k : HostId, kept k → s.viewLevel h ≤ s.viewLevel k) ∧
      ∀ k : HostId, kept k → s.viewLevel k = s.viewLevel h →
        (h - s.ou.rotation - 1).val ≤ (k - s.ou.rotation - 1).val) ∧
  ∀ (s : State) (h w : HostId) (e : Source) (object : Operand), PortTakes s h → s.holdsRight h .config = true →
    object.toNat = e.val → (s.prog e).state = .parked → (s.cfg e).policy = .any →
    let u := (s.setProg e { s.prog e with state := .delivering, decline := some 0 }).answered h 17 .ok
    SettledBut u e → u.arbitrate (u.candidates e) = some w →
      ∃ t : State, exec (.retry h object) s = .next t ∧ t.slot w = u.filled w e

/-- R75, R102, R106: the expiry of h's timer empties the slot and sends the lapse report, for which h's choice waits. Under DIRECTED
and ALL the offer is taken back; under ANY the host declines, and the entry parks with a PARKED notice if the decline set now covers
the targets. Then the choices of the other hosts follow. The Timebase is then at the expiry or past it (log 18). A slot with no offer
or no running timer does not expire. -/
def Obligations.AnExpiryEmptiesTheSlot : Prop :=
  ∀ (s : State) (h : HostId), Lawful s →
    ((s.slot h).timer = none → exec (.offerExpiry h) s = .next s) ∧
    (∀ (o : Offer) (due : Nat), s.slot h = { offer := some o, timer := some due } →
      let e := o.source
      let u := State.setLapse ({ s with tb := { s.tb with micros := max s.tb.micros due } }.setSlot h
        { offer := none, timer := none }) h .reported
      let p := { s.prog e with offered := dropHost (s.prog e).offered h }
      let d := addHost ((s.prog e).decline.getD 0) h
      ∃ t : State, exec (.offerExpiry h) s = .next t ∧
        ((s.cfg e).policy ≠ .any → NewsTaken (u.setProg e p) e t) ∧
        ((s.cfg e).policy = .any → hostsWithin (s.cfg e).targets d = false →
          NewsTaken (u.setProg e { p with decline := some d }) e t) ∧
        ((s.cfg e).policy = .any → hostsWithin (s.cfg e).targets d = true →
          t = (u.setProg e { p with state := .parked, offered := 0, held := 0, decline := some d }).noteOn e (.host h)
            (deliveryNotice .parked (some e) (some h))))

/-- R54, R75: the Host Context Unit counts a lapse of an ATTACHED host; at its limit the host becomes LAPSED with its notice, keeps its
stack, and is to leave the owed sets of the entries it owes and does not hold, in ascending order; a record on its stack shows that it
holds the entry, unless the record's take was cleared (log 29). A report for any other host is not counted, and none that a DETACH,
EVICT or host reset has overtaken, whatever the session is by then (R76, log 35). Each way the Offer Unit is answered with the
session. With no report outstanding nothing changes (log 1). -/
def Obligations.ALapseIsCountedUpToTheLimit : Prop :=
  ∀ (s : State) (h : HostId), Lawful s →
    let holds := fun e : Source =>
      holdsRecord (s.ctx h) e && !(s.handedOf h).contains (.hold e true) && s.undoOf h != some e
    (s.lapseOf h ≠ .reported → s.lapseOf h ≠ .overtaken → exec (.lapseReport h) s = .next s) ∧
    (s.lapseOf h = .overtaken → exec (.lapseReport h) s = .next (s.setLapse h (.answered (s.ctx h).session))) ∧
    (s.lapseOf h = .reported →
      ((s.ctx h).session ≠ .attached →
        exec (.lapseReport h) s = .next (s.setLapse h (.answered (s.ctx h).session))) ∧
      (∀ n : Fin 16, (s.ctx h).session = .attached → n.val = min 15 ((s.ctx h).lapseCount.val + 1) →
        (n < (s.ctx h).lapseLimit →
          exec (.lapseReport h) s = .next ((s.setCtx h { s.ctx h with lapseCount := n }).setLapse h (.answered .attached))) ∧
        ((s.ctx h).lapseLimit ≤ n →
          ∃ es : List Source, OwedInOrder s h es ∧
            exec (.lapseReport h) s = .next
              ((((s.setCtx h { s.ctx h with session := .lapsed, lapseCount := n }).handNotice (.host h)
                (deliveryNotice .lapsed none (some h))).setHanded h
                  (s.handedOf h ++ (es.filter fun e => !holds e).map Handed.depart)).setLapse h
                    (.answered .lapsed)))))

/-- R75, R67: when the answer ATTACHED to the lapse report arrives, the choice for the host is made: the best entry, with a new timer.
At LAPSED or DETACHED no choice is made and the slot stays empty, whatever the session is by then (log 31). With no answer
outstanding nothing changes (log 1). -/
def Obligations.TheLapseAnswerStartsTheChoice : Prop :=
  ∀ (s : State) (h : HostId), Lawful s →
    ((∀ a : Session, s.lapseOf h ≠ .answered a) → exec (.lapseAnswer h) s = .next s) ∧
    (s.lapseOf h = .answered .attached →
      ∃ t : State, exec (.lapseAnswer h) s = .next t ∧ OffersOnly (s.setLapse h .none) t ∧
        ChoiceFor (s.setLapse h .none) t h) ∧
    (s.lapseOf h = .answered .lapsed ∨ s.lapseOf h = .answered .detached →
      exec (.lapseAnswer h) s = .next (s.setLapse h .none) ∧ (s.slot h).offer = none)

/-! ### Takes -/

/-- R84, R85: the push of a matched take puts the record on top, sets the lapse count to 0, hands the hold on and makes the choice
against the raised effective level; for a host that is not ATTACHED, or whose session a host reset has ended since the match
(log 8), nothing is pushed and the offer is withdrawn. With no take outstanding nothing changes (log 1). -/
def Obligations.ThePushPutsTheRecordOnTop : Prop :=
  ∀ (s : State) (h : HostId), Lawful s →
    (s.takeOf h = none → exec (.takePush h) s = .next s) ∧
    (∀ x : TakeClaim, s.takeOf h = some x →
      ((s.ctx h).session = .attached → x.ended = false →
        let u := (((s.setTake h none).setCtx h
          { s.ctx h with stack := (s.ctx h).stack ++ [x.offer], lapseCount := 0 }).setView h
            (s.viewOf h ++ [x.offer])).setHanded h (s.handedOf h ++ [.hold x.offer.source x.cleared])
        u.level h = max (s.ctx h).threshold x.offer.level ∧ u.viewLevel h = u.level h ∧
        ∃ t : State, exec (.takePush h) s = .next t ∧ OffersOnly u t ∧ ChoiceFor u t h) ∧
      ((s.ctx h).session ≠ .attached ∨ x.ended = true →
        let u := (s.setTake h none).setHanded h (s.handedOf h ++ [.withdraw x.offer.source])
        ∃ t : State, exec (.takePush h) s = .next t ∧ OffersOnly u t))

/-- R84: at the hold the host moves from the offered to the held set and the TAKE is answered OK; where the entry was cleared first
nothing changes at it, and the pushed record is to be removed, or, given back since, is gone and the TAKE answered STALE (log 7);
the removal has no release meaning, makes the choice for the host and answers the TAKE STALE. The hold is the next claim in the order
that log 2 gives. With neither outstanding nothing
changes (log 1). -/
def Obligations.TheHoldCompletesTheTake : Prop :=
  ∀ (s : State) (h : HostId),
    (∀ (e : Source) (cleared : Bool) (rest : List Handed), NextHanded s h Handed.isHold (.hold e cleared) rest →
      (cleared = false → (s.prog e).state = .delivering → hasHost (s.prog e).offered h = true →
        let u := (s.setHanded h rest).setProg e
          { s.prog e with offered := dropHost (s.prog e).offered h, held := addHost (s.prog e).held h }
        ((s.port h).waiting = some .take →
          exec (.takeHold h) s = .next (u.setPort h { s.port h with waiting := none, result := .ok, echo := 4 })) ∧
        ((s.port h).waiting ≠ some .take → exec (.takeHold h) s = .next u)) ∧
      (cleared = true →
        ((∃ r ∈ (s.ctx h).stack, r.source = e) →
          exec (.takeHold h) s = .next ((s.setHanded h rest).setUndo h (some e))) ∧
        ((∀ r ∈ (s.ctx h).stack, r.source ≠ e) →
          ((s.port h).waiting = some .take →
            exec (.takeHold h) s =
              .next ((s.setHanded h rest).setPort h { s.port h with waiting := none, result := .stale, echo := 4 })) ∧
          ((s.port h).waiting ≠ some .take → exec (.takeHold h) s = .next (s.setHanded h rest))))) ∧
    ((∀ x ∈ s.handedOf h, x.isHold = false) → exec (.takeHold h) s = .next s) ∧
    (∀ e : Source, s.undoOf h = some e →
      let u := ((s.setUndo h none).setCtx h { s.ctx h with stack := (s.ctx h).stack.filter fun r => r.source != e }).setView h
        ((s.viewOf h).filter fun r => r.source != e)
      ∃ t : State, exec (.takeUndo h) s = .next t ∧
        ((s.port h).waiting = some .take →
          OffersOnly (u.setPort h { s.port h with waiting := none, result := .stale, echo := 4 }) t) ∧
        ((s.port h).waiting ≠ some .take → OffersOnly u t) ∧
        (Lawful s → s.choiceWaits h = false → ChoiceFor u t h)) ∧
    (s.undoOf h = none → exec (.takeUndo h) s = .next s)

/-! ### Claims at the Event Table -/

/-- R87, R14, R15: a FINISH by a holder meets its obligation. Under DIRECTED and ANY, and under ALL when no host is left owing, the
entry completes and may latch again at once; under ALL otherwise it stays DELIVERING with the hosts that still owe. R89, R55, R91,
R102, R106, R111: a release by a holder. DIRECTED: unoffered. ANY: the holder declines, and the entry parks with a PARKED notice if
the decline set now covers the targets. ALL: unoffered and still owed in a whole-stack give-back and by an ATTACHED host; by a LAPSED
host's RELEASE the host is skipped with its notice, and the entry completes if no host is left owing. A host that does not hold the
entry changes nothing at it (log 1). After FINISH_REPORT and RELEASE_REPORT the Offer Unit learns that the record is gone (R87 step 2,
R89; in this step by log 4). Where the entry then stands DELIVERING and unoffered, its news makes the choices of the hosts it is eligible
for, this host among them, and under ANY the arbiter settles it on one of those that find it best (R68, R103; log 4). The choice for the
host alone follows. STACK_RELEASE makes no such choice, and the last of the releases and departures lets an ATTACH that waited open the
session (R46). Each is the next claim in the order that log 2 gives. -/
def Obligations.FinishAndReleaseReportsAreTaken : Prop :=
  ∀ (s : State) (h : HostId) (e : Source), EntryLaw s →
    let p := { s.prog e with held := dropHost (s.prog e).held h }
    let q := { p with offered := dropHost (s.prog e).offered h }
    let d := addHost ((s.prog e).decline.getD 0) h
    let o := dropHost ((s.prog e).owed.getD 0) h
    let holds := (s.prog e).state = .delivering ∧ hasHost (s.prog e).held h = true
    let finished := fun (r : State) (done news : State → Prop) =>
      (¬holds → done r) ∧
      (holds → (s.cfg e).policy ≠ .all → CompletesInto (r.setProg e p) e done news) ∧
      (holds → (s.cfg e).policy = .all → o = 0 → CompletesInto (r.setProg e { p with owed := some o }) e done news) ∧
      (holds → (s.cfg e).policy = .all → o ≠ 0 → done (r.setProg e { p with owed := some o }))
    let released := fun (r : State) (skips : Bool) (done news : State → Prop) =>
      let skipped := (r.setProg e { q with owed := some o }).noteOn e (.host h) (deliveryNotice .skipped (some e) (some h))
      (¬holds → done r) ∧
      (holds →
        ((s.cfg e).policy = .directed → news (r.setProg e p)) ∧
        ((s.cfg e).policy = .any → hostsWithin (s.cfg e).targets d = false → news (r.setProg e { q with decline := some d })) ∧
        ((s.cfg e).policy = .any → hostsWithin (s.cfg e).targets d = true →
          done ((r.setProg e { q with state := .parked, offered := 0, held := 0, decline := some d }).noteOn e (.host h)
            (deliveryNotice .parked (some e) (some h)))) ∧
        ((s.cfg e).policy = .all → skips = false → news (r.setProg e p)) ∧
        ((s.cfg e).policy = .all → skips = true → o ≠ 0 → done skipped) ∧
        ((s.cfg e).policy = .all → skips = true → o = 0 → CompletesInto skipped e done news))
    let told := fun v : State => v.setView h ((s.viewOf h).filter fun r => r.source != e || (s.ctx h).stack.contains r)
    let chosen := fun v t : State => Chooses (told v) h t
    let shared := fun v t : State =>
      ∃ x : State, NewsTaken (told v) e x ∧ NewsShared (told v) h e x ∧ Chooses x h t
    (∀ rest : List Handed, NextHanded s h (fun x => x == .finish e) (.finish e) rest →
      ∃ t : State, exec (.finishReport h e) s = .next t ∧
        finished (s.setHanded h rest) (fun v => chosen v t) fun v => shared v t) ∧
    ((∀ x ∈ s.handedOf h, x ≠ .finish e) → exec (.finishReport h e) s = .next s) ∧
    (∀ (lapsed : Bool) (rest : List Handed),
      NextHanded s h (fun x => x == .release e false || x == .release e true) (.release e lapsed) rest →
      ∃ t : State, exec (.releaseReport h e) s = .next t ∧
        released (s.setHanded h rest) lapsed (fun v => chosen v t) fun v => shared v t) ∧
    ((∀ x ∈ s.handedOf h, x ≠ .release e false ∧ x ≠ .release e true) → exec (.releaseReport h e) s = .next s) ∧
    (∀ rest : List Handed, NextHanded s h (fun x => match x with | .stackRelease _ => true | _ => false) (.stackRelease e) rest →
      let r := s.setHanded h rest
      ((s.port h).waiting ≠ some .attach ∨ r.givingBack h = true →
        ∃ t : State, exec (.stackRelease h) s = .next t ∧ released r false (fun v => t = v) fun v => NewsTaken v e t) ∧
      ((s.port h).waiting = some .attach → r.givingBack h = false →
        ∃ t w : State, exec (.stackRelease h) s = .next t ∧
          (released r false (fun v => w = v) fun v => NewsTaken v e w) ∧ SessionOpens s w h t)) ∧
    ((∀ x ∈ s.handedOf h, ∀ f : Source, x ≠ .stackRelease f) → exec (.stackRelease h) s = .next s)

/-- R46, R54, R111, R73, R85: a departure takes the host out of the entry's owed, offered and held sets with a SKIPPED notice, before
the entry completes if no host is left owing; a withdrawal takes it out of the offered set, and the choices follow; a host that is in
no such set changes nothing. The last of the releases and departures lets an ATTACH that waited open the session (R46, R170). Each
is the next claim in the order that log 2 gives. With none outstanding nothing changes (log 1). -/
def Obligations.DeparturesAndWithdrawalsAreTaken : Prop :=
  ∀ (s : State) (h : HostId) (e : Source), EntryLaw s →
    (∀ rest : List Handed, NextHanded s h (fun x => match x with | .depart _ => true | _ => false) (.depart e) rest →
      let r := s.setHanded h rest
      let o := dropHost ((s.prog e).owed.getD 0) h
      let skipped := (r.setProg e { s.prog e with
          offered := dropHost (s.prog e).offered h, held := dropHost (s.prog e).held h, owed := some o }).noteOn e (.host h)
        (deliveryNotice .skipped (some e) (some h))
      let owes := (s.prog e).state = .delivering ∧ hasHost ((s.prog e).owed.getD 0) h = true
      let departed := fun v : State =>
        (¬owes → v = r) ∧ (owes → o ≠ 0 → v = skipped) ∧ (owes → o = 0 → Completes skipped e v)
      ((s.port h).waiting ≠ some .attach ∨ r.givingBack h = true →
        ∃ t : State, exec (.owedDeparture h) s = .next t ∧ departed t) ∧
      ((s.port h).waiting = some .attach → r.givingBack h = false →
        ∃ t v : State, exec (.owedDeparture h) s = .next t ∧ departed v ∧ SessionOpens s v h t)) ∧
    ((∀ x ∈ s.handedOf h, ∀ f : Source, x ≠ .depart f) → exec (.owedDeparture h) s = .next s) ∧
    (∀ rest : List Handed, NextHanded s h (fun x => match x with | .withdraw _ => true | _ => false) (.withdraw e) rest →
      let r := s.setHanded h rest
      let offers := (s.prog e).state = .delivering ∧ hasHost (s.prog e).offered h = true
      ∃ t : State, exec (.withdrawalReport h) s = .next t ∧
        (¬offers → t = r) ∧
        (offers → NewsTaken (r.setProg e { s.prog e with offered := dropHost (s.prog e).offered h }) e t)) ∧
    ((∀ x ∈ s.handedOf h, ∀ f : Source, x ≠ .withdraw f) → exec (.withdrawalReport h) s = .next s)

/-! ### Run results -/

/-- R130, R121, R120, R137: a success counts the run. The count falls by one; at 0 the run is terminal, and the reload is loaded or the
binding disarmed; a pending DISARM disarms it; then EACH_RUN delivers with RAN, or RAN_LAST at terminal, AT_LAST delivers with
RAN_LAST at terminal, and else the entry completes. R131: a failure, once its notice is in the queue (log 13), and a cut leave the
count, disarm and deliver with FAILED or CUT. Every port whose DISARM waits on the entry is answered OK, and the channel's release is
handed on, with the entry if it was queued again. With no such result outstanding nothing changes (log 1). -/
def Obligations.ARunResultIsTakenByTheEntry : Prop :=
  ∀ (s : State) (c : ChannelId) (e : Source), EntryLaw s → (s.channel c).entry = some e → (s.prog e).state = .running →
    let b := s.bind e
    let left := b.runsLeft - 1
    let counted : Binding := { b with
      runsLeft := if left = 0 then b.reload.getD 0 else left
      armed := !(s.prog e).disarmPending && (decide (left ≠ 0) || b.reload.isSome) }
    let r : State := { s with claims := { s.claims with reports := put s.claims.reports c none } }
    let taken := fun b' : Binding => r.setEntry e { s.entry e with bind := b', prog := { s.prog e with disarmPending := false } }
    let settled := fun p : Port =>
      if p.pendingDisarm = some e then { p with result := .ok, working := false, pendingDisarm := none } else p
    let follows := fun t v : State => ∃ again : Bool, t = { v with
      ports := mapTable settled v.ports
      claims := { v.claims with
        inserts := v.claims.inserts.filter fun x => x != e
        releases := put v.claims.releases c (some again) } } ∧ (again = true ↔ (t.prog e).state = .queued)
    (look s.claims.reports c = some .success → ∃ t v : State, exec (.runSuccess c) s = .next t ∧ follows t v ∧
      (b.deliver = .eachRun → left ≠ 0 → Delivers (taken counted) e .ran v) ∧
      (b.deliver ≠ .quiet → left = 0 → Delivers (taken counted) e .ranLast v) ∧
      ((b.deliver = .atLast ∧ left ≠ 0) ∨ b.deliver = .quiet → Completes (taken counted) e v)) ∧
    (look s.claims.reports c = some .failure → (∀ x ∈ s.claims.notices, x.1 ≠ .channel c) →
      ∃ t v : State, exec (.runFailure c) s = .next t ∧ follows t v ∧
        Delivers (taken { b with armed := false }) e .failed v) ∧
    (look s.claims.reports c = some .cut → ∃ t v : State, exec (.runCut c) s = .next t ∧ follows t v ∧
      Delivers (taken { b with armed := false }) e .cut v) ∧
    (look s.claims.reports c ≠ some .success → exec (.runSuccess c) s = .next s) ∧
    (look s.claims.reports c ≠ some .failure ∨ (∃ x ∈ s.claims.notices, x.1 = .channel c) →
      exec (.runFailure c) s = .next s) ∧
    (look s.claims.reports c ≠ some .cut → exec (.runCut c) s = .next s)

/-! ### Channels -/

/-- R134, R136, R9, R125: an entry handed over joins the delegation list; with a channel free and the list empty before, that channel,
or of two free ones the one the last-grant mark does not name, takes it and goes to its binding's head. An entry that a channel still
carries waits (log 14); with no such entry handed over nothing changes (log 1). -/
def Obligations.AnInsertionJoinsTheListOrAChannel : Prop :=
  ∀ (s : State) (e : Source),
    let u : State := { s with claims := { s.claims with inserts := s.claims.inserts.filter fun x => x != e } }
    let free := fun c : ChannelId => (s.channel c).running = false
    (e ∉ s.claims.inserts ∨ s.carried e = true → exec (.delegationInsert e) s = .next s) ∧
    (e ∈ s.claims.inserts → s.carried e = false → ¬free 0 → ¬free 1 →
      exec (.delegationInsert e) s = .next { u with du := { u.du with list := s.du.list ++ [e] } }) ∧
    (∀ (c : ChannelId) (d : DescId), e ∈ s.claims.inserts → s.carried e = false → s.du.list = [] → e ∈ s.et.order →
      (s.bind e).head = some d → free c → (free (c + 1) → s.du.lastGrant = c + 1) →
      exec (.delegationInsert e) s = .next (u.granted c e d []))

/-- R137, R136, R121: the release of a channel makes it IDLE with its marks and counts clear, inserts the entry if it was queued
again, makes cut requests that name the entry void (log 15), and grants the channel the best entry of the list, by level and then by
arrival order; with the list empty the channel stays free. With no release handed on nothing changes (log 1). -/
def Obligations.AReleasedChannelTakesTheBest : Prop :=
  ∀ (s : State) (c : ChannelId),
    (look s.claims.releases c = none → exec (.channelRelease c) s = .next s) ∧
    (∀ again : Bool, look s.claims.releases c = some again →
      let l := s.du.list ++ (if again then (s.channel c).entry.toList else [])
      let u : State := { s with
        du := { s.du with list := l, channels := put s.du.channels c resetChannel }
        claims := { s.claims with
          releases := put s.claims.releases c none
          cuts := s.claims.cuts.map fun x => if some x.source = (s.channel c).entry then { x with stale := true } else x } }
      (l = [] → exec (.channelRelease c) s = .next u) ∧
      (∀ (e : Source) (d : DescId), IsBestOf s l e → (s.bind e).head = some d →
        exec (.channelRelease c) s = .next (u.granted c e d l)))

/-- R125, R140, R128: at its arrival at a descriptor, first or after waiting, a channel with a cut asked for stops; at one not valid or
faulted the run fails with DESC_BAD and no field of it changes; at one active on the other channel it waits; any other becomes active
and its first unit's check is asked. A channel that arrives nowhere changes nothing (log 1). One that stops or fails stands nowhere
from its report on (log 37). -/
def Obligations.AnArrivalAtADescriptorIsJudged : Prop :=
  ∀ (s : State) (c : ChannelId),
    (∀ d : DescId, (s.channel c).position = .arriving d ∨ (s.channel c).position = .waiting d →
      let x := s.desc d
      ((s.channel c).cutMark = true → exec (.descriptorArrival c) s = .next (s.reporting c .cut)) ∧
      ((s.channel c).cutMark = false →
        (x.valid = false ∨ x.faulted = true →
          exec (.descriptorArrival c) s = .next
            ((s.handNotice (.channel c)
              { kind := .descBad, source := (s.channel c).entry, host := x.owner, desc := some d, addr := none }).reporting
                c .failure)) ∧
        (x.valid = true → x.faulted = false → x.active = true →
          exec (.descriptorArrival c) s = .next (s.setChannel c { s.channel c with position := .waiting d })) ∧
        (x.valid = true → x.faulted = false → x.active = false →
          exec (.descriptorArrival c) s = .next ((s.setDesc d { x with active := true }).setChannel c
            { s.channel c with position := .executing d, units := 0, phase := .checking })))) ∧
    ((∀ d : DescId, (s.channel c).position ≠ .arriving d ∧ (s.channel c).position ≠ .waiting d) →
      exec (.descriptorArrival c) s = .next s)

/-- R152, R151, R150, R139, R141, R146: the check of a unit is judged by the deciding window, the first of the owner's eight that
contains the address. A failed read check fails the unit with WINDOW_READ at the source address; else a failed write check with
WINDOW_WRITE at the destination address; a pass asks for the Memory Port, or stands unused if a cut has been asked for. With no check
asked nothing changes (log 1). A channel that reports a result stands nowhere from then on (log 37). -/
def Obligations.AUnitIsCheckedAgainstTheWindows : Prop :=
  (∀ (s : State) (c : ChannelId), (s.channel c).phase ≠ .checking → exec (.unitCheck c) s = .next s) ∧
  ∀ (s : State) (c : ChannelId) (d : DescId) (o : HostId), (s.channel c).phase = .checking →
    (s.channel c).position = .executing d → (s.desc d).owner = some o →
    let x := s.desc d
    let inside := fun (k : Fin 8) (a : Addr) =>
      (look (s.windows o) k).base ≤ a.toNat / 4096 ∧ a.toNat / 4096 < (look (s.windows o) k).base + (look (s.windows o) k).count
    let decides := fun (k : Fin 8) (a : Addr) => inside k a ∧ ∀ j : Fin 8, j < k → ¬inside j a
    let mayRead := fun a : Addr => ∃ k : Fin 8, decides k a ∧ (look (s.windows o) k).access ≠ .none
    let mayWrite := fun a : Addr => ∃ k : Fin 8, decides k a ∧ (look (s.windows o) k).access = .readWrite
    (¬mayRead x.src → exec (.unitCheck c) s = .next (s.unitFailed c d .windowRead x.src)) ∧
    (mayRead x.src → ¬mayWrite x.dst → exec (.unitCheck c) s = .next (s.unitFailed c d .windowWrite x.dst)) ∧
    (mayRead x.src → mayWrite x.dst →
      ((s.channel c).cutMark = false →
        exec (.unitCheck c) s = .next (s.setChannel c { s.channel c with phase := .waitingPort })) ∧
      ((s.channel c).cutMark = true →
        exec (.unitCheck c) s = .next ((s.setDesc d { x with active := false }).reporting c .cut)))

/-! ### The Memory Port -/

/-- R143, R144: a waiting channel is granted the port when it is free, of two the one the alternation flag does not name; the flag
then names it and its read is issued, with the counter's tag and a deadline 64 us on. A held grant and an empty wait change nothing. -/
def Obligations.TheMemoryPortAlternates : Prop :=
  ∀ s : State,
    (s.mp.grant ≠ none → exec .memoryGrant s = .next s) ∧
    ((∀ c : ChannelId, (s.channel c).phase ≠ .waitingPort) → exec .memoryGrant s = .next s) ∧
    (∀ (c : ChannelId) (d : DescId), s.mp.grant = none → (s.channel c).phase = .waitingPort →
      (s.channel c).position = .executing d → ((s.channel (c + 1)).phase = .waitingPort → s.mp.alternation = c + 1) →
      exec .memoryGrant s = .next (s.reads c d))

/-- R144, R145: a response is ignored when no access is outstanding, when its tag is not the access's, and when the deadline has passed
before it (log 18); a read answered OK in time has its data held and the write of the unit issued at once at the destination address,
with a new tag and deadline. -/
def Obligations.AReadResponseIssuesTheWrite : Prop :=
  ∀ (s : State) (tag : BitVec 4) (error : Bool) (data : Word),
    (s.mp.access = none → exec (.memoryResponse tag error data) s = .next s) ∧
    (∀ a ∈ s.mp.access, a.tag ≠ tag ∨ a.deadline < s.tb.micros → exec (.memoryResponse tag error data) s = .next s) ∧
    (∀ (a : Access) (c : ChannelId) (d : DescId), s.mp.access = some a → s.mp.grant = some c →
      (s.channel c).position = .executing d → a.tag = tag → s.tb.micros ≤ a.deadline → a.isWrite = false →
      exec (.memoryResponse tag false data) s = .next
        ((State.accessed { s with mp := { s.mp with heldData := some data } } true (s.desc d).dst
          (s.desc d).unitSize).setChannel c { s.channel c with phase := .writing }))

/-- R139 step 5, R126, R127, R128, R140, R143: a write answered OK in time (log 18) moves the addresses by their steps, modulo
2^32, tells the Window Table of the write at the address before the advance, counts the unit and frees the port for the other channel
if that waits. At the boundary a cut asked for stops the channel, but where the run has just ended in success (R140's exception, R137,
log 16); with units left the next check is asked; else the descriptor is left, and the run ends in success without a link, fails with
CHAIN_LONG at the sixteenth, or goes to the linked descriptor. A cut at the end of a run length leaves that length as the count (log 34),
and a channel that reports a result stands nowhere from then on (log 37). -/
def Obligations.AWriteResponseEndsTheUnit : Prop :=
  ∀ (s : State) (tag : BitVec 4) (data : Word) (a : Access) (c : ChannelId) (d : DescId) (o : HostId),
    s.mp.access = some a → s.mp.grant = some c → (s.channel c).position = .executing d → a.tag = tag →
    s.tb.micros ≤ a.deadline → a.isWrite = true →
    (s.desc d).owner = some o → s.executing (c + 1) ≠ some d →
    ((s.channel (c + 1)).phase = .waitingPort → s.executing (c + 1) ≠ none) →
    let x := s.desc d
    let ch := s.channel c
    let moved := fun (st : AddrStep) (y : Addr) => match st with
      | .inc => y + BitVec.ofNat 32 x.unitSize
      | .dec => y - BitVec.ofNat 32 x.unitSize
      | _ => y
    let advanced := { x with src := moved x.srcStep x.src, dst := moved x.dstStep x.dst }
    let u : State := { (s.setDesc d advanced) with
      claims := { s.claims with writes := put s.claims.writes c (look s.claims.writes c ++ [(o, x.dst)]) } }
    ∃ t v : State, exec (.memoryResponse tag false data) s = .next t ∧ PortFreed u c v ∧
      (ch.cutMark = true → (ch.units + 1 < x.runLength ∨ x.link ≠ none) →
        t = ((v.setDesc d { advanced with active := false }).setChannel c { ch with units := ch.units + 1 }).reporting c .cut) ∧
      (ch.cutMark = false → ch.units + 1 < x.runLength →
        t = v.setChannel c { ch with units := ch.units + 1, phase := .checking }) ∧
      (x.runLength ≤ ch.units + 1 →
        let w := (v.setDesc d { advanced with active := false }).setChannel c
          { ch with units := 0, completed := ch.completed + 1, phase := .idle }
        (x.link = none → t = w.reporting c .success) ∧
        (∀ n : DescId, ch.cutMark = false → x.link = some n → ch.completed + 1 < 16 →
          t = w.setChannel c { ch with units := 0, completed := ch.completed + 1, phase := .idle, position := .arriving n }) ∧
        (∀ n : DescId, ch.cutMark = false → x.link = some n → 16 ≤ ch.completed + 1 →
          t = (w.handNotice (.channel c)
            { kind := .chainLong, source := ch.entry, host := some o, desc := some n, addr := none }).reporting c .failure))

/-- R144, R145, R146, R147: an access answered ERROR in time, and one that reaches its deadline, the Timebase then being there or past
it (log 18), fail the unit with MEM_ERROR or MEM_TIMEOUT at the access's address: the descriptor is faulted with its addresses as they
were, the port is freed for the other channel if that waits, and the notice is handed on before the failure is reported, after which
the channel stands nowhere (log 37). With no access outstanding nothing times out. -/
def Obligations.AFailedAccessFailsTheUnit : Prop :=
  ∀ (s : State) (a : Access) (c : ChannelId) (d : DescId) (data : Word),
    (s.mp.access = none → exec .memoryTimeout s = .next s) ∧
    (s.mp.access = some a → s.mp.grant = some c → (s.channel c).position = .executing d → s.executing (c + 1) ≠ some d →
      ((s.channel (c + 1)).phase = .waitingPort → s.executing (c + 1) ≠ none) →
      let failed := fun (r : State) (kind : NoticeKind) (t : State) =>
        ∃ v : State, PortFreed (r.setDesc d { s.desc d with active := false, faulted := true }) c v ∧
          t = (v.handNotice (.channel c)
            { kind := kind, source := (s.channel c).entry, host := (s.desc d).owner, desc := some d,
              addr := some a.addr }).reporting c .failure
      (s.tb.micros ≤ a.deadline →
        ∃ t : State, exec (.memoryResponse a.tag true data) s = .next t ∧ failed s .memError t) ∧
      (∃ t : State, exec .memoryTimeout s = .next t ∧
        failed { s with tb := { s.tb with micros := max s.tb.micros a.deadline } } .memTimeout t))

/-- R154, R151: a completed write sets the written indicator of the window that decides for its address as the owner's windows stand
now, whatever that window grants, and no other; with none that contains the address none is set. The write is the oldest that the
channel has told of and that is not yet taken (log 33). -/
def Obligations.AWriteRecordMarksTheDecidingWindow : Prop :=
  ∀ (s : State) (c : ChannelId),
    (look s.claims.writes c = [] → exec (.writeRecord c) s = .next s) ∧
    (∀ (o : HostId) (a : Addr) (rest : List (HostId × Addr)), look s.claims.writes c = (o, a) :: rest →
      let inside := fun k : Fin 8 =>
        (look (s.windows o) k).base ≤ a.toNat / 4096 ∧ a.toNat / 4096 < (look (s.windows o) k).base + (look (s.windows o) k).count
      let u : State := { s with claims := { s.claims with writes := put s.claims.writes c rest } }
      ((∀ k : Fin 8, ¬inside k) → exec (.writeRecord c) s = .next u) ∧
      (∀ k : Fin 8, inside k → (∀ j : Fin 8, j < k → ¬inside j) →
        exec (.writeRecord c) s =
          .next (u.setWindows o (put (s.windows o) k { look (s.windows o) k with written := true }))))

/-- R141, R137, R121: a cut request sets the mark of the channel that carries the entry. A check asked for and a unit in flight go
on; a channel anywhere else stops, the descriptor it holds active cleared and not faulted, and reports a cut. It is discarded when
no channel carries the entry or the run it named is over (log 15), and changes nothing once the result is reported. A channel whose
arrival at a descriptor is to be taken again stops too (log 36). From the report on the channel stands nowhere (log 37). -/
def Obligations.ACutRequestStopsTheChannel : Prop :=
  ∀ (s : State) (e : Source) (before after : List CutClaim) (stale : Bool),
    s.claims.cuts = before ++ { source := e, stale := stale } :: after → (∀ x ∈ before, x.source ≠ e) →
    let u : State := { s with claims := { s.claims with cuts := before ++ after } }
    (stale = true ∨ s.carried e = false → exec (.cutRequest e) s = .next u) ∧
    (∀ c : ChannelId, stale = false → (s.channel c).entry = some e → (s.channel (c + 1)).entry ≠ some e →
      let m := { s.channel c with cutMark := true }
      ((s.channel c).reported = true → exec (.cutRequest e) s = .next u) ∧
      ((s.channel c).reported = false →
        ((s.channel c).phase = .checking ∨ (s.channel c).phase = .reading ∨ (s.channel c).phase = .writing →
          exec (.cutRequest e) s = .next (u.setChannel c m)) ∧
        ((s.channel c).phase = .waitingPort → ∀ d ∈ s.executing c,
          exec (.cutRequest e) s =
            .next (((u.setDesc d { s.desc d with active := false }).setChannel c m).reporting c .cut)) ∧
        ((s.channel c).phase = .idle → s.executing c = none →
          exec (.cutRequest e) s = .next ((u.setChannel c m).reporting c .cut))))

/-! ### Notices -/

/-- R162: the queue takes an append by its fill: at 0 records the notice is the only record and S63's level is asserted, at 1 to 15
it goes to the tail, and at 16 it is dropped and the overflow count rises by 1 and saturates at 255. Nothing but the queue, and the
assertion it presents (R167), changes. The notice is the oldest handed on for its origin (log 12). -/
def Obligations.AnAppendIsTakenByTheFill : Prop :=
  ∀ (s : State) (o : Origin) (n : Notice) (before after : List (Origin × Notice)),
    s.claims.notices = before ++ (o, n) :: after → (∀ x ∈ before, x.1 ≠ o) → s.nq.records.length ≤ 16 →
    ∃ t : State, exec (.noticeAppend o) s = .next t ∧
      t = { s with nq := t.nq, claims := { s.claims with notices := before ++ after, levels := t.claims.levels } } ∧
      (s.nq.records = [] →
        t.nq = { s.nq with records := [n] } ∧ t.claims.levels = s.claims.levels ++ [true]) ∧
      (s.nq.records ≠ [] → t.claims.levels = s.claims.levels) ∧
      (1 ≤ s.nq.records.length → s.nq.records.length ≤ 15 → t.nq = { s.nq with records := s.nq.records ++ [n] }) ∧
      (s.nq.records.length = 16 → t.nq.records = s.nq.records ∧ t.nq.overflow.val = min 255 (s.nq.overflow.val + 1))

/-- R31, R26, R28, R167: the Event Table takes the changes of S63's level in their order. An assertion latches an IDLE S63 and changes
nothing at any other; a deassertion clears its level hold mark, with enable set sends it on, and otherwise changes nothing. With no
change outstanding nothing changes (log 1). R32, R162, log 12: a claim on S63 appends its notice itself, by the fill, once those of
the same sequence that wait have been taken one by one; a claim on any other entry hands its notice on. -/
def Obligations.S63LevelChangesAreTaken : Prop :=
  (∀ (s : State) (e : Source) (o : Origin) (n : Notice),
    (e ≠ 63 → s.noteOn e o n = s.handNotice o n) ∧
    (e = 63 → ∀ t : State, (∃ x ∈ s.claims.notices, x.1 = o) → exec (.noticeAppend o) s = .next t →
      s.noteOn e o n = t.noteOn e o n) ∧
    (e = 63 → (∀ x ∈ s.claims.notices, x.1 ≠ o) →
      (s.nq.records.length < 16 → s.noteOn e o n = { s with nq := { s.nq with records := s.nq.records ++ [n] } }) ∧
      (∀ k : Fin 256, 16 ≤ s.nq.records.length → k.val = min 255 (s.nq.overflow.val + 1) →
        s.noteOn e o n = { s with nq := { s.nq with overflow := k } }))) ∧
  ∀ s : State, EntryLaw s →
    (s.claims.levels = [] → exec .noticeLevelChange s = .next s) ∧
    (∀ (up : Bool) (rest : List Bool), s.claims.levels = up :: rest →
      let u : State := { s with claims := { s.claims with levels := rest } }
      ∃ t : State, exec .noticeLevelChange s = .next t ∧
        (up = true → (s.prog 63).state = .idle → Latches u 63 t) ∧
        (up = true → (s.prog 63).state ≠ .idle → t = u) ∧
        (up = false → (s.prog 63).hold = false → t = u) ∧
        (up = false → (s.prog 63).hold = true → (s.cfg 63).enable = false →
          t = u.setProg 63 { u.prog 63 with hold := false }) ∧
        (up = false → (s.prog 63).hold = true → (s.cfg 63).enable = true →
          LeavesLatched (u.setProg 63 { u.prog 63 with hold := false }) 63 t))

/-! ### Laws that every step keeps -/

/-- The state after reset is lawful: every law of Sys2Proof/Safety.lean holds of it. -/
def Obligations.ResetIsLawful : Prop :=
  Lawful State.reset

/-- R65, with R82's depth and order of the stack, R47, R75, R77, and R63's and R87's view of the stacks, which lags behind them as log 3
says: after every step a host with a standing offer is ATTACHED, has fewer than 8 records and an effective level below the offer's. -/
def Obligations.EveryStepKeepsTheHostLaw : Prop :=
  ∀ s t : State, Lawful s → step s = .next t → HostLaw t

/-- R116 (with the classes of R1 and R2, the value table of R4, R7, R13, R16's list, R28's mark and the QUEUED entries of R134 and
R135): after every step an armed entry has runs left and a head, and every QUEUED or RUNNING entry is armed. -/
def Obligations.EveryStepKeepsTheEntryLaw : Prop :=
  ∀ s t : State, Lawful s → step s = .next t → EntryLaw t

/-- R99, with R62's copies, the settled slots of R66 and R69, R109's parts and the decline sets of R102 and R106: after every step a
DIRECTED or ANY entry is offered to at most one host or held by at most one host, never both. The laws of claims on their way,
HandedLaw and TakeLaw (R84, R85), rest on the model's readings in logs 6, 7, 8 and 9. -/
def Obligations.EveryStepKeepsTheDeliveryLaw : Prop :=
  ∀ s t : State, Lawful s → step s = .next t → DeliveryLaw t

/-- R122, R123, R125, R127, R135, R137, R143, R144, R152: after every step the valid descriptors are aligned and in range, each active
one is executed by one channel, and the access outstanding is the one of the unit in flight, at the descriptor's own address. That a
channel stands nowhere from its report on is the model's choice (log 37). -/
def Obligations.EveryStepKeepsTheDelegationLaw : Prop :=
  ∀ s t : State, Lawful s → step s = .next t → DelegationLaw t

/-- R149, R161, R168: after every step every window lies in the address space, the Notice Queue holds at most 16 records, and a port is
WORKING exactly while it records a pending DISARM. -/
def Obligations.EveryStepKeepsTheBoardLaw : Prop :=
  ∀ s t : State, Lawful s → step s = .next t → BoardLaw t

/-- R149, R150, R155: no command but the supervisor's WRITE_WINDOW and full reset changes the base page, page count or access of any
window, and no other clears a written indicator. -/
def Obligations.OnlyTheSupervisorChangesWindows : Prop :=
  ∀ (c : Instr) (s t : State) (k : HostId) (i : Fin 8), exec c s = .next t → c ≠ .fullReset →
    (∀ (object sub : Operand), c = .writeWindow s.hcu.supervisor object sub → object.toNat ≠ k.val ∨ sub.toNat ≠ i.val) →
    let x := look (s.windows k) i
    let y := look (t.windows k) i
    y.base = x.base ∧ y.count = x.count ∧ y.access = x.access ∧ (x.written = true → y.written = true)

/-- R47, R42: a host leaves DETACHED by its own ATTACH and by that alone: by the request, or by the release or departure after which an
ATTACH that waited is taken (R46). -/
def Obligations.DetachedIsLeftByAttachAlone : Prop :=
  ∀ (c : Instr) (s t : State) (h : HostId), exec c s = .next t → (s.ctx h).session = .detached →
    (t.ctx h).session ≠ .detached →
    (t.ctx h).session = .attached ∧
    (c = .attach h ∨ ((c = .stackRelease h ∨ c = .owedDeparture h) ∧ (s.port h).waiting = some .attach))

/-! ### What the host and the board see -/

/-- R169, R177, R178, R72: a read of RESULT, the OFFER view, PORT_STATUS and the staging words returns their fields, and any other
offset 0. R71: INT_n is low exactly while the slot is filled. R181, R144: the outstanding access drives the memory master port
(log 20: MD whole, whatever the unit size). A read changes nothing and is a function of the state (log 28). -/
def Obligations.PortReadsAndSignalsShowTheState : Prop :=
  ∀ (s : State) (h : HostId),
    (∀ offset : Fin 16, offset = 0 ∨ (4 ≤ offset.val ∧ offset.val < 8) → readPort s h offset = 0) ∧
    (∀ i : Fin 8, readPort s h ⟨8 + i.val, by omega⟩ = look (s.port h).stage i) ∧
    (∀ f ∈ [(0, 4, (s.port h).result.code), (4, 4, 0), (8, 8, (s.port h).echo.toNat), (16, 1, bit (s.port h).working),
        (17, 1, bit (s.port h).lost), (18, 14, 0)], field (readPort s h 1) f.1 f.2.1 = f.2.2) ∧
    ((s.slot h).offer = none → readPort s h 2 = 0) ∧
    (∀ o ∈ (s.slot h).offer,
      ∀ f ∈ [(0, 1, 1), (1, 7, 0), (8, 6, o.source.val), (14, 2, 0), (16, 4, o.level.val), (20, 3, o.outcome.code), (23, 1, 0),
        (24, 2, o.policy.code), (26, 6, 0)], field (readPort s h 2) f.1 f.2.1 = f.2.2) ∧
    ((s.ctx h).stack.length ≤ 8 →
      ∀ f ∈ [(0, 2, (s.ctx h).session.code), (2, 2, 0), (4, 4, (s.level h).val), (8, 4, (s.ctx h).stack.length),
        (12, 4, (s.ctx h).lapseCount.val), (16, 1, bit (s.ctx h).configRight), (17, 1, bit (s.ctx h).descRight),
        (18, 1, if s.hcu.supervisor = h then 1 else 0), (19, 13, 0)], field (readPort s h 3) f.1 f.2.1 = f.2.2) ∧
    (s.intLines.getLsbD h.val = false ↔ (s.slot h).offer ≠ none) ∧
    (s.mp.access = none → s.memoryRequest = none) ∧
    (∀ a ∈ s.mp.access, ∀ size : BitVec 2,
      (a.size = 1 ∧ size = 1) ∨ (a.size = 2 ∧ size = 2) ∨ (a.size = 4 ∧ size = 3) →
      s.memoryRequest = some (a.addr, size, a.isWrite, a.tag, if a.isWrite then s.mp.heldData else none))
end

