-- ==== Sys2Proof/Laws/State.lean ====
section
/-! SUPPORT. One lemma per field and update of State, and the records read back after each update. -/

namespace Sys2Proof.Machine

/-! ### Tables -/

@[simp] theorem put_put {α : Type} {n : Nat} (t : Table α n) (i : Fin n) (a b : α) :
    put (put t i a) i b = put t i b := by
  simp [put]

theorem put_comm {α : Type} {n : Nat} (t : Table α n) {i j : Fin n} (a b : α) (h : i ≠ j) :
    put (put t i a) j b = put (put t j b) i a := by
  have hv : i.val ≠ j.val := fun e => h (Fin.ext e)
  unfold put
  exact Vector.set_comm _ _ hv

@[simp] theorem put_look {α : Type} {n : Nat} (t : Table α n) (i : Fin n) : put t i (look t i) = t := by
  simp [put, look]

theorem table_ext {α : Type} {n : Nat} {t u : Table α n} (h : ∀ i : Fin n, look t i = look u i) : t = u := by
  apply Vector.ext
  intro i hi
  exact h ⟨i, hi⟩

@[simp] theorem look_ofFn {α : Type} {n : Nat} (f : Fin n → α) (i : Fin n) : look (Vector.ofFn f) i = f i := by
  simp [look]

@[simp] theorem look_mapTable {α β : Type} {n : Nat} (f : α → β) (t : Table α n) (i : Fin n) :
    look (mapTable f t) i = f (look t i) := by
  simp [mapTable]

/-! ### Fields after an update -/

@[simp] theorem State.setEntry_lines (s : State) (e : Source) (x : Entry) : (s.setEntry e x).lines = s.lines := rfl
@[simp] theorem State.setEntry_et (s : State) (e : Source) (x : Entry) : (s.setEntry e x).et = { s.et with entries := put s.et.entries e x } := rfl
@[simp] theorem State.setEntry_hcu (s : State) (e : Source) (x : Entry) : (s.setEntry e x).hcu = s.hcu := rfl
@[simp] theorem State.setEntry_ou (s : State) (e : Source) (x : Entry) : (s.setEntry e x).ou = s.ou := rfl
@[simp] theorem State.setEntry_du (s : State) (e : Source) (x : Entry) : (s.setEntry e x).du = s.du := rfl
@[simp] theorem State.setEntry_mp (s : State) (e : Source) (x : Entry) : (s.setEntry e x).mp = s.mp := rfl
@[simp] theorem State.setEntry_wt (s : State) (e : Source) (x : Entry) : (s.setEntry e x).wt = s.wt := rfl
@[simp] theorem State.setEntry_nq (s : State) (e : Source) (x : Entry) : (s.setEntry e x).nq = s.nq := rfl
@[simp] theorem State.setEntry_ports (s : State) (e : Source) (x : Entry) : (s.setEntry e x).ports = s.ports := rfl
@[simp] theorem State.setEntry_tb (s : State) (e : Source) (x : Entry) : (s.setEntry e x).tb = s.tb := rfl
@[simp] theorem State.setEntry_pins (s : State) (e : Source) (x : Entry) : (s.setEntry e x).pins = s.pins := rfl
@[simp] theorem State.setEntry_claims (s : State) (e : Source) (x : Entry) : (s.setEntry e x).claims = s.claims := rfl
@[simp] theorem State.setEntry_freeCount (s : State) (e : Source) (x : Entry) : (s.setEntry e x).freeCount = s.freeCount := rfl
@[simp] theorem State.setEntry_pending (s : State) (e : Source) (x : Entry) : (s.setEntry e x).pending = s.pending := rfl

@[simp] theorem State.setCfg_lines (s : State) (e : Source) (c : EntryConfig) : (s.setCfg e c).lines = s.lines := rfl
@[simp] theorem State.setCfg_et (s : State) (e : Source) (c : EntryConfig) : (s.setCfg e c).et = { s.et with entries := put s.et.entries e { s.entry e with cfg := c } } := rfl
@[simp] theorem State.setCfg_hcu (s : State) (e : Source) (c : EntryConfig) : (s.setCfg e c).hcu = s.hcu := rfl
@[simp] theorem State.setCfg_ou (s : State) (e : Source) (c : EntryConfig) : (s.setCfg e c).ou = s.ou := rfl
@[simp] theorem State.setCfg_du (s : State) (e : Source) (c : EntryConfig) : (s.setCfg e c).du = s.du := rfl
@[simp] theorem State.setCfg_mp (s : State) (e : Source) (c : EntryConfig) : (s.setCfg e c).mp = s.mp := rfl
@[simp] theorem State.setCfg_wt (s : State) (e : Source) (c : EntryConfig) : (s.setCfg e c).wt = s.wt := rfl
@[simp] theorem State.setCfg_nq (s : State) (e : Source) (c : EntryConfig) : (s.setCfg e c).nq = s.nq := rfl
@[simp] theorem State.setCfg_ports (s : State) (e : Source) (c : EntryConfig) : (s.setCfg e c).ports = s.ports := rfl
@[simp] theorem State.setCfg_tb (s : State) (e : Source) (c : EntryConfig) : (s.setCfg e c).tb = s.tb := rfl
@[simp] theorem State.setCfg_pins (s : State) (e : Source) (c : EntryConfig) : (s.setCfg e c).pins = s.pins := rfl
@[simp] theorem State.setCfg_claims (s : State) (e : Source) (c : EntryConfig) : (s.setCfg e c).claims = s.claims := rfl
@[simp] theorem State.setCfg_freeCount (s : State) (e : Source) (c : EntryConfig) : (s.setCfg e c).freeCount = s.freeCount := rfl
@[simp] theorem State.setCfg_pending (s : State) (e : Source) (c : EntryConfig) : (s.setCfg e c).pending = s.pending := rfl

@[simp] theorem State.setBind_lines (s : State) (e : Source) (b : Binding) : (s.setBind e b).lines = s.lines := rfl
@[simp] theorem State.setBind_et (s : State) (e : Source) (b : Binding) : (s.setBind e b).et = { s.et with entries := put s.et.entries e { s.entry e with bind := b } } := rfl
@[simp] theorem State.setBind_hcu (s : State) (e : Source) (b : Binding) : (s.setBind e b).hcu = s.hcu := rfl
@[simp] theorem State.setBind_ou (s : State) (e : Source) (b : Binding) : (s.setBind e b).ou = s.ou := rfl
@[simp] theorem State.setBind_du (s : State) (e : Source) (b : Binding) : (s.setBind e b).du = s.du := rfl
@[simp] theorem State.setBind_mp (s : State) (e : Source) (b : Binding) : (s.setBind e b).mp = s.mp := rfl
@[simp] theorem State.setBind_wt (s : State) (e : Source) (b : Binding) : (s.setBind e b).wt = s.wt := rfl
@[simp] theorem State.setBind_nq (s : State) (e : Source) (b : Binding) : (s.setBind e b).nq = s.nq := rfl
@[simp] theorem State.setBind_ports (s : State) (e : Source) (b : Binding) : (s.setBind e b).ports = s.ports := rfl
@[simp] theorem State.setBind_tb (s : State) (e : Source) (b : Binding) : (s.setBind e b).tb = s.tb := rfl
@[simp] theorem State.setBind_pins (s : State) (e : Source) (b : Binding) : (s.setBind e b).pins = s.pins := rfl
@[simp] theorem State.setBind_claims (s : State) (e : Source) (b : Binding) : (s.setBind e b).claims = s.claims := rfl
@[simp] theorem State.setBind_freeCount (s : State) (e : Source) (b : Binding) : (s.setBind e b).freeCount = s.freeCount := rfl
@[simp] theorem State.setBind_pending (s : State) (e : Source) (b : Binding) : (s.setBind e b).pending = s.pending := rfl

@[simp] theorem State.setProg_lines (s : State) (e : Source) (p : Progress) : (s.setProg e p).lines = s.lines := rfl
@[simp] theorem State.setProg_et (s : State) (e : Source) (p : Progress) : (s.setProg e p).et = { s.et with entries := put s.et.entries e { s.entry e with prog := p } } := rfl
@[simp] theorem State.setProg_hcu (s : State) (e : Source) (p : Progress) : (s.setProg e p).hcu = s.hcu := rfl
@[simp] theorem State.setProg_ou (s : State) (e : Source) (p : Progress) : (s.setProg e p).ou = s.ou := rfl
@[simp] theorem State.setProg_du (s : State) (e : Source) (p : Progress) : (s.setProg e p).du = s.du := rfl
@[simp] theorem State.setProg_mp (s : State) (e : Source) (p : Progress) : (s.setProg e p).mp = s.mp := rfl
@[simp] theorem State.setProg_wt (s : State) (e : Source) (p : Progress) : (s.setProg e p).wt = s.wt := rfl
@[simp] theorem State.setProg_nq (s : State) (e : Source) (p : Progress) : (s.setProg e p).nq = s.nq := rfl
@[simp] theorem State.setProg_ports (s : State) (e : Source) (p : Progress) : (s.setProg e p).ports = s.ports := rfl
@[simp] theorem State.setProg_tb (s : State) (e : Source) (p : Progress) : (s.setProg e p).tb = s.tb := rfl
@[simp] theorem State.setProg_pins (s : State) (e : Source) (p : Progress) : (s.setProg e p).pins = s.pins := rfl
@[simp] theorem State.setProg_claims (s : State) (e : Source) (p : Progress) : (s.setProg e p).claims = s.claims := rfl
@[simp] theorem State.setProg_freeCount (s : State) (e : Source) (p : Progress) : (s.setProg e p).freeCount = s.freeCount := rfl
@[simp] theorem State.setProg_pending (s : State) (e : Source) (p : Progress) : (s.setProg e p).pending = s.pending := rfl

@[simp] theorem State.setOrder_lines (s : State) (l : List Source) : (s.setOrder l).lines = s.lines := rfl
@[simp] theorem State.setOrder_et (s : State) (l : List Source) : (s.setOrder l).et = { s.et with order := l } := rfl
@[simp] theorem State.setOrder_hcu (s : State) (l : List Source) : (s.setOrder l).hcu = s.hcu := rfl
@[simp] theorem State.setOrder_ou (s : State) (l : List Source) : (s.setOrder l).ou = s.ou := rfl
@[simp] theorem State.setOrder_du (s : State) (l : List Source) : (s.setOrder l).du = s.du := rfl
@[simp] theorem State.setOrder_mp (s : State) (l : List Source) : (s.setOrder l).mp = s.mp := rfl
@[simp] theorem State.setOrder_wt (s : State) (l : List Source) : (s.setOrder l).wt = s.wt := rfl
@[simp] theorem State.setOrder_nq (s : State) (l : List Source) : (s.setOrder l).nq = s.nq := rfl
@[simp] theorem State.setOrder_ports (s : State) (l : List Source) : (s.setOrder l).ports = s.ports := rfl
@[simp] theorem State.setOrder_tb (s : State) (l : List Source) : (s.setOrder l).tb = s.tb := rfl
@[simp] theorem State.setOrder_pins (s : State) (l : List Source) : (s.setOrder l).pins = s.pins := rfl
@[simp] theorem State.setOrder_claims (s : State) (l : List Source) : (s.setOrder l).claims = s.claims := rfl
@[simp] theorem State.setOrder_freeCount (s : State) (l : List Source) : (s.setOrder l).freeCount = s.freeCount := rfl
@[simp] theorem State.setOrder_pending (s : State) (l : List Source) : (s.setOrder l).pending = s.pending := rfl

@[simp] theorem State.setCtx_lines (s : State) (h : HostId) (c : HostContext) : (s.setCtx h c).lines = s.lines := rfl
@[simp] theorem State.setCtx_et (s : State) (h : HostId) (c : HostContext) : (s.setCtx h c).et = s.et := rfl
@[simp] theorem State.setCtx_hcu (s : State) (h : HostId) (c : HostContext) : (s.setCtx h c).hcu = { s.hcu with ctx := put s.hcu.ctx h c } := rfl
@[simp] theorem State.setCtx_ou (s : State) (h : HostId) (c : HostContext) : (s.setCtx h c).ou = s.ou := rfl
@[simp] theorem State.setCtx_du (s : State) (h : HostId) (c : HostContext) : (s.setCtx h c).du = s.du := rfl
@[simp] theorem State.setCtx_mp (s : State) (h : HostId) (c : HostContext) : (s.setCtx h c).mp = s.mp := rfl
@[simp] theorem State.setCtx_wt (s : State) (h : HostId) (c : HostContext) : (s.setCtx h c).wt = s.wt := rfl
@[simp] theorem State.setCtx_nq (s : State) (h : HostId) (c : HostContext) : (s.setCtx h c).nq = s.nq := rfl
@[simp] theorem State.setCtx_ports (s : State) (h : HostId) (c : HostContext) : (s.setCtx h c).ports = s.ports := rfl
@[simp] theorem State.setCtx_tb (s : State) (h : HostId) (c : HostContext) : (s.setCtx h c).tb = s.tb := rfl
@[simp] theorem State.setCtx_pins (s : State) (h : HostId) (c : HostContext) : (s.setCtx h c).pins = s.pins := rfl
@[simp] theorem State.setCtx_claims (s : State) (h : HostId) (c : HostContext) : (s.setCtx h c).claims = s.claims := rfl
@[simp] theorem State.setCtx_freeCount (s : State) (h : HostId) (c : HostContext) : (s.setCtx h c).freeCount = s.freeCount := rfl
@[simp] theorem State.setCtx_pending (s : State) (h : HostId) (c : HostContext) : (s.setCtx h c).pending = s.pending := rfl

@[simp] theorem State.setSlot_lines (s : State) (h : HostId) (x : Slot) : (s.setSlot h x).lines = s.lines := rfl
@[simp] theorem State.setSlot_et (s : State) (h : HostId) (x : Slot) : (s.setSlot h x).et = s.et := rfl
@[simp] theorem State.setSlot_hcu (s : State) (h : HostId) (x : Slot) : (s.setSlot h x).hcu = s.hcu := rfl
@[simp] theorem State.setSlot_ou (s : State) (h : HostId) (x : Slot) : (s.setSlot h x).ou = { s.ou with slots := put s.ou.slots h x } := rfl
@[simp] theorem State.setSlot_du (s : State) (h : HostId) (x : Slot) : (s.setSlot h x).du = s.du := rfl
@[simp] theorem State.setSlot_mp (s : State) (h : HostId) (x : Slot) : (s.setSlot h x).mp = s.mp := rfl
@[simp] theorem State.setSlot_wt (s : State) (h : HostId) (x : Slot) : (s.setSlot h x).wt = s.wt := rfl
@[simp] theorem State.setSlot_nq (s : State) (h : HostId) (x : Slot) : (s.setSlot h x).nq = s.nq := rfl
@[simp] theorem State.setSlot_ports (s : State) (h : HostId) (x : Slot) : (s.setSlot h x).ports = s.ports := rfl
@[simp] theorem State.setSlot_tb (s : State) (h : HostId) (x : Slot) : (s.setSlot h x).tb = s.tb := rfl
@[simp] theorem State.setSlot_pins (s : State) (h : HostId) (x : Slot) : (s.setSlot h x).pins = s.pins := rfl
@[simp] theorem State.setSlot_claims (s : State) (h : HostId) (x : Slot) : (s.setSlot h x).claims = s.claims := rfl
@[simp] theorem State.setSlot_freeCount (s : State) (h : HostId) (x : Slot) : (s.setSlot h x).freeCount = s.freeCount := rfl
@[simp] theorem State.setSlot_pending (s : State) (h : HostId) (x : Slot) : (s.setSlot h x).pending = s.pending := rfl

@[simp] theorem State.setView_lines (s : State) (h : HostId) (l : List StackRecord) : (s.setView h l).lines = s.lines := rfl
@[simp] theorem State.setView_et (s : State) (h : HostId) (l : List StackRecord) : (s.setView h l).et = s.et := rfl
@[simp] theorem State.setView_hcu (s : State) (h : HostId) (l : List StackRecord) : (s.setView h l).hcu = s.hcu := rfl
@[simp] theorem State.setView_ou (s : State) (h : HostId) (l : List StackRecord) : (s.setView h l).ou = { s.ou with views := put s.ou.views h l } := rfl
@[simp] theorem State.setView_du (s : State) (h : HostId) (l : List StackRecord) : (s.setView h l).du = s.du := rfl
@[simp] theorem State.setView_mp (s : State) (h : HostId) (l : List StackRecord) : (s.setView h l).mp = s.mp := rfl
@[simp] theorem State.setView_wt (s : State) (h : HostId) (l : List StackRecord) : (s.setView h l).wt = s.wt := rfl
@[simp] theorem State.setView_nq (s : State) (h : HostId) (l : List StackRecord) : (s.setView h l).nq = s.nq := rfl
@[simp] theorem State.setView_ports (s : State) (h : HostId) (l : List StackRecord) : (s.setView h l).ports = s.ports := rfl
@[simp] theorem State.setView_tb (s : State) (h : HostId) (l : List StackRecord) : (s.setView h l).tb = s.tb := rfl
@[simp] theorem State.setView_pins (s : State) (h : HostId) (l : List StackRecord) : (s.setView h l).pins = s.pins := rfl
@[simp] theorem State.setView_claims (s : State) (h : HostId) (l : List StackRecord) : (s.setView h l).claims = s.claims := rfl
@[simp] theorem State.setView_freeCount (s : State) (h : HostId) (l : List StackRecord) : (s.setView h l).freeCount = s.freeCount := rfl
@[simp] theorem State.setView_pending (s : State) (h : HostId) (l : List StackRecord) : (s.setView h l).pending = s.pending := rfl

@[simp] theorem State.setChannel_lines (s : State) (c : ChannelId) (x : Channel) : (s.setChannel c x).lines = s.lines := rfl
@[simp] theorem State.setChannel_et (s : State) (c : ChannelId) (x : Channel) : (s.setChannel c x).et = s.et := rfl
@[simp] theorem State.setChannel_hcu (s : State) (c : ChannelId) (x : Channel) : (s.setChannel c x).hcu = s.hcu := rfl
@[simp] theorem State.setChannel_ou (s : State) (c : ChannelId) (x : Channel) : (s.setChannel c x).ou = s.ou := rfl
@[simp] theorem State.setChannel_du (s : State) (c : ChannelId) (x : Channel) : (s.setChannel c x).du = { s.du with channels := put s.du.channels c x } := rfl
@[simp] theorem State.setChannel_mp (s : State) (c : ChannelId) (x : Channel) : (s.setChannel c x).mp = s.mp := rfl
@[simp] theorem State.setChannel_wt (s : State) (c : ChannelId) (x : Channel) : (s.setChannel c x).wt = s.wt := rfl
@[simp] theorem State.setChannel_nq (s : State) (c : ChannelId) (x : Channel) : (s.setChannel c x).nq = s.nq := rfl
@[simp] theorem State.setChannel_ports (s : State) (c : ChannelId) (x : Channel) : (s.setChannel c x).ports = s.ports := rfl
@[simp] theorem State.setChannel_tb (s : State) (c : ChannelId) (x : Channel) : (s.setChannel c x).tb = s.tb := rfl
@[simp] theorem State.setChannel_pins (s : State) (c : ChannelId) (x : Channel) : (s.setChannel c x).pins = s.pins := rfl
@[simp] theorem State.setChannel_claims (s : State) (c : ChannelId) (x : Channel) : (s.setChannel c x).claims = s.claims := rfl
@[simp] theorem State.setChannel_freeCount (s : State) (c : ChannelId) (x : Channel) : (s.setChannel c x).freeCount = s.freeCount := rfl
@[simp] theorem State.setChannel_pending (s : State) (c : ChannelId) (x : Channel) : (s.setChannel c x).pending = s.pending := rfl

@[simp] theorem State.setDesc_lines (s : State) (d : DescId) (x : Descriptor) : (s.setDesc d x).lines = s.lines := rfl
@[simp] theorem State.setDesc_et (s : State) (d : DescId) (x : Descriptor) : (s.setDesc d x).et = s.et := rfl
@[simp] theorem State.setDesc_hcu (s : State) (d : DescId) (x : Descriptor) : (s.setDesc d x).hcu = s.hcu := rfl
@[simp] theorem State.setDesc_ou (s : State) (d : DescId) (x : Descriptor) : (s.setDesc d x).ou = s.ou := rfl
@[simp] theorem State.setDesc_du (s : State) (d : DescId) (x : Descriptor) : (s.setDesc d x).du = { s.du with descs := put s.du.descs d x } := rfl
@[simp] theorem State.setDesc_mp (s : State) (d : DescId) (x : Descriptor) : (s.setDesc d x).mp = s.mp := rfl
@[simp] theorem State.setDesc_wt (s : State) (d : DescId) (x : Descriptor) : (s.setDesc d x).wt = s.wt := rfl
@[simp] theorem State.setDesc_nq (s : State) (d : DescId) (x : Descriptor) : (s.setDesc d x).nq = s.nq := rfl
@[simp] theorem State.setDesc_ports (s : State) (d : DescId) (x : Descriptor) : (s.setDesc d x).ports = s.ports := rfl
@[simp] theorem State.setDesc_tb (s : State) (d : DescId) (x : Descriptor) : (s.setDesc d x).tb = s.tb := rfl
@[simp] theorem State.setDesc_pins (s : State) (d : DescId) (x : Descriptor) : (s.setDesc d x).pins = s.pins := rfl
@[simp] theorem State.setDesc_claims (s : State) (d : DescId) (x : Descriptor) : (s.setDesc d x).claims = s.claims := rfl
@[simp] theorem State.setDesc_freeCount (s : State) (d : DescId) (x : Descriptor) : (s.setDesc d x).freeCount = s.freeCount := rfl
@[simp] theorem State.setDesc_pending (s : State) (d : DescId) (x : Descriptor) : (s.setDesc d x).pending = s.pending := rfl

@[simp] theorem State.setPort_lines (s : State) (h : HostId) (p : Port) : (s.setPort h p).lines = s.lines := rfl
@[simp] theorem State.setPort_et (s : State) (h : HostId) (p : Port) : (s.setPort h p).et = s.et := rfl
@[simp] theorem State.setPort_hcu (s : State) (h : HostId) (p : Port) : (s.setPort h p).hcu = s.hcu := rfl
@[simp] theorem State.setPort_ou (s : State) (h : HostId) (p : Port) : (s.setPort h p).ou = s.ou := rfl
@[simp] theorem State.setPort_du (s : State) (h : HostId) (p : Port) : (s.setPort h p).du = s.du := rfl
@[simp] theorem State.setPort_mp (s : State) (h : HostId) (p : Port) : (s.setPort h p).mp = s.mp := rfl
@[simp] theorem State.setPort_wt (s : State) (h : HostId) (p : Port) : (s.setPort h p).wt = s.wt := rfl
@[simp] theorem State.setPort_nq (s : State) (h : HostId) (p : Port) : (s.setPort h p).nq = s.nq := rfl
@[simp] theorem State.setPort_ports (s : State) (h : HostId) (p : Port) : (s.setPort h p).ports = put s.ports h p := rfl
@[simp] theorem State.setPort_tb (s : State) (h : HostId) (p : Port) : (s.setPort h p).tb = s.tb := rfl
@[simp] theorem State.setPort_pins (s : State) (h : HostId) (p : Port) : (s.setPort h p).pins = s.pins := rfl
@[simp] theorem State.setPort_claims (s : State) (h : HostId) (p : Port) : (s.setPort h p).claims = s.claims := rfl
@[simp] theorem State.setPort_freeCount (s : State) (h : HostId) (p : Port) : (s.setPort h p).freeCount = s.freeCount := rfl
@[simp] theorem State.setPort_pending (s : State) (h : HostId) (p : Port) : (s.setPort h p).pending = s.pending := rfl

@[simp] theorem State.setWindows_lines (s : State) (h : HostId) (w : Table Window 8) : (s.setWindows h w).lines = s.lines := rfl
@[simp] theorem State.setWindows_et (s : State) (h : HostId) (w : Table Window 8) : (s.setWindows h w).et = s.et := rfl
@[simp] theorem State.setWindows_hcu (s : State) (h : HostId) (w : Table Window 8) : (s.setWindows h w).hcu = s.hcu := rfl
@[simp] theorem State.setWindows_ou (s : State) (h : HostId) (w : Table Window 8) : (s.setWindows h w).ou = s.ou := rfl
@[simp] theorem State.setWindows_du (s : State) (h : HostId) (w : Table Window 8) : (s.setWindows h w).du = s.du := rfl
@[simp] theorem State.setWindows_mp (s : State) (h : HostId) (w : Table Window 8) : (s.setWindows h w).mp = s.mp := rfl
@[simp] theorem State.setWindows_wt (s : State) (h : HostId) (w : Table Window 8) : (s.setWindows h w).wt = put s.wt h w := rfl
@[simp] theorem State.setWindows_nq (s : State) (h : HostId) (w : Table Window 8) : (s.setWindows h w).nq = s.nq := rfl
@[simp] theorem State.setWindows_ports (s : State) (h : HostId) (w : Table Window 8) : (s.setWindows h w).ports = s.ports := rfl
@[simp] theorem State.setWindows_tb (s : State) (h : HostId) (w : Table Window 8) : (s.setWindows h w).tb = s.tb := rfl
@[simp] theorem State.setWindows_pins (s : State) (h : HostId) (w : Table Window 8) : (s.setWindows h w).pins = s.pins := rfl
@[simp] theorem State.setWindows_claims (s : State) (h : HostId) (w : Table Window 8) : (s.setWindows h w).claims = s.claims := rfl
@[simp] theorem State.setWindows_freeCount (s : State) (h : HostId) (w : Table Window 8) : (s.setWindows h w).freeCount = s.freeCount := rfl
@[simp] theorem State.setWindows_pending (s : State) (h : HostId) (w : Table Window 8) : (s.setWindows h w).pending = s.pending := rfl

@[simp] theorem State.setHanded_lines (s : State) (h : HostId) (l : List Handed) : (s.setHanded h l).lines = s.lines := rfl
@[simp] theorem State.setHanded_et (s : State) (h : HostId) (l : List Handed) : (s.setHanded h l).et = s.et := rfl
@[simp] theorem State.setHanded_hcu (s : State) (h : HostId) (l : List Handed) : (s.setHanded h l).hcu = s.hcu := rfl
@[simp] theorem State.setHanded_ou (s : State) (h : HostId) (l : List Handed) : (s.setHanded h l).ou = s.ou := rfl
@[simp] theorem State.setHanded_du (s : State) (h : HostId) (l : List Handed) : (s.setHanded h l).du = s.du := rfl
@[simp] theorem State.setHanded_mp (s : State) (h : HostId) (l : List Handed) : (s.setHanded h l).mp = s.mp := rfl
@[simp] theorem State.setHanded_wt (s : State) (h : HostId) (l : List Handed) : (s.setHanded h l).wt = s.wt := rfl
@[simp] theorem State.setHanded_nq (s : State) (h : HostId) (l : List Handed) : (s.setHanded h l).nq = s.nq := rfl
@[simp] theorem State.setHanded_ports (s : State) (h : HostId) (l : List Handed) : (s.setHanded h l).ports = s.ports := rfl
@[simp] theorem State.setHanded_tb (s : State) (h : HostId) (l : List Handed) : (s.setHanded h l).tb = s.tb := rfl
@[simp] theorem State.setHanded_pins (s : State) (h : HostId) (l : List Handed) : (s.setHanded h l).pins = s.pins := rfl
@[simp] theorem State.setHanded_claims (s : State) (h : HostId) (l : List Handed) : (s.setHanded h l).claims = { s.claims with handed := put s.claims.handed h l } := rfl
@[simp] theorem State.setHanded_freeCount (s : State) (h : HostId) (l : List Handed) : (s.setHanded h l).freeCount = s.freeCount := rfl
@[simp] theorem State.setHanded_pending (s : State) (h : HostId) (l : List Handed) : (s.setHanded h l).pending = s.pending := rfl

@[simp] theorem State.setTake_lines (s : State) (h : HostId) (t : Option TakeClaim) : (s.setTake h t).lines = s.lines := rfl
@[simp] theorem State.setTake_et (s : State) (h : HostId) (t : Option TakeClaim) : (s.setTake h t).et = s.et := rfl
@[simp] theorem State.setTake_hcu (s : State) (h : HostId) (t : Option TakeClaim) : (s.setTake h t).hcu = s.hcu := rfl
@[simp] theorem State.setTake_ou (s : State) (h : HostId) (t : Option TakeClaim) : (s.setTake h t).ou = s.ou := rfl
@[simp] theorem State.setTake_du (s : State) (h : HostId) (t : Option TakeClaim) : (s.setTake h t).du = s.du := rfl
@[simp] theorem State.setTake_mp (s : State) (h : HostId) (t : Option TakeClaim) : (s.setTake h t).mp = s.mp := rfl
@[simp] theorem State.setTake_wt (s : State) (h : HostId) (t : Option TakeClaim) : (s.setTake h t).wt = s.wt := rfl
@[simp] theorem State.setTake_nq (s : State) (h : HostId) (t : Option TakeClaim) : (s.setTake h t).nq = s.nq := rfl
@[simp] theorem State.setTake_ports (s : State) (h : HostId) (t : Option TakeClaim) : (s.setTake h t).ports = s.ports := rfl
@[simp] theorem State.setTake_tb (s : State) (h : HostId) (t : Option TakeClaim) : (s.setTake h t).tb = s.tb := rfl
@[simp] theorem State.setTake_pins (s : State) (h : HostId) (t : Option TakeClaim) : (s.setTake h t).pins = s.pins := rfl
@[simp] theorem State.setTake_claims (s : State) (h : HostId) (t : Option TakeClaim) : (s.setTake h t).claims = { s.claims with takes := put s.claims.takes h t } := rfl
@[simp] theorem State.setTake_freeCount (s : State) (h : HostId) (t : Option TakeClaim) : (s.setTake h t).freeCount = s.freeCount := rfl
@[simp] theorem State.setTake_pending (s : State) (h : HostId) (t : Option TakeClaim) : (s.setTake h t).pending = s.pending := rfl

@[simp] theorem State.setLapse_lines (s : State) (h : HostId) (l : LapseClaim) : (s.setLapse h l).lines = s.lines := rfl
@[simp] theorem State.setLapse_et (s : State) (h : HostId) (l : LapseClaim) : (s.setLapse h l).et = s.et := rfl
@[simp] theorem State.setLapse_hcu (s : State) (h : HostId) (l : LapseClaim) : (s.setLapse h l).hcu = s.hcu := rfl
@[simp] theorem State.setLapse_ou (s : State) (h : HostId) (l : LapseClaim) : (s.setLapse h l).ou = s.ou := rfl
@[simp] theorem State.setLapse_du (s : State) (h : HostId) (l : LapseClaim) : (s.setLapse h l).du = s.du := rfl
@[simp] theorem State.setLapse_mp (s : State) (h : HostId) (l : LapseClaim) : (s.setLapse h l).mp = s.mp := rfl
@[simp] theorem State.setLapse_wt (s : State) (h : HostId) (l : LapseClaim) : (s.setLapse h l).wt = s.wt := rfl
@[simp] theorem State.setLapse_nq (s : State) (h : HostId) (l : LapseClaim) : (s.setLapse h l).nq = s.nq := rfl
@[simp] theorem State.setLapse_ports (s : State) (h : HostId) (l : LapseClaim) : (s.setLapse h l).ports = s.ports := rfl
@[simp] theorem State.setLapse_tb (s : State) (h : HostId) (l : LapseClaim) : (s.setLapse h l).tb = s.tb := rfl
@[simp] theorem State.setLapse_pins (s : State) (h : HostId) (l : LapseClaim) : (s.setLapse h l).pins = s.pins := rfl
@[simp] theorem State.setLapse_claims (s : State) (h : HostId) (l : LapseClaim) : (s.setLapse h l).claims = { s.claims with lapses := put s.claims.lapses h l } := rfl
@[simp] theorem State.setLapse_freeCount (s : State) (h : HostId) (l : LapseClaim) : (s.setLapse h l).freeCount = s.freeCount := rfl
@[simp] theorem State.setLapse_pending (s : State) (h : HostId) (l : LapseClaim) : (s.setLapse h l).pending = s.pending := rfl

@[simp] theorem State.setUndo_lines (s : State) (h : HostId) (e : Option Source) : (s.setUndo h e).lines = s.lines := rfl
@[simp] theorem State.setUndo_et (s : State) (h : HostId) (e : Option Source) : (s.setUndo h e).et = s.et := rfl
@[simp] theorem State.setUndo_hcu (s : State) (h : HostId) (e : Option Source) : (s.setUndo h e).hcu = s.hcu := rfl
@[simp] theorem State.setUndo_ou (s : State) (h : HostId) (e : Option Source) : (s.setUndo h e).ou = s.ou := rfl
@[simp] theorem State.setUndo_du (s : State) (h : HostId) (e : Option Source) : (s.setUndo h e).du = s.du := rfl
@[simp] theorem State.setUndo_mp (s : State) (h : HostId) (e : Option Source) : (s.setUndo h e).mp = s.mp := rfl
@[simp] theorem State.setUndo_wt (s : State) (h : HostId) (e : Option Source) : (s.setUndo h e).wt = s.wt := rfl
@[simp] theorem State.setUndo_nq (s : State) (h : HostId) (e : Option Source) : (s.setUndo h e).nq = s.nq := rfl
@[simp] theorem State.setUndo_ports (s : State) (h : HostId) (e : Option Source) : (s.setUndo h e).ports = s.ports := rfl
@[simp] theorem State.setUndo_tb (s : State) (h : HostId) (e : Option Source) : (s.setUndo h e).tb = s.tb := rfl
@[simp] theorem State.setUndo_pins (s : State) (h : HostId) (e : Option Source) : (s.setUndo h e).pins = s.pins := rfl
@[simp] theorem State.setUndo_claims (s : State) (h : HostId) (e : Option Source) : (s.setUndo h e).claims = { s.claims with undos := put s.claims.undos h e } := rfl
@[simp] theorem State.setUndo_freeCount (s : State) (h : HostId) (e : Option Source) : (s.setUndo h e).freeCount = s.freeCount := rfl
@[simp] theorem State.setUndo_pending (s : State) (h : HostId) (e : Option Source) : (s.setUndo h e).pending = s.pending := rfl

@[simp] theorem State.handNotice_lines (s : State) (o : Origin) (n : Notice) : (s.handNotice o n).lines = s.lines := rfl
@[simp] theorem State.handNotice_et (s : State) (o : Origin) (n : Notice) : (s.handNotice o n).et = s.et := rfl
@[simp] theorem State.handNotice_hcu (s : State) (o : Origin) (n : Notice) : (s.handNotice o n).hcu = s.hcu := rfl
@[simp] theorem State.handNotice_ou (s : State) (o : Origin) (n : Notice) : (s.handNotice o n).ou = s.ou := rfl
@[simp] theorem State.handNotice_du (s : State) (o : Origin) (n : Notice) : (s.handNotice o n).du = s.du := rfl
@[simp] theorem State.handNotice_mp (s : State) (o : Origin) (n : Notice) : (s.handNotice o n).mp = s.mp := rfl
@[simp] theorem State.handNotice_wt (s : State) (o : Origin) (n : Notice) : (s.handNotice o n).wt = s.wt := rfl
@[simp] theorem State.handNotice_nq (s : State) (o : Origin) (n : Notice) : (s.handNotice o n).nq = s.nq := rfl
@[simp] theorem State.handNotice_ports (s : State) (o : Origin) (n : Notice) : (s.handNotice o n).ports = s.ports := rfl
@[simp] theorem State.handNotice_tb (s : State) (o : Origin) (n : Notice) : (s.handNotice o n).tb = s.tb := rfl
@[simp] theorem State.handNotice_pins (s : State) (o : Origin) (n : Notice) : (s.handNotice o n).pins = s.pins := rfl
@[simp] theorem State.handNotice_claims (s : State) (o : Origin) (n : Notice) : (s.handNotice o n).claims = { s.claims with notices := s.claims.notices ++ [(o, n)] } := rfl
@[simp] theorem State.handNotice_freeCount (s : State) (o : Origin) (n : Notice) : (s.handNotice o n).freeCount = s.freeCount := rfl
@[simp] theorem State.handNotice_pending (s : State) (o : Origin) (n : Notice) : (s.handNotice o n).pending = s.pending := rfl

@[simp] theorem State.answered_lines (s : State) (h : HostId) (code : Operand) (r : ResultCode) : (s.answered h code r).lines = s.lines := rfl
@[simp] theorem State.answered_et (s : State) (h : HostId) (code : Operand) (r : ResultCode) : (s.answered h code r).et = s.et := rfl
@[simp] theorem State.answered_hcu (s : State) (h : HostId) (code : Operand) (r : ResultCode) : (s.answered h code r).hcu = s.hcu := rfl
@[simp] theorem State.answered_ou (s : State) (h : HostId) (code : Operand) (r : ResultCode) : (s.answered h code r).ou = s.ou := rfl
@[simp] theorem State.answered_du (s : State) (h : HostId) (code : Operand) (r : ResultCode) : (s.answered h code r).du = s.du := rfl
@[simp] theorem State.answered_mp (s : State) (h : HostId) (code : Operand) (r : ResultCode) : (s.answered h code r).mp = s.mp := rfl
@[simp] theorem State.answered_wt (s : State) (h : HostId) (code : Operand) (r : ResultCode) : (s.answered h code r).wt = s.wt := rfl
@[simp] theorem State.answered_nq (s : State) (h : HostId) (code : Operand) (r : ResultCode) : (s.answered h code r).nq = s.nq := rfl
@[simp] theorem State.answered_ports (s : State) (h : HostId) (code : Operand) (r : ResultCode) : (s.answered h code r).ports = put s.ports h { look s.ports h with lost := false, result := r, echo := code } := rfl
@[simp] theorem State.answered_tb (s : State) (h : HostId) (code : Operand) (r : ResultCode) : (s.answered h code r).tb = s.tb := rfl
@[simp] theorem State.answered_pins (s : State) (h : HostId) (code : Operand) (r : ResultCode) : (s.answered h code r).pins = s.pins := rfl
@[simp] theorem State.answered_claims (s : State) (h : HostId) (code : Operand) (r : ResultCode) : (s.answered h code r).claims = s.claims := rfl
@[simp] theorem State.answered_freeCount (s : State) (h : HostId) (code : Operand) (r : ResultCode) : (s.answered h code r).freeCount = s.freeCount := rfl
@[simp] theorem State.answered_pending (s : State) (h : HostId) (code : Operand) (r : ResultCode) : (s.answered h code r).pending = s.pending := rfl

/-! ### Records after an update -/

theorem State.setEntry_entry (s : State) (e : Source) (x : Entry) (f : Source) :
    (s.setEntry e x).entry f = if f = e then x else s.entry f :=
  look_put _ _ _ _
@[simp] theorem State.setEntry_entry_self (s : State) (e : Source) (x : Entry) : (s.setEntry e x).entry e = x := by
  simp [State.setEntry_entry]
theorem State.setEntry_cfg (s : State) (e : Source) (x : Entry) (f : Source) :
    (s.setEntry e x).cfg f = if f = e then x.cfg else s.cfg f := by
  simp only [State.setEntry, State.cfg, State.entry, look_put]
  split <;> simp_all
@[simp] theorem State.setEntry_cfg_self (s : State) (e : Source) (x : Entry) : (s.setEntry e x).cfg e = x.cfg := by
  simp [State.setEntry_cfg]
theorem State.setEntry_bind (s : State) (e : Source) (x : Entry) (f : Source) :
    (s.setEntry e x).bind f = if f = e then x.bind else s.bind f := by
  simp only [State.setEntry, State.bind, State.entry, look_put]
  split <;> simp_all
@[simp] theorem State.setEntry_bind_self (s : State) (e : Source) (x : Entry) : (s.setEntry e x).bind e = x.bind := by
  simp [State.setEntry_bind]
theorem State.setEntry_prog (s : State) (e : Source) (x : Entry) (f : Source) :
    (s.setEntry e x).prog f = if f = e then x.prog else s.prog f := by
  simp only [State.setEntry, State.prog, State.entry, look_put]
  split <;> simp_all
@[simp] theorem State.setEntry_prog_self (s : State) (e : Source) (x : Entry) : (s.setEntry e x).prog e = x.prog := by
  simp [State.setEntry_prog]
@[simp] theorem State.setEntry_ctx (s : State) (e : Source) (x : Entry) (k : HostId) : (s.setEntry e x).ctx k = s.ctx k := rfl
@[simp] theorem State.setEntry_slot (s : State) (e : Source) (x : Entry) (k : HostId) : (s.setEntry e x).slot k = s.slot k := rfl
@[simp] theorem State.setEntry_viewOf (s : State) (e : Source) (x : Entry) (k : HostId) : (s.setEntry e x).viewOf k = s.viewOf k := rfl
@[simp] theorem State.setEntry_channel (s : State) (e : Source) (x : Entry) (k : ChannelId) : (s.setEntry e x).channel k = s.channel k := rfl
@[simp] theorem State.setEntry_desc (s : State) (e : Source) (x : Entry) (k : DescId) : (s.setEntry e x).desc k = s.desc k := rfl
@[simp] theorem State.setEntry_port (s : State) (e : Source) (x : Entry) (k : HostId) : (s.setEntry e x).port k = s.port k := rfl
@[simp] theorem State.setEntry_windows (s : State) (e : Source) (x : Entry) (k : HostId) : (s.setEntry e x).windows k = s.windows k := rfl
@[simp] theorem State.setEntry_handedOf (s : State) (e : Source) (x : Entry) (k : HostId) : (s.setEntry e x).handedOf k = s.handedOf k := rfl
@[simp] theorem State.setEntry_takeOf (s : State) (e : Source) (x : Entry) (k : HostId) : (s.setEntry e x).takeOf k = s.takeOf k := rfl
@[simp] theorem State.setEntry_lapseOf (s : State) (e : Source) (x : Entry) (k : HostId) : (s.setEntry e x).lapseOf k = s.lapseOf k := rfl
@[simp] theorem State.setEntry_undoOf (s : State) (e : Source) (x : Entry) (k : HostId) : (s.setEntry e x).undoOf k = s.undoOf k := rfl

theorem State.setCfg_entry (s : State) (e : Source) (c : EntryConfig) (f : Source) :
    (s.setCfg e c).entry f = if f = e then { s.entry e with cfg := c } else s.entry f :=
  look_put _ _ _ _
@[simp] theorem State.setCfg_entry_self (s : State) (e : Source) (c : EntryConfig) : (s.setCfg e c).entry e = { s.entry e with cfg := c } := by
  simp [State.setCfg_entry]
theorem State.setCfg_cfg (s : State) (e : Source) (c : EntryConfig) (f : Source) :
    (s.setCfg e c).cfg f = if f = e then c else s.cfg f := by
  simp only [State.setCfg, State.cfg, State.setEntry, State.entry, look_put]
  split <;> simp_all
@[simp] theorem State.setCfg_cfg_self (s : State) (e : Source) (c : EntryConfig) : (s.setCfg e c).cfg e = c := by
  simp [State.setCfg_cfg]
@[simp] theorem State.setCfg_bind (s : State) (e : Source) (c : EntryConfig) (f : Source) : (s.setCfg e c).bind f = s.bind f := by
  simp only [State.setCfg, State.bind, State.setEntry, State.entry, look_put]
  split <;> simp_all
@[simp] theorem State.setCfg_prog (s : State) (e : Source) (c : EntryConfig) (f : Source) : (s.setCfg e c).prog f = s.prog f := by
  simp only [State.setCfg, State.prog, State.setEntry, State.entry, look_put]
  split <;> simp_all
@[simp] theorem State.setCfg_ctx (s : State) (e : Source) (c : EntryConfig) (k : HostId) : (s.setCfg e c).ctx k = s.ctx k := rfl
@[simp] theorem State.setCfg_slot (s : State) (e : Source) (c : EntryConfig) (k : HostId) : (s.setCfg e c).slot k = s.slot k := rfl
@[simp] theorem State.setCfg_viewOf (s : State) (e : Source) (c : EntryConfig) (k : HostId) : (s.setCfg e c).viewOf k = s.viewOf k := rfl
@[simp] theorem State.setCfg_channel (s : State) (e : Source) (c : EntryConfig) (k : ChannelId) : (s.setCfg e c).channel k = s.channel k := rfl
@[simp] theorem State.setCfg_desc (s : State) (e : Source) (c : EntryConfig) (k : DescId) : (s.setCfg e c).desc k = s.desc k := rfl
@[simp] theorem State.setCfg_port (s : State) (e : Source) (c : EntryConfig) (k : HostId) : (s.setCfg e c).port k = s.port k := rfl
@[simp] theorem State.setCfg_windows (s : State) (e : Source) (c : EntryConfig) (k : HostId) : (s.setCfg e c).windows k = s.windows k := rfl
@[simp] theorem State.setCfg_handedOf (s : State) (e : Source) (c : EntryConfig) (k : HostId) : (s.setCfg e c).handedOf k = s.handedOf k := rfl
@[simp] theorem State.setCfg_takeOf (s : State) (e : Source) (c : EntryConfig) (k : HostId) : (s.setCfg e c).takeOf k = s.takeOf k := rfl
@[simp] theorem State.setCfg_lapseOf (s : State) (e : Source) (c : EntryConfig) (k : HostId) : (s.setCfg e c).lapseOf k = s.lapseOf k := rfl
@[simp] theorem State.setCfg_undoOf (s : State) (e : Source) (c : EntryConfig) (k : HostId) : (s.setCfg e c).undoOf k = s.undoOf k := rfl

theorem State.setBind_entry (s : State) (e : Source) (b : Binding) (f : Source) :
    (s.setBind e b).entry f = if f = e then { s.entry e with bind := b } else s.entry f :=
  look_put _ _ _ _
@[simp] theorem State.setBind_entry_self (s : State) (e : Source) (b : Binding) : (s.setBind e b).entry e = { s.entry e with bind := b } := by
  simp [State.setBind_entry]
@[simp] theorem State.setBind_cfg (s : State) (e : Source) (b : Binding) (f : Source) : (s.setBind e b).cfg f = s.cfg f := by
  simp only [State.setBind, State.cfg, State.setEntry, State.entry, look_put]
  split <;> simp_all
theorem State.setBind_bind (s : State) (e : Source) (b : Binding) (f : Source) :
    (s.setBind e b).bind f = if f = e then b else s.bind f := by
  simp only [State.setBind, State.bind, State.setEntry, State.entry, look_put]
  split <;> simp_all
@[simp] theorem State.setBind_bind_self (s : State) (e : Source) (b : Binding) : (s.setBind e b).bind e = b := by
  simp [State.setBind_bind]
@[simp] theorem State.setBind_prog (s : State) (e : Source) (b : Binding) (f : Source) : (s.setBind e b).prog f = s.prog f := by
  simp only [State.setBind, State.prog, State.setEntry, State.entry, look_put]
  split <;> simp_all
@[simp] theorem State.setBind_ctx (s : State) (e : Source) (b : Binding) (k : HostId) : (s.setBind e b).ctx k = s.ctx k := rfl
@[simp] theorem State.setBind_slot (s : State) (e : Source) (b : Binding) (k : HostId) : (s.setBind e b).slot k = s.slot k := rfl
@[simp] theorem State.setBind_viewOf (s : State) (e : Source) (b : Binding) (k : HostId) : (s.setBind e b).viewOf k = s.viewOf k := rfl
@[simp] theorem State.setBind_channel (s : State) (e : Source) (b : Binding) (k : ChannelId) : (s.setBind e b).channel k = s.channel k := rfl
@[simp] theorem State.setBind_desc (s : State) (e : Source) (b : Binding) (k : DescId) : (s.setBind e b).desc k = s.desc k := rfl
@[simp] theorem State.setBind_port (s : State) (e : Source) (b : Binding) (k : HostId) : (s.setBind e b).port k = s.port k := rfl
@[simp] theorem State.setBind_windows (s : State) (e : Source) (b : Binding) (k : HostId) : (s.setBind e b).windows k = s.windows k := rfl
@[simp] theorem State.setBind_handedOf (s : State) (e : Source) (b : Binding) (k : HostId) : (s.setBind e b).handedOf k = s.handedOf k := rfl
@[simp] theorem State.setBind_takeOf (s : State) (e : Source) (b : Binding) (k : HostId) : (s.setBind e b).takeOf k = s.takeOf k := rfl
@[simp] theorem State.setBind_lapseOf (s : State) (e : Source) (b : Binding) (k : HostId) : (s.setBind e b).lapseOf k = s.lapseOf k := rfl
@[simp] theorem State.setBind_undoOf (s : State) (e : Source) (b : Binding) (k : HostId) : (s.setBind e b).undoOf k = s.undoOf k := rfl

theorem State.setProg_entry (s : State) (e : Source) (p : Progress) (f : Source) :
    (s.setProg e p).entry f = if f = e then { s.entry e with prog := p } else s.entry f :=
  look_put _ _ _ _
@[simp] theorem State.setProg_entry_self (s : State) (e : Source) (p : Progress) : (s.setProg e p).entry e = { s.entry e with prog := p } := by
  simp [State.setProg_entry]
@[simp] theorem State.setProg_cfg (s : State) (e : Source) (p : Progress) (f : Source) : (s.setProg e p).cfg f = s.cfg f := by
  simp only [State.setProg, State.cfg, State.setEntry, State.entry, look_put]
  split <;> simp_all
@[simp] theorem State.setProg_bind (s : State) (e : Source) (p : Progress) (f : Source) : (s.setProg e p).bind f = s.bind f := by
  simp only [State.setProg, State.bind, State.setEntry, State.entry, look_put]
  split <;> simp_all
theorem State.setProg_prog (s : State) (e : Source) (p : Progress) (f : Source) :
    (s.setProg e p).prog f = if f = e then p else s.prog f := by
  simp only [State.setProg, State.prog, State.setEntry, State.entry, look_put]
  split <;> simp_all
@[simp] theorem State.setProg_prog_self (s : State) (e : Source) (p : Progress) : (s.setProg e p).prog e = p := by
  simp [State.setProg_prog]
@[simp] theorem State.setProg_ctx (s : State) (e : Source) (p : Progress) (k : HostId) : (s.setProg e p).ctx k = s.ctx k := rfl
@[simp] theorem State.setProg_slot (s : State) (e : Source) (p : Progress) (k : HostId) : (s.setProg e p).slot k = s.slot k := rfl
@[simp] theorem State.setProg_viewOf (s : State) (e : Source) (p : Progress) (k : HostId) : (s.setProg e p).viewOf k = s.viewOf k := rfl
@[simp] theorem State.setProg_channel (s : State) (e : Source) (p : Progress) (k : ChannelId) : (s.setProg e p).channel k = s.channel k := rfl
@[simp] theorem State.setProg_desc (s : State) (e : Source) (p : Progress) (k : DescId) : (s.setProg e p).desc k = s.desc k := rfl
@[simp] theorem State.setProg_port (s : State) (e : Source) (p : Progress) (k : HostId) : (s.setProg e p).port k = s.port k := rfl
@[simp] theorem State.setProg_windows (s : State) (e : Source) (p : Progress) (k : HostId) : (s.setProg e p).windows k = s.windows k := rfl
@[simp] theorem State.setProg_handedOf (s : State) (e : Source) (p : Progress) (k : HostId) : (s.setProg e p).handedOf k = s.handedOf k := rfl
@[simp] theorem State.setProg_takeOf (s : State) (e : Source) (p : Progress) (k : HostId) : (s.setProg e p).takeOf k = s.takeOf k := rfl
@[simp] theorem State.setProg_lapseOf (s : State) (e : Source) (p : Progress) (k : HostId) : (s.setProg e p).lapseOf k = s.lapseOf k := rfl
@[simp] theorem State.setProg_undoOf (s : State) (e : Source) (p : Progress) (k : HostId) : (s.setProg e p).undoOf k = s.undoOf k := rfl

@[simp] theorem State.setOrder_entry (s : State) (l : List Source) (f : Source) : (s.setOrder l).entry f = s.entry f := rfl
@[simp] theorem State.setOrder_cfg (s : State) (l : List Source) (f : Source) : (s.setOrder l).cfg f = s.cfg f := rfl
@[simp] theorem State.setOrder_bind (s : State) (l : List Source) (f : Source) : (s.setOrder l).bind f = s.bind f := rfl
@[simp] theorem State.setOrder_prog (s : State) (l : List Source) (f : Source) : (s.setOrder l).prog f = s.prog f := rfl
@[simp] theorem State.setOrder_ctx (s : State) (l : List Source) (k : HostId) : (s.setOrder l).ctx k = s.ctx k := rfl
@[simp] theorem State.setOrder_slot (s : State) (l : List Source) (k : HostId) : (s.setOrder l).slot k = s.slot k := rfl
@[simp] theorem State.setOrder_viewOf (s : State) (l : List Source) (k : HostId) : (s.setOrder l).viewOf k = s.viewOf k := rfl
@[simp] theorem State.setOrder_channel (s : State) (l : List Source) (k : ChannelId) : (s.setOrder l).channel k = s.channel k := rfl
@[simp] theorem State.setOrder_desc (s : State) (l : List Source) (k : DescId) : (s.setOrder l).desc k = s.desc k := rfl
@[simp] theorem State.setOrder_port (s : State) (l : List Source) (k : HostId) : (s.setOrder l).port k = s.port k := rfl
@[simp] theorem State.setOrder_windows (s : State) (l : List Source) (k : HostId) : (s.setOrder l).windows k = s.windows k := rfl
@[simp] theorem State.setOrder_handedOf (s : State) (l : List Source) (k : HostId) : (s.setOrder l).handedOf k = s.handedOf k := rfl
@[simp] theorem State.setOrder_takeOf (s : State) (l : List Source) (k : HostId) : (s.setOrder l).takeOf k = s.takeOf k := rfl
@[simp] theorem State.setOrder_lapseOf (s : State) (l : List Source) (k : HostId) : (s.setOrder l).lapseOf k = s.lapseOf k := rfl
@[simp] theorem State.setOrder_undoOf (s : State) (l : List Source) (k : HostId) : (s.setOrder l).undoOf k = s.undoOf k := rfl

@[simp] theorem State.setCtx_entry (s : State) (h : HostId) (c : HostContext) (f : Source) : (s.setCtx h c).entry f = s.entry f := rfl
@[simp] theorem State.setCtx_cfg (s : State) (h : HostId) (c : HostContext) (f : Source) : (s.setCtx h c).cfg f = s.cfg f := rfl
@[simp] theorem State.setCtx_bind (s : State) (h : HostId) (c : HostContext) (f : Source) : (s.setCtx h c).bind f = s.bind f := rfl
@[simp] theorem State.setCtx_prog (s : State) (h : HostId) (c : HostContext) (f : Source) : (s.setCtx h c).prog f = s.prog f := rfl
theorem State.setCtx_ctx (s : State) (h : HostId) (c : HostContext) (k : HostId) :
    (s.setCtx h c).ctx k = if k = h then c else s.ctx k :=
  look_put _ _ _ _
@[simp] theorem State.setCtx_ctx_self (s : State) (h : HostId) (c : HostContext) : (s.setCtx h c).ctx h = c := by
  simp [State.setCtx_ctx]
@[simp] theorem State.setCtx_slot (s : State) (h : HostId) (c : HostContext) (k : HostId) : (s.setCtx h c).slot k = s.slot k := rfl
@[simp] theorem State.setCtx_viewOf (s : State) (h : HostId) (c : HostContext) (k : HostId) : (s.setCtx h c).viewOf k = s.viewOf k := rfl
@[simp] theorem State.setCtx_channel (s : State) (h : HostId) (c : HostContext) (k : ChannelId) : (s.setCtx h c).channel k = s.channel k := rfl
@[simp] theorem State.setCtx_desc (s : State) (h : HostId) (c : HostContext) (k : DescId) : (s.setCtx h c).desc k = s.desc k := rfl
@[simp] theorem State.setCtx_port (s : State) (h : HostId) (c : HostContext) (k : HostId) : (s.setCtx h c).port k = s.port k := rfl
@[simp] theorem State.setCtx_windows (s : State) (h : HostId) (c : HostContext) (k : HostId) : (s.setCtx h c).windows k = s.windows k := rfl
@[simp] theorem State.setCtx_handedOf (s : State) (h : HostId) (c : HostContext) (k : HostId) : (s.setCtx h c).handedOf k = s.handedOf k := rfl
@[simp] theorem State.setCtx_takeOf (s : State) (h : HostId) (c : HostContext) (k : HostId) : (s.setCtx h c).takeOf k = s.takeOf k := rfl
@[simp] theorem State.setCtx_lapseOf (s : State) (h : HostId) (c : HostContext) (k : HostId) : (s.setCtx h c).lapseOf k = s.lapseOf k := rfl
@[simp] theorem State.setCtx_undoOf (s : State) (h : HostId) (c : HostContext) (k : HostId) : (s.setCtx h c).undoOf k = s.undoOf k := rfl

@[simp] theorem State.setSlot_entry (s : State) (h : HostId) (x : Slot) (f : Source) : (s.setSlot h x).entry f = s.entry f := rfl
@[simp] theorem State.setSlot_cfg (s : State) (h : HostId) (x : Slot) (f : Source) : (s.setSlot h x).cfg f = s.cfg f := rfl
@[simp] theorem State.setSlot_bind (s : State) (h : HostId) (x : Slot) (f : Source) : (s.setSlot h x).bind f = s.bind f := rfl
@[simp] theorem State.setSlot_prog (s : State) (h : HostId) (x : Slot) (f : Source) : (s.setSlot h x).prog f = s.prog f := rfl
@[simp] theorem State.setSlot_ctx (s : State) (h : HostId) (x : Slot) (k : HostId) : (s.setSlot h x).ctx k = s.ctx k := rfl
theorem State.setSlot_slot (s : State) (h : HostId) (x : Slot) (k : HostId) :
    (s.setSlot h x).slot k = if k = h then x else s.slot k :=
  look_put _ _ _ _
@[simp] theorem State.setSlot_slot_self (s : State) (h : HostId) (x : Slot) : (s.setSlot h x).slot h = x := by
  simp [State.setSlot_slot]
@[simp] theorem State.setSlot_viewOf (s : State) (h : HostId) (x : Slot) (k : HostId) : (s.setSlot h x).viewOf k = s.viewOf k := rfl
@[simp] theorem State.setSlot_channel (s : State) (h : HostId) (x : Slot) (k : ChannelId) : (s.setSlot h x).channel k = s.channel k := rfl
@[simp] theorem State.setSlot_desc (s : State) (h : HostId) (x : Slot) (k : DescId) : (s.setSlot h x).desc k = s.desc k := rfl
@[simp] theorem State.setSlot_port (s : State) (h : HostId) (x : Slot) (k : HostId) : (s.setSlot h x).port k = s.port k := rfl
@[simp] theorem State.setSlot_windows (s : State) (h : HostId) (x : Slot) (k : HostId) : (s.setSlot h x).windows k = s.windows k := rfl
@[simp] theorem State.setSlot_handedOf (s : State) (h : HostId) (x : Slot) (k : HostId) : (s.setSlot h x).handedOf k = s.handedOf k := rfl
@[simp] theorem State.setSlot_takeOf (s : State) (h : HostId) (x : Slot) (k : HostId) : (s.setSlot h x).takeOf k = s.takeOf k := rfl
@[simp] theorem State.setSlot_lapseOf (s : State) (h : HostId) (x : Slot) (k : HostId) : (s.setSlot h x).lapseOf k = s.lapseOf k := rfl
@[simp] theorem State.setSlot_undoOf (s : State) (h : HostId) (x : Slot) (k : HostId) : (s.setSlot h x).undoOf k = s.undoOf k := rfl

@[simp] theorem State.setView_entry (s : State) (h : HostId) (l : List StackRecord) (f : Source) : (s.setView h l).entry f = s.entry f := rfl
@[simp] theorem State.setView_cfg (s : State) (h : HostId) (l : List StackRecord) (f : Source) : (s.setView h l).cfg f = s.cfg f := rfl
@[simp] theorem State.setView_bind (s : State) (h : HostId) (l : List StackRecord) (f : Source) : (s.setView h l).bind f = s.bind f := rfl
@[simp] theorem State.setView_prog (s : State) (h : HostId) (l : List StackRecord) (f : Source) : (s.setView h l).prog f = s.prog f := rfl
@[simp] theorem State.setView_ctx (s : State) (h : HostId) (l : List StackRecord) (k : HostId) : (s.setView h l).ctx k = s.ctx k := rfl
theorem State.setView_viewOf (s : State) (h : HostId) (l : List StackRecord) (k : HostId) :
    (s.setView h l).viewOf k = if k = h then l else s.viewOf k :=
  look_put _ _ _ _
@[simp] theorem State.setView_viewOf_self (s : State) (h : HostId) (l : List StackRecord) : (s.setView h l).viewOf h = l := by
  simp [State.setView_viewOf]
@[simp] theorem State.setView_slot (s : State) (h : HostId) (l : List StackRecord) (k : HostId) : (s.setView h l).slot k = s.slot k := rfl
@[simp] theorem State.setView_channel (s : State) (h : HostId) (l : List StackRecord) (k : ChannelId) : (s.setView h l).channel k = s.channel k := rfl
@[simp] theorem State.setView_desc (s : State) (h : HostId) (l : List StackRecord) (k : DescId) : (s.setView h l).desc k = s.desc k := rfl
@[simp] theorem State.setView_port (s : State) (h : HostId) (l : List StackRecord) (k : HostId) : (s.setView h l).port k = s.port k := rfl
@[simp] theorem State.setView_windows (s : State) (h : HostId) (l : List StackRecord) (k : HostId) : (s.setView h l).windows k = s.windows k := rfl
@[simp] theorem State.setView_handedOf (s : State) (h : HostId) (l : List StackRecord) (k : HostId) : (s.setView h l).handedOf k = s.handedOf k := rfl
@[simp] theorem State.setView_takeOf (s : State) (h : HostId) (l : List StackRecord) (k : HostId) : (s.setView h l).takeOf k = s.takeOf k := rfl
@[simp] theorem State.setView_lapseOf (s : State) (h : HostId) (l : List StackRecord) (k : HostId) : (s.setView h l).lapseOf k = s.lapseOf k := rfl
@[simp] theorem State.setView_undoOf (s : State) (h : HostId) (l : List StackRecord) (k : HostId) : (s.setView h l).undoOf k = s.undoOf k := rfl

@[simp] theorem State.setChannel_entry (s : State) (c : ChannelId) (x : Channel) (f : Source) : (s.setChannel c x).entry f = s.entry f := rfl
@[simp] theorem State.setChannel_cfg (s : State) (c : ChannelId) (x : Channel) (f : Source) : (s.setChannel c x).cfg f = s.cfg f := rfl
@[simp] theorem State.setChannel_bind (s : State) (c : ChannelId) (x : Channel) (f : Source) : (s.setChannel c x).bind f = s.bind f := rfl
@[simp] theorem State.setChannel_prog (s : State) (c : ChannelId) (x : Channel) (f : Source) : (s.setChannel c x).prog f = s.prog f := rfl
@[simp] theorem State.setChannel_ctx (s : State) (c : ChannelId) (x : Channel) (k : HostId) : (s.setChannel c x).ctx k = s.ctx k := rfl
@[simp] theorem State.setChannel_slot (s : State) (c : ChannelId) (x : Channel) (k : HostId) : (s.setChannel c x).slot k = s.slot k := rfl
@[simp] theorem State.setChannel_viewOf (s : State) (c : ChannelId) (x : Channel) (k : HostId) : (s.setChannel c x).viewOf k = s.viewOf k := rfl
theorem State.setChannel_channel (s : State) (c : ChannelId) (x : Channel) (k : ChannelId) :
    (s.setChannel c x).channel k = if k = c then x else s.channel k :=
  look_put _ _ _ _
@[simp] theorem State.setChannel_channel_self (s : State) (c : ChannelId) (x : Channel) : (s.setChannel c x).channel c = x := by
  simp [State.setChannel_channel]
@[simp] theorem State.setChannel_desc (s : State) (c : ChannelId) (x : Channel) (k : DescId) : (s.setChannel c x).desc k = s.desc k := rfl
@[simp] theorem State.setChannel_port (s : State) (c : ChannelId) (x : Channel) (k : HostId) : (s.setChannel c x).port k = s.port k := rfl
@[simp] theorem State.setChannel_windows (s : State) (c : ChannelId) (x : Channel) (k : HostId) : (s.setChannel c x).windows k = s.windows k := rfl
@[simp] theorem State.setChannel_handedOf (s : State) (c : ChannelId) (x : Channel) (k : HostId) : (s.setChannel c x).handedOf k = s.handedOf k := rfl
@[simp] theorem State.setChannel_takeOf (s : State) (c : ChannelId) (x : Channel) (k : HostId) : (s.setChannel c x).takeOf k = s.takeOf k := rfl
@[simp] theorem State.setChannel_lapseOf (s : State) (c : ChannelId) (x : Channel) (k : HostId) : (s.setChannel c x).lapseOf k = s.lapseOf k := rfl
@[simp] theorem State.setChannel_undoOf (s : State) (c : ChannelId) (x : Channel) (k : HostId) : (s.setChannel c x).undoOf k = s.undoOf k := rfl

@[simp] theorem State.setDesc_entry (s : State) (d : DescId) (x : Descriptor) (f : Source) : (s.setDesc d x).entry f = s.entry f := rfl
@[simp] theorem State.setDesc_cfg (s : State) (d : DescId) (x : Descriptor) (f : Source) : (s.setDesc d x).cfg f = s.cfg f := rfl
@[simp] theorem State.setDesc_bind (s : State) (d : DescId) (x : Descriptor) (f : Source) : (s.setDesc d x).bind f = s.bind f := rfl
@[simp] theorem State.setDesc_prog (s : State) (d : DescId) (x : Descriptor) (f : Source) : (s.setDesc d x).prog f = s.prog f := rfl
@[simp] theorem State.setDesc_ctx (s : State) (d : DescId) (x : Descriptor) (k : HostId) : (s.setDesc d x).ctx k = s.ctx k := rfl
@[simp] theorem State.setDesc_slot (s : State) (d : DescId) (x : Descriptor) (k : HostId) : (s.setDesc d x).slot k = s.slot k := rfl
@[simp] theorem State.setDesc_viewOf (s : State) (d : DescId) (x : Descriptor) (k : HostId) : (s.setDesc d x).viewOf k = s.viewOf k := rfl
@[simp] theorem State.setDesc_channel (s : State) (d : DescId) (x : Descriptor) (k : ChannelId) : (s.setDesc d x).channel k = s.channel k := rfl
theorem State.setDesc_desc (s : State) (d : DescId) (x : Descriptor) (k : DescId) :
    (s.setDesc d x).desc k = if k = d then x else s.desc k :=
  look_put _ _ _ _
@[simp] theorem State.setDesc_desc_self (s : State) (d : DescId) (x : Descriptor) : (s.setDesc d x).desc d = x := by
  simp [State.setDesc_desc]
@[simp] theorem State.setDesc_port (s : State) (d : DescId) (x : Descriptor) (k : HostId) : (s.setDesc d x).port k = s.port k := rfl
@[simp] theorem State.setDesc_windows (s : State) (d : DescId) (x : Descriptor) (k : HostId) : (s.setDesc d x).windows k = s.windows k := rfl
@[simp] theorem State.setDesc_handedOf (s : State) (d : DescId) (x : Descriptor) (k : HostId) : (s.setDesc d x).handedOf k = s.handedOf k := rfl
@[simp] theorem State.setDesc_takeOf (s : State) (d : DescId) (x : Descriptor) (k : HostId) : (s.setDesc d x).takeOf k = s.takeOf k := rfl
@[simp] theorem State.setDesc_lapseOf (s : State) (d : DescId) (x : Descriptor) (k : HostId) : (s.setDesc d x).lapseOf k = s.lapseOf k := rfl
@[simp] theorem State.setDesc_undoOf (s : State) (d : DescId) (x : Descriptor) (k : HostId) : (s.setDesc d x).undoOf k = s.undoOf k := rfl

@[simp] theorem State.setPort_entry (s : State) (h : HostId) (p : Port) (f : Source) : (s.setPort h p).entry f = s.entry f := rfl
@[simp] theorem State.setPort_cfg (s : State) (h : HostId) (p : Port) (f : Source) : (s.setPort h p).cfg f = s.cfg f := rfl
@[simp] theorem State.setPort_bind (s : State) (h : HostId) (p : Port) (f : Source) : (s.setPort h p).bind f = s.bind f := rfl
@[simp] theorem State.setPort_prog (s : State) (h : HostId) (p : Port) (f : Source) : (s.setPort h p).prog f = s.prog f := rfl
@[simp] theorem State.setPort_ctx (s : State) (h : HostId) (p : Port) (k : HostId) : (s.setPort h p).ctx k = s.ctx k := rfl
@[simp] theorem State.setPort_slot (s : State) (h : HostId) (p : Port) (k : HostId) : (s.setPort h p).slot k = s.slot k := rfl
@[simp] theorem State.setPort_viewOf (s : State) (h : HostId) (p : Port) (k : HostId) : (s.setPort h p).viewOf k = s.viewOf k := rfl
@[simp] theorem State.setPort_channel (s : State) (h : HostId) (p : Port) (k : ChannelId) : (s.setPort h p).channel k = s.channel k := rfl
@[simp] theorem State.setPort_desc (s : State) (h : HostId) (p : Port) (k : DescId) : (s.setPort h p).desc k = s.desc k := rfl
theorem State.setPort_port (s : State) (h : HostId) (p : Port) (k : HostId) :
    (s.setPort h p).port k = if k = h then p else s.port k :=
  look_put _ _ _ _
@[simp] theorem State.setPort_port_self (s : State) (h : HostId) (p : Port) : (s.setPort h p).port h = p := by
  simp [State.setPort_port]
@[simp] theorem State.setPort_windows (s : State) (h : HostId) (p : Port) (k : HostId) : (s.setPort h p).windows k = s.windows k := rfl
@[simp] theorem State.setPort_handedOf (s : State) (h : HostId) (p : Port) (k : HostId) : (s.setPort h p).handedOf k = s.handedOf k := rfl
@[simp] theorem State.setPort_takeOf (s : State) (h : HostId) (p : Port) (k : HostId) : (s.setPort h p).takeOf k = s.takeOf k := rfl
@[simp] theorem State.setPort_lapseOf (s : State) (h : HostId) (p : Port) (k : HostId) : (s.setPort h p).lapseOf k = s.lapseOf k := rfl
@[simp] theorem State.setPort_undoOf (s : State) (h : HostId) (p : Port) (k : HostId) : (s.setPort h p).undoOf k = s.undoOf k := rfl

@[simp] theorem State.setWindows_entry (s : State) (h : HostId) (w : Table Window 8) (f : Source) : (s.setWindows h w).entry f = s.entry f := rfl
@[simp] theorem State.setWindows_cfg (s : State) (h : HostId) (w : Table Window 8) (f : Source) : (s.setWindows h w).cfg f = s.cfg f := rfl
@[simp] theorem State.setWindows_bind (s : State) (h : HostId) (w : Table Window 8) (f : Source) : (s.setWindows h w).bind f = s.bind f := rfl
@[simp] theorem State.setWindows_prog (s : State) (h : HostId) (w : Table Window 8) (f : Source) : (s.setWindows h w).prog f = s.prog f := rfl
@[simp] theorem State.setWindows_ctx (s : State) (h : HostId) (w : Table Window 8) (k : HostId) : (s.setWindows h w).ctx k = s.ctx k := rfl
@[simp] theorem State.setWindows_slot (s : State) (h : HostId) (w : Table Window 8) (k : HostId) : (s.setWindows h w).slot k = s.slot k := rfl
@[simp] theorem State.setWindows_viewOf (s : State) (h : HostId) (w : Table Window 8) (k : HostId) : (s.setWindows h w).viewOf k = s.viewOf k := rfl
@[simp] theorem State.setWindows_channel (s : State) (h : HostId) (w : Table Window 8) (k : ChannelId) : (s.setWindows h w).channel k = s.channel k := rfl
@[simp] theorem State.setWindows_desc (s : State) (h : HostId) (w : Table Window 8) (k : DescId) : (s.setWindows h w).desc k = s.desc k := rfl
@[simp] theorem State.setWindows_port (s : State) (h : HostId) (w : Table Window 8) (k : HostId) : (s.setWindows h w).port k = s.port k := rfl
theorem State.setWindows_windows (s : State) (h : HostId) (w : Table Window 8) (k : HostId) :
    (s.setWindows h w).windows k = if k = h then w else s.windows k :=
  look_put _ _ _ _
@[simp] theorem State.setWindows_windows_self (s : State) (h : HostId) (w : Table Window 8) : (s.setWindows h w).windows h = w := by
  simp [State.setWindows_windows]
@[simp] theorem State.setWindows_handedOf (s : State) (h : HostId) (w : Table Window 8) (k : HostId) : (s.setWindows h w).handedOf k = s.handedOf k := rfl
@[simp] theorem State.setWindows_takeOf (s : State) (h : HostId) (w : Table Window 8) (k : HostId) : (s.setWindows h w).takeOf k = s.takeOf k := rfl
@[simp] theorem State.setWindows_lapseOf (s : State) (h : HostId) (w : Table Window 8) (k : HostId) : (s.setWindows h w).lapseOf k = s.lapseOf k := rfl
@[simp] theorem State.setWindows_undoOf (s : State) (h : HostId) (w : Table Window 8) (k : HostId) : (s.setWindows h w).undoOf k = s.undoOf k := rfl

@[simp] theorem State.setHanded_entry (s : State) (h : HostId) (l : List Handed) (f : Source) : (s.setHanded h l).entry f = s.entry f := rfl
@[simp] theorem State.setHanded_cfg (s : State) (h : HostId) (l : List Handed) (f : Source) : (s.setHanded h l).cfg f = s.cfg f := rfl
@[simp] theorem State.setHanded_bind (s : State) (h : HostId) (l : List Handed) (f : Source) : (s.setHanded h l).bind f = s.bind f := rfl
@[simp] theorem State.setHanded_prog (s : State) (h : HostId) (l : List Handed) (f : Source) : (s.setHanded h l).prog f = s.prog f := rfl
@[simp] theorem State.setHanded_ctx (s : State) (h : HostId) (l : List Handed) (k : HostId) : (s.setHanded h l).ctx k = s.ctx k := rfl
@[simp] theorem State.setHanded_slot (s : State) (h : HostId) (l : List Handed) (k : HostId) : (s.setHanded h l).slot k = s.slot k := rfl
@[simp] theorem State.setHanded_viewOf (s : State) (h : HostId) (l : List Handed) (k : HostId) : (s.setHanded h l).viewOf k = s.viewOf k := rfl
@[simp] theorem State.setHanded_channel (s : State) (h : HostId) (l : List Handed) (k : ChannelId) : (s.setHanded h l).channel k = s.channel k := rfl
@[simp] theorem State.setHanded_desc (s : State) (h : HostId) (l : List Handed) (k : DescId) : (s.setHanded h l).desc k = s.desc k := rfl
@[simp] theorem State.setHanded_port (s : State) (h : HostId) (l : List Handed) (k : HostId) : (s.setHanded h l).port k = s.port k := rfl
@[simp] theorem State.setHanded_windows (s : State) (h : HostId) (l : List Handed) (k : HostId) : (s.setHanded h l).windows k = s.windows k := rfl
theorem State.setHanded_handedOf (s : State) (h : HostId) (l : List Handed) (k : HostId) :
    (s.setHanded h l).handedOf k = if k = h then l else s.handedOf k :=
  look_put _ _ _ _
@[simp] theorem State.setHanded_handedOf_self (s : State) (h : HostId) (l : List Handed) : (s.setHanded h l).handedOf h = l := by
  simp [State.setHanded_handedOf]
@[simp] theorem State.setHanded_takeOf (s : State) (h : HostId) (l : List Handed) (k : HostId) : (s.setHanded h l).takeOf k = s.takeOf k := rfl
@[simp] theorem State.setHanded_lapseOf (s : State) (h : HostId) (l : List Handed) (k : HostId) : (s.setHanded h l).lapseOf k = s.lapseOf k := rfl
@[simp] theorem State.setHanded_undoOf (s : State) (h : HostId) (l : List Handed) (k : HostId) : (s.setHanded h l).undoOf k = s.undoOf k := rfl

@[simp] theorem State.setTake_entry (s : State) (h : HostId) (t : Option TakeClaim) (f : Source) : (s.setTake h t).entry f = s.entry f := rfl
@[simp] theorem State.setTake_cfg (s : State) (h : HostId) (t : Option TakeClaim) (f : Source) : (s.setTake h t).cfg f = s.cfg f := rfl
@[simp] theorem State.setTake_bind (s : State) (h : HostId) (t : Option TakeClaim) (f : Source) : (s.setTake h t).bind f = s.bind f := rfl
@[simp] theorem State.setTake_prog (s : State) (h : HostId) (t : Option TakeClaim) (f : Source) : (s.setTake h t).prog f = s.prog f := rfl
@[simp] theorem State.setTake_ctx (s : State) (h : HostId) (t : Option TakeClaim) (k : HostId) : (s.setTake h t).ctx k = s.ctx k := rfl
@[simp] theorem State.setTake_slot (s : State) (h : HostId) (t : Option TakeClaim) (k : HostId) : (s.setTake h t).slot k = s.slot k := rfl
@[simp] theorem State.setTake_viewOf (s : State) (h : HostId) (t : Option TakeClaim) (k : HostId) : (s.setTake h t).viewOf k = s.viewOf k := rfl
@[simp] theorem State.setTake_channel (s : State) (h : HostId) (t : Option TakeClaim) (k : ChannelId) : (s.setTake h t).channel k = s.channel k := rfl
@[simp] theorem State.setTake_desc (s : State) (h : HostId) (t : Option TakeClaim) (k : DescId) : (s.setTake h t).desc k = s.desc k := rfl
@[simp] theorem State.setTake_port (s : State) (h : HostId) (t : Option TakeClaim) (k : HostId) : (s.setTake h t).port k = s.port k := rfl
@[simp] theorem State.setTake_windows (s : State) (h : HostId) (t : Option TakeClaim) (k : HostId) : (s.setTake h t).windows k = s.windows k := rfl
@[simp] theorem State.setTake_handedOf (s : State) (h : HostId) (t : Option TakeClaim) (k : HostId) : (s.setTake h t).handedOf k = s.handedOf k := rfl
theorem State.setTake_takeOf (s : State) (h : HostId) (t : Option TakeClaim) (k : HostId) :
    (s.setTake h t).takeOf k = if k = h then t else s.takeOf k :=
  look_put _ _ _ _
@[simp] theorem State.setTake_takeOf_self (s : State) (h : HostId) (t : Option TakeClaim) : (s.setTake h t).takeOf h = t := by
  simp [State.setTake_takeOf]
@[simp] theorem State.setTake_lapseOf (s : State) (h : HostId) (t : Option TakeClaim) (k : HostId) : (s.setTake h t).lapseOf k = s.lapseOf k := rfl
@[simp] theorem State.setTake_undoOf (s : State) (h : HostId) (t : Option TakeClaim) (k : HostId) : (s.setTake h t).undoOf k = s.undoOf k := rfl

@[simp] theorem State.setLapse_entry (s : State) (h : HostId) (l : LapseClaim) (f : Source) : (s.setLapse h l).entry f = s.entry f := rfl
@[simp] theorem State.setLapse_cfg (s : State) (h : HostId) (l : LapseClaim) (f : Source) : (s.setLapse h l).cfg f = s.cfg f := rfl
@[simp] theorem State.setLapse_bind (s : State) (h : HostId) (l : LapseClaim) (f : Source) : (s.setLapse h l).bind f = s.bind f := rfl
@[simp] theorem State.setLapse_prog (s : State) (h : HostId) (l : LapseClaim) (f : Source) : (s.setLapse h l).prog f = s.prog f := rfl
@[simp] theorem State.setLapse_ctx (s : State) (h : HostId) (l : LapseClaim) (k : HostId) : (s.setLapse h l).ctx k = s.ctx k := rfl
@[simp] theorem State.setLapse_slot (s : State) (h : HostId) (l : LapseClaim) (k : HostId) : (s.setLapse h l).slot k = s.slot k := rfl
@[simp] theorem State.setLapse_viewOf (s : State) (h : HostId) (l : LapseClaim) (k : HostId) : (s.setLapse h l).viewOf k = s.viewOf k := rfl
@[simp] theorem State.setLapse_channel (s : State) (h : HostId) (l : LapseClaim) (k : ChannelId) : (s.setLapse h l).channel k = s.channel k := rfl
@[simp] theorem State.setLapse_desc (s : State) (h : HostId) (l : LapseClaim) (k : DescId) : (s.setLapse h l).desc k = s.desc k := rfl
@[simp] theorem State.setLapse_port (s : State) (h : HostId) (l : LapseClaim) (k : HostId) : (s.setLapse h l).port k = s.port k := rfl
@[simp] theorem State.setLapse_windows (s : State) (h : HostId) (l : LapseClaim) (k : HostId) : (s.setLapse h l).windows k = s.windows k := rfl
@[simp] theorem State.setLapse_handedOf (s : State) (h : HostId) (l : LapseClaim) (k : HostId) : (s.setLapse h l).handedOf k = s.handedOf k := rfl
@[simp] theorem State.setLapse_takeOf (s : State) (h : HostId) (l : LapseClaim) (k : HostId) : (s.setLapse h l).takeOf k = s.takeOf k := rfl
theorem State.setLapse_lapseOf (s : State) (h : HostId) (l : LapseClaim) (k : HostId) :
    (s.setLapse h l).lapseOf k = if k = h then l else s.lapseOf k :=
  look_put _ _ _ _
@[simp] theorem State.setLapse_lapseOf_self (s : State) (h : HostId) (l : LapseClaim) : (s.setLapse h l).lapseOf h = l := by
  simp [State.setLapse_lapseOf]
@[simp] theorem State.setLapse_undoOf (s : State) (h : HostId) (l : LapseClaim) (k : HostId) : (s.setLapse h l).undoOf k = s.undoOf k := rfl

@[simp] theorem State.setUndo_entry (s : State) (h : HostId) (e : Option Source) (f : Source) : (s.setUndo h e).entry f = s.entry f := rfl
@[simp] theorem State.setUndo_cfg (s : State) (h : HostId) (e : Option Source) (f : Source) : (s.setUndo h e).cfg f = s.cfg f := rfl
@[simp] theorem State.setUndo_bind (s : State) (h : HostId) (e : Option Source) (f : Source) : (s.setUndo h e).bind f = s.bind f := rfl
@[simp] theorem State.setUndo_prog (s : State) (h : HostId) (e : Option Source) (f : Source) : (s.setUndo h e).prog f = s.prog f := rfl
@[simp] theorem State.setUndo_ctx (s : State) (h : HostId) (e : Option Source) (k : HostId) : (s.setUndo h e).ctx k = s.ctx k := rfl
@[simp] theorem State.setUndo_slot (s : State) (h : HostId) (e : Option Source) (k : HostId) : (s.setUndo h e).slot k = s.slot k := rfl
@[simp] theorem State.setUndo_viewOf (s : State) (h : HostId) (e : Option Source) (k : HostId) : (s.setUndo h e).viewOf k = s.viewOf k := rfl
@[simp] theorem State.setUndo_channel (s : State) (h : HostId) (e : Option Source) (k : ChannelId) : (s.setUndo h e).channel k = s.channel k := rfl
@[simp] theorem State.setUndo_desc (s : State) (h : HostId) (e : Option Source) (k : DescId) : (s.setUndo h e).desc k = s.desc k := rfl
@[simp] theorem State.setUndo_port (s : State) (h : HostId) (e : Option Source) (k : HostId) : (s.setUndo h e).port k = s.port k := rfl
@[simp] theorem State.setUndo_windows (s : State) (h : HostId) (e : Option Source) (k : HostId) : (s.setUndo h e).windows k = s.windows k := rfl
@[simp] theorem State.setUndo_handedOf (s : State) (h : HostId) (e : Option Source) (k : HostId) : (s.setUndo h e).handedOf k = s.handedOf k := rfl
@[simp] theorem State.setUndo_takeOf (s : State) (h : HostId) (e : Option Source) (k : HostId) : (s.setUndo h e).takeOf k = s.takeOf k := rfl
@[simp] theorem State.setUndo_lapseOf (s : State) (h : HostId) (e : Option Source) (k : HostId) : (s.setUndo h e).lapseOf k = s.lapseOf k := rfl
theorem State.setUndo_undoOf (s : State) (h : HostId) (e : Option Source) (k : HostId) :
    (s.setUndo h e).undoOf k = if k = h then e else s.undoOf k :=
  look_put _ _ _ _
@[simp] theorem State.setUndo_undoOf_self (s : State) (h : HostId) (e : Option Source) : (s.setUndo h e).undoOf h = e := by
  simp [State.setUndo_undoOf]

@[simp] theorem State.handNotice_entry (s : State) (o : Origin) (n : Notice) (f : Source) : (s.handNotice o n).entry f = s.entry f := rfl
@[simp] theorem State.handNotice_cfg (s : State) (o : Origin) (n : Notice) (f : Source) : (s.handNotice o n).cfg f = s.cfg f := rfl
@[simp] theorem State.handNotice_bind (s : State) (o : Origin) (n : Notice) (f : Source) : (s.handNotice o n).bind f = s.bind f := rfl
@[simp] theorem State.handNotice_prog (s : State) (o : Origin) (n : Notice) (f : Source) : (s.handNotice o n).prog f = s.prog f := rfl
@[simp] theorem State.handNotice_ctx (s : State) (o : Origin) (n : Notice) (k : HostId) : (s.handNotice o n).ctx k = s.ctx k := rfl
@[simp] theorem State.handNotice_slot (s : State) (o : Origin) (n : Notice) (k : HostId) : (s.handNotice o n).slot k = s.slot k := rfl
@[simp] theorem State.handNotice_viewOf (s : State) (o : Origin) (n : Notice) (k : HostId) : (s.handNotice o n).viewOf k = s.viewOf k := rfl
@[simp] theorem State.handNotice_channel (s : State) (o : Origin) (n : Notice) (k : ChannelId) : (s.handNotice o n).channel k = s.channel k := rfl
@[simp] theorem State.handNotice_desc (s : State) (o : Origin) (n : Notice) (k : DescId) : (s.handNotice o n).desc k = s.desc k := rfl
@[simp] theorem State.handNotice_port (s : State) (o : Origin) (n : Notice) (k : HostId) : (s.handNotice o n).port k = s.port k := rfl
@[simp] theorem State.handNotice_windows (s : State) (o : Origin) (n : Notice) (k : HostId) : (s.handNotice o n).windows k = s.windows k := rfl
@[simp] theorem State.handNotice_handedOf (s : State) (o : Origin) (n : Notice) (k : HostId) : (s.handNotice o n).handedOf k = s.handedOf k := rfl
@[simp] theorem State.handNotice_takeOf (s : State) (o : Origin) (n : Notice) (k : HostId) : (s.handNotice o n).takeOf k = s.takeOf k := rfl
@[simp] theorem State.handNotice_lapseOf (s : State) (o : Origin) (n : Notice) (k : HostId) : (s.handNotice o n).lapseOf k = s.lapseOf k := rfl
@[simp] theorem State.handNotice_undoOf (s : State) (o : Origin) (n : Notice) (k : HostId) : (s.handNotice o n).undoOf k = s.undoOf k := rfl

@[simp] theorem State.answered_entry (s : State) (h : HostId) (code : Operand) (r : ResultCode) (f : Source) : (s.answered h code r).entry f = s.entry f := rfl
@[simp] theorem State.answered_cfg (s : State) (h : HostId) (code : Operand) (r : ResultCode) (f : Source) : (s.answered h code r).cfg f = s.cfg f := rfl
@[simp] theorem State.answered_bind (s : State) (h : HostId) (code : Operand) (r : ResultCode) (f : Source) : (s.answered h code r).bind f = s.bind f := rfl
@[simp] theorem State.answered_prog (s : State) (h : HostId) (code : Operand) (r : ResultCode) (f : Source) : (s.answered h code r).prog f = s.prog f := rfl
@[simp] theorem State.answered_ctx (s : State) (h : HostId) (code : Operand) (r : ResultCode) (k : HostId) : (s.answered h code r).ctx k = s.ctx k := rfl
@[simp] theorem State.answered_slot (s : State) (h : HostId) (code : Operand) (r : ResultCode) (k : HostId) : (s.answered h code r).slot k = s.slot k := rfl
@[simp] theorem State.answered_viewOf (s : State) (h : HostId) (code : Operand) (r : ResultCode) (k : HostId) : (s.answered h code r).viewOf k = s.viewOf k := rfl
@[simp] theorem State.answered_channel (s : State) (h : HostId) (code : Operand) (r : ResultCode) (k : ChannelId) : (s.answered h code r).channel k = s.channel k := rfl
@[simp] theorem State.answered_desc (s : State) (h : HostId) (code : Operand) (r : ResultCode) (k : DescId) : (s.answered h code r).desc k = s.desc k := rfl
theorem State.answered_port (s : State) (h : HostId) (code : Operand) (r : ResultCode) (k : HostId) :
    (s.answered h code r).port k = if k = h then { s.port h with lost := false, result := r, echo := code } else s.port k :=
  look_put _ _ _ _
@[simp] theorem State.answered_port_self (s : State) (h : HostId) (code : Operand) (r : ResultCode) : (s.answered h code r).port h = { s.port h with lost := false, result := r, echo := code } := by
  simp [State.answered_port]
@[simp] theorem State.answered_windows (s : State) (h : HostId) (code : Operand) (r : ResultCode) (k : HostId) : (s.answered h code r).windows k = s.windows k := rfl
@[simp] theorem State.answered_handedOf (s : State) (h : HostId) (code : Operand) (r : ResultCode) (k : HostId) : (s.answered h code r).handedOf k = s.handedOf k := rfl
@[simp] theorem State.answered_takeOf (s : State) (h : HostId) (code : Operand) (r : ResultCode) (k : HostId) : (s.answered h code r).takeOf k = s.takeOf k := rfl
@[simp] theorem State.answered_lapseOf (s : State) (h : HostId) (code : Operand) (r : ResultCode) (k : HostId) : (s.answered h code r).lapseOf k = s.lapseOf k := rfl
@[simp] theorem State.answered_undoOf (s : State) (h : HostId) (code : Operand) (r : ResultCode) (k : HostId) : (s.answered h code r).undoOf k = s.undoOf k := rfl

end Sys2Proof.Machine
end

