-- ==== Sys2Proof/Laws/Offers.lean ====
section
/-! SUPPORT. What the Offer Unit's shared operations can do: the best entry of a list, the arbiter, one offer, and the choices that
follow from a host's change or from an entry's news. -/

namespace Sys2Proof.Machine

/-! ### The best entry -/

/-- No best entry: none passes the test. -/
theorem bestOf_none {p : Source → Bool} {level : Source → Level} {l : List Source} :
    bestOf p level l = none ↔ ∀ e ∈ l, p e = false := by
  induction l with
  | nil => simp [bestOf]
  | cons e es ih =>
    cases hb : bestOf p level es with
    | none =>
      have hes := ih.mp hb
      by_cases hp : p e = true
      · simp [bestOf, hb, hp]
      · simp only [bestOf, hb, hp, List.mem_cons, forall_eq_or_imp]
        simp
        exact hes
    | some b =>
      have hne : ¬∀ e ∈ es, p e = false := fun h => by simp [ih.mpr h] at hb
      have : ¬∀ f ∈ e :: es, p f = false := fun h => hne fun f hf => h f (by simp [hf])
      simp only [this, iff_false]
      simp only [bestOf, hb]
      split <;> simp

/-- The best entry passes the test, and every other that passes it is of lower level or of equal level and later on the list. -/
theorem bestOf_some {p : Source → Bool} {level : Source → Level} {l : List Source} {b : Source}
    (h : bestOf p level l = some b) :
    b ∈ l ∧ p b = true ∧
      ∀ f ∈ l, p f = true → level f < level b ∨ (level f = level b ∧ l.idxOf b ≤ l.idxOf f) := by
  induction l generalizing b with
  | nil => simp [bestOf] at h
  | cons e es ih =>
    cases hb : bestOf p level es with
    | none =>
      have hes := bestOf_none.mp hb
      by_cases hp : p e = true
      · simp [bestOf, hb, hp] at h
        subst h
        refine ⟨by simp, hp, fun f hf hpf => ?_⟩
        rcases List.mem_cons.mp hf with rfl | hf
        · exact .inr ⟨rfl, le_refl _⟩
        · simp [hes f hf] at hpf
      · simp [bestOf, hb, hp] at h
    | some c =>
      obtain ⟨hc, hpc, hall⟩ := ih hb
      by_cases hp : (p e && decide (level c ≤ level e)) = true
      · simp only [bestOf, hb, hp] at h
        simp only [if_true, Option.some.injEq] at h
        subst h
        simp only [Bool.and_eq_true, decide_eq_true_eq] at hp
        refine ⟨by simp, hp.1, fun f hf hpf => ?_⟩
        have hle : level f ≤ level e := by
          rcases List.mem_cons.mp hf with rfl | hf
          · exact le_refl _
          · rcases hall f hf hpf with hlt | ⟨heq, -⟩
            · exact le_trans (le_of_lt hlt) hp.2
            · exact heq ▸ hp.2
        rcases lt_or_eq_of_le hle with hlt | heq
        · exact .inl hlt
        · exact .inr ⟨heq, by simp⟩
      · simp only [bestOf, hb, hp] at h
        simp only [Bool.false_eq_true, if_false, Option.some.injEq] at h
        subst h
        refine ⟨by simp [hc], hpc, fun f hf hpf => ?_⟩
        rcases List.mem_cons.mp hf with rfl | hf
        · simp only [hpf, Bool.true_and, decide_eq_true_eq, not_le] at hp
          exact .inl hp
        · rcases hall f hf hpf with hlt | ⟨heq, hidx⟩
          · exact .inl hlt
          · by_cases hfe : f = e
            · subst hfe
              simp only [hpf, Bool.true_and, decide_eq_true_eq, not_le] at hp
              exact .inl hp
            · by_cases hce : c = e
              · subst hce
                exact .inr ⟨heq, by simp⟩
              · refine .inr ⟨heq, ?_⟩
                rw [List.idxOf_cons_ne _ (Ne.symm hce), List.idxOf_cons_ne _ (Ne.symm hfe)]
                omega

/-! ### The arbiter -/

/-- The arbiter chooses one of its candidates. -/
theorem arbitrate_mem {s : State} {cs : List HostId} {h : HostId} (ha : s.arbitrate cs = some h) : h ∈ cs := by
  have hx := List.find?_some ha
  simp only [List.contains_iff_mem, List.mem_filter] at hx
  obtain ⟨h1, -⟩ := hx
  by_cases he : (cs.filter fun k => (s.slot k).offer.isNone).isEmpty = true
  · rw [if_pos he] at h1; exact h1
  · rw [if_neg he] at h1; exact List.mem_of_mem_filter h1

/-! ### Offer choices and nothing else -/

/-- Nothing chosen. -/
theorem OffersOnly.refl (s : State) : OffersOnly s s :=
  ⟨rfl, fun _ => rfl, fun _ => ⟨List.Sublist.refl _, fun _ hx => .inl hx⟩, fun _ _ => rfl, fun _ _ _ => .inl rfl⟩

/-- Choices do not change which hosts' choices wait. -/
theorem OffersOnly.choiceWaits {s t : State} (h : OffersOnly s t) (k : HostId) : t.choiceWaits k = s.choiceWaits k := by
  rw [h.1]; rfl

/-- Choices after choices. -/
theorem OffersOnly.trans {s t u : State} (h : OffersOnly s t) (g : OffersOnly t u) : OffersOnly s u := by
  refine ⟨?_, fun e => ?_, fun k => ⟨((g.2.2.1 k).1).trans (h.2.2.1 k).1, fun x hx => ?_⟩, fun k hk => ?_, fun k o ho => ?_⟩
  · have h1 := h.1
    have g1 := g.1
    rw [h1] at g1
    exact g1
  · rw [g.2.1 e]
    change { t.entry e with prog := { (t.entry e).prog with offered := (u.prog e).offered } } = _
    rw [h.2.1 e]
  · rcases (h.2.2.1 k).2 x hx with ht | hw
    · exact (g.2.2.1 k).2 x ht
    · exact .inr hw
  · rw [g.2.2.2.1 k (by rw [h.choiceWaits, hk]), h.2.2.2.1 k hk]
  · rcases h.2.2.2.2 k o ho with heq | ⟨q, hq, hlt⟩
    · rcases g.2.2.2.2 k o (heq ▸ ho) with heq' | hq'
      · exact .inl (heq'.trans heq)
      · exact .inr hq'
    · rcases g.2.2.2.2 k q hq with heq' | ⟨r, hr, hlt'⟩
      · exact .inr ⟨q, heq' ▸ hq, hlt⟩
      · exact .inr ⟨r, hr, lt_trans hlt hlt'⟩

/-- Taking only the offers of a state that differs in offers only takes all of it. -/
theorem OffersOnly.withOffers {s t : State} (h : OffersOnly s t) : s.withOffers t = t := by
  have h1 := h.1
  rw [h1]
  rfl

/-- A change of one entry's offered set. -/
theorem OffersOnly.setOffered (s : State) (e : Source) (x : HostSet) :
    OffersOnly s (s.setProg e { s.prog e with offered := x }) := by
  refine ⟨rfl, fun f => ?_, fun _ => ⟨List.Sublist.refl _, fun _ hx => .inl hx⟩, fun _ _ => rfl, fun _ _ _ => .inl rfl⟩
  by_cases hf : f = e
  · subst hf
    simp only [State.setProg_entry_self, State.setProg_prog_self]
  · rw [State.setProg_entry, State.setProg_prog, if_neg hf, if_neg hf]
    rfl

/-- A slot filled above what it held, for a host whose choice does not wait, and withdrawals of one entry dropped. -/
theorem OffersOnly.fill {s : State} {h : HostId} {o : Offer} {timer : Option Nat} (b : Source)
    (hw : s.choiceWaits h = false) (hs : ∀ q ∈ (s.slot h).offer, q.level < o.level) :
    OffersOnly s ((s.setSlot h { offer := some o, timer := timer }).setHanded h
      ((s.handedOf h).filter fun x => x != .withdraw b)) := by
  refine ⟨rfl, fun f => rfl, fun k => ?_, fun k hk => ?_, fun k q hq => ?_⟩
  · by_cases hkh : k = h
    · subst hkh
      simp only [State.setHanded_handedOf_self]
      refine ⟨List.filter_sublist, fun x hx => ?_⟩
      by_cases hxb : x = .withdraw b
      · exact .inr ⟨b, hxb⟩
      · exact .inl (List.mem_filter.mpr ⟨hx, by simpa using hxb⟩)
    · rw [State.setHanded_handedOf, if_neg hkh]
      exact ⟨List.Sublist.refl _, fun x hx => .inl hx⟩
  · have hkh : k ≠ h := fun e => by simp [e, hw] at hk
    simp [State.setSlot_slot, hkh]
  · by_cases hkh : k = h
    · subst hkh
      exact .inr ⟨o, by simp, hs q hq⟩
    · exact .inl (by simp [State.setSlot_slot, hkh])

/-- One offer changes offers only, if the host's choice does not wait and its standing offer is of lower level (R67, R69). -/
theorem OffersOnly.placeOffer {s : State} {b : Source} {h : HostId} (hw : s.choiceWaits h = false)
    (hs : ∀ o ∈ (s.slot h).offer, o.level < (s.cfg b).level) : OffersOnly s (s.placeOffer b h).2 := by
  cases ho : (s.slot h).offer with
  | none =>
    have h1 : OffersOnly s ((s.setSlot h { offer := some (s.offerOf b), timer := s.newTimer h }).setHanded h
        ((s.handedOf h).filter fun x => x != .withdraw b)) := .fill b hw (by simp [ho])
    have h2 := h1.trans (.setOffered _ b (addHost (s.prog b).offered h))
    simpa [State.placeOffer, ho] using h2
  | some o =>
    have h0 : OffersOnly s (s.leaveOffered o.source h) := .setOffered _ _ _
    have h1 : OffersOnly (s.leaveOffered o.source h)
        (((s.leaveOffered o.source h).setSlot h
          { offer := some ((s.leaveOffered o.source h).offerOf b), timer := (s.leaveOffered o.source h).newTimer h }).setHanded h
        (((s.leaveOffered o.source h).handedOf h).filter fun x => x != .withdraw b)) := by
      refine .fill b (by rw [h0.choiceWaits, hw]) fun q hq => ?_
      have hc : ((s.leaveOffered o.source h).cfg b) = s.cfg b := (congrArg Entry.cfg (h0.2.1 b)).trans rfl
      have hl : ((s.leaveOffered o.source h).offerOf b).level = (s.cfg b).level := by
        change ((s.leaveOffered o.source h).cfg b).level = _; rw [hc]
      rw [hl]
      exact hs q hq
    have h2 := (h0.trans h1).trans (.setOffered _ b (addHost ((s.leaveOffered o.source h).prog b).offered h))
    simpa [State.placeOffer, ho] using h2

/-- Settling the choices of hosts that do not wait changes offers only (R67, R68, R104). -/
theorem OffersOnly.settle (n : Nat) : ∀ (hosts : List HostId) (displaced : List Source) (s : State),
    (∀ k ∈ hosts, s.choiceWaits k = false) → OffersOnly s (Machine.settle n hosts displaced s).2 := by
  induction n with
  | zero => intro hosts displaced s _; exact .refl s
  | succ n ih =>
    intro hosts displaced s hw
    cases hosts with
    | nil => exact .refl s
    | cons h rest =>
      unfold Machine.settle
      cases hb : s.wanted displaced h with
      | none => exact ih rest displaced s fun k hk => hw k (by simp [hk])
      | some b =>
        simp only
        set group := if ((s.cfg b).policy == .any) = true then
          (h :: rest).filter fun k => s.wanted displaced k == some b else [h] with hg
        have hwin : ∀ w, w = (s.arbitrate group).getD h → w ∈ h :: rest ∧ s.wanted displaced w = some b := by
          intro w hwd
          cases ha : s.arbitrate group with
          | none => rw [ha] at hwd; subst hwd; exact ⟨by simp, hb⟩
          | some k =>
            rw [ha] at hwd
            subst hwd
            have hk := arbitrate_mem ha
            rw [hg] at hk
            split at hk
            · have := List.mem_filter.mp hk
              exact ⟨this.1, by simpa using this.2⟩
            · simp only [List.mem_singleton] at hk
              subst hk
              exact ⟨by simp, hb⟩
        obtain ⟨hmem, hwant⟩ := hwin _ rfl
        have hp : OffersOnly s (s.placeOffer b ((s.arbitrate group).getD h)).2 := by
          refine .placeOffer (hw _ hmem) fun o ho => ?_
          unfold State.wanted at hwant
          rw [Option.mem_def.mp ho] at hwant
          split at hwant
          · simp at hwant
          · simp only at hwant
            split at hwant
            · simp only [Option.some.injEq] at hwant
              subst hwant
              assumption
            · simp at hwant
        refine hp.trans (ih _ _ _ fun k hk => ?_)
        rw [hp.choiceWaits]
        exact hw k (List.mem_of_mem_erase hk)

/-- Taking news changes offers only (R67, R69). -/
theorem OffersOnly.newsLoop (n : Nat) : ∀ (es : List Source) (s : State), OffersOnly s (Machine.newsLoop n es s) := by
  induction n with
  | zero => intro es s; exact .refl s
  | succ n ih =>
    intro es s
    cases es with
    | nil => exact .refl s
    | cons e rest =>
      refine (OffersOnly.settle 4 (s.hostsFor e) [] s fun k hk => ?_).trans (ih _ _)
      have h2 := (List.mem_filter.mp hk).2
      simp only [Bool.and_eq_true, Bool.not_eq_true'] at h2
      exact h2.2

/-- The news that an entry stands unoffered changes offers only. -/
theorem offerNews_offersOnly (s : State) (e : Source) : OffersOnly s (s.offerNews e) := by
  have h := OffersOnly.newsLoop newsRounds [e] s
  unfold State.offerNews
  rwa [h.withOffers]

/-- The choice for a host changes offers only. -/
theorem choose_offersOnly (s : State) (h : HostId) : OffersOnly s (s.choose h) := by
  unfold State.choose
  by_cases hw : s.choiceWaits h = true
  · rw [if_pos hw]; exact .refl s
  · rw [if_neg hw]
    have h1 := OffersOnly.settle 4 [h] [] s (by simpa using hw)
    have h2 := h1.trans (.newsLoop newsRounds (Machine.settle 4 [h] [] s).1 _)
    simpa only [h2.withOffers] using h2

/-- A host whose choice waits gets none. -/
theorem choose_waits {s : State} {h : HostId} (hw : s.choiceWaits h = true) : s.choose h = s := by
  simp [State.choose, hw]

end Sys2Proof.Machine
end

