-- ==== Sys2Proof/Laws/Choices.lean ====
section
/-! SUPPORT. What the offer choices settle: one claim at the Offer Unit, the news of an entry with the news of the entries displaced on
the way, and the choice for one host. -/

namespace Sys2Proof.Machine

/-! ### Host sets -/

theorem dropHost_addHost (x : HostSet) (h k : HostId) (hx : dropHost (addHost x h) k = 0) : dropHost x k = 0 ∧ k = h := by
  revert x h k; decide

theorem hasHost_addHost (x : HostSet) (h k : HostId) : hasHost (addHost x h) k = (k == h || hasHost x k) := by
  revert x h k; decide

theorem hasHost_dropHost (x : HostSet) (h k : HostId) : hasHost (dropHost x h) k = (k != h && hasHost x k) := by
  revert x h k; decide

/-! ### Eligibility -/

/-- The eligibility of an entry with another offered set (R64). -/
def State.eligibleWith (s : State) (e : Source) (h : HostId) (offered : HostSet) : Bool :=
  let x := s.entry e
  x.prog.state == .delivering && decide (s.viewLevel h < x.cfg.level) && (s.ctx h).session == .attached &&
    decide ((s.viewOf h).length < Config.stackDepth) &&
    match x.cfg.policy with
    | .directed => hasHost x.cfg.targets h && x.prog.held == 0
    | .any => hasHost x.cfg.targets h && !hasHost (x.prog.decline.getD 0) h && x.prog.held == 0 && dropHost offered h == 0
    | .all => hasHost (x.prog.owed.getD 0) h && !hasHost x.prog.held h

theorem eligible_eq (s : State) (e : Source) (h : HostId) : s.eligible e h = s.eligibleWith e h (s.prog e).offered := rfl

/-- Offer choices touch the eligibility of an entry by its offered set alone. -/
theorem OffersOnly.eligibleWith {s t : State} (g : OffersOnly s t) (e : Source) (h : HostId) (x : HostSet) :
    t.eligibleWith e h x = s.eligibleWith e h x := by
  have hc : t.ctx h = s.ctx h := by rw [g.1]; rfl
  have hv : t.viewOf h = s.viewOf h := by rw [g.1]; rfl
  unfold State.eligibleWith State.viewLevel
  rw [hc, hv, g.2.1 e]
  rfl

theorem OffersOnly.cfg {s t : State} (g : OffersOnly s t) (e : Source) : t.cfg e = s.cfg e :=
  (congrArg Entry.cfg (g.2.1 e)).trans rfl

theorem OffersOnly.order {s t : State} (g : OffersOnly s t) : t.et.order = s.et.order := by rw [g.1]

theorem OffersOnly.filled {s t : State} (g : OffersOnly s t) (h : HostId) (e : Source) : t.filled h e = s.filled h e := by
  have hc : t.ctx h = s.ctx h := by rw [g.1]; rfl
  have ht : t.tb = s.tb := by rw [g.1]
  have hp : (t.prog e).outcome = (s.prog e).outcome := by
    change (t.entry e).prog.outcome = _
    rw [g.2.1 e]
  unfold State.filled
  rw [g.cfg, hc, ht, hp]

/-- Only under ANY is an entry's eligibility a matter of its offered set. -/
theorem eligibleWith_policy {s : State} {e : Source} (hp : (s.cfg e).policy ≠ .any) (h : HostId) (x y : HostSet) :
    s.eligibleWith e h x = s.eligibleWith e h y := by
  have hp' : (s.entry e).cfg.policy ≠ .any := hp
  unfold State.eligibleWith
  cases hq : (s.entry e).cfg.policy <;> simp_all

/-- Fewer offers leave an entry eligible. -/
theorem eligibleWith_mono {s : State} {e : Source} {h : HostId} {x y : HostSet} (hxy : dropHost x h = 0 → dropHost y h = 0)
    (hx : s.eligibleWith e h x = true) : s.eligibleWith e h y = true := by
  unfold State.eligibleWith at hx ⊢
  cases hq : (s.entry e).cfg.policy <;> simp_all

/-- An ANY entry is eligible for no host but the one it is offered to. -/
theorem eligibleWith_any {s : State} {e : Source} {h : HostId} {x : HostSet} (hp : (s.cfg e).policy = .any)
    (hx : s.eligibleWith e h x = true) : dropHost x h = 0 := by
  have hp' : (s.entry e).cfg.policy = .any := hp
  unfold State.eligibleWith at hx
  simp_all

theorem eligible_delivering {s : State} {e : Source} {h : HostId} (hx : s.eligible e h = true) :
    (s.prog e).state = .delivering := by
  unfold State.eligible at hx
  simp only [Bool.and_eq_true, beq_iff_eq] at hx
  exact hx.1.1.1.1

/-! ### One offer -/

/-- The slot that an offer fills. -/
theorem filled_eq (s : State) (h : HostId) (e : Source) :
    s.filled h e = { offer := some (s.offerOf e), timer := s.newTimer h } := by
  unfold State.filled State.offerOf State.newTimer
  by_cases hz : (s.ctx h).timeout = 0
  · simp [hz]
  · have hv : (s.ctx h).timeout.val ≠ 0 := fun hv => hz (Fin.ext hv)
    simp [hz, hv, Config.offerUnit]

@[simp] theorem leaveOffered_slot (s : State) (e : Source) (h k : HostId) : (s.leaveOffered e h).slot k = s.slot k := rfl

/-- The slots after an offer. -/
theorem placeOffer_slot (s : State) (b : Source) (h k : HostId) :
    (s.placeOffer b h).2.slot k = if k = h then s.filled h b else s.slot k := by
  have hoff : ∀ o : Offer, (s.leaveOffered o.source h).offerOf b = s.offerOf b := fun o => by
    unfold State.offerOf State.leaveOffered
    rw [State.setProg_cfg, State.setProg_prog]
    split
    · rename_i hb; subst hb; rfl
    · rfl
  cases ho : (s.slot h).offer with
  | none => simp [State.placeOffer, ho, State.setSlot_slot, filled_eq]
  | some o =>
    simp only [State.placeOffer, ho, State.setProg_slot, State.setHanded_slot, State.setSlot_slot, hoff, filled_eq]
    try rfl

/-- The offered sets after an offer. -/
theorem placeOffer_offered (s : State) (b : Source) (h : HostId) (f : Source) :
    (((s.placeOffer b h).2).prog f).offered =
      let x := if (s.slot h).offer.map Offer.source = some f then dropHost (s.prog f).offered h else (s.prog f).offered
      if f = b then addHost x h else x := by
  cases ho : (s.slot h).offer with
  | none =>
    simp only [State.placeOffer, ho, State.setProg_prog]
    by_cases hf : f = b
    · subst hf; simp
    · simp [hf]
  | some o =>
    simp only [State.placeOffer, ho, State.setProg_prog, State.setHanded_prog, State.setSlot_prog, State.leaveOffered,
      Option.map_some, Option.some.injEq]
    by_cases hf : f = b
    · subst hf
      by_cases hs : f = o.source
      · subst hs; simp
      · simp [hs, Ne.symm hs]
    · by_cases hs : f = o.source
      · subst hs; simp [hf]
      · simp [hf, hs, Ne.symm hs]

theorem placeOffer_fst (s : State) (b : Source) (h : HostId) : (s.placeOffer b h).1 = (s.slot h).offer.map Offer.source := rfl

/-! ### What choices keep, and what they settle -/

/-- Standing offers have their entries' levels (R62). -/
abbrev LevelsOk (s : State) : Prop := ∀ h : HostId, ∀ o ∈ (s.slot h).offer, o.level = (s.cfg o.source).level

/-- Entries in delivery stand in the arrival order list (R16). -/
abbrev InOrder (s : State) : Prop := ∀ f : Source, (s.prog f).state = .delivering → f ∈ s.et.order

/-- Host h has a standing offer of entry f's level or a higher one. -/
abbrev Covers (s : State) (h : HostId) (f : Source) : Prop := ∃ o ∈ (s.slot h).offer, (s.cfg f).level ≤ o.level

theorem OffersOnly.inOrder {s t : State} (g : OffersOnly s t) (h : InOrder s) : InOrder t := fun f hf => by
  rw [g.order]
  refine h f ?_
  have : (t.entry f).prog.state = (s.prog f).state := by rw [g.2.1 f]
  exact this ▸ hf

theorem OffersOnly.covers {s t : State} (g : OffersOnly s t) {h : HostId} {f : Source} (hc : Covers s h f) : Covers t h f := by
  obtain ⟨o, ho, hle⟩ := hc
  rcases g.2.2.2.2 h o ho with heq | ⟨q, hq, hlt⟩
  · exact ⟨o, heq ▸ ho, by rw [g.cfg]; exact hle⟩
  · exact ⟨q, hq, by rw [g.cfg]; exact le_of_lt (lt_of_le_of_lt hle hlt)⟩

/-- Host h has a standing offer of entry f's level or a higher one, or is one of the hosts allowed an empty slot and has one. -/
abbrev Met (E : HostId → Prop) (s : State) (h : HostId) (f : Source) : Prop :=
  Covers s h f ∨ (E h ∧ (s.slot h).offer = none)

/-- The level of a slot, 0 for an empty one. -/
def State.slotWeight (s : State) (h : HostId) : Nat :=
  match (s.slot h).offer with
  | none => 0
  | some o => o.level.val

/-- The levels of the slots together. -/
def State.weight (s : State) : Nat := s.slotWeight 0 + s.slotWeight 1 + s.slotWeight 2 + s.slotWeight 3

theorem slotWeight_le (s : State) (h : HostId) : s.slotWeight h ≤ 15 := by
  unfold State.slotWeight
  split
  · omega
  · rename_i o _; have := o.level.isLt; omega

theorem weight_le (s : State) : s.weight ≤ 60 := by
  have h0 := slotWeight_le s 0
  have h1 := slotWeight_le s 1
  have h2 := slotWeight_le s 2
  have h3 := slotWeight_le s 3
  unfold State.weight; omega

theorem weight_add {s t : State} {w : HostId} {n : Nat} (hn : ∀ k, k ≠ w → t.slotWeight k = s.slotWeight k)
    (hw : s.slotWeight w + n ≤ t.slotWeight w) : s.weight + n ≤ t.weight := by
  unfold State.weight
  have h0 := hn 0
  have h1 := hn 1
  have h2 := hn 2
  have h3 := hn 3
  fin_cases w <;> simp at h0 h1 h2 h3 hw ⊢ <;> omega

/-- What a run of offers from s to t does, with `displaced` the entries it displaced and no level above `bound` offered: choices and
nothing else; no entry becomes eligible but a displaced one; those stand below the bound, and each made the slots heavier;
a slot that changes, changes for the higher, or was one of the empty ones allowed. -/
structure Ran (E : HostId → Prop) (s t : State) (displaced : List Source) (bound : Nat) : Prop where
  only : OffersOnly s t
  levels : LevelsOk t
  fewer : ∀ (f : Source) (k : HostId), f ∉ displaced → t.eligible f k = true → s.eligible f k = true
  below : ∀ f ∈ displaced, (s.cfg f).level.val < bound
  heavier : s.weight + displaced.length ≤ t.weight
  slots : ∀ k : HostId, (t.slot k = s.slot k ∧ ∀ f : Source, hasHost (t.prog f).offered k = hasHost (s.prog f).offered k) ∨
    (∃ o ∈ (t.slot k).offer, o.level.val ≤ bound ∧ ∀ q ∈ (s.slot k).offer, q.level < o.level) ∨
    (E k ∧ (s.slot k).offer = none)

variable {E : HostId → Prop}

theorem Ran.refl {s : State} (hl : LevelsOk s) (bound : Nat) : Ran E s s [] bound :=
  ⟨.refl s, hl, fun _ _ _ h => h, by simp, by simp, fun _ => .inl ⟨rfl, fun _ => rfl⟩⟩

/-- One run of offers after another; of the entries that the first displaced, those that the second brought back no longer count. -/
theorem Ran.trans {s t u : State} {d e : List Source} {m n : Nat} (h : Ran E s t d n) (g : Ran E t u e m) (hmn : m ≤ n) :
    Ran E s u (d ++ e) n where
  only := h.only.trans g.only
  levels := g.levels
  fewer f k hf hu := by
    simp only [List.mem_append, not_or] at hf
    exact h.fewer f k hf.1 (g.fewer f k hf.2 hu)
  below f hf := by
    rcases List.mem_append.mp hf with hf | hf
    · exact h.below f hf
    · have := g.below f hf
      rw [h.only.cfg] at this
      omega
  heavier := by
    have h1 := h.heavier
    have h2 := g.heavier
    rw [List.length_append]; omega
  slots k := by
    rcases g.slots k with ⟨hs, hf⟩ | ⟨o, ho, hle, hlt⟩ | ⟨he, hn⟩
    · rcases h.slots k with ⟨hs', hf'⟩ | ⟨o, ho, hle, hlt⟩ | hx
      · exact .inl ⟨hs.trans hs', fun f => (hf f).trans (hf' f)⟩
      · exact .inr (.inl ⟨o, hs ▸ ho, hle, hlt⟩)
      · exact .inr (.inr hx)
    · refine .inr (.inl ⟨o, ho, by omega, fun q hq => ?_⟩)
      rcases h.only.2.2.2.2 k q hq with heq | ⟨r, hr, hqr⟩
      · exact hlt q (heq ▸ hq)
      · exact lt_trans hqr (hlt r hr)
    · refine .inr (.inr ⟨he, ?_⟩)
      cases ho : (s.slot k).offer with
      | none => rfl
      | some q =>
        rcases h.only.2.2.2.2 k q ho with heq | ⟨r, hr, -⟩
        · rw [heq, ho] at hn; simp at hn
        · rw [hn] at hr; simp at hr

/-- One offer of b to a host that wants it. -/
theorem Ran.place {s : State} {b : Source} {w : HostId} (hl : LevelsOk s) (hw : s.choiceWaits w = false)
    (hs : ∀ o ∈ (s.slot w).offer, o.level < (s.cfg b).level) :
    Ran E s (s.placeOffer b w).2 (s.placeOffer b w).1.toList (s.cfg b).level.val where
  only := .placeOffer hw hs
  levels k o ho := by
    have hc : ∀ f, ((s.placeOffer b w).2).cfg f = s.cfg f := (OffersOnly.placeOffer hw hs).cfg
    rw [placeOffer_slot] at ho
    rw [hc]
    split at ho
    · rw [filled_eq] at ho
      simp only [Option.mem_def, Option.some.injEq] at ho
      subst ho
      rfl
    · exact hl k o ho
  fewer f k hf he := by
    have g := OffersOnly.placeOffer hw hs
    rw [eligible_eq, g.eligibleWith, placeOffer_offered] at he
    rw [eligible_eq]
    have hne : ¬(s.slot w).offer.map Offer.source = some f := by
      intro hh
      rw [placeOffer_fst, hh] at hf
      simp at hf
    simp only [if_neg hne] at he
    refine eligibleWith_mono (fun hx => ?_) he
    split at hx
    · exact (dropHost_addHost _ _ _ hx).1
    · exact hx
  below f hf := by
    rw [placeOffer_fst] at hf
    simp only [Option.mem_toList, Option.map_eq_some_iff] at hf
    obtain ⟨o, ho, rfl⟩ := hf
    have h1 := hs o ho
    rw [hl w o ho] at h1
    exact h1
  heavier := by
    refine weight_add (w := w) (fun k hk => ?_) ?_
    · unfold State.slotWeight
      rw [placeOffer_slot, if_neg hk]
    · unfold State.slotWeight
      rw [placeOffer_slot, if_pos rfl, placeOffer_fst, filled_eq]
      cases ho : (s.slot w).offer with
      | none => simp
      | some o =>
        have := hs o ho
        simp only [Option.map_some, Option.toList_some, List.length_singleton, State.offerOf]
        exact this
  slots k := by
    by_cases hk : k = w
    · subst hk
      refine .inr (.inl ⟨s.offerOf b, ?_, ?_, hs⟩)
      · rw [placeOffer_slot, if_pos rfl, filled_eq]; rfl
      · exact le_refl _
    · refine .inl ⟨by rw [placeOffer_slot, if_neg hk], fun f => ?_⟩
      rw [placeOffer_offered]
      have hb : (k == w) = false := beq_eq_false_iff_ne.mpr hk
      have hb' : (k != w) = true := by rw [bne, hb]; rfl
      split <;> split <;> simp [hasHost_addHost, hasHost_dropHost, hb, hb']

/-! ### What a host wants -/

/-- A wanted entry is eligible, was not displaced in this claim, and stands above what the slot holds. -/
theorem wanted_some {s : State} {d : List Source} {h : HostId} {b : Source} (hb : s.wanted d h = some b) :
    b ∈ s.et.order ∧ s.eligible b h = true ∧ b ∉ d ∧ (∀ o ∈ (s.slot h).offer, o.level < (s.cfg b).level) ∧
      ∀ f ∈ s.et.order, s.eligible f h = true → f ∉ d →
        (s.cfg f).level < (s.cfg b).level ∨ ((s.cfg f).level = (s.cfg b).level ∧ s.et.order.idxOf b ≤ s.et.order.idxOf f) := by
  unfold State.wanted at hb
  split at hb
  · simp at hb
  · rename_i c hc
    obtain ⟨hm, hp, hall⟩ := bestOf_some hc
    simp only [Bool.and_eq_true, Bool.not_eq_true', List.contains_eq_mem, decide_eq_false_iff_not] at hp
    have hfin : c = b ∧ ∀ o ∈ (s.slot h).offer, o.level < (s.cfg b).level := by
      split at hb
      · rename_i hn
        simp only [Option.some.injEq] at hb
        exact ⟨hb, by simp [hn]⟩
      · rename_i o ho
        split at hb
        · rename_i hlt
          simp only [Option.some.injEq] at hb
          subst hb
          refine ⟨rfl, fun q hq => ?_⟩
          rw [ho] at hq
          simp only [Option.mem_def, Option.some.injEq] at hq
          subst hq; exact hlt
        · simp at hb
    obtain ⟨rfl, hlo⟩ := hfin
    refine ⟨hm, hp.1, hp.2, hlo, fun f hf he hd => hall f hf ?_⟩
    simp only [Bool.and_eq_true, Bool.not_eq_true', List.contains_eq_mem, decide_eq_false_iff_not]
    exact ⟨he, hd⟩

/-- A host that wants nothing has its slot above every eligible entry that was not displaced in this claim. -/
theorem wanted_none {s : State} {d : List Source} {h : HostId} (hb : s.wanted d h = none) {f : Source} (hf : f ∈ s.et.order)
    (he : s.eligible f h = true) (hd : f ∉ d) : Covers s h f := by
  unfold State.wanted at hb
  split at hb
  · rename_i hn
    have := bestOf_none.mp hn f hf
    simp [he, hd] at this
  · rename_i b hc
    obtain ⟨-, -, hall⟩ := bestOf_some hc
    have hle : (s.cfg f).level ≤ (s.cfg b).level := by
      rcases hall f hf (by simp [he, hd]) with hlt | ⟨heq, -⟩
      · exact le_of_lt hlt
      · exact le_of_eq heq
    split at hb
    · simp at hb
    · rename_i o ho
      split at hb
      · simp at hb
      · rename_i hnl
        exact ⟨o, ho, le_trans hle (not_lt.mp hnl)⟩

/-! ### One claim at the Offer Unit -/

/-- The hosts of the group that the next host of a claim belongs to, and its winner (R68, R104). -/
theorem settle_winner {s : State} {d : List Source} {h : HostId} {rest : List HostId} {b : Source}
    (hb : s.wanted d h = some b) :
    let group := if (s.cfg b).policy == .any then (h :: rest).filter fun k => s.wanted d k == some b else [h]
    (s.arbitrate group).getD h ∈ h :: rest ∧ s.wanted d ((s.arbitrate group).getD h) = some b ∧
      ((s.cfg b).policy ≠ .any → (s.arbitrate group).getD h = h) := by
  intro group
  cases ha : s.arbitrate group with
  | none => exact ⟨by simp, hb, fun _ => rfl⟩
  | some k =>
    have hk := arbitrate_mem ha
    change k ∈ (if _ then _ else _) at hk
    simp only [Option.getD_some]
    by_cases hp : (s.cfg b).policy = .any
    · simp only [hp, beq_self_eq_true, if_true, List.mem_filter, beq_iff_eq] at hk
      exact ⟨hk.1, hk.2, fun h => absurd hp h⟩
    · simp only [beq_iff_eq, hp, if_false, List.mem_singleton] at hk
      subst hk
      exact ⟨by simp, hb, fun _ => rfl⟩

/-- An offer that its host wants leaves every host covered, or allowed empty, that was, for every entry not displaced. -/
theorem place_met {s : State} {d : List Source} {w : HostId} {b : Source} (hb : s.wanted d w = some b) (hw : s.choiceWaits w = false)
    (hi : InOrder s) {k : HostId} {f : Source} (hf : f ∉ d) (he : s.eligible f k = true) (hm : Met E s k f) :
    Met E (s.placeOffer b w).2 k f := by
  obtain ⟨-, -, -, hlo, hbest⟩ := wanted_some hb
  by_cases hkw : k = w
  · subst hkw
    refine .inl ⟨s.offerOf b, by rw [placeOffer_slot, if_pos rfl, filled_eq]; rfl, ?_⟩
    rw [(OffersOnly.placeOffer hw hlo).cfg]
    rcases hbest f (hi f (eligible_delivering he)) he hf with hlt | ⟨heq, -⟩
    · exact le_of_lt hlt
    · exact le_of_eq heq
  · unfold Met Covers
    rw [placeOffer_slot, if_neg hkw, (OffersOnly.placeOffer hw hlo).cfg]
    exact hm

/-- What one claim does: a run of offers, after which every host of the claim has its slot above every entry that was eligible for
it and not displaced on the way, and every other host stands to the entries not displaced as it stood. -/
theorem settle_ran (bound : Nat) (n : Nat) : ∀ (hosts : List HostId) (d : List Source) (s : State), hosts.length ≤ n →
    (∀ k ∈ hosts, s.choiceWaits k = false) → LevelsOk s → InOrder s →
    (∀ k ∈ hosts, ∀ f, f ∉ d → s.eligible f k = true → Met E s k f ∨ (s.cfg f).level.val ≤ bound) →
    ∃ e : List Source, (settle n hosts d s).1 = d ++ e ∧ Ran E s (settle n hosts d s).2 e bound ∧
      (∀ k ∈ hosts, ∀ f, f ∉ d ++ e → (settle n hosts d s).2.eligible f k = true → Covers (settle n hosts d s).2 k f) ∧
      ∀ k f, f ∉ d ++ e → (settle n hosts d s).2.eligible f k = true → Met E s k f → Met E (settle n hosts d s).2 k f := by
  induction n with
  | zero =>
    intro hosts d s hn _ hl _ _
    have : hosts = [] := by simpa using hn
    subst this
    exact ⟨[], by simp [settle], .refl hl _, by simp, fun _ _ _ _ h => h⟩
  | succ n ih =>
    intro hosts d s hn hw hl hi hbd
    cases hosts with
    | nil => exact ⟨[], by simp [settle], .refl hl _, by simp, fun _ _ _ _ h => h⟩
    | cons h rest =>
      unfold settle
      cases hb : s.wanted d h with
      | none =>
        simp only
        obtain ⟨e, h1, h2, h3, h4⟩ := ih rest d s (by simpa using hn) (fun k hk => hw k (by simp [hk])) hl hi
          (fun k hk => hbd k (by simp [hk]))
        refine ⟨e, h1, h2, fun k hk f hf he => ?_, h4⟩
        rcases List.mem_cons.mp hk with rfl | hk
        · have hs := h2.fewer f k (fun hx => hf (by simp [hx])) he
          exact h2.only.covers (wanted_none hb (hi f (eligible_delivering hs)) hs fun hx => hf (by simp [hx]))
        · exact h3 k hk f hf he
      | some b =>
        simp only
        obtain ⟨hm, hwant, -⟩ := settle_winner (rest := rest) hb
        set w := (s.arbitrate (if ((s.cfg b).policy == .any) = true then
          (h :: rest).filter fun k => s.wanted d k == some b else [h])).getD h with hwdef
        obtain ⟨hbo, hbe, hbd', hblo, hbbest⟩ := wanted_some hwant
        have hp := Ran.place (E := E) hl (hw w hm) hblo
        have hmet := fun k f hf he => place_met (E := E) hwant (hw w hm) hi (k := k) (f := f) hf he
        set t := (s.placeOffer b w).2 with ht
        set old := (s.placeOffer b w).1.toList with hold
        have hbb : (s.cfg b).level.val ≤ bound ∨ (E w ∧ (s.slot w).offer = none) := by
          rcases hbd w hm b hbd' hbe with (⟨o, ho, hle⟩ | hx) | hle
          · exact absurd (lt_of_le_of_lt hle (hblo o ho)) (lt_irrefl _)
          · exact .inr hx
          · exact .inl hle
        have hmem : ∀ k ∈ (h :: rest).erase w, k ∈ h :: rest := fun k hk => List.mem_of_mem_erase hk
        obtain ⟨e, h1, h2, h3, h4⟩ := ih ((h :: rest).erase w) (d ++ old) t
          (by rw [List.length_erase_of_mem hm]; simp at hn ⊢; omega)
          (fun k hk => by rw [hp.only.choiceWaits]; exact hw k (hmem k hk)) hp.levels (hp.only.inOrder hi)
          (fun k hk f hf he => by
            simp only [List.mem_append, not_or] at hf
            have hes := hp.fewer f k hf.2 he
            rw [hp.only.cfg]
            exact (hbd k (hmem k hk) f hf.1 hes).imp (hmet k f hf.1 hes) id)
        have hpb : Ran E s t old bound := by
          refine ⟨hp.only, hp.levels, hp.fewer, fun f hf => ?_, hp.heavier, fun k => ?_⟩
          · rcases hbb with hle | ⟨-, hn⟩
            · exact lt_of_lt_of_le (hp.below f hf) hle
            · rw [hold, placeOffer_fst, hn] at hf; simp at hf
          · rcases hp.slots k with hx | ⟨o, ho, hle, hlt⟩ | hx
            · exact .inl hx
            · rcases hbb with hle' | hx
              · exact .inr (.inl ⟨o, ho, le_trans hle hle', hlt⟩)
              · by_cases hkw : k = w
                · subst hkw; exact .inr (.inr hx)
                · rw [ht, placeOffer_slot, if_neg hkw] at ho
                  exact absurd (hlt o ho) (lt_irrefl _)
            · exact .inr (.inr hx)
        refine ⟨old ++ e, by rw [h1, List.append_assoc], hpb.trans h2 (le_refl _), fun k hk f hf he => ?_,
          fun k f hf he hks => ?_⟩
        · rw [← List.append_assoc] at hf
          by_cases hkw : k = w
          · subst hkw
            have hf' : f ∉ e ∧ f ∉ old ∧ f ∉ d := by
              simp only [List.mem_append, not_or] at hf; exact ⟨hf.2, hf.1.2, hf.1.1⟩
            have hs := hp.fewer f _ hf'.2.1 (h2.fewer f _ hf'.1 he)
            have hle : (s.cfg f).level ≤ (s.cfg b).level := by
              rcases hbbest f (hi f (eligible_delivering hs)) hs hf'.2.2 with hlt | ⟨heq, -⟩
              · exact le_of_lt hlt
              · exact le_of_eq heq
            refine h2.only.covers ⟨s.offerOf b, ?_, ?_⟩
            · rw [ht, placeOffer_slot, if_pos rfl, filled_eq]; rfl
            · rw [hp.only.cfg]; exact hle
          · exact h3 k (by rw [List.mem_erase_of_ne hkw]; exact hk) f hf he
        · have hf' : f ∉ e ∧ f ∉ old ∧ f ∉ d := by
            simp only [List.mem_append, not_or] at hf; exact ⟨hf.2.2, hf.2.1, hf.1⟩
          have hs := hp.fewer f k hf'.2.1 (h2.fewer f k hf'.1 he)
          exact h4 k f (by rw [List.append_assoc]; exact hf) he (hmet k f hf'.2.2 hs hks)

/-! ### The news -/

theorem hostsFor_waits {s : State} {e : Source} : ∀ k ∈ s.hostsFor e, s.choiceWaits k = false := fun k hk => by
  have := (List.mem_filter.mp hk).2
  simp only [Bool.and_eq_true, Bool.not_eq_true'] at this
  exact this.2

theorem mem_hostsFor {s : State} {e : Source} {k : HostId} (he : s.eligible e k = true) (hk : s.choiceWaits k = false) :
    k ∈ s.hostsFor e := by
  have hall : ∀ k : HostId, k ∈ allHosts := by decide
  exact List.mem_filter.mpr ⟨hall k, by rw [he, hk]; rfl⟩

/-- Every host whose choice does not wait is covered, or allowed empty, for every eligible entry, as far as the two pass the test. -/
abbrev MetOver (E : HostId → Prop) (s : State) (p : HostId → Source → Prop) : Prop :=
  ∀ k : HostId, s.choiceWaits k = false → ∀ f : Source, p k f → s.eligible f k = true → Met E s k f

/-- The settled slots of DeliveryLaw, in these terms: every host may have an empty slot. -/
theorem settledLaw_iff (s : State) :
    (∀ h : HostId, SettledLaw s h) ↔ MetOver (fun _ => True) s (fun _ _ => True) := by
  constructor
  · intro hs k hk f _ he
    cases ho : (s.slot k).offer with
    | none => exact .inr ⟨trivial, ho⟩
    | some o => exact .inl ⟨o, ho, hs k hk o ho f he⟩
  · intro hs k hk o ho f he
    rcases hs k hk f trivial he with ⟨q, hq, hle⟩ | ⟨-, hn⟩
    · have : q = o := Option.some.inj (hq.symm.trans ho)
      exact this ▸ hle
    · rw [hn] at ho; simp at ho

/-- One item of news: after its claim only the entries displaced by it are open, with those that were open before. The hosts of the
set A may be left aside, with choices of their own open. -/
theorem settle_item {A : HostId → Prop} {s : State} {e : Source} {rest : List Source} {bound : Nat} (hl : LevelsOk s)
    (hi : InOrder s) (hA : ∀ k, A k → 15 ≤ bound) (hs : MetOver E s fun k f => ¬A k ∧ f ∉ e :: rest)
    (hbd : ∀ f ∈ e :: rest, (s.cfg f).level.val ≤ bound) :
    ∃ d : List Source, (settle 4 (s.hostsFor e) [] s).1 = d ∧ Ran E s (settle 4 (s.hostsFor e) [] s).2 d bound ∧
      MetOver E (settle 4 (s.hostsFor e) [] s).2 fun k f => ¬A k ∧ f ∉ rest ++ d := by
  obtain ⟨d, h1, h2, h3, h4⟩ := settle_ran (E := E) bound 4 (s.hostsFor e) [] s
    (le_trans (List.length_filter_le _ _) (by decide)) hostsFor_waits hl hi
    (fun k hk f _ he => by
      by_cases hf : f ∈ e :: rest
      · exact .inr (hbd f hf)
      · by_cases ha : A k
        · have := hA k ha; exact .inr (by omega)
        · exact .inl (hs k (hostsFor_waits k hk) f ⟨ha, hf⟩ he))
  rw [List.nil_append] at h1
  refine ⟨d, h1, h2, fun k hk f ⟨ha, hf⟩ he => ?_⟩
  simp only [List.mem_append, not_or] at hf
  rw [h2.only.choiceWaits] at hk
  have hes := h2.fewer f k hf.2 he
  by_cases hfe : f = e
  · subst hfe
    exact .inl (h3 k (mem_hostsFor hes hk) f (by simpa using hf.2) he)
  · exact h4 k f (by simpa using hf.2) he (hs k hk f ⟨ha, by simp [hfe, hf.1]⟩ hes)

/-- What taking news does: a run of offers, after which no choice is left open but at the hosts left aside, if none was but at these and
for the entries of the news. -/
theorem newsLoop_settles (A : HostId → Prop) (bound : Nat) (n : Nat) (hA : ∀ k, A k → 15 ≤ bound) :
    ∀ (es : List Source) (s : State), LevelsOk s → InOrder s → es.length + 60 ≤ n + s.weight →
    MetOver E s (fun k f => ¬A k ∧ f ∉ es) → (∀ f ∈ es, (s.cfg f).level.val ≤ bound) →
    (∃ d : List Source, Ran E s (newsLoop n es s) d bound) ∧ MetOver E (newsLoop n es s) (fun k _ => ¬A k) := by
  induction n with
  | zero =>
    intro es s hl _ hn hs _
    have hw := weight_le s
    have : es = [] := by
      cases es with
      | nil => rfl
      | cons => simp only [List.length_cons] at hn; omega
    subst this
    exact ⟨⟨[], .refl hl _⟩, fun k hk f ha he => hs k hk f ⟨ha, by simp⟩ he⟩
  | succ n ih =>
    intro es s hl hi hn hs hbd
    cases es with
    | nil => exact ⟨⟨[], .refl hl _⟩, fun k hk f ha he => hs k hk f ⟨ha, by simp⟩ he⟩
    | cons e rest =>
      obtain ⟨d, h1, h2, h3⟩ := settle_item hl hi hA hs hbd
      unfold newsLoop
      simp only [h1]
      obtain ⟨⟨d', h4⟩, h5⟩ := ih (rest ++ d) (settle 4 (s.hostsFor e) [] s).2 h2.levels (h2.only.inOrder hi)
        (by
          have := h2.heavier
          simp only [List.length_cons, List.length_append] at hn ⊢
          omega)
        h3
        (fun f hf => by
          rw [h2.only.cfg]
          rcases List.mem_append.mp hf with hf | hf
          · exact hbd f (by simp [hf])
          · exact le_of_lt (h2.below f hf))
      exact ⟨⟨d ++ d', h2.trans h4 (le_refl _)⟩, h5⟩

/-! ### One entry's news -/

/-- Of two entries on the arrival order list that are each the better one or the same, both are the same (R17, R66). -/
theorem best_unique {s : State} {a b : Source} (ha : a ∈ s.et.order)
    (h1 : (s.cfg b).level < (s.cfg a).level ∨ ((s.cfg b).level = (s.cfg a).level ∧ s.et.order.idxOf a ≤ s.et.order.idxOf b))
    (h2 : (s.cfg a).level < (s.cfg b).level ∨ ((s.cfg a).level = (s.cfg b).level ∧ s.et.order.idxOf b ≤ s.et.order.idxOf a)) :
    a = b := by
  refine (List.idxOf_inj ha).mp ?_
  rcases h1 with hlt | ⟨heq, hle⟩
  · rcases h2 with hlt' | ⟨heq', -⟩
    · exact absurd (lt_trans hlt hlt') (lt_irrefl _)
    · rw [heq'] at hlt; exact absurd hlt (lt_irrefl _)
  · rcases h2 with hlt' | ⟨-, hle'⟩
    · rw [heq] at hlt'; exact absurd hlt' (lt_irrefl _)
    · omega

/-- Would a choice for h place entry e, were it h's best? -/
def State.wants (s : State) (e : Source) (h : HostId) : Bool :=
  s.eligible e h && match (s.slot h).offer with
    | none => true
    | some o => decide (o.level < (s.cfg e).level)

theorem candidates_eq (s : State) (e : Source) :
    s.candidates e = allHosts.filter fun h => s.wants e h && !s.choiceWaits h := by
  unfold State.candidates State.wants
  refine List.filter_congr fun h _ => ?_
  cases s.eligible e h <;> cases s.choiceWaits h <;> (simp; try rfl)

theorem wants_iff {s : State} {e : Source} {h : HostId} (he : s.eligible e h = true) :
    s.wants e h = true ↔ ¬Covers s h e := by
  unfold State.wants Covers
  cases ho : (s.slot h).offer with
  | none => simp [he]
  | some o => simp [he]

theorem wants_eligible {s : State} {e : Source} {h : HostId} (hw : s.wants e h = true) : s.eligible e h = true := by
  unfold State.wants at hw
  simp only [Bool.and_eq_true] at hw
  exact hw.1

/-- Where every other choice is settled, a host wants the entry of the news or nothing. -/
theorem wanted_news {s : State} {d : List Source} {e : Source} {k : HostId} (hi : InOrder s) (hed : e ∉ d)
    (hset : ∀ f, f ≠ e → f ∉ d → s.eligible f k = true → Covers s k f) :
    s.wanted d k = if s.wants e k = true then some e else none := by
  cases hb : s.wanted d k with
  | none =>
    by_cases hw : s.wants e k = true
    · have he := wants_eligible hw
      exact absurd (wanted_none hb (hi e (eligible_delivering he)) he hed) ((wants_iff he).mp hw)
    · rw [if_neg hw]
  | some b =>
    obtain ⟨-, hbe, hbd, hlo, -⟩ := wanted_some hb
    have hnc : ¬Covers s k b := fun ⟨o, ho, hle⟩ => absurd (lt_of_le_of_lt hle (hlo o ho)) (lt_irrefl _)
    have hbe' : b = e := by
      by_contra hne
      exact hnc (hset b hne hbd hbe)
    subst hbe'
    rw [if_pos ((wants_iff hbe).mpr hnc)]

/-- A claim in which no host wants anything changes nothing. -/
theorem settle_idle (n : Nat) : ∀ (hosts : List HostId) (d : List Source) (s : State),
    (∀ k ∈ hosts, s.wanted d k = none) → settle n hosts d s = (d, s) := by
  induction n with
  | zero => intros; rfl
  | succ n ih =>
    intro hosts d s hn
    cases hosts with
    | nil => rfl
    | cons h rest =>
      unfold settle
      rw [hn h (by simp)]
      exact ih rest d s fun k hk => hn k (by simp [hk])

/-- A displaced entry is none of the level of the entry that displaced it. -/
theorem displaced_ne {s : State} {e : Source} {w : HostId} (hl : LevelsOk s)
    (hlo : ∀ o ∈ (s.slot w).offer, o.level < (s.cfg e).level) : e ∉ (s.placeOffer e w).1.toList := by
  intro hf
  rw [placeOffer_fst] at hf
  simp only [Option.mem_toList, Option.map_eq_some_iff] at hf
  obtain ⟨o, ho, hoe⟩ := hf
  have h1 := hlo o ho
  rw [hl w o ho, hoe] at h1
  exact lt_irrefl _ h1

theorem wants_lower {s : State} {e : Source} {h : HostId} (hw : s.wants e h = true) :
    ∀ o ∈ (s.slot h).offer, o.level < (s.cfg e).level := fun o ho => by
  unfold State.wants at hw
  rw [Option.mem_def] at ho
  simp only [ho, Bool.and_eq_true, decide_eq_true_eq] at hw
  exact hw.2

/-- A host that has no part in a claim keeps its slot and its place in every offered set. -/
theorem settle_untouched {w : HostId} (n : Nat) : ∀ (hosts : List HostId) (d : List Source) (s : State), w ∉ hosts →
    (settle n hosts d s).2.slot w = s.slot w ∧
      ∀ f, hasHost ((settle n hosts d s).2.prog f).offered w = hasHost (s.prog f).offered w := by
  induction n with
  | zero => intros; exact ⟨rfl, fun _ => rfl⟩
  | succ n ih =>
    intro hosts d s hw
    cases hosts with
    | nil => exact ⟨rfl, fun _ => rfl⟩
    | cons h rest =>
      unfold settle
      cases hb : s.wanted d h with
      | none => exact ih rest d s fun hx => hw (by simp [hx])
      | some b =>
        simp only
        obtain ⟨hm, -, -⟩ := settle_winner (rest := rest) hb
        set v := (s.arbitrate (if ((s.cfg b).policy == .any) = true then
          (h :: rest).filter fun k => s.wanted d k == some b else [h])).getD h
        have hwv : w ≠ v := fun hx => hw (hx ▸ hm)
        obtain ⟨i1, i2⟩ := ih ((h :: rest).erase v) (d ++ (s.placeOffer b v).1.toList) (s.placeOffer b v).2
          fun hx => hw (List.mem_of_mem_erase hx)
        refine ⟨i1.trans ((placeOffer_slot s b v w).trans (if_neg hwv)), fun f => (i2 f).trans ?_⟩
        have hadd : ∀ x : HostSet, hasHost (addHost x v) w = hasHost x w := fun x => by
          rw [hasHost_addHost]; simp [hwv]
        have hdrop : ∀ x : HostSet, hasHost (dropHost x v) w = hasHost x w := fun x => by
          rw [hasHost_dropHost]; simp [hwv]
        rw [placeOffer_offered]
        simp only
        split <;> split <;> simp [hadd, hdrop]

/-- The arbiter reads the slots and the levels of its candidates and the rotation pointer. -/
theorem arbitrate_congr {s t : State} {cs : List HostId} (hs : ∀ k ∈ cs, t.slot k = s.slot k)
    (hl : ∀ k, t.viewLevel k = s.viewLevel k) (hr : t.ou.rotation = s.ou.rotation) : t.arbitrate cs = s.arbitrate cs := by
  unfold State.arbitrate
  have hf : (cs.filter fun h => (t.slot h).offer.isNone) = cs.filter fun h => (s.slot h).offer.isNone :=
    List.filter_congr fun k hk => by rw [hs k hk]
  simp only [hf, hl, hr]

/-- What another host wants does not change with an offer, if it wants nothing, or an entry that the offer leaves eligible for it and
does not displace. -/
theorem wanted_place {s : State} {d : List Source} {b : Source} {w k : HostId} (hl : LevelsOk s)
    (hb : s.wanted d w = some b) (hww : s.choiceWaits w = false) (hk : k ≠ w) :
    (s.wanted d k = none → (s.placeOffer b w).2.wanted (d ++ (s.placeOffer b w).1.toList) k = none) ∧
    (∀ e, s.wanted d k = some e → e ∉ (s.placeOffer b w).1.toList → (s.placeOffer b w).2.eligible e k = true →
      (s.placeOffer b w).2.wanted (d ++ (s.placeOffer b w).1.toList) k = some e) := by
  obtain ⟨-, -, -, hlo, -⟩ := wanted_some hb
  have hr := Ran.place (E := fun _ => False) hl hww hlo
  set t := (s.placeOffer b w).2 with ht
  set old := (s.placeOffer b w).1.toList with hold
  have hslot : t.slot k = s.slot k := (placeOffer_slot s b w k).trans (if_neg hk)
  have hback : ∀ f, t.wanted (d ++ old) k = some f → f ∈ s.et.order ∧ s.eligible f k = true ∧ f ∉ d ∧
      ∀ o ∈ (s.slot k).offer, o.level < (s.cfg f).level := fun f hf => by
    obtain ⟨h1, h2, h3, h4, -⟩ := wanted_some hf
    simp only [List.mem_append, not_or] at h3
    rw [hslot] at h4
    rw [hr.only.order] at h1
    exact ⟨h1, hr.fewer f k h3.2 h2, h3.1, fun o ho => hr.only.cfg f ▸ h4 o ho⟩
  refine ⟨fun hn => ?_, fun e he hne hel => ?_⟩
  · cases hx : t.wanted (d ++ old) k with
    | none => rfl
    | some f =>
      obtain ⟨h1, h2, h3, h4⟩ := hback f hx
      obtain ⟨o, ho, hle⟩ := wanted_none hn h1 h2 h3
      exact absurd (lt_of_le_of_lt hle (h4 o ho)) (lt_irrefl _)
  · obtain ⟨heo, -, hed, helo, hebest⟩ := wanted_some he
    have hed' : e ∉ d ++ old := by simp only [List.mem_append, not_or]; exact ⟨hed, hne⟩
    cases hx : t.wanted (d ++ old) k with
    | none =>
      obtain ⟨o, ho, hle⟩ := wanted_none hx (by rw [hr.only.order]; exact heo) hel hed'
      rw [hslot] at ho
      rw [hr.only.cfg] at hle
      exact absurd (lt_of_le_of_lt hle (helo o ho)) (lt_irrefl _)
    | some f =>
      obtain ⟨h1, h2, h3, -⟩ := hback f hx
      have hfe := (wanted_some hx).2.2.2.2 e (by rw [hr.only.order]; exact heo) hel hed'
      simp only [hr.only.cfg, hr.only.order] at hfe
      rw [best_unique h1 hfe (hebest f h1 h2 h3)]

/-- The claim that takes the news of an entry gives it to every host that wants it, but under ANY to the one that the arbiter names
among them. One host h of the claim may want another entry instead, if its slot does not hold an offer of this one. -/
theorem settle_gives {e : Source} {h : HostId} (n : Nat) : ∀ (hosts : List HostId) (d : List Source) (s : State),
    hosts.length ≤ n → hosts.Nodup → (∀ k ∈ hosts, s.choiceWaits k = false) → LevelsOk s → InOrder s →
    (∀ k ∈ hosts, s.wanted d k = some e ∨ s.wanted d k = none ∨ (k = h ∧ ∀ o ∈ (s.slot k).offer, o.source ≠ e)) →
    ∀ w : HostId,
      (if (s.cfg e).policy = .any then s.arbitrate (hosts.filter fun k => s.wanted d k == some e) = some w
        else w ∈ hosts.filter fun k => s.wanted d k == some e) →
      (settle n hosts d s).2.slot w = s.filled w e ∧ hasHost ((settle n hosts d s).2.prog e).offered w = true := by
  induction n with
  | zero =>
    intro hosts d s hn _ _ _ _ _ w hw
    have : hosts = [] := by simpa using hn
    subst this
    split at hw
    · exact absurd (arbitrate_mem hw) (by simp)
    · simp at hw
  | succ n ih =>
    intro hosts d s hn hnd hww hl hi hwant w hw
    have hmem : w ∈ hosts ∧ s.wanted d w = some e := by
      have : w ∈ hosts.filter fun k => s.wanted d k == some e := by
        split at hw
        · exact arbitrate_mem hw
        · exact hw
      exact ⟨(List.mem_filter.mp this).1, by simpa using (List.mem_filter.mp this).2⟩
    cases hosts with
    | nil => simp at hmem
    | cons k0 rest =>
      have hnd' := List.nodup_cons.mp hnd
      unfold settle
      cases hb : s.wanted d k0 with
      | none =>
        simp only
        refine ih rest d s (by simpa using hn) hnd'.2 (fun k hk => hww k (by simp [hk])) hl hi
          (fun k hk => hwant k (by simp [hk])) w ?_
        rw [List.filter_cons, hb] at hw
        simpa using hw
      | some b =>
        simp only
        obtain ⟨hvm, hvb, hvn⟩ := settle_winner (rest := rest) hb
        -- the offer that this round makes, of b to v
        set v := (s.arbitrate (if ((s.cfg b).policy == .any) = true then
          (k0 :: rest).filter fun k => s.wanted d k == some b else [k0])).getD k0 with hv
        have hlo := (wanted_some hvb).2.2.2.1
        have hr := Ran.place (E := fun _ => False) hl (hww v hvm) hlo
        have hnotin : v ∉ (k0 :: rest).erase v := fun hx => (hnd.mem_erase_iff.mp hx).1 rfl
        have hoff : v = w → b = e → (settle n ((k0 :: rest).erase v) (d ++ (s.placeOffer b v).1.toList) (s.placeOffer b v).2).2.slot w =
            s.filled w e ∧ hasHost ((settle n ((k0 :: rest).erase v) (d ++ (s.placeOffer b v).1.toList)
              (s.placeOffer b v).2).2.prog e).offered w = true := fun hvw hbe => by
          obtain ⟨i1, i2⟩ := settle_untouched (w := w) n ((k0 :: rest).erase v) (d ++ (s.placeOffer b v).1.toList)
            (s.placeOffer b v).2 (hvw ▸ hnotin)
          rw [i1, i2 e, placeOffer_slot, placeOffer_offered, hvw, hbe]
          simp [hasHost_addHost]
        by_cases hvw : v = w
        · refine hoff hvw ?_
          rw [hvw] at hvb
          exact Option.some.inj (hvb.symm.trans hmem.2)
        · -- another host is served first: it wants another entry, or the entry is not ANY
          have hne : e ∉ (s.placeOffer b v).1.toList := by
            by_cases hbe : b = e
            · subst hbe; exact displaced_ne hl hlo
            · have hvs := (hwant v hvm).resolve_left (fun hx => hbe (Option.some.inj (hvb.symm.trans hx)))
              have hvs := (hvs.resolve_left fun hx => by rw [hvb] at hx; simp at hx).2
              rw [placeOffer_fst]
              simp only [Option.mem_toList, Option.map_eq_some_iff, not_exists, not_and]
              exact fun o ho => hvs o ho
          have hany : b = e → (s.cfg e).policy ≠ .any := fun hbe hp => by
            rw [if_pos hp] at hw
            subst hbe
            apply hvw
            rw [hv, if_pos (by simp [hp]), hw]
            rfl
          have hel : ∀ k, k ≠ v → s.eligible e k = true → (s.placeOffer b v).2.eligible e k = true := fun k _ hk => by
            rw [eligible_eq] at hk ⊢
            rw [hr.only.eligibleWith]
            by_cases hbe : b = e
            · rw [eligibleWith_policy (hany hbe) k _ (s.prog e).offered]; exact hk
            · have hsame : ((s.placeOffer b v).2.prog e).offered = (s.prog e).offered := by
                have hno : ¬(s.slot v).offer.map Offer.source = some e := fun hx => hne (by
                  rw [placeOffer_fst, hx]; simp)
                rw [placeOffer_offered]
                simp only [if_neg hno, if_neg (Ne.symm hbe)]
              rw [hsame]; exact hk
          have hkeep : ∀ k, k ≠ v → s.wanted d k = some e →
              (s.placeOffer b v).2.wanted (d ++ (s.placeOffer b v).1.toList) k = some e := fun k hk hx =>
            (wanted_place hl hvb (hww v hvm) hk).2 e hx hne (hel k hk (wanted_some hx).2.1)
          have hnone : ∀ k, k ≠ v → s.wanted d k = none →
              (s.placeOffer b v).2.wanted (d ++ (s.placeOffer b v).1.toList) k = none := fun k hk hx =>
            (wanted_place hl hvb (hww v hvm) hk).1 hx
          have hslot : ∀ k, k ≠ v → (s.placeOffer b v).2.slot k = s.slot k := fun k hk =>
            (placeOffer_slot s b v k).trans (if_neg hk)
          have hrest : ∀ k ∈ (k0 :: rest).erase v, k ∈ k0 :: rest ∧ k ≠ v := fun k hk =>
            ⟨List.mem_of_mem_erase hk, fun hx => hnotin (hx ▸ hk)⟩
          have hres := ih ((k0 :: rest).erase v) (d ++ (s.placeOffer b v).1.toList) (s.placeOffer b v).2
            (by rw [List.length_erase_of_mem hvm]; simp at hn ⊢; omega) (hnd.erase v)
            (fun k hk => by rw [hr.only.choiceWaits]; exact hww k (hrest k hk).1) hr.levels (hr.only.inOrder hi)
            (fun k hk => by
              obtain ⟨hm, hkv⟩ := hrest k hk
              rcases hwant k hm with hx | hx | ⟨hkh, hx⟩
              · exact .inl (hkeep k hkv hx)
              · exact .inr (.inl (hnone k hkv hx))
              · exact .inr (.inr ⟨hkh, by rw [hslot k hkv]; exact hx⟩)) w
          rw [hr.only.filled] at hres
          refine hres ?_
          rw [hr.only.cfg]
          by_cases hp : (s.cfg e).policy = .any
          · rw [if_pos hp] at hw ⊢
            have hbe : b ≠ e := fun hx => hany hx hp
            have hvh : v = h := by
              rcases hwant v hvm with hx | hx | hx
              · exact absurd (Option.some.inj (hvb.symm.trans hx)) hbe
              · rw [hvb] at hx; simp at hx
              · exact hx.1
            have hcs : ((k0 :: rest).erase v).filter (fun k =>
                (s.placeOffer b v).2.wanted (d ++ (s.placeOffer b v).1.toList) k == some e) =
                (k0 :: rest).filter fun k => s.wanted d k == some e := by
              rw [hnd.erase_eq_filter, List.filter_filter]
              refine List.filter_congr fun k hk => ?_
              by_cases hkv : k = v
              · subst hkv
                simp [hvb, hbe]
              · rcases hwant k hk with hx | hx | hx
                · simp [hkv, hx, hkeep k hkv hx]
                · simp [hx, hnone k hkv hx]
                · exact absurd (hx.1.trans hvh.symm) hkv
            rw [hcs, arbitrate_congr (s := s), hw]
            · intro k hk
              refine hslot k fun hx => ?_
              have := (List.mem_filter.mp hk).2
              rw [hx, hvb] at this
              exact hbe (by simpa using this)
            · intro k
              have hc : (s.placeOffer b v).2.ctx k = s.ctx k := by rw [hr.only.1]; rfl
              have hu : (s.placeOffer b v).2.viewOf k = s.viewOf k := by rw [hr.only.1]; rfl
              unfold State.viewLevel
              rw [hc, hu]
            · rw [hr.only.1]
          · rw [if_neg hp]
            refine List.mem_filter.mpr ⟨(List.mem_erase_of_ne (Ne.symm hvw)).mpr hmem.1, ?_⟩
            rw [hkeep w (Ne.symm hvw) hmem.2]
            simp

/-- The hosts of an entry's news are those that are eligible; the ones that want it are its candidates. -/
theorem hostsFor_wants (s : State) (e : Source) : ((s.hostsFor e).filter fun k => s.wants e k) = s.candidates e := by
  rw [candidates_eq, State.hostsFor, List.filter_filter]
  refine List.filter_congr fun k _ => ?_
  unfold State.wants
  cases s.eligible e k <;> simp [Bool.and_comm]

theorem offerNews_eq (s : State) (e : Source) : s.offerNews e = newsLoop newsRounds [e] s :=
  (OffersOnly.newsLoop newsRounds [e] s).withOffers

/-- After an entry's news no choice is left open that was not, but at hosts allowed an empty slot and at those left aside. -/
theorem offerNews_met {A : HostId → Prop} {s : State} {e : Source} (hl : LevelsOk s) (hi : InOrder s)
    (hs : MetOver E s fun k f => ¬A k ∧ f ≠ e) : LevelsOk (s.offerNews e) ∧ MetOver E (s.offerNews e) (fun k _ => ¬A k) := by
  rw [offerNews_eq]
  obtain ⟨⟨d, h1⟩, h2⟩ := newsLoop_settles A 15 newsRounds (fun _ _ => le_refl _) [e] s hl hi
    (by unfold newsRounds; simp only [List.length_singleton]; omega)
    (fun k hk f hf he => hs k hk f ⟨hf.1, by simpa using hf.2⟩ he) (fun f _ => by omega)
  exact ⟨h1.levels, h2⟩

/-- The hosts that seek an entry are those of its news that want it. -/
theorem seekers_eq (s : State) (e : Source) :
    s.seekers e = (s.hostsFor e).filter fun k => s.wanted [] k == some e := by
  unfold State.seekers
  rw [← hostsFor_wants, List.filter_filter]
  refine List.filter_congr fun k _ => ?_
  rw [Bool.eq_iff_iff]
  simp only [Bool.and_eq_true, decide_eq_true_eq, beq_iff_eq]
  constructor
  · rintro ⟨hb, hw⟩
    obtain ⟨heo, he, hbest⟩ := hb
    cases hx : s.wanted [] k with
    | none => exact absurd (wanted_none hx heo he (by simp)) ((wants_iff he).mp hw)
    | some b =>
      obtain ⟨hbo, hbe, -, -, hbb⟩ := wanted_some hx
      rw [best_unique hbo (hbb e heo he (by simp)) (hbest b hbo hbe)]
  · intro hx
    obtain ⟨hbo, hbe, -, hlo, hbb⟩ := wanted_some hx
    refine ⟨⟨hbo, hbe, fun f hf he => hbb f hf he (by simp)⟩, (wants_iff hbe).mpr ?_⟩
    rintro ⟨o, ho, hle⟩
    exact absurd (lt_of_le_of_lt hle (hlo o ho)) (lt_irrefl _)

/-- The news of an entry while host h's own choice is open (R68, R103, R104). -/
theorem offerNews_shared (s : State) (h : HostId) (e : Source) : NewsShared s h e (s.offerNews e) := by
  have hstep : s.offerNews e = newsLoop 64 (settle 4 (s.hostsFor e) [] s).1 (settle 4 (s.hostsFor e) [] s).2 := by
    rw [offerNews_eq]; rfl
  refine ⟨(settle 4 (s.hostsFor e) [] s).2, .settle 4 _ [] s hostsFor_waits, ?_, fun ⟨hset, hl, hi, ho⟩ w hw => ?_⟩
  · rw [hstep]
    exact .newsLoop _ _ _
  · rw [seekers_eq] at hw
    refine settle_gives (h := h) 4 (s.hostsFor e) [] s (le_trans (List.length_filter_le _ _) (by decide))
      (List.Nodup.filter _ (by decide)) hostsFor_waits hl hi (fun k hk => ?_) w hw
    by_cases hkh : k = h
    · exact .inr (.inr ⟨hkh, hkh ▸ ho⟩)
    · rw [wanted_news hi (by simp) fun f hf _ he => hset k hkh (hostsFor_waits k hk) f hf he]
      by_cases hx : s.wants e k = true <;> simp [hx]

/-- The news of an entry, as the manual says it (R67 rows 1 and 2, R68, R69, R103, R104). -/
theorem offerNews_newsTaken (s : State) (e : Source) : NewsTaken s e (s.offerNews e) := by
  refine ⟨offerNews_offersOnly s e, fun ⟨hsb, hl, hi⟩ => ?_⟩
  have hlen : (s.hostsFor e).length ≤ 4 := le_trans (List.length_filter_le _ _) (by decide)
  have hset : ∀ k, s.choiceWaits k = false → ∀ f, f ≠ e → f ∉ ([] : List Source) → s.eligible f k = true → Covers s k f :=
    fun k hk f hfe _ he => hsb k hk f (by simpa using hfe) he
  obtain ⟨d, h1, h2, h3⟩ := settle_item (E := fun _ => False) (A := fun _ => False) (rest := []) (bound := (s.cfg e).level.val) hl hi
    (fun _ ha => ha.elim) (fun k hk f hf he => .inl (hset k hk f (by simpa using hf.2) (by simp) he)) (by simp)
  set t := (settle 4 (s.hostsFor e) [] s).2 with ht
  have hstep : newsLoop newsRounds [e] s = newsLoop 64 d t := by
    change newsLoop 64 ([] ++ (settle 4 (s.hostsFor e) [] s).1) (settle 4 (s.hostsFor e) [] s).2 = _
    rw [h1, List.nil_append]
  obtain ⟨⟨d', h4⟩, h5⟩ := newsLoop_settles (E := fun _ => False) (fun _ => False) ((s.cfg e).level.val - 1) 64
    (fun _ ha => ha.elim) d t h2.levels (h2.only.inOrder hi) (by have := h2.heavier; omega) (by simpa using h3)
    (fun f hf => by have := h2.below f hf; rw [h2.only.cfg]; omega)
  rw [offerNews_eq, hstep]
  have h5 : SettledOver (newsLoop 64 d t) (fun _ => true) := fun k hk f _ he =>
    (h5 k hk f not_false he).resolve_right fun hx => hx.1
  refine ⟨fun hc => ?_, fun w hw => ?_, h5⟩
  · have hidle : settle 4 (s.hostsFor e) [] s = ([], s) := settle_idle 4 _ _ _ fun k hk => by
      rw [wanted_news (e := e) hi (by simp) (hset k (hostsFor_waits k hk)), if_neg]
      intro hx
      have : k ∈ s.candidates e := by rw [← hostsFor_wants]; exact List.mem_filter.mpr ⟨hk, hx⟩
      rw [hc] at this
      simp at this
    have hts : t = s := by rw [ht, hidle]
    have hd : d = [] := by rw [← h1, hidle]
    rw [hd, hts]
    rfl
  · have hwant : ∀ k ∈ s.hostsFor e, s.wanted [] k = if s.wants e k = true then some e else none := fun k hk =>
      wanted_news hi (by simp) (hset k (hostsFor_waits k hk))
    have hcs : s.candidates e = (s.hostsFor e).filter fun k => s.wanted [] k == some e := by
      rw [← hostsFor_wants]
      refine List.filter_congr fun k hk => ?_
      rw [hwant k hk]
      by_cases hx : s.wants e k = true <;> simp [hx]
    have hz : (s.cfg e).level.val ≠ 0 := by
      have hm : w ∈ s.candidates e := by
        split at hw
        · exact arbitrate_mem hw
        · exact hw
      rw [← hostsFor_wants] at hm
      have he := wants_eligible (List.mem_filter.mp hm).2
      unfold State.eligible at he
      simp only [Bool.and_eq_true, decide_eq_true_eq] at he
      have : (s.viewLevel w).val < (s.cfg e).level.val := he.1.1.1.2
      omega
    rw [hcs] at hw
    obtain ⟨hs, ho⟩ := settle_gives (h := 0) 4 (s.hostsFor e) [] s hlen (List.Nodup.filter _ (by decide)) hostsFor_waits hl hi
      (fun k hk => by
        rw [hwant k hk]
        by_cases hx : s.wants e k = true <;> simp [hx]) w hw
    rcases h4.slots w with ⟨hx, hy⟩ | ⟨o, -, hle, hlt⟩ | hx
    · exact ⟨hx.trans hs, by rw [hy]; exact ho⟩
    · exfalso
      have := hlt (s.offerOf e) (by rw [hs, filled_eq]; rfl)
      have h' : (s.cfg e).level.val < o.level.val := this
      omega
    · exact hx.1.elim

/-! ### The choice for one host -/

/-- The choice for one host alone is one offer or none (R103). -/
theorem settle_one (s : State) (h : HostId) :
    settle 4 [h] [] s =
      match s.wanted [] h with
      | none => ([], s)
      | some b => ((s.placeOffer b h).1.toList, (s.placeOffer b h).2) := by
  unfold settle
  cases hb : s.wanted [] h with
  | none => rfl
  | some b =>
    simp only
    obtain ⟨hm, -, -⟩ := settle_winner (rest := []) hb
    have hwin := List.mem_singleton.mp hm
    rw [hwin]
    simp [settle]

/-- The choice for a host is one claim on its slot, and the news of the entry displaced. -/
theorem choose_eq {s : State} {h : HostId} (hw : s.choiceWaits h = false) :
    s.choose h = newsLoop newsRounds (settle 4 [h] [] s).1 (settle 4 [h] [] s).2 := by
  have honly := OffersOnly.settle 4 [h] [] s (by simpa using hw)
  unfold State.choose
  rw [if_neg (by simp [hw])]
  exact (honly.trans (.newsLoop newsRounds (settle 4 [h] [] s).1 _)).withOffers

/-- A slot that holds what the choice wants, or what it held where the choice wants nothing, is as the choice makes it (R67, R69). -/
theorem choiceFor_of_wanted {s t : State} {h : HostId} (hn : s.wanted [] h = none → t.slot h = s.slot h)
    (hb : ∀ b, s.wanted [] h = some b → t.slot h = s.filled h b) : ChoiceFor s t h := by
  cases hw : s.wanted [] h with
  | none =>
    refine ⟨fun _ => hn hw, fun e ⟨heo, he, _⟩ => ?_⟩
    obtain ⟨o, ho, hle⟩ := wanted_none hw heo he (by simp)
    refine ⟨fun hx => by rw [hx] at ho; simp at ho, fun q hq => ⟨fun hlt => ?_, fun _ => hn hw⟩⟩
    have : o = q := Option.some.inj (ho.symm.trans hq)
    subst this
    exact absurd (lt_of_le_of_lt hle hlt) (lt_irrefl _)
  | some b =>
    have hfin := hb b hw
    obtain ⟨hbo, hbe, -, hlo, hbest⟩ := wanted_some hw
    refine ⟨fun hx => by simp [hx b hbo] at hbe, fun e ⟨heo, he, hebest⟩ => ?_⟩
    have heb : e = b := best_unique heo (hebest b hbo hbe) (hbest e heo he (by simp))
    subst heb
    exact ⟨fun _ => hfin, fun o ho => ⟨fun _ => hfin, fun hle =>
      absurd (lt_of_le_of_lt hle (hlo o ho)) (lt_irrefl _)⟩⟩

/-- What the choice for a host does in any state (R67, R69, R87 step 2). -/
theorem choose_chooses (s : State) (h : HostId) : Chooses s h (s.choose h) := by
  refine ⟨fun hw => by unfold State.choose; rw [if_pos hw], fun hw => ?_⟩
  refine ⟨(settle 4 [h] [] s).2, .settle 4 [h] [] s (by simpa using hw), choiceFor_of_wanted (fun hn => ?_) (fun b hb => ?_),
    fun k hk => ?_, ?_, fun hx => ?_⟩
  · rw [settle_one, hn]
  · rw [settle_one, hb]
    exact (placeOffer_slot s b h h).trans (if_pos rfl)
  · rw [settle_one]
    cases s.wanted [] h with
    | none => rfl
    | some b => exact (placeOffer_slot s b h k).trans (if_neg hk)
  · rw [choose_eq hw]
    exact .newsLoop _ _ _
  · have hd : (settle 4 [h] [] s).1 = [] := by
      cases hb : s.wanted [] h with
      | none => rw [settle_one, hb]
      | some b =>
        simp only [settle_one, hb, placeOffer_fst] at hx ⊢
        rcases hx with hx | hx
        · rw [hx]; rfl
        · rw [placeOffer_slot, if_pos rfl, filled_eq] at hx
          have hlo := (wanted_some hb).2.2.2.1 (s.offerOf b) (by rw [← hx]; rfl)
          exact absurd hlo (lt_irrefl _)
    rw [choose_eq hw, hd]
    rfl

/-- After the offer that a choice wants, what is open besides what was is the news of the entry displaced. -/
theorem place_leaves {s : State} {b : Source} {h : HostId} (hb : s.wanted [] h = some b)
    (hw : s.choiceWaits h = false) (hl : LevelsOk s) (hi : InOrder s)
    (hs : MetOver E s fun k _ => k ≠ h) :
    MetOver E (s.placeOffer b h).2 (fun _ f => ¬False ∧ f ∉ (s.placeOffer b h).1.toList) := fun k hk f hf he => by
  obtain ⟨-, -, -, hlo, hbest⟩ := wanted_some hb
  have hr := Ran.place (E := E) hl hw hlo
  rw [hr.only.choiceWaits] at hk
  have hes := hr.fewer f k hf.2 he
  by_cases hkh : k = h
  · subst hkh
    refine .inl ⟨s.offerOf b, by rw [placeOffer_slot, if_pos rfl, filled_eq]; rfl, ?_⟩
    rw [hr.only.cfg]
    rcases hbest f (hi f (eligible_delivering hes)) hes (by simp) with hlt | ⟨heq, -⟩
    · exact le_of_lt hlt
    · exact le_of_eq heq
  · exact place_met hb hw hi (by simp) hes (hs k hk f hkh hes)

/-- One offer displaces one entry at most. -/
theorem placeOffer_length (s : State) (b : Source) (h : HostId) : (s.placeOffer b h).1.toList.length ≤ 1 := by
  cases (s.placeOffer b h).1 <;> simp

/-- The choice for a host leaves no choice open, if none was but its own. -/
theorem choose_leaves {s : State} {h : HostId} (hw : s.choiceWaits h = false) (hl : LevelsOk s) (hi : InOrder s)
    (hs : MetOver E s fun k _ => k ≠ h) : LevelsOk (s.choose h) ∧ MetOver E (s.choose h) (fun _ _ => True) := by
  rw [choose_eq hw, settle_one]
  cases hb : s.wanted [] h with
  | none =>
    refine ⟨hl, fun k hk f _ he => ?_⟩
    by_cases hkh : k = h
    · subst hkh; exact .inl (wanted_none hb (hi f (eligible_delivering he)) he (by simp))
    · exact hs k hk f hkh he
  | some b =>
    have hr := Ran.place (E := E) hl hw (wanted_some hb).2.2.2.1
    obtain ⟨⟨d, h4⟩, h5⟩ := newsLoop_settles (fun _ => False) 15 newsRounds (fun _ _ => le_refl _) _ _ hr.levels
      (hr.only.inOrder hi) (by have := placeOffer_length s b h; unfold newsRounds; omega) (place_leaves hb hw hl hi hs)
      (fun f _ => by omega)
    exact ⟨h4.levels, fun k hk f _ he => h5 k hk f not_false he⟩

/-- The choice for a host, where every other host's choice is settled or its slot is empty and allowed so, fills the slot with the
best entry, if that stands above what the slot holds (R67, R69), and leaves no choice open that was not. -/
theorem choose_choiceFor {s : State} {h : HostId} (hw : s.choiceWaits h = false) (hl : LevelsOk s) (hi : InOrder s)
    (hs : MetOver E s fun k _ => k ≠ h) :
    ChoiceFor s (s.choose h) h ∧ LevelsOk (s.choose h) ∧ MetOver E (s.choose h) (fun _ _ => True) := by
  obtain ⟨hlev, hmet⟩ := choose_leaves hw hl hi hs
  refine ⟨choiceFor_of_wanted (fun hn => ?_) (fun b hb => ?_), hlev, hmet⟩
  · rw [choose_eq hw, settle_one, hn]
    rfl
  · obtain ⟨-, hbe, -, hlo, -⟩ := wanted_some hb
    rw [choose_eq hw, settle_one, hb]
    have hr := Ran.place (E := E) hl hw hlo
    simp only
    set t := (s.placeOffer b h).2 with ht
    set d := (s.placeOffer b h).1.toList with hd
    have hslot : t.slot h = s.filled h b := by rw [ht, placeOffer_slot, if_pos rfl]
    have hz : (s.cfg b).level.val ≠ 0 := by
      unfold State.eligible at hbe
      simp only [Bool.and_eq_true, decide_eq_true_eq] at hbe
      have : (s.viewLevel h).val < (s.cfg b).level.val := hbe.1.1.1.2
      omega
    obtain ⟨⟨d', h4⟩, -⟩ := newsLoop_settles (fun _ => False) ((s.cfg b).level.val - 1) newsRounds (fun _ ha => ha.elim) d t
      hr.levels (hr.only.inOrder hi)
      (by have h1 : d.length ≤ 1 := placeOffer_length s b h; unfold newsRounds; omega)
      (place_leaves hb hw hl hi hs) (fun f hf => by have := hr.below f hf; rw [hr.only.cfg]; omega)
    rcases h4.slots h with ⟨hx, -⟩ | ⟨o, -, hle, hlt⟩ | ⟨-, hn⟩
    · exact hx.trans hslot
    · exfalso
      have := hlt (s.offerOf b) (by rw [hslot, filled_eq]; rfl)
      have h' : (s.cfg b).level.val < o.level.val := this
      omega
    · rw [hslot, filled_eq] at hn; simp at hn

end Sys2Proof.Machine
end

