-- ==== Sys2Proof/Laws/Claims.lean ====
section
/-! SUPPORT. What the shared operations over claims and notices do: the next handed claim, the hand-over of a session's end, the
notices. -/

namespace Sys2Proof.Machine

/-! ### The next handed claim -/

/-- The search for the next handed claim: `seen` is what has been passed over, last first. -/
theorem pickHanded_some {p : Handed → Bool} {seen l : List Handed} {x : Handed} {rest : List Handed} :
    pickHanded p seen l = some (x, rest) ↔
      ∃ before after : List Handed, l = before ++ x :: after ∧ rest = seen.reverse ++ before ++ after ∧ p x = true ∧
        (∀ y ∈ before, p y = false) ∧ ∀ y, y ∈ seen ∨ y ∈ before → y.before x = false := by
  induction l generalizing seen with
  | nil => simp [pickHanded]
  | cons z zs ih =>
    by_cases hz : p z = true
    · simp only [pickHanded, hz, if_true]
      constructor
      · intro h
        split at h
        · simp at h
        · rename_i hs
          simp only [Option.some.injEq, Prod.mk.injEq] at h
          obtain ⟨rfl, rfl⟩ := h
          refine ⟨[], zs, by simp, by simp, hz, by simp, fun y hy => ?_⟩
          simp only [List.any_eq_true, not_exists, not_and, Bool.not_eq_true] at hs
          simpa using hs y (by simpa using hy)
      · rintro ⟨before, after, hl, hr, hx, hb, ho⟩
        cases before with
        | nil =>
          simp only [List.nil_append, List.cons.injEq] at hl
          obtain ⟨rfl, rfl⟩ := hl
          rw [if_neg]
          · simp [hr]
          · simp only [List.any_eq_true, not_exists, not_and, Bool.not_eq_true]
            exact fun y hy => ho y (.inl hy)
        | cons b bs =>
          simp only [List.cons_append, List.cons.injEq] at hl
          have := hb b (by simp)
          rw [← hl.1, hz] at this
          simp at this
    · have hzf : p z = false := by simpa using hz
      simp only [pickHanded, hzf, Bool.false_eq_true, if_false]
      rw [ih]
      constructor
      · rintro ⟨before, after, hl, hr, hx, hb, ho⟩
        refine ⟨z :: before, after, by simp [hl], by simp [hr], hx, ?_, fun y hy => ho y ?_⟩
        · intro y hy
          rcases List.mem_cons.mp hy with rfl | hy
          · exact hzf
          · exact hb y hy
        · simp only [List.mem_cons] at hy ⊢; tauto
      · rintro ⟨before, after, hl, hr, hx, hb, ho⟩
        cases before with
        | nil =>
          simp only [List.nil_append, List.cons.injEq] at hl
          rw [← hl.1, hzf] at hx
          simp at hx
        | cons b bs =>
          simp only [List.cons_append, List.cons.injEq] at hl
          obtain ⟨rfl, hl⟩ := hl
          refine ⟨bs, after, hl, by simp [hr], hx, fun y hy => hb y (by simp [hy]), fun y hy => ho y ?_⟩
          simp only [List.mem_cons] at hy ⊢; tauto

/-- What taking a handed claim answers: the next one that passes the test, and the state without it (log 2). -/
theorem takeHanded_some {s : State} {h : HostId} {p : Handed → Bool} {x : Handed} {t : State} :
    s.takeHanded h p = some (x, t) ↔ ∃ rest, NextHanded s h p x rest ∧ t = s.setHanded h rest := by
  unfold State.takeHanded
  constructor
  · intro hx
    simp only [Option.map_eq_some_iff, Prod.mk.injEq] at hx
    obtain ⟨⟨y, rest⟩, hy, rfl, rfl⟩ := hx
    obtain ⟨before, after, hl, hr, hp, hb, ho⟩ := pickHanded_some.mp hy
    exact ⟨rest, ⟨hp, before, after, hl, by simpa using hr, fun z hz => ⟨hb z hz, ho z (.inr hz)⟩⟩, rfl⟩
  · rintro ⟨rest, ⟨hp, before, after, hl, hr, hb⟩, rfl⟩
    have hx : pickHanded p [] (s.handedOf h) = some (x, rest) :=
      pickHanded_some.mpr ⟨before, after, hl, by simpa using hr, hp, fun y hy => (hb y hy).1,
        fun y hy => (hb y (by simpa using hy)).2⟩
    simp [hx]

/-- With no claim that passes the test there is none to take. -/
theorem takeHanded_none {s : State} {h : HostId} {p : Handed → Bool} (hp : ∀ x ∈ s.handedOf h, p x = false) :
    s.takeHanded h p = none := by
  cases ht : s.takeHanded h p with
  | none => rfl
  | some y =>
    obtain ⟨x, t⟩ := y
    obtain ⟨rest, ⟨hx, before, after, hl, -⟩, -⟩ := takeHanded_some.mp ht
    rw [hp x (by simp [hl])] at hx
    simp at hx

/-! ### The end of a session -/

/-- The entries that a host owes, as R46 step 3 lists them. -/
theorem owedBy_inOrder (s : State) (h : HostId) : OwedInOrder s h (s.owedBy h) := by
  refine ⟨List.Pairwise.filter _ ?_, fun e => ?_⟩
  · exact List.pairwise_lt_finRange 64
  · simp [State.owedBy, allSources, and_assoc]

/-- A session change overtakes a report that is outstanding, and nothing else (R76). -/
theorem overtake_eq (x : LapseClaim) : x.overtake = if x = .reported then .overtaken else x := by
  cases x <;> rfl

/-- What a session's end leaves, as one update (R46, R91). -/
theorem giveBack_eq {s : State} {h : HostId} (hs : (s.slot h).offer = none → (s.slot h).timer = none) :
    s.giveBack h = s.gaveBack h (s.owedBy h) := by
  cases ho : (s.slot h).offer with
  | none =>
    have hslot : put s.ou.slots h { offer := none, timer := none } = s.ou.slots := by
      have : s.slot h = { offer := none, timer := none } := by
        cases hx : s.slot h with
        | mk offer timer =>
          rw [hx] at ho hs
          simp only at ho hs
          rw [ho, hs ho]
      rw [← this]
      exact put_look _ _
    simp only [State.giveBack, State.gaveBack, State.withdrawOffer, State.setView_slot, State.setCtx_slot, ho, hslot]
    simp [State.hand, State.setHanded, State.setTake, State.setUndo, State.setLapse, State.setCtx, State.setView, State.handedOf,
      State.takeOf, State.lapseOf, overtake_eq]
    rfl
  | some o =>
    simp only [State.giveBack, State.gaveBack, State.withdrawOffer, State.setView_slot, State.setCtx_slot, ho]
    simp [State.hand, State.setHanded, State.setTake, State.setUndo, State.setLapse, State.setCtx, State.setView, State.handedOf,
      State.takeOf, State.lapseOf, State.emptySlot, State.setSlot, overtake_eq]
    rfl

/-! ### Notices -/

/-- On an entry other than S63 a notice is handed on. -/
theorem noteOn_ne {e : Source} (he : e ≠ 63) (s : State) (o : Origin) (n : Notice) :
    s.noteOn e o n = s.handNotice o n := by
  simp [State.noteOn, he]

end Sys2Proof.Machine
end

