-- ==== Sys2Proof/Laws/Events.lean ====
section
/-! SUPPORT. What the shared operations on an entry's life can do: latching, delivery, completion, an arrival, a change of level. -/

namespace Sys2Proof.Machine

/-! ### Rest and latching -/

/-- A note touches no entry. -/
theorem noteOn_et (s : State) (e : Source) (o : Origin) (n : Notice) : (s.noteOn e o n).et = s.et := by
  have hf : ∀ (l : List Notice) (t : State), (l.foldl State.takeAppend t).et = t.et := by
    intro l
    induction l with
    | nil => intro t; rfl
    | cons n ns ih => intro t; rw [List.foldl_cons, ih]; rfl
  unfold State.noteOn
  split
  · simp only [State.flushNotices]
    exact hf _ _
  · rfl

/-- A note touches no host context. -/
theorem noteOn_hcu (s : State) (e : Source) (o : Origin) (n : Notice) : (s.noteOn e o n).hcu = s.hcu := by
  have hf : ∀ (l : List Notice) (t : State), (l.foldl State.takeAppend t).hcu = t.hcu := by
    intro l
    induction l with
    | nil => intro t; rfl
    | cons n ns ih => intro t; rw [List.foldl_cons, ih]; rfl
  unfold State.noteOn
  split
  · simp only [State.flushNotices]
    exact hf _ _
  · rfl

/-- The state with another Event Table. -/
def State.withEt (s : State) (x : EventTable) : State := { s with et := x }

/-- A note reads and writes nothing but the notices: it commutes with a change of the Event Table. -/
theorem noteOn_withEt (s : State) (x : EventTable) (e : Source) (o : Origin) (n : Notice) :
    (s.withEt x).noteOn e o n = (s.noteOn e o n).withEt x := by
  have hf : ∀ (l : List Notice) (t : State), l.foldl State.takeAppend (t.withEt x) = (l.foldl State.takeAppend t).withEt x := by
    intro l
    induction l with
    | nil => intro t; rfl
    | cons n ns ih =>
      intro t
      rw [List.foldl_cons, List.foldl_cons]
      exact ih (t.takeAppend n)
  have hfl : (s.withEt x).flushNotices o = (s.flushNotices o).withEt x :=
    hf ((s.claims.notices.filter fun (y : Origin × Notice) => y.1 == o).map Prod.snd)
      { s with claims := { s.claims with notices := s.claims.notices.filter fun (y : Origin × Notice) => y.1 != o } }
  unfold State.noteOn
  split
  · simp only [hfl]
    rfl
  · rfl

/-- A note leaves an entry as it is. -/
@[simp] theorem noteOn_entry (s : State) (e : Source) (o : Origin) (n : Notice) (f : Source) :
    (s.noteOn e o n).entry f = s.entry f := by
  unfold State.entry; rw [noteOn_et]

/-- An IDLE entry whose state part keeps R4's table is at rest already. -/
theorem rested_of_idle {s : State} {e : Source} {c : EntryConfig} (hp : ProgressLaw c (s.prog e))
    (ho : e ∈ s.et.order ↔ (s.prog e).state ≠ .idle) (hi : (s.prog e).state = .idle) : s.rested e = s := by
  obtain ⟨h1, h2, h3, h4, -⟩ := hp
  have hout : (s.prog e).outcome = none := by
    by_contra hne
    rcases h1.mp hne with h | h <;> rw [hi] at h <;> exact absurd h (by decide)
  obtain ⟨hoff, hheld⟩ := h2 (by rw [hi]; decide)
  have howed : (s.prog e).owed = none := by
    by_contra hne
    have := (h3.mp hne).1
    rw [hi] at this
    exact absurd this (by decide)
  have hdec : (s.prog e).decline = none := by
    by_contra hne
    rcases (h4.mp hne).1 with h | h <;> rw [hi] at h <;> exact absurd h (by decide)
  have hprog : (s.prog e).toIdle = s.prog e := by
    unfold Progress.toIdle
    rw [← hi]
    cases hx : s.prog e
    rw [hx] at hout hoff hheld howed hdec
    simp_all
  have hord : s.et.order.erase e = s.et.order := List.erase_of_not_mem fun hm => ho.mp hm hi
  have hput : put s.et.entries e { s.entry e with prog := s.prog e } = s.et.entries := put_look _ _
  unfold State.rested
  rw [hprog, hord]
  change { s with et := { entries := put s.et.entries e { s.entry e with prog := s.prog e }, order := s.et.order } } = s
  rw [hput]

/-- Latching a rested entry with a clear again flag. -/
theorem latch_rested {s : State} {e : Source} (ha : (s.prog e).again = false) :
    (s.rested e).latch e = s.latchedAnew e := by
  have hx : (look s.et.entries e).prog.again = false := ha
  simp [State.rested, State.latch, State.latchedAnew, State.setProg, State.setEntry, State.setOrder, State.entry, State.prog,
    Progress.toIdle, hx]

/-- Latching a rested entry whose again flag has just been cleared (R15). -/
theorem latch_again (s : State) (e : Source) :
    ((s.rested e).setProg e { (s.rested e).prog e with again := false }).latch e = s.latchedAnew e := by
  simp [State.rested, State.latch, State.latchedAnew, State.setProg, State.setEntry, State.setOrder, State.entry, State.prog,
    Progress.toIdle]

/-! ### Delivery -/

/-- The entry's state part of a state that an entry rests in. -/
theorem rested_prog (s : State) (e : Source) : (s.rested e).prog e = (s.prog e).toIdle := by
  simp [State.rested, State.setOrder, State.prog, State.entry, State.setProg, State.setEntry]

/-- Rest from DELIVERING is rest from the state before (R11, R14). -/
theorem startDelivery_toIdle (s : State) (e : Source) (o : Outcome) : (s.startDelivery e o).toIdle e = s.rested e := by
  simp [State.startDelivery, State.toIdle, State.rested, State.setProg, State.setEntry, State.setOrder, State.entry,
    State.prog, Progress.toIdle]

@[simp] theorem rested_cfg (s : State) (e f : Source) : (s.rested e).cfg f = s.cfg f := by
  change (s.setProg e _).cfg f = _
  simp
@[simp] theorem rested_bind (s : State) (e f : Source) : (s.rested e).bind f = s.bind f := by
  change (s.setProg e _).bind f = _
  simp
@[simp] theorem latchedAnew_cfg (s : State) (e f : Source) : (s.latchedAnew e).cfg f = s.cfg f := by
  change (s.setProg e _).cfg f = _
  simp
@[simp] theorem latchedAnew_bind (s : State) (e f : Source) : (s.latchedAnew e).bind f = s.bind f := by
  change (s.setProg e _).bind f = _
  simp
theorem latchedAnew_prog (s : State) (e : Source) :
    (s.latchedAnew e).prog e = { (s.prog e).toIdle with state := .latched, again := false } := by
  change (s.setProg e _).prog e = _
  simp

/-- The level of an entry is read from its kind, the lines and the Notice Queue. -/
theorem levelAsserted_congr {s t : State} {e : Source} (hc : t.cfg e = s.cfg e) (hl : t.lines = s.lines) (hn : t.nq = s.nq) :
    t.levelAsserted e = s.levelAsserted e := by
  unfold State.levelAsserted
  rw [hc, hl, hn]

@[simp] theorem rested_levelAsserted (s : State) (e : Source) : (s.rested e).levelAsserted e = s.levelAsserted e :=
  levelAsserted_congr (by simp) rfl rfl
@[simp] theorem latchedAnew_levelAsserted (s : State) (e : Source) :
    (s.latchedAnew e).levelAsserted e = s.levelAsserted e :=
  levelAsserted_congr (by simp) rfl rfl

@[simp] theorem noteOn_cfg (s : State) (e : Source) (o : Origin) (n : Notice) (f : Source) :
    (s.noteOn e o n).cfg f = s.cfg f := congrArg Entry.cfg (noteOn_entry s e o n f)
@[simp] theorem noteOn_bind (s : State) (e : Source) (o : Origin) (n : Notice) (f : Source) :
    (s.noteOn e o n).bind f = s.bind f := congrArg Entry.bind (noteOn_entry s e o n f)
@[simp] theorem noteOn_prog (s : State) (e : Source) (o : Origin) (n : Notice) (f : Source) :
    (s.noteOn e o n).prog f = s.prog f := congrArg Entry.prog (noteOn_entry s e o n f)

/-- An immediate completion, with what follows a re-latch that is to be delivered once more (R11, R14, R15, R28). -/
def completesOnce (next : State → State × Bool) (e : Source) (t : State) : State × Bool :=
  let t1 := t.toIdle e
  if (t1.prog e).again then
    let t2 := (t1.setProg e { t1.prog e with again := false }).latch e
    if (t2.cfg e).enable && !(t2.prog e).hold then
      if (t2.bind e).armed then (t2.enqueue e, false) else next t2
    else (t2, false)
  else if (t1.cfg e).kind.isLevel && t1.levelAsserted e then
    let t2 := t1.latch e
    (t2.setProg e { t2.prog e with hold := true }, false)
  else (t1, false)

/-- The transition into DELIVERING, one round of it (R11). -/
theorem deliver_eq (n : Nat) (o : Outcome) (e : Source) (s : State) :
    deliver n o e s =
      let next : State → State × Bool := match n with
        | 0 => fun t => (t, false)
        | m + 1 => deliver m .plain e
      let s1 := s.startDelivery e o
      if (s1.cfg e).level = 0 then completesOnce next e s1
      else match (s1.cfg e).policy with
        | .directed => (s1, true)
        | .any => (s1.setProg e { s1.prog e with decline := some 0 }, true)
        | .all =>
          if (s1.cfg e).targets &&& s1.attachedHosts = 0 then
            completesOnce next e (s1.noteOn e (s1.sequenceOf e) (deliveryNotice .undelivered (some e) none))
          else (s1.setProg e { s1.prog e with owed := some ((s1.cfg e).targets &&& s1.attachedHosts) }, true) := by
  cases n <;> rfl

/-- What an immediate completion leaves, from a state that rests as u does. -/
theorem completesOnce_eq {next : State → State × Bool} {e : Source} {t u : State} (ht : t.toIdle e = u.rested e)
    (hh : (u.prog e).hold = false) :
    completesOnce next e t =
      if (u.prog e).again then
        if (u.cfg e).enable then
          if (u.bind e).armed then ((u.latchedAnew e).queuedNow e, false) else next (u.latchedAnew e)
        else (u.latchedAnew e, false)
      else if (u.cfg e).kind.isLevel && u.levelAsserted e then
        ((u.latchedAnew e).setProg e { (u.latchedAnew e).prog e with hold := true }, false)
      else (u.rested e, false) := by
  have hag : ((u.rested e).prog e).again = (u.prog e).again := by rw [rested_prog]; rfl
  have hho : ((u.latchedAnew e).prog e).hold = false := by rw [latchedAnew_prog]; exact hh
  unfold completesOnce
  simp only [ht, hag, latch_again, latchedAnew_cfg, latchedAnew_bind, hho, rested_cfg, rested_levelAsserted, Bool.not_false,
    Bool.and_true]
  by_cases ha : (u.prog e).again = true
  · simp only [ha, if_true]
    rfl
  · simp only [ha, Bool.false_eq_true, if_false]
    rw [latch_rested (by simpa using ha)]

/-- The second delivery of a re-latched event that completes at once (R15): it rests, since its again flag is clear. -/
theorem completesOnce_rest {next : State → State × Bool} {e : Source} {t u : State} (ht : t.toIdle e = u.rested e)
    (hh : (u.prog e).hold = false) (ha : (u.prog e).again = false) (hk : (u.cfg e).kind.isLevel = false) :
    completesOnce next e t = (u.rested e, false) := by
  rw [completesOnce_eq ht hh]
  simp [ha, hk]

/-- Rest after a note from DELIVERING is rest from the noted state before. -/
theorem startDelivery_note_toIdle (s : State) (e : Source) (o : Outcome) (g : Origin) (n : Notice) :
    ((s.startDelivery e o).noteOn e g n).toIdle e = (s.noteOn e g n).rested e := by
  have h := noteOn_withEt s (s.startDelivery e o).et e g n
  have hs : s.withEt (s.startDelivery e o).et = s.startDelivery e o := rfl
  rw [hs] at h
  rw [h]
  have he : (s.noteOn e g n).et = s.et := noteOn_et s e g n
  have hstart : (s.startDelivery e o).et = ((s.noteOn e g n).startDelivery e o).et := by
    simp [State.startDelivery, he, State.entry, State.prog]
  rw [hstart]
  exact startDelivery_toIdle (s.noteOn e g n) e o

theorem setProg_setProg (s : State) (e : Source) (p q : Progress) : (s.setProg e p).setProg e q = s.setProg e q := by
  simp [State.setProg, State.setEntry, State.entry]

theorem startDelivery_setProg (s : State) (e : Source) (o : Outcome) (q : Progress) :
    (s.startDelivery e o).setProg e q = s.setProg e q := setProg_setProg s e _ q

@[simp] theorem startDelivery_cfg (s : State) (e f : Source) (o : Outcome) : (s.startDelivery e o).cfg f = s.cfg f := by
  simp [State.startDelivery]

/-- What the Event Table leaves of an entry that enters DELIVERING, as R11 says it, for an entry without a level hold mark whose again
flag is not a level kind's: whatever holds of the answer holds by cases. -/
theorem deliver_into {s : State} {e : Source} {P : State × Bool → Prop} (o : Outcome) (hh : (s.prog e).hold = false)
    (hk : (s.prog e).again = true → (s.cfg e).kind.isLevel = false) (hP : P (deliver 1 o e s)) :
    DeliversInto s e o (fun u => P (u, false)) fun u => P (u, true) := by
  have hlh : ((s.latchedAnew e).prog e).hold = false := by rw [latchedAnew_prog]; exact hh
  have hla : ((s.latchedAnew e).prog e).again = false := by rw [latchedAnew_prog]
  have hatt : (s.cfg e).targets &&& (s.startDelivery e o).attachedHosts = s.attachedOf (s.cfg e).targets := rfl
  have hprog : (s.startDelivery e o).prog e = (s.prog e).delivering o := by simp [State.startDelivery, Progress.delivering]
  have hseq : (s.startDelivery e o).sequenceOf e = s.sequenceOf e := rfl
  rw [deliver_eq] at hP
  simp only [startDelivery_cfg, hatt, hseq] at hP
  refine ⟨fun hl => ?_, fun hl => ?_, fun hl hp ha => ?_⟩
  · rw [if_pos hl, completesOnce_eq (startDelivery_toIdle s e o) hh] at hP
    refine ⟨fun hag => ⟨fun hx => by simpa [hag, hx] using hP, fun hx => by simpa [hag, hx] using hP⟩,
      fun hag => ⟨fun hen => by simpa [hag, hen] using hP, fun hen har => by simpa [hag, hen, har] using hP, fun hen har => ?_⟩⟩
    simp only [hag, hen, har, if_true, Bool.false_eq_true, if_false] at hP
    rw [deliver_eq] at hP
    simp only [startDelivery_cfg, latchedAnew_cfg, hl, if_true] at hP
    rw [completesOnce_rest (startDelivery_toIdle _ e _) hlh hla (by simpa using hk hag)] at hP
    exact hP
  · rw [if_neg hl] at hP
    refine ⟨fun hp => ?_, fun hp => ?_, fun hp ha => ?_⟩
    · simp only [hp] at hP
      exact hP
    · simp only [hp, hprog, startDelivery_setProg] at hP
      exact hP
    · simp only [hp, if_neg ha, hprog, startDelivery_setProg] at hP
      exact hP
  · simp only [hl, hp, ha, if_false, if_true] at hP
    have hh' : ((s.noteOn e (s.sequenceOf e) (deliveryNotice .undelivered (some e) none)).prog e).hold = false := by simpa using hh
    rw [completesOnce_eq (startDelivery_note_toIdle s e o _ _) hh'] at hP
    refine ⟨fun hag => ⟨fun hx => by rw [hag, hx] at hP; simpa using hP, fun hx => by rw [hag, hx] at hP; simpa using hP⟩,
      fun hag => ⟨fun hen => by rw [hag, hen] at hP; simpa using hP, fun hen har => by rw [hag, hen, har] at hP; simpa using hP,
        fun hen har => ?_⟩⟩
    rw [hag, hen, har] at hP
    simp only [if_true, Bool.false_eq_true, if_false] at hP
    rw [deliver_eq] at hP
    set u := (s.noteOn e (s.sequenceOf e) (deliveryNotice .undelivered (some e) none)).latchedAnew e with hu
    have hcfg : u.cfg e = s.cfg e := by rw [hu]; simp
    have hatt' : (u.startDelivery e .plain).attachedHosts = s.attachedHosts := by
      have hc : (s.noteOn e (s.sequenceOf e) (deliveryNotice .undelivered (some e) none)).hcu = s.hcu := noteOn_hcu _ _ _ _
      unfold State.attachedHosts State.ctx
      have : (u.startDelivery e .plain).hcu = s.hcu := hc
      rw [this]
    have ha' : (s.cfg e).targets &&& s.attachedHosts = 0 := ha
    simp only [startDelivery_cfg, hcfg, hl, hp, hatt', ha', if_false, if_true] at hP
    rw [completesOnce_rest (startDelivery_note_toIdle u e .plain _ _)] at hP
    · exact hP
    · rw [noteOn_prog, hu, latchedAnew_prog]; exact hh'
    · rw [noteOn_prog, hu, latchedAnew_prog]
    · rw [noteOn_cfg, hcfg]; exact hk (by simpa using hag)

/-! ### The other operations on an entry -/

/-- What the Event Table leaves of an entry that leaves LATCHED (R8). -/
theorem leaveLatchedPart_into {s : State} {e : Source} {P : State × Bool → Prop} (hh : (s.prog e).hold = false)
    (hk : (s.prog e).again = true → (s.cfg e).kind.isLevel = false) (hP : P (s.leaveLatchedPart e)) :
    LeavesLatchedInto s e (fun u => P (u, false)) fun u => P (u, true) := by
  unfold State.leaveLatchedPart at hP
  refine ⟨fun ha => by rw [if_pos ha] at hP; exact hP, fun ha => ?_⟩
  rw [if_neg (by simp [ha])] at hP
  exact deliver_into .plain hh hk hP

/-- What the Event Table leaves of an entry that latches and that rests in its state part (R7, R35). -/
theorem latchAndGoPart_into {s t : State} {e : Source} {P : State × Bool → Prop} (ht : t.latch e = s.latchedAnew e)
    (hh : (s.prog e).hold = false) (hP : P (t.latchAndGoPart e)) :
    LatchesInto s e (fun u => P (u, false)) fun u => P (u, true) := by
  have hlh : ((s.latchedAnew e).prog e).hold = false := by rw [latchedAnew_prog]; exact hh
  unfold State.latchAndGoPart at hP
  simp only [ht, latchedAnew_cfg, hlh, Bool.not_false, Bool.and_true] at hP
  refine ⟨fun he => by rw [he] at hP; simpa using hP, fun he => ?_⟩
  rw [if_pos he] at hP
  exact leaveLatchedPart_into hlh (fun ha => by rw [latchedAnew_prog] at ha; simp at ha) hP

/-- What the Event Table leaves of an entry that completes (R14, R15). -/
theorem completePart_into {s : State} {e : Source} {P : State × Bool → Prop} (hh : (s.prog e).hold = false)
    (hP : P (s.completePart e)) : CompletesInto s e (fun u => P (u, false)) fun u => P (u, true) := by
  have hr : s.toIdle e = s.rested e := rfl
  have hag : ((s.rested e).prog e).again = (s.prog e).again := by rw [rested_prog]; rfl
  unfold State.completePart at hP
  simp only [hr, hag, rested_cfg, rested_levelAsserted] at hP
  cases ha : (s.prog e).again with
  | true =>
    refine ⟨fun hx => by rw [ha] at hx; simp at hx, fun _ => ?_⟩
    simp only [ha, if_true] at hP
    exact latchAndGoPart_into (latch_again s e) hh hP
  | false =>
    simp only [ha, Bool.false_eq_true, if_false] at hP
    refine ⟨fun hx => ?_, fun hx => ?_⟩ <;> rw [ha, Bool.false_or] at hx
    · rw [if_neg (by simpa using hx)] at hP
      exact hP
    · rw [if_pos hx] at hP
      exact latchAndGoPart_into (latch_rested ha) hh hP

/-! ### With the news taken -/

/-- A weaker demand on what the Event Table leaves at an immediate completion. -/
theorem CompletesAtOnce.mono {s : State} {e : Source} {f : State → State} {done done' : State → Prop}
    (hd : ∀ u, done u → done' u) (h : CompletesAtOnce s e f done) : CompletesAtOnce s e f done' :=
  ⟨fun ha => ⟨fun hx => hd _ ((h.1 ha).1 hx), fun hx => hd _ ((h.1 ha).2 hx)⟩, fun ha => ⟨fun hx => hd _ ((h.2 ha).1 hx),
    fun hx hy => hd _ ((h.2 ha).2.1 hx hy), fun hx hy => hd _ ((h.2 ha).2.2 hx hy)⟩⟩

/-- A weaker demand on what the Event Table leaves at a delivery. -/
theorem DeliversInto.mono {s : State} {e : Source} {o : Outcome} {done done' news news' : State → Prop}
    (hd : ∀ u, done u → done' u) (hn : ∀ u, news u → news' u) (h : DeliversInto s e o done news) :
    DeliversInto s e o done' news' :=
  ⟨fun hl => (h.1 hl).mono hd, fun hl => ⟨fun hp => hn _ ((h.2.1 hl).1 hp), fun hp => hn _ ((h.2.1 hl).2.1 hp),
    fun hp ha => hn _ ((h.2.1 hl).2.2 hp ha)⟩, fun hl hp ha => (h.2.2 hl hp ha).mono hd⟩

/-- A weaker demand on what the Event Table leaves of an entry that leaves LATCHED. -/
theorem LeavesLatchedInto.mono {s : State} {e : Source} {done done' news news' : State → Prop} (hd : ∀ u, done u → done' u)
    (hn : ∀ u, news u → news' u) (h : LeavesLatchedInto s e done news) : LeavesLatchedInto s e done' news' :=
  ⟨fun ha => hd _ (h.1 ha), fun ha => (h.2 ha).mono hd hn⟩

/-- A weaker demand on what the Event Table leaves of an entry that latches. -/
theorem LatchesInto.mono {s : State} {e : Source} {done done' news news' : State → Prop} (hd : ∀ u, done u → done' u)
    (hn : ∀ u, news u → news' u) (h : LatchesInto s e done news) : LatchesInto s e done' news' :=
  ⟨fun he => hd _ (h.1 he), fun he => (h.2 he).mono hd hn⟩

/-- A weaker demand on what the Event Table leaves of an entry that completes. -/
theorem CompletesInto.mono {s : State} {e : Source} {done done' news news' : State → Prop} (hd : ∀ u, done u → done' u)
    (hn : ∀ u, news u → news' u) (h : CompletesInto s e done news) : CompletesInto s e done' news' :=
  ⟨fun he => hd _ (h.1 he), fun he => (h.2 he).mono hd hn⟩

/-- The news of an entry taken at once (R67). -/
theorem tell_news {e : Source} {u t : State} (h : tell e (u, true) = t) : NewsTaken u e t := h ▸ offerNews_newsTaken u e

/-- The choice after a report, with no news of the entry to come (R87 step 2). -/
theorem tellStack_done (h : HostId) (e : Source) (v : State) : Chooses (v.tellRemoval h e) h (tellStack h e (v, false)) :=
  choose_chooses _ h

/-- The news of the entry after a report, and then the choice (R68, R87, R103). -/
theorem tellStack_news (h : HostId) (e : Source) (v : State) :
    ∃ x : State, NewsTaken (v.tellRemoval h e) e x ∧ NewsShared (v.tellRemoval h e) h e x ∧
      Chooses x h (tellStack h e (v, true)) :=
  ⟨_, offerNews_newsTaken _ e, offerNews_shared _ h e, choose_chooses _ h⟩

/-- After a report no choice is left open, if none was but that for h and, where its news is to come, those for the entry. -/
theorem tellStack_met {E : HostId → Prop} {h : HostId} {e : Source} {v : State} {news : Bool} (hl : LevelsOk (v.tellRemoval h e))
    (hi : InOrder (v.tellRemoval h e)) (hs : MetOver E (v.tellRemoval h e) fun k f => k ≠ h ∧ (news = true → f ≠ e)) :
    LevelsOk (tellStack h e (v, news)) ∧ MetOver E (tellStack h e (v, news)) (fun _ _ => True) := by
  set u := v.tellRemoval h e
  have hx : LevelsOk (tell e (u, news)) ∧ InOrder (tell e (u, news)) ∧ MetOver E (tell e (u, news)) (fun k _ => k ≠ h) := by
    cases news with
    | false => exact ⟨hl, hi, fun k hk f hkh he => hs k hk f ⟨hkh, by simp⟩ he⟩
    | true =>
      obtain ⟨h1, h2⟩ := offerNews_met (A := fun k => k = h) hl hi fun k hk f hf he => hs k hk f ⟨hf.1, fun _ => hf.2⟩ he
      exact ⟨h1, (offerNews_offersOnly u e).inOrder hi, h2⟩
  obtain ⟨h1, h2, h3⟩ := hx
  cases hw : (tell e (u, news)).choiceWaits h with
  | false => exact choose_leaves hw h1 h2 h3
  | true =>
    have : tellStack h e (v, news) = tell e (u, news) := (choose_chooses _ h).1 hw
    rw [this]
    exact ⟨h1, fun k hk f _ he => h3 k hk f (fun hx => by rw [hx, hw] at hk; simp at hk) he⟩

/-- What entering DELIVERING does (R11). -/
theorem enterDelivering_delivers {s : State} {e : Source} (o : Outcome) (hh : (s.prog e).hold = false)
    (hk : (s.prog e).again = true → (s.cfg e).kind.isLevel = false) : Delivers s e o (s.enterDelivering e o) :=
  (deliver_into (P := fun x => tell e x = s.enterDelivering e o) o hh hk rfl).mono (fun _ h => h.symm) fun _ => tell_news

/-- What leaving LATCHED does (R8). -/
theorem leaveLatched_leaves {s : State} {e : Source} (hh : (s.prog e).hold = false)
    (hk : (s.prog e).again = true → (s.cfg e).kind.isLevel = false) : LeavesLatched s e (s.leaveLatched e) :=
  (leaveLatchedPart_into (P := fun x => tell e x = s.leaveLatched e) hh hk rfl).mono (fun _ h => h.symm) fun _ => tell_news

/-- What latching an entry that rests in its state part does (R7, R35). -/
theorem latchAndGo_latches {s t : State} {e : Source} (ht : t.latch e = s.latchedAnew e) (hh : (s.prog e).hold = false) :
    Latches s e (t.latchAndGo e) :=
  (latchAndGoPart_into (P := fun x => tell e x = t.latchAndGo e) ht hh rfl).mono (fun _ h => h.symm) fun _ => tell_news

/-- What completion does (R14, R15). -/
theorem complete_completes {s : State} {e : Source} (hh : (s.prog e).hold = false) : Completes s e (s.complete e) :=
  (completePart_into (P := fun x => tell e x = s.complete e) hh rfl).mono (fun _ h => h.symm) fun _ => tell_news

/-- What an arrival does at an IDLE entry that keeps R4's table (R7). -/
theorem latchAndGo_of_idle {s : State} {e : Source} {c : EntryConfig} (hp : ProgressLaw c (s.prog e))
    (ho : e ∈ s.et.order ↔ (s.prog e).state ≠ .idle) (hi : (s.prog e).state = .idle) : Latches s e (s.latchAndGo e) := by
  have hr := rested_of_idle hp ho hi
  have hl : s.latch e = s.latchedAnew e := by
    conv_lhs => rw [← hr]
    refine latch_rested ?_
    cases ha : (s.prog e).again with
    | false => rfl
    | true => exact absurd hi (hp.2.2.2.2.2.2.2 ha).1
  refine latchAndGo_latches hl ?_
  cases hh : (s.prog e).hold with
  | false => rfl
  | true => rw [hp.2.2.2.2.2.2.1 hh] at hi; exact absurd hi (by decide)

/-- What an arrival at an entry that is not IDLE does (R33, R34). -/
theorem merge_remembers {s : State} {e : Source} (he : e ≠ 63) : Remembers s e (s.merge e) := by
  unfold State.merge
  refine ⟨fun ha => by simp [ha], fun ha => ⟨fun hm => ?_, fun hm hs => ?_, fun hm hs => ?_, fun hm => ?_⟩⟩
  · have h1 : (s.prog e).merged ≠ 255 := fun h => by rw [h] at hm; exact absurd hm (by decide)
    have h2 : (s.prog e).merged + 1 ≠ 255 := fun h => by
      have : (s.prog e).merged = 254 := by
        have := congrArg (fun x : Fin 256 => x - 1) h
        simpa using this
      rw [this] at hm; exact absurd hm (by decide)
    simp [ha, h1, h2]
  · simp [ha, hm, hs]
  · simp [ha, hm, hs, noteOn_ne he]
  · simp [ha, hm]

end Sys2Proof.Machine
end

