-- ==== Sys2Proof/Laws/Requests.lean ====
section
/-! SUPPORT. What the shared operations of a port do: a request that is taken, ignored, lost or held back, the range check of an
operand, and the answer. -/

namespace Sys2Proof.Machine

/-- The state once port h has taken a request: its lost flag is clear (R170). -/
def State.taken (s : State) (h : HostId) : State := s.setPort h { s.port h with lost := false }

@[simp] theorem State.taken_lines (s : State) (h : HostId) : (s.taken h).lines = s.lines := rfl
@[simp] theorem State.taken_et (s : State) (h : HostId) : (s.taken h).et = s.et := rfl
@[simp] theorem State.taken_hcu (s : State) (h : HostId) : (s.taken h).hcu = s.hcu := rfl
@[simp] theorem State.taken_ou (s : State) (h : HostId) : (s.taken h).ou = s.ou := rfl
@[simp] theorem State.taken_du (s : State) (h : HostId) : (s.taken h).du = s.du := rfl
@[simp] theorem State.taken_mp (s : State) (h : HostId) : (s.taken h).mp = s.mp := rfl
@[simp] theorem State.taken_wt (s : State) (h : HostId) : (s.taken h).wt = s.wt := rfl
@[simp] theorem State.taken_nq (s : State) (h : HostId) : (s.taken h).nq = s.nq := rfl
@[simp] theorem State.taken_tb (s : State) (h : HostId) : (s.taken h).tb = s.tb := rfl
@[simp] theorem State.taken_pins (s : State) (h : HostId) : (s.taken h).pins = s.pins := rfl
@[simp] theorem State.taken_claims (s : State) (h : HostId) : (s.taken h).claims = s.claims := rfl
@[simp] theorem State.taken_freeCount (s : State) (h : HostId) : (s.taken h).freeCount = s.freeCount := rfl
@[simp] theorem State.taken_pending (s : State) (h : HostId) : (s.taken h).pending = s.pending := rfl
@[simp] theorem State.taken_ports (s : State) (h : HostId) :
    (s.taken h).ports = put s.ports h { s.port h with lost := false } := rfl
@[simp] theorem State.taken_entry (s : State) (h : HostId) (f : Source) : (s.taken h).entry f = s.entry f := rfl
@[simp] theorem State.taken_cfg (s : State) (h : HostId) (f : Source) : (s.taken h).cfg f = s.cfg f := rfl
@[simp] theorem State.taken_bind (s : State) (h : HostId) (f : Source) : (s.taken h).bind f = s.bind f := rfl
@[simp] theorem State.taken_prog (s : State) (h : HostId) (f : Source) : (s.taken h).prog f = s.prog f := rfl
@[simp] theorem State.taken_ctx (s : State) (h : HostId) (k : HostId) : (s.taken h).ctx k = s.ctx k := rfl
@[simp] theorem State.taken_slot (s : State) (h : HostId) (k : HostId) : (s.taken h).slot k = s.slot k := rfl
@[simp] theorem State.taken_channel (s : State) (h : HostId) (k : ChannelId) : (s.taken h).channel k = s.channel k := rfl
@[simp] theorem State.taken_desc (s : State) (h : HostId) (k : DescId) : (s.taken h).desc k = s.desc k := rfl
@[simp] theorem State.taken_windows (s : State) (h : HostId) (k : HostId) : (s.taken h).windows k = s.windows k := rfl
@[simp] theorem State.taken_handedOf (s : State) (h : HostId) (k : HostId) : (s.taken h).handedOf k = s.handedOf k := rfl
@[simp] theorem State.taken_takeOf (s : State) (h : HostId) (k : HostId) : (s.taken h).takeOf k = s.takeOf k := rfl
@[simp] theorem State.taken_lapseOf (s : State) (h : HostId) (k : HostId) : (s.taken h).lapseOf k = s.lapseOf k := rfl
@[simp] theorem State.taken_undoOf (s : State) (h : HostId) (k : HostId) : (s.taken h).undoOf k = s.undoOf k := rfl
@[simp] theorem State.taken_level (s : State) (h : HostId) (k : HostId) : (s.taken h).level k = s.level k := rfl
@[simp] theorem State.taken_choiceWaits (s : State) (h : HostId) (k : HostId) : (s.taken h).choiceWaits k = s.choiceWaits k := rfl
@[simp] theorem State.taken_givingBack (s : State) (h : HostId) (k : HostId) : (s.taken h).givingBack k = s.givingBack k := rfl
@[simp] theorem State.taken_levelAsserted (s : State) (h : HostId) (f : Source) : (s.taken h).levelAsserted f = s.levelAsserted f := rfl
@[simp] theorem State.taken_carried (s : State) (h : HostId) (f : Source) : (s.taken h).carried f = s.carried f := rfl
@[simp] theorem State.taken_owedBy (s : State) (h : HostId) (k : HostId) : (s.taken h).owedBy k = s.owedBy k := rfl
@[simp] theorem State.taken_entryRecord (s : State) (h : HostId) (f : Source) : (s.taken h).entryRecord f = s.entryRecord f := rfl
@[simp] theorem State.taken_offerView (s : State) (h : HostId) (k : HostId) : (s.taken h).offerView k = s.offerView k := rfl
@[simp] theorem State.taken_hostRecord (s : State) (h : HostId) (k : HostId) : (s.taken h).hostRecord k = s.hostRecord k := rfl
@[simp] theorem State.taken_stage (s : State) (h : HostId) : ((s.taken h).port h).stage = (s.port h).stage := by
  simp [State.taken]
@[simp] theorem State.taken_waiting (s : State) (h : HostId) : ((s.taken h).port h).waiting = (s.port h).waiting := by
  simp [State.taken]
theorem State.taken_port_self (s : State) (h : HostId) : (s.taken h).port h = { s.port h with lost := false } := by
  simp [State.taken]
@[simp] theorem State.taken_setPort (s : State) (h : HostId) (p : Port) : (s.taken h).setPort h p = s.setPort h p := by
  simp [State.taken, State.setPort]
@[simp] theorem State.taken_holdsRight (s : State) (h k : HostId) (r : Right) :
    (s.taken h).holdsRight k r = s.holdsRight k r := by
  cases r <;> rfl

/-- The answer of a request that has been taken, as one update of the port. -/
@[simp] theorem State.taken_answer (s : State) (h : HostId) (code : Operand) (r : ResultCode) :
    (s.taken h).answer h code r = s.answered h code r := by
  simp [State.taken, State.answer, State.answered, State.setPort, State.port]

/-- The answer with a record, as one update of the port. -/
@[simp] theorem State.taken_answerRecord (s : State) (h : HostId) (code : Operand) (w : Table Word 8) :
    (s.taken h).answerRecord h code w = s.answeredWith h code w := by
  simp [State.taken, State.answerRecord, State.answeredWith, State.setPort, State.port]

/-- A request that the port takes runs its checks and then its body (R170, R171). -/
theorem request_taken {s : State} {h : HostId} (hp : PortTakes s h) (code : Operand) (right : Right) (ns : Bool)
    (body : State → State) :
    request h code right ns body s = .next
      (if s.holdsRight h right = false then s.answered h code .rights
       else if ns = true ∧ (s.ctx h).session = .detached then s.answered h code .detached
       else body (s.taken h)) := by
  obtain ⟨h1, h2, h3, h4⟩ := hp
  unfold request
  rw [if_neg (by simp [h1, h2]), if_neg (by simp [h3]), if_neg (by simp [h4])]
  change Host.Outcome.next (if (!(s.taken h).holdsRight h right) = true then (s.taken h).answer h code .rights
    else if (ns && ((s.taken h).ctx h).session == .detached) = true then (s.taken h).answer h code .detached
    else body (s.taken h)) = _
  simp

/-- With the right and the session it needs, a request that the port takes does what its body does. -/
theorem request_runs {s : State} {h : HostId} (hp : PortTakes s h) {code : Operand} {right : Right} {ns : Bool}
    {body : State → State} (hr : s.holdsRight h right = true) (hs : ns = true → (s.ctx h).session ≠ .detached) :
    request h code right ns body s = .next (body (s.taken h)) := by
  rw [request_taken hp, if_neg (by simp [hr]), if_neg (fun hx => hs hx.1 hx.2)]

/-- Every host holds the right that a request without one needs. -/
@[simp] theorem holdsRight_none (s : State) (h : HostId) : s.holdsRight h .none = true := rfl

/-- The supervisor holds every right (R49). -/
theorem holdsRight_supervisor {s : State} {h : HostId} (hs : s.hcu.supervisor = h) (r : Right) :
    s.holdsRight h r = true := by
  cases r <;> simp [State.holdsRight, hs]

/-- A request while RESET_n or the host's HRST_n is low is ignored (R59, R168). -/
theorem request_ignored {s : State} {h : HostId} (hp : s.pins.resetLow = true ∨ hasHost s.pins.hrst h = true)
    (code : Operand) (right : Right) (ns : Bool) (body : State → State) : request h code right ns body s = .next s := by
  rcases hp with hp | hp <;> simp [request, hp]

/-- A request at a WORKING port sets the lost flag and nothing else (R175). -/
theorem request_lost {s : State} {h : HostId} (h1 : s.pins.resetLow = false) (h2 : hasHost s.pins.hrst h = false)
    (h3 : (s.port h).working = true) (code : Operand) (right : Right) (ns : Bool) (body : State → State) :
    request h code right ns body s = .next (s.setPort h { s.port h with lost := true }) := by
  simp [request, h1, h2, h3]

/-- A request at a port whose last bus write is held back is refused (log 10). -/
theorem request_held {s : State} {h : HostId} (h1 : s.pins.resetLow = false) (h2 : hasHost s.pins.hrst h = false)
    (h3 : (s.port h).working = false) (h4 : (s.port h).waiting ≠ none) (code : Operand) (right : Right) (ns : Bool)
    (body : State → State) : request h code right ns body s = .refused .busHeld := by
  simp [request, h1, h2, h3, Option.isSome_iff_ne_none.mpr h4]

/-- The range check passes an operand that names an object (R171 check 4). -/
theorem withIndex_val {n : Nat} {x : Operand} {i : Fin n} (hx : x.toNat = i.val) (h : HostId) (code : Operand)
    (body : Fin n → State → State) (s : State) : withIndex n h code x body s = body i s := by
  have hlt : x.toNat < n := by omega
  have hi : (⟨x.toNat, hlt⟩ : Fin n) = i := Fin.ext hx
  simp [withIndex, hlt, hi]

/-- The range check answers RANGE for an operand that names no object (R171 check 4). -/
theorem withIndex_range {n : Nat} {x : Operand} (hx : n ≤ x.toNat) (h : HostId) (code : Operand)
    (body : Fin n → State → State) (s : State) : withIndex n h code x body s = s.answer h code .range := by
  have hlt : ¬x.toNat < n := by omega
  simp [withIndex, hlt]

end Sys2Proof.Machine
end

