-- ==== Sys2Proof/Laws/Transfers.lean ====
section
/-! SUPPORT. What the shared operations of delegated transfers do: the report of a run, the Memory Port's grant, the channel's grant
and the window that decides. -/

namespace Sys2Proof.Machine

/-- A channel's report of a run result, as one update (R137). -/
theorem reportRun_eq (s : State) (c : ChannelId) (r : RunResult) : s.reportRun c r = s.reporting c r := rfl

/-- A run's failure, as its two updates (R128, R146, R147). -/
theorem failRun_eq (s : State) (c : ChannelId) (kind : NoticeKind) (host : Option HostId) (d : DescId) (addr : Option Addr) :
    s.failRun c kind host d addr =
      (s.handNotice (.channel c)
        { kind := kind, source := (s.channel c).entry, host := host, desc := some d, addr := addr }).reporting c .failure := rfl

/-- The issue of an access, as one update (R144). -/
theorem issueAccess_eq (s : State) (isWrite : Bool) (addr : Addr) (size : Nat) :
    s.issueAccess isWrite addr size = s.accessed isWrite addr size := rfl

/-- The other channel of the other channel. -/
@[simp] theorem channel_other_other (c : ChannelId) : c + 1 + 1 = c := by
  match c with
  | 0 => rfl
  | 1 => rfl

/-- A channel is one of the two. -/
theorem channel_eq_or (c k : ChannelId) : k = c ∨ k = c + 1 := by
  match c, k with
  | 0, 0 => exact .inl rfl
  | 0, 1 => exact .inr rfl
  | 1, 0 => exact .inr rfl
  | 1, 1 => exact .inl rfl

/-- The two channels differ. -/
theorem channel_ne_other (c : ChannelId) : c + 1 ≠ c := by
  match c with
  | 0 => decide
  | 1 => decide

/-- The grant of the port to a channel that executes a descriptor (R143). -/
theorem grantPort_eq {s : State} {c : ChannelId} {d : DescId} (hd : s.executing c = some d) :
    s.grantPort c = s.reads c d := by
  unfold State.grantPort
  rw [hd]
  rfl

/-- With the grant held nothing is granted. -/
theorem nextGrant_held {s : State} (h : s.mp.grant ≠ none) : s.nextGrant = s := by
  simp [State.nextGrant, Option.isSome_iff_ne_none.mpr h]

/-- With no request waiting nothing is granted. -/
theorem nextGrant_none {s : State} (h : ∀ c : ChannelId, (s.channel c).phase ≠ .waitingPort) : s.nextGrant = s := by
  have ha : ∀ c : ChannelId, s.portAsked c = false := fun c => by simpa [State.portAsked] using h c
  simp [State.nextGrant, ha]

/-- A free port grants a waiting channel, of two the one that the alternation flag does not name (R143). -/
theorem nextGrant_grants {s : State} {c : ChannelId} {d : DescId} (hg : s.mp.grant = none)
    (hw : (s.channel c).phase = .waitingPort) (hd : s.executing c = some d)
    (ho : (s.channel (c + 1)).phase = .waitingPort → s.mp.alternation = c + 1) : s.nextGrant = s.reads c d := by
  have hc : s.portAsked c = true := by simp [State.portAsked, hw]
  unfold State.nextGrant
  rw [if_neg (by simp [hg])]
  rcases channel_eq_or c s.mp.alternation with ha | ha
  · have hoth : (s.channel (c + 1)).phase ≠ .waitingPort := fun h => channel_ne_other c ((ho h).symm.trans ha)
    have hf : s.portAsked (otherChannel s.mp.alternation) = false := by
      simp [State.portAsked, otherChannel, ha, hoth]
    simp only [hf]
    rw [ha, hc]
    simpa using grantPort_eq hd
  · have hf : otherChannel s.mp.alternation = c := by simp [otherChannel, ha]
    simp only [hf, hc]
    simpa using grantPort_eq hd

/-- The freeing of the port by a channel whose own request does not wait (R143). -/
theorem freePort_freed {s : State} {c : ChannelId} (hc : (s.channel c).phase ≠ .waitingPort)
    (ho : (s.channel (c + 1)).phase = .waitingPort → s.executing (c + 1) ≠ none) : PortFreed s c s.freePort := by
  refine ⟨fun h => ?_, fun h d hd => ?_⟩
  · refine nextGrant_none fun k => ?_
    rcases channel_eq_or c k with rfl | rfl
    · exact hc
    · exact h
  · refine nextGrant_grants rfl h hd fun hx => ?_
    rw [channel_other_other] at hx
    exact absurd hx hc

/-- The deciding window of an address: the first that contains it (R151). -/
theorem decidingWindow_some {ws : Table Window 8} {a : Addr} {k : Fin 8} :
    decidingWindow ws a = some k ↔
      (look ws k).contains a = true ∧ ∀ j : Fin 8, j < k → (look ws j).contains a = false := by
  unfold decidingWindow
  constructor
  · intro h
    refine ⟨by simpa using List.find?_some h, fun j hj => ?_⟩
    obtain ⟨-, as, bs, hl, hb⟩ := List.find?_eq_some_iff_append.mp h
    have hjm : j ∈ as := by
      have hm : j ∈ List.finRange 8 := List.mem_finRange j
      rw [hl] at hm
      rcases List.mem_append.mp hm with hm | hm
      · exact hm
      · exfalso
        have hp : (as ++ k :: bs).Pairwise (· < ·) := hl ▸ List.pairwise_lt_finRange 8
        rcases List.mem_cons.mp hm with rfl | hm
        · exact lt_irrefl _ hj
        · have := (List.pairwise_cons.mp (List.pairwise_append.mp hp).2.1).1 j hm
          exact lt_asymm hj this
    simpa using hb j hjm
  · rintro ⟨hk, hj⟩
    cases hf : (List.finRange 8).find? fun i => (look ws i).contains a with
    | none =>
      have := List.find?_eq_none.mp hf k (List.mem_finRange k)
      simp [hk] at this
    | some i =>
      have hi : (look ws i).contains a = true := by simpa using List.find?_some hf
      obtain ⟨-, as, bs, hl, hb⟩ := List.find?_eq_some_iff_append.mp hf
      have hkm : k ∈ as ∨ k ∈ i :: bs := by
        have hm : k ∈ List.finRange 8 := List.mem_finRange k
        rw [hl] at hm
        exact List.mem_append.mp hm
      rcases hkm with hm | hm
      · have := hb k hm
        simp [hk] at this
      · have hp : (as ++ i :: bs).Pairwise (· < ·) := hl ▸ List.pairwise_lt_finRange 8
        rcases List.mem_cons.mp hm with rfl | hm
        · rfl
        · have hlt := (List.pairwise_cons.mp (List.pairwise_append.mp hp).2.1).1 k hm
          rw [hj i hlt] at hi
          simp at hi

/-- No window decides for an address that none contains. -/
theorem decidingWindow_none {ws : Table Window 8} {a : Addr} :
    decidingWindow ws a = none ↔ ∀ k : Fin 8, (look ws k).contains a = false := by
  simp [decidingWindow]

/-- A window contains an address whose page is one of its pages (R149, R151). -/
theorem contains_iff (w : Window) (a : Addr) :
    w.contains a = true ↔ w.base ≤ a.toNat / 4096 ∧ a.toNat / 4096 < w.base + w.count := by
  unfold Window.contains
  rw [Bool.and_eq_true, decide_eq_true_iff, decide_eq_true_iff]
  exact Iff.rfl

end Sys2Proof.Machine
end

