-- ==== Sys2Proof/Tests/Slice0.lean ====
section
/-! SUPPORT. Tests: ill-formed terms refused, REQUEST words written out from R177, one or two small tests of one step for each
command, and for each statement with hypotheses a state and operands that meet them, clause by clause. -/

set_option maxRecDepth 20000

namespace Sys2Proof.Tests

open Sys2Proof Sys2Proof.Machine

/-! ### Helpers -/

/-- The step has a next state, and it passes the test. -/
def after (r : Result) (p : State → Bool) : Bool := match r with
  | .next t => p t
  | _ => false

/-- The step is refused for this reason. -/
def refusedAs (r : Result) (x : Refusal) : Bool := match r with
  | .refused y => x == y
  | _ => false

/-- The port's answer. -/
def answerIs (t : State) (h : HostId) (code : Operand) (r : ResultCode) : Bool :=
  (t.port h).result == r && (t.port h).echo == code

/-- Staging words put at a port. -/
def staged (s : State) (h : HostId) (ws : List Word) : State := s.setPort h { s.port h with stage := stageRecord ws }

/-- An entry put into a state. -/
def placed (s : State) (e : Source) (c : EntryConfig) (p : Progress) : State :=
  (s.setEntry e { cfg := c, bind := resetBinding, prog := p }).setOrder (s.et.order ++ [e])

/-- A posted source's configuration. -/
def postedCfg (level : Level) (policy : Policy) (targets : HostSet) (enable : Bool) : EntryConfig :=
  { kind := .posted, level := level, policy := policy, targets := targets, enable := enable }

/-- A DELIVERING state part. -/
def delivering (offered held : HostSet) (owed decline : Option HostSet) : Progress :=
  { resetProgress with state := .delivering, outcome := some .plain, offered := offered, held := held, owed := owed,
                       decline := decline }

/-- An attached context. -/
def attachedCtx : HostContext := { resetContext with session := .attached, timeout := 1 }

/-- Host 0, the supervisor, ATTACHED. -/
def att : State := State.reset.setCtx 0 attachedCtx

/-! ### Well-formedness -/

theorem test_ill_formed_enable : (Instr.enable 0 5 0).wellFormed = false := by decide
theorem test_ill_formed_unknown_low : (Instr.unknownRequest 0 1).wellFormed = false := by decide
theorem test_ill_formed_unknown_high : (Instr.unknownRequest 0 26).wellFormed = false := by decide
theorem test_ill_formed_register : (Instr.registerWrite 0 0 7).wellFormed = false := by decide
theorem test_well_formed :
    (Instr.enable 0 5 1).wellFormed && (Instr.unknownRequest 0 0).wellFormed && (Instr.unknownRequest 0 27).wellFormed &&
      (Instr.registerWrite 0 1 7).wellFormed && (Instr.attach 0).wellFormed = true := by decide

/-! ### REQUEST words, written out bit by bit from R177: value, sub-operand, object, code -/

theorem test_word_attach : requestOfWord 2 0b00000000_00000000_00000000_00000001 = .attach 2 := by decide
theorem test_word_threshold : requestOfWord 0 0b00001001_00000000_00000000_00000011 = .setThreshold 0 9 := by decide
theorem test_word_take : requestOfWord 1 0b00000000_00000000_00110000_00000100 = .take 1 48 := by decide
theorem test_word_window : requestOfWord 0 0b00000000_00000111_00000011_00010110 = .writeWindow 0 3 7 := by decide
theorem test_word_limits : requestOfWord 0 0b11111111_00001111_00000010_00010111 = .setHostLimits 0 2 15 255 := by decide
theorem test_word_enable : requestOfWord 0 0b00000001_00000000_00000101_00001111 = .enable 0 5 1 := by decide
theorem test_word_disable : requestOfWord 0 0b00000000_00000000_00000101_00001111 = .disable 0 5 := by decide
theorem test_word_evict : requestOfWord 3 0b00000000_00000000_00000001_00011010 = .evict 3 1 := by decide
theorem test_word_unknown : requestOfWord 3 0b00000000_00000000_00000001_00011011 = .unknownRequest 3 27 := by decide
theorem test_table_spells_nothing : decodeTableWord 32 1 = none ∧ State.reset.withFetchWord 32 1 = State.reset :=
  ⟨rfl, rfl⟩

/-! ### Three lawful states, each with much going on -/

/-- Host 0, the supervisor, has a DIRECTED offer of S48 above the record of S52; the lapses of H1 and H2 are reported, H2 at its
limit and owing S51; H3's take of S49 is matched; S50 and the asserted level S0 are LATCHED. -/
def busy : State :=
  let s0 : State := { State.reset with
    lines := 1
    hcu := { ctx := #v[{ attachedCtx with stack := [⟨52, 1, .any, .plain⟩] }, { attachedCtx with lapseCount := 1 },
                       { attachedCtx with lapseCount := 2 }, attachedCtx]
             supervisor := 0 }
    ou := { slots := #v[{ offer := some ⟨48, 3, .directed, .plain⟩, timer := some 16 }, { offer := none, timer := none },
                        { offer := none, timer := none }, { offer := none, timer := none }]
            views := #v[[⟨52, 1, .any, .plain⟩], [], [], []]
            rotation := 3 } }
  let s1 := s0.setTake 3 (some { offer := ⟨49, 4, .directed, .plain⟩, cleared := false, ended := false })
  let s2 := (s1.setLapse 1 .reported).setLapse 2 .reported
  let s3 := s2.setPort 3 { resetPort with waiting := some .take }
  let s4 := placed s3 48 (postedCfg 3 .directed 1 true) (delivering 1 0 none none)
  let s5 := placed s4 49 (postedCfg 4 .directed 8 true) (delivering 8 0 none none)
  let s6 := placed s5 50 (postedCfg 2 .directed 1 false) { resetProgress with state := .latched }
  let s7 := placed s6 0 { kind := .levelHigh, level := 2, policy := .directed, targets := 1, enable := false }
    { resetProgress with state := .latched }
  let s8 := placed s7 51 (postedCfg 5 .all 4 true) (delivering 0 0 (some 4) none)
  placed s8 52 (postedCfg 1 .any 1 true) (delivering 0 1 none (some 0))

/-- The answers to the lapse reports of H0, LAPSED and since detached, and of H1 are outstanding, with S48 waiting for H1; H2's take of S49
belongs to an ended session; H3's record of S50 is to be removed, with S51 waiting for H3. -/
def waiting : State :=
  let s0 : State := { State.reset with
    hcu := { ctx := #v[resetContext, attachedCtx, attachedCtx, { attachedCtx with stack := [⟨50, 1, .directed, .plain⟩] }]
             supervisor := 0 }
    ou := { resetOfferUnit with views := #v[[], [], [], [⟨50, 1, .directed, .plain⟩]] } }
  let s1 := (s0.setTake 2 (some { offer := ⟨49, 4, .directed, .plain⟩, cleared := false, ended := true })).setUndo 3 (some 50)
  let s2 := (s1.setLapse 0 (.answered .lapsed)).setLapse 1 (.answered .attached)
  let s3 := s2.setPort 3 { resetPort with waiting := some .take }
  let s4 := placed s3 48 (postedCfg 3 .directed 2 true) (delivering 0 0 none none)
  let s5 := placed s4 49 (postedCfg 4 .directed 4 true) (delivering 4 0 none none)
  placed s5 51 (postedCfg 2 .directed 8 true) (delivering 0 0 none none)

/-- H0 is LAPSED with a report outstanding; H1, the supervisor, is DETACHED with S50 waiting for it; H2 and H3 have ANY offers, of
S48 with another target left and of S49 with none; S51 is PARKED and S1 QUEUED. -/
def offers : State :=
  let s0 : State := { State.reset with
    hcu := { ctx := #v[{ attachedCtx with session := .lapsed }, resetContext, attachedCtx, attachedCtx], supervisor := 1 }
    ou := { slots := #v[{ offer := none, timer := none }, { offer := none, timer := none },
                        { offer := some ⟨48, 2, .any, .plain⟩, timer := some 16 },
                        { offer := some ⟨49, 2, .any, .plain⟩, timer := some 16 }]
            views := resetOfferUnit.views
            rotation := 3 }
    du := { resetDelegationUnit with list := [1] } }
  let s1 := s0.setLapse 0 .reported
  let s2 := placed s1 48 (postedCfg 2 .any 6 true) (delivering 4 0 none (some 0))
  let s3 := placed s2 49 (postedCfg 2 .any 8 true) (delivering 8 0 none (some 0))
  let s4 := placed s3 50 (postedCfg 3 .directed 2 true) (delivering 0 0 none none)
  let s5 := placed s4 51 (postedCfg 2 .any 1 true)
    { resetProgress with state := .parked, outcome := some .plain, decline := some 1 }
  let s6 := placed s5 1 { kind := .rising, level := 2, policy := .directed, targets := 1, enable := true }
    { resetProgress with state := .queued }
  s6.setBind 1 { resetBinding with head := some 0, runsLeft := 1, armed := true }

/-- A state with the transfers of reset keeps their laws. -/
theorem delegationLaw_of_reset {s : State} (hd : s.du.channels = resetDelegationUnit.channels)
    (hx : s.du.descs = resetDelegationUnit.descs) (hm : s.mp = resetMemoryPort)
    (hr : s.claims.reports = resetClaims.reports) (hl : s.claims.releases = resetClaims.releases) : DelegationLaw s := by
  have hc : ∀ c, s.channel c = resetChannel := fun c => by
    simp [State.channel, hd, resetDelegationUnit]
  have hdesc : ∀ d, s.desc d = resetDescriptor := fun d => by
    simp [State.desc, hx, resetDelegationUnit]
  have he : ∀ c, s.executing c = none := fun c => by simp [State.executing, hc, resetChannel]
  refine ⟨fun d => ?_, fun c => ?_, ⟨fun d => ?_, fun h => absurd (he 0) h⟩, ?_⟩
  · rw [hdesc]; exact ⟨fun _ => rfl, fun h => by simp [resetDescriptor] at h⟩
  · simp [ChannelLaw, hc, he, hr, hl, resetChannel, resetClaims]
  · rw [hdesc]; simp [resetDescriptor]
  · simp [MemoryLaw, hm, hc, resetMemoryPort, resetChannel]

theorem busy_lawful : Lawful busy :=
  ⟨by decide, ⟨by decide, by decide, by decide⟩, ⟨by decide, by decide, by decide, by decide⟩,
    delegationLaw_of_reset rfl rfl rfl rfl rfl, by decide⟩
theorem waiting_lawful : Lawful waiting :=
  ⟨by decide, ⟨by decide, by decide, by decide⟩, ⟨by decide, by decide, by decide, by decide⟩,
    delegationLaw_of_reset rfl rfl rfl rfl rfl, by decide⟩
theorem offers_lawful : Lawful offers :=
  ⟨by decide, ⟨by decide, by decide, by decide⟩, ⟨by decide, by decide, by decide, by decide⟩,
    delegationLaw_of_reset rfl rfl rfl rfl rfl, by decide⟩

/-! ### The step and the port -/

theorem witness_StepRunsTheFrontCommand : State.reset.pending = [] := rfl
theorem test_step : after (step { busy with pending := [.detach 0, .attach 0] })
    (fun t => t.pending == [.attach 0] && (t.ctx 0).session == .detached) = true := by decide

theorem witness_RequestsAreCheckedInOrder :
    (PortTakes busy 0 ∧ PortTakes busy 1 ∧ PortTakes offers 1) ∧
    (∀ code ∈ [(0 : Operand), 27, 255], ¬(1 ≤ code.toNat ∧ code.toNat ≤ 26)) ∧
    ((Instr.writeEntry 1 0).port = some 1 ∧ (Instr.writeEntry 1 0).wellFormed = true ∧
      busy.holdsRight 1 (Instr.writeEntry 1 0).right = false) ∧
    ((Instr.take 1 0).port = some 1 ∧ offers.holdsRight 1 (Instr.take 1 0).right = true ∧
      (Instr.take 1 0).session = true ∧ (offers.ctx 1).session = .detached) ∧
    (∀ c ∈ [Instr.setThreshold 0 16, .take 0 64, .finish 0 64, .release 0 64, .post 0 47, .post 0 63, .readEntry 0 64,
        .readDesc 0 128, .readWindow 0 4 0, .readWindow 0 0 8, .readHost 0 4, .writeEntry 0 64, .enable 0 64 1, .enable 0 0 2,
        .disable 0 64, .clearEntry 0 64, .retry 0 64, .writeBinding 0 63, .arm 0 63, .disarm 0 64, .writeDesc 0 128,
        .writeWindow 0 4 0, .writeWindow 0 0 8, .setHostLimits 0 4 1 0, .setHostLimits 0 0 0 0, .setHostLimits 0 0 16 0,
        .setRights 0 4 0, .setRights 0 0 4, .handOver 0 4, .evict 0 4],
      c.port = some 0 ∧ c.wellFormed = true ∧ busy.holdsRight 0 c.right = true ∧ (busy.ctx 0).session ≠ .detached ∧
        c.inRange = false) := by decide
theorem test_unknown : after (exec (.unknownRequest 0 27) busy) (fun t => answerIs t 0 0 .unknown) = true := by decide
theorem test_rights : after (exec (.retry 1 0) busy) (fun t => answerIs t 1 17 .rights) = true := by decide
theorem test_detached : after (exec (.finish 1 0) offers) (fun t => answerIs t 1 5 .detached) = true := by decide
theorem test_range : after (exec (.readEntry 0 64) busy) (fun t => answerIs t 0 8 .range) = true := by decide

/-- H0's port is WORKING, H1's HRST_n is low. -/
def shut : State :=
  State.setPort { att with pins := { resetLow := false, hrst := 2 } } 0 { resetPort with working := true, pendingDisarm := some 5 }

theorem witness_PortsThatTakeNoRequest :
    ((Instr.attach 0).port = some 0 ∧ (Instr.attach 0).wellFormed = true ∧ ¬(1 ≤ (27 : Operand).toNat ∧ (27 : Operand).toNat ≤ 26)) ∧
    ({ att with pins := { resetLow := true, hrst := 0 } } : State).pins.resetLow = true ∧
    hasHost shut.pins.hrst 1 = true ∧
    (shut.pins.resetLow = false ∧ hasHost shut.pins.hrst 0 = false ∧ (shut.port 0).working = true) := by decide
theorem test_lost : after (exec (.lostRequest 0) shut) (fun t => (t.port 0).lost) = true := by decide
theorem test_ignored : after (exec (.detach 1) shut) (fun t => decide (t = shut)) = true := by decide

theorem witness_CommandsThatCannotOccurAreRefused :
    ((Instr.detach 3).port = some 3 ∧ (Instr.detach 3).wellFormed = true ∧ busy.pins.resetLow = false ∧
      hasHost busy.pins.hrst 3 = false ∧ (busy.port 3).working = false ∧ (busy.port 3).waiting ≠ none) ∧
    ((Instr.enable 0 5 0).wellFormed = false ∧ (Instr.unknownRequest 0 26).wellFormed = false) ∧
    (¬(1 ≤ (27 : Operand).toNat ∧ (27 : Operand).toNat ≤ 26)) ∧
    (busy.pins.resetLow = false ∧ hasHost busy.pins.hrst 0 = false ∧ (busy.port 0).working = false) ∧
    ((Instr.detach 0).wellFormed = true ∧ (Instr.detach 0).port = some 0 ∧ (busy.port 0).waiting = none ∧
      ∀ k : HostId, Instr.detach 0 ≠ .lostRequest k) := by decide
theorem test_held : refusedAs (exec (.detach 3) busy) .busHeld = true := by decide
theorem test_other : refusedAs (exec (.lostRequest 0) busy) .otherCommand = true := by decide

theorem witness_RegisterWriteStagesAWord :
    (att.pins.resetLow = false ∧ hasHost att.pins.hrst 0 = false) ∧
    (∀ offset ∈ [(1 : Fin 16), 7], 1 ≤ offset.val ∧ offset.val < 8) ∧
    ((8 : Fin 16) ≠ 0 ∧ hasHost shut.pins.hrst 1 = true) := by decide
theorem test_stage_last : after (exec (.registerWrite 0 15 77) att) (fun t => readPort t 0 15 == 77 && readPort t 0 14 == 0) =
    true := by decide
theorem test_result_read_only : after (exec (.registerWrite 0 1 77) att) (fun t => decide (t = att)) = true := by decide

/-! ### Host contexts -/

/-- H1 has detached and a release of its stack is still to be taken. -/
def leaving : State := offers.setHanded 1 [.stackRelease 60]

theorem witness_AttachOpensTheSession :
    (PortTakes busy 0 ∧ (busy.ctx 0).session = .attached) ∧
    (PortTakes leaving 1 ∧ (leaving.ctx 1).session ≠ .attached ∧ leaving.givingBack 1 = true) ∧
    (PortTakes offers 1 ∧ (offers.ctx 1).session ≠ .attached ∧ offers.givingBack 1 = false ∧ Lawful offers ∧
      offers.choiceWaits 1 = false) :=
  ⟨by decide, by decide, by decide, by decide, by decide, offers_lawful, by decide⟩
theorem test_attach : after (exec (.attach 1) offers)
    (fun t => answerIs t 1 1 .ok && (t.slot 1).offer == some ⟨50, 3, .directed, .plain⟩ && (t.prog 50).offered == 2) =
    true := by decide
theorem test_attach_waits : after (exec (.attach 1) leaving)
    (fun t => (t.ctx 1).session == .detached && (t.port 1).waiting == some .attach) = true := by decide

theorem witness_DetachGivesEverythingBack :
    (PortTakes offers 1 ∧ (offers.ctx 1).session = .detached) ∧
    (PortTakes busy 0 ∧ (busy.ctx 0).session ≠ .detached ∧ ((busy.slot 0).offer = none → (busy.slot 0).timer = none)) := by
  decide
theorem test_detach : after (exec (.detach 0) busy)
    (fun t => (t.ctx 0).stack == [] && (t.slot 0).offer == none && t.handedOf 0 == [.withdraw 48, .stackRelease 52] &&
      answerIs t 0 2 .ok) = true := by decide

theorem witness_SetThresholdWritesTheThreshold :
    (PortTakes busy 0 ∧ (1 : Operand).toNat = (1 : Level).val ∧
      (∀ o ∈ (busy.slot 0).offer, (busy.setCtx 0 { busy.ctx 0 with threshold := 1 }).viewLevel 0 < o.level) ∧
      (busy.setCtx 0 { busy.ctx 0 with threshold := 1 }).level 0 = busy.level 0) ∧
    (PortTakes busy 0 ∧ (2 : Operand).toNat = (2 : Level).val ∧
      (∀ o ∈ (busy.slot 0).offer, (busy.setCtx 0 { busy.ctx 0 with threshold := 2 }).viewLevel 0 < o.level) ∧
      (busy.setCtx 0 { busy.ctx 0 with threshold := 2 }).level 0 ≠ busy.level 0 ∧ busy.choiceWaits 0 = false) ∧
    (PortTakes busy 0 ∧ (3 : Operand).toNat = (3 : Level).val ∧ (busy.slot 0).offer ≠ none ∧
      ∀ o ∈ (busy.slot 0).offer, o.level ≤ (busy.setCtx 0 { busy.ctx 0 with threshold := 3 }).viewLevel 0) ∧
    (15 : Operand).toNat = (15 : Level).val ∧ Lawful busy :=
  ⟨by decide, by decide, by decide, by decide, busy_lawful⟩
theorem test_threshold_below : after (exec (.setThreshold 0 2) busy)
    (fun t => (t.slot 0).offer.isSome && (t.ctx 0).threshold == 2) = true := by decide
theorem test_threshold_equal : after (exec (.setThreshold 0 3) busy)
    (fun t => (t.slot 0).offer == none && t.handedOf 0 == [.withdraw 48]) = true := by decide

theorem witness_TakeEmptiesTheSlot :
    (PortTakes busy 0 ∧ (busy.ctx 0).session ≠ .detached ∧ (48 : Operand).toNat = (48 : Source).val ∧
      (busy.slot 0).offer ≠ none ∧ ∀ o ∈ (busy.slot 0).offer, o.source = 48) ∧
    (PortTakes busy 1 ∧ (busy.ctx 1).session ≠ .detached ∧ (63 : Operand).toNat = (63 : Source).val ∧
      ∀ o ∈ (busy.slot 1).offer, o.source ≠ 63) := by decide
theorem test_take : after (exec (.take 0 48) busy)
    (fun t => !t.intAsserted 0 && (t.takeOf 0).isSome && (t.slot 0).timer == none && t.ou.rotation == 3) = true := by decide
theorem test_take_any_rotates : after (exec (.take 2 48) offers) (fun t => t.ou.rotation == 2) = true := by decide

theorem witness_FinishAndReleaseRemoveTheRecord :
    (PortTakes busy 0 ∧ (busy.ctx 0).session ≠ .detached ∧ (52 : Operand).toNat = (52 : Source).val) ∧
    (∃ r ∈ (busy.ctx 0).stack, r.source = 52) ∧ (0 : Operand).toNat = (0 : Source).val ∧
    ∀ r ∈ (busy.ctx 0).stack, r.source ≠ 0 := by decide
theorem test_finish : after (exec (.finish 0 52) busy)
    (fun t => (t.ctx 0).stack == [] && t.level 0 == 0 && t.viewLevel 0 == 1 && t.handedOf 0 == [.finish 52] && answerIs t 0 5 .ok) =
    true := by decide
theorem test_release_none : after (exec (.release 0 51) busy) (fun t => answerIs t 0 6 .state) = true := by decide

theorem witness_SupervisorRequestsWriteTheContexts :
    (PortTakes busy 0 ∧ busy.hcu.supervisor = 0 ∧ (3 : Operand).toNat = (3 : HostId).val) ∧
    ((1 : Fin 16) ≠ 0 ∧ (1 : Operand).toNat = (1 : Fin 16).val ∧ (15 : Operand).toNat = (15 : Fin 16).val) ∧
    ((0 : Operand).toNat = (0 : HostId).val) ∧ ((3 : HostId) ≠ 0 ∧ (busy.ctx 3).session = .attached) ∧
    (PortTakes offers 1 ∧ offers.hcu.supervisor = 1 ∧ (0 : HostId) ≠ 1 ∧ (offers.ctx 0).session ≠ .attached) := by decide
theorem test_limits : after (exec (.setHostLimits 0 3 15 255) busy)
    (fun t => (t.ctx 3).lapseLimit == 15 && (t.ctx 3).timeout == 255) = true := by decide
theorem test_set_rights : after (exec (.setRights 0 2 0b10) busy)
    (fun t => !(t.ctx 2).configRight && (t.ctx 2).descRight && t.holdsRight 2 .desc && !t.holdsRight 2 .config) = true := by
  decide
theorem test_hand_over : after (exec (.handOver 0 3) busy) (fun t => t.hcu.supervisor == 3) = true := by decide
theorem test_hand_over_lapsed : after (exec (.handOver 1 0) offers) (fun t => answerIs t 1 25 .state) = true := by decide

/-- `offers` with the removal of H0's record of S52 outstanding. -/
def removing : State :=
  (((offers.setCtx 0 { attachedCtx with session := .lapsed, stack := [⟨52, 1, .directed, .plain⟩] }).setView 0
    [⟨52, 1, .directed, .plain⟩]).setUndo 0 (some 52)).setPort 0
    { resetPort with waiting := some .take }

theorem witness_EvictGivesEverythingBack :
    (PortTakes offers 1 ∧ offers.hcu.supervisor = 1 ∧ (0 : Operand).toNat = (0 : HostId).val ∧ (0 : HostId) ≠ 1 ∧
      (offers.ctx 0).session = .lapsed ∧ ((offers.slot 0).offer = none → (offers.slot 0).timer = none)) ∧
    ((1 : Operand).toNat = (1 : HostId).val ∧ (2 : Operand).toNat = (2 : HostId).val ∧
      (offers.ctx 2).session ≠ .lapsed) ∧
    (offers.undoOf 0 = none ∧ removing.undoOf 0 ≠ none ∧ (removing.port 0).waiting = some .take ∧ PortTakes removing 1 ∧
      removing.hcu.supervisor = 1 ∧ (removing.ctx 0).session = .lapsed) := by decide
theorem test_evict_ends_the_take : after (exec (.evict 1 0) removing)
    (fun t => answerIs t 0 4 .stale && (t.port 0).waiting == none && t.undoOf 0 == none) = true := by decide
theorem test_evict : after (exec (.evict 1 0) offers)
    (fun t => (t.ctx 0).session == .detached && t.lapseOf 0 == .overtaken &&
      t.claims.notices == [(.host 0, { kind := .evicted, source := none, host := some 0, desc := none, addr := none })]) =
    true := by decide

/-! ### Reads -/

theorem witness_EntryAndHostReadsReturnTheRecord :
    (PortTakes busy 0 ∧ OrderLaw busy) ∧
    ((0 : Operand).toNat = (0 : Source).val ∧ (63 : Operand).toNat = (63 : Source).val) ∧
    ((0 : Operand).toNat = (0 : HostId).val ∧ (busy.ctx 0).stack.length ≤ 8 ∧ (3 : Operand).toNat = (3 : HostId).val) ∧
    ((busy.slot 1).offer = none ∧ (busy.slot 0).offer ≠ none) :=
  ⟨⟨by decide, busy_lawful.2.1.2.1⟩, by decide, by decide, by decide⟩
theorem test_read_entry : after (exec (.readEntry 0 48) busy)
    (fun t => readPort t 0 8 == 0b1_0001_00_01_0011_0110 && readPort t 0 11 == 0x40000104 && readPort t 0 12 == 1) =
    true := by decide
theorem test_read_host : after (exec (.readHost 1 0) busy)
    (fun t => readPort t 1 8 == 0x03040111 && readPort t 1 9 == 1 && readPort t 1 10 == 0x01133001 &&
      readPort t 1 12 == 0x11B4) = true := by decide

theorem witness_DescriptorAndWindowReadsReturnTheRecord :
    (PortTakes busy 0 ∧ (127 : Operand).toNat = (127 : DescId).val ∧ DescriptorLaw (busy.desc 127)) ∧
    ((3 : Operand).toNat = (3 : HostId).val ∧ (7 : Operand).toNat = (7 : Fin 8).val ∧
      WindowLaw (look (busy.windows 3) 7)) := by decide
theorem test_read_window : after (exec (.readWindow 0 3 7) busy)
    (fun t => readPort t 0 8 == 0 && readPort t 0 9 == 1 && readPort t 0 10 == 1) = true := by decide
/-- A descriptor with every field at a value of its own. -/
def fullDesc : Descriptor :=
  { valid := true, owner := some 3, src := 0x1000, dst := 0x2002, unitSize := 2, srcStep := .inc, dstStep := .dec,
    runLength := 4096, link := some 127, active := false, faulted := true }
theorem test_read_desc : after (exec (.readDesc 0 2) (busy.setDesc 2 fullDesc))
    (fun t => readPort t 0 8 == 0x1000 && readPort t 0 9 == 0x2002 && readPort t 0 10 == 0x10000092 &&
      readPort t 0 11 == 0x0507017F) = true := by decide

/-- One notice in the queue. -/
def noticed : State :=
  { att with nq := { records := [{ kind := .windowWrite, source := some 63, host := some 3, desc := some 127, addr := some 0x89ABCDEF }],
                     overflow := 255 } }

theorem witness_PopNoticeTakesTheOldest :
    (PortTakes att 0 ∧ att.nq.records = []) ∧
    (PortTakes noticed 0 ∧ noticed.nq.records =
      [{ kind := .windowWrite, source := some 63, host := some 3, desc := some 127, addr := some 0x89ABCDEF }]) := by decide
theorem test_pop : after (exec (.popNotice 0) noticed)
    (fun t => readPort t 0 8 == 0x7F033FF2 && readPort t 0 9 == 0x89ABCDEF && t.nq.records == [] && t.claims.levels == [false]) =
    true := by decide
theorem test_pop_empty : after (exec (.popNotice 0) att) (fun t => answerIs t 0 12 .empty) = true := by decide

theorem witness_NoticeStatusIsReadAndCleared : PortTakes noticed 0 ∧ noticed.nq.records.length ≤ 16 := by decide
theorem test_notice_status : after (exec (.readNoticeStatus 0) noticed)
    (fun t => readPort t 0 8 == 0xFF01 && t.nq.overflow == 0 && t.nq.records.length == 1) = true := by decide

/-! ### Requests on entries -/

theorem witness_PostMakesAnArrival :
    (PortTakes busy 0 ∧ (48 : Operand).toNat = (48 : Source).val ∧ (62 : Operand).toNat = (62 : Source).val ∧
      48 ≤ (48 : Source).val ∧ (62 : Source).val ≤ 62) ∧
    ((busy.ctx 0).session = .attached ∧ EntryLaw busy) ∧ (PortTakes offers 0 ∧ (offers.ctx 0).session = .lapsed) :=
  ⟨by decide, ⟨by decide, busy_lawful.2.1⟩, by decide⟩
theorem test_post_merges : after (exec (.post 0 50) (busy.setProg 50 { busy.prog 50 with again := true, merged := 254 }))
    (fun t => (t.prog 50).merged == 255 && (t.prog 50).saturated &&
      t.claims.notices == [(.entry 50, { kind := .mergeSaturated, source := some 50, host := none, desc := none, addr := none })]) =
    true := by decide
theorem test_post_delivers : after (exec (.post 0 60) (busy.setCfg 60 (postedCfg 4 .any 1 true)))
    (fun t => (t.slot 0).offer == some ⟨60, 4, .any, .plain⟩ && (t.slot 0).timer == some 16 && (t.prog 48).offered == 0) =
    true := by decide

theorem witness_WriteEntryReplacesTheConfiguration :
    (PortTakes (staged busy 0 [0x1F1F6]) 0 ∧ (staged busy 0 [0x1F1F6]).holdsRight 0 .config = true ∧
      (60 : Operand).toNat = (60 : Source).val) ∧
    (ConfigLaw 60 (postedCfg 15 .directed 1 true) ∧ field 0x111F6 0 4 = Kind.posted.code ∧ field 0x111F6 4 4 = 15 ∧
      field 0x111F6 8 2 = Policy.directed.code ∧ field 0x111F6 12 4 = (1 : HostSet).toNat ∧ flag 0x111F6 16 = true) ∧
    ((busy.prog 60).state = .idle ∧ EntryLaw busy ∧ (busy.prog 50).state ≠ .idle) ∧
    (∀ c : EntryConfig, ConfigLaw 60 c → ¬(field (look (busy.port 0).stage 0) 0 4 = c.kind.code)) := by
  refine ⟨by decide, by decide, ⟨by decide, busy_lawful.2.1, by decide⟩, fun c _ h => ?_⟩
  have h0 : field (look (busy.port 0).stage 0) 0 4 = 0 := by decide
  rw [h0] at h
  cases hk : c.kind <;> rw [hk] at h <;> exact absurd h (by decide)
theorem test_write_entry : after (exec (.writeEntry 0 60) (staged busy 0 [0x111F6]))
    (fun t => t.cfg 60 == postedCfg 15 .directed 1 true && answerIs t 0 14 .ok) = true := by decide
theorem test_write_entry_two_targets : after (exec (.writeEntry 0 60) (staged busy 0 [0x131F6]))
    (fun t => answerIs t 0 14 .range) = true := by decide

theorem witness_EnableAndDisableWriteTheField :
    (PortTakes busy 0 ∧ busy.holdsRight 0 .config = true ∧ (50 : Operand).toNat = (50 : Source).val ∧
      (63 : Operand).toNat = (63 : Source).val) ∧ EntryLaw busy ∧
    ¬((busy.prog 63).state = .latched ∧ (busy.prog 63).hold = false) ∧
    ((busy.prog 50).state = .latched ∧ (busy.prog 50).hold = false) :=
  ⟨by decide, busy_lawful.2.1, by decide, by decide⟩
theorem test_enable : after (exec (.enable 0 50 1) busy) (fun t => (t.cfg 50).enable && (t.prog 50).state == .delivering) = true := by
  decide
theorem test_disable : after (exec (.disable 0 48) busy) (fun t => !(t.cfg 48).enable && (t.slot 0).offer.isSome) = true := by
  decide

/-- The asserted ANY entry S0 is offered to H0, for which S50 of a lower level waits; H1's slot is empty. -/
def relatching : State :=
  let s0 : State := { att with
    lines := 1
    hcu := { att.hcu with ctx := #v[attachedCtx, attachedCtx, resetContext, resetContext] } }
  let s1 := s0.setSlot 0 { offer := some ⟨0, 2, .any, .plain⟩, timer := some 16 }
  let s2 := placed s1 0 { kind := .levelHigh, level := 2, policy := .any, targets := 3, enable := true }
    (delivering 1 0 none (some 0))
  placed s2 50 (postedCfg 1 .directed 1 true) (delivering 0 0 none none)

theorem relatching_lawful : Lawful relatching :=
  ⟨by decide, ⟨by decide, by decide, by decide⟩, ⟨by decide, by decide, by decide, by decide⟩,
    delegationLaw_of_reset rfl rfl rfl rfl rfl, by decide⟩

theorem witness_ClearEntryAbandonsTheEvent :
    (PortTakes busy 0 ∧ busy.holdsRight 0 .config = true ∧ Lawful busy) ∧
    ((63 : Operand).toNat = (63 : Source).val ∧ (busy.prog 63).state = .idle) ∧
    ((52 : Operand).toNat = (52 : Source).val ∧ (busy.prog 52).state = .delivering ∧ (busy.prog 52).held ≠ 0) ∧
    ((busy.prog 50).state = .latched ∧ (∀ k : HostId, ¬(busy.slot k).offer.map Offer.source = some 50) ∧
      ((busy.cfg 50).kind.isLevel && busy.levelAsserted 50) = false) ∧
    ((busy.prog 0).state = .latched ∧ ((busy.cfg 0).kind.isLevel && busy.levelAsserted 0) = true) ∧
    ((busy.prog 48).state = .delivering ∧ (busy.prog 48).held = 0 ∧ (busy.slot 0).offer.map Offer.source = some 48 ∧
      ∀ j : HostId, j ≠ 0 → ¬(busy.slot j).offer.map Offer.source = some 48) ∧
    (PortTakes relatching 0 ∧ relatching.holdsRight 0 .config = true ∧ Lawful relatching ∧ (0 : Operand).toNat = (0 : Source).val ∧
      (relatching.prog 0).state = .delivering ∧ (relatching.prog 0).held = 0 ∧
      ((relatching.cfg 0).kind.isLevel && relatching.levelAsserted 0) = true ∧
      (relatching.slot 0).offer.map Offer.source = some 0) :=
  ⟨⟨by decide, by decide, busy_lawful⟩, by decide, by decide, by decide, by decide, by decide,
    ⟨by decide, by decide, relatching_lawful, by decide, by decide, by decide, by decide, by decide⟩⟩
theorem test_clear_offered : after (exec (.clearEntry 0 48) busy)
    (fun t => (t.prog 48).state == .idle && !t.intAsserted 0 && t.et.order == [49, 50, 0, 51, 52]) = true ∧
  after (exec (.clearEntry 0 0) relatching)
    (fun t => (t.slot 0).offer == some ⟨50, 1, .directed, .plain⟩ && (t.slot 1).offer == some ⟨0, 2, .any, .plain⟩) = true := by
  decide
theorem test_clear_taking : after (exec (.clearEntry 0 49) busy) (fun t => (t.takeOf 3).any TakeClaim.cleared) = true := by decide

theorem witness_RetryReopensAParkedEntry :
    (PortTakes offers 1 ∧ offers.holdsRight 1 .config = true ∧ (51 : Operand).toNat = (51 : Source).val) ∧
    ((offers.prog 51).state = .parked ∧ (offers.prog 48).state ≠ .parked) := by decide
theorem test_retry : after (exec (.retry 1 51) offers)
    (fun t => (t.prog 51).state == .delivering && (t.prog 51).decline == some 0) = true := by decide

/-- A binding written out: runs left 2, reload 65535, head D127, EACH_RUN. -/
def bound : State := staged busy 0 [0, 0xFFFF0002, 0b10_00_11_01111111]

theorem witness_BindingsAreWrittenAndArmed :
    (PortTakes bound 0 ∧ bound.holdsRight 0 .config = true ∧ (62 : Operand).toNat = (62 : Source).val ∧ (62 : Source) ≠ 63) ∧
    (let w1 := look (bound.port 0).stage 1
     let w2 := look (bound.port 0).stage 2
     field w1 0 16 = 2 ∧ flag w2 8 = true ∧ field w2 0 8 = 127 ∧ flag w2 9 = true ∧ field w1 16 16 = 65535 ∧
      field w2 12 2 = Deliver.eachRun.code) ∧
    ((bound.bind 62).armed = false ∧ ((bound.bind 62).runsLeft = 0 ∨ (bound.bind 62).head = none)) ∧
    ((offers.bind 1).armed = true) ∧
    (∀ b : Binding, ¬field (look (busy.port 0).stage 2) 12 2 = b.deliver.code) ∧
    (let b := (offers.setBind 1 { offers.bind 1 with armed := false }).bind 1
     b.armed = false ∧ b.runsLeft ≠ 0 ∧ b.head ≠ none) := by
  refine ⟨by decide, by decide, by decide, by decide, fun b h => ?_, by decide⟩
  have h0 : field (look (busy.port 0).stage 2) 12 2 = 0 := by decide
  rw [h0] at h
  cases hk : b.deliver <;> rw [hk] at h <;> exact absurd h (by decide)
theorem test_write_binding : after (exec (.writeBinding 0 62) bound)
    (fun t => t.bind 62 ==
      { head := some 127, runsLeft := 2, reload := some 65535, deliver := .eachRun, armed := false }) = true := by decide
theorem test_arm : after (exec (.arm 0 62) (busy.setBind 62 { resetBinding with head := some 0, runsLeft := 1 }))
    (fun t => (t.bind 62).armed) = true := by decide
theorem test_arm_no_runs : after (exec (.arm 0 62) (busy.setBind 62 { resetBinding with head := some 0 }))
    (fun t => answerIs t 0 19 .range) = true := by decide

/-- S1 runs on C0, which executes D0; S2 is QUEUED and C1 is free. -/
def running : State :=
  let s0 := State.setChannel { att with claims := { att.claims with reports := #v[none, none] } } 0
    { resetChannel with running := true, entry := some 1, position := .executing 0, phase := .checking }
  let s1 := s0.setDesc 0 { fullDesc with src := 0x1002, dst := 0xFFFFFFFE, srcStep := .dec, dstStep := .inc, link := none, faulted := false,
                                         active := true, runLength := 1, owner := some 0 }
  let s2 := placed s1 1 { kind := .rising, level := 2, policy := .directed, targets := 1, enable := true }
    { resetProgress with state := .running }
  let s3 := s2.setBind 1 { resetBinding with head := some 0, runsLeft := 2, deliver := .eachRun, armed := true }
  let s4 := placed s3 2 { kind := .both, level := 2, policy := .directed, targets := 1, enable := true }
    { resetProgress with state := .queued }
  let s5 := s4.setBind 2 { resetBinding with head := some 3, runsLeft := 1, deliver := .atLast, armed := true }
  let s6 := { s5 with claims := { s5.claims with inserts := [2] } }
  s6.setWindows 0 (put (put (s6.windows 0) 1 { base := 1, count := 1, access := .read, written := false }) 2
    { base := 1048575, count := 1, access := .readWrite, written := false })

theorem running_entryLaw : EntryLaw running := ⟨by decide, by decide, by decide⟩

theorem witness_DisarmTakesTheEventBack :
    (PortTakes running 0 ∧ running.holdsRight 0 .config = true ∧ (63 : Operand).toNat = (63 : Source).val ∧
      (2 : Operand).toNat = (2 : Source).val ∧ (1 : Operand).toNat = (1 : Source).val) ∧
    ((running.prog 63).state ≠ .queued ∧ (running.prog 63).state ≠ .running) ∧
    ((running.prog 2).state = .queued ∧ EntryLaw running) ∧ (running.prog 1).state = .running :=
  ⟨by decide, by decide, ⟨by decide, running_entryLaw⟩, by decide⟩
theorem test_disarm_running : after (exec (.disarm 0 1) running)
    (fun t => (t.port 0).working && (t.port 0).pendingDisarm == some 1 && t.claims.cuts == [⟨1, false⟩]) = true := by decide
theorem test_disarm_queued : after (exec (.disarm 0 2) running)
    (fun t => !(t.bind 2).armed && t.claims.inserts == [] && (t.slot 0).offer == some ⟨2, 2, .directed, .plain⟩) = true := by decide

/-- A descriptor and a window written out in the staging words. -/
def stagedD : State := staged running 0 [0x1000, 0x2002, 0x10000092, 0x17F]
def stagedW : State := staged running 0 [0xFFFFF, 1, 3]

theorem witness_DescriptorsAndWindowsAreWritten :
    (PortTakes stagedD 0 ∧ stagedD.holdsRight 0 .desc = true ∧ (127 : Operand).toNat = (127 : DescId).val ∧
      (stagedD.desc 127).active = false ∧ (stagedD.desc 0).active = true) ∧
    (let x : Descriptor := { fullDesc with owner := some 0, faulted := false }
     DescriptorLaw x ∧ look (stagedD.port 0).stage 0 = x.src ∧ look (stagedD.port 0).stage 1 = x.dst ∧
      field (look (stagedD.port 0).stage 2) 0 3 = x.unitSize ∧ field (look (stagedD.port 0).stage 2) 4 2 = x.srcStep.code ∧
      field (look (stagedD.port 0).stage 2) 6 2 = x.dstStep.code ∧ field (look (stagedD.port 0).stage 2) 16 13 = x.runLength ∧
      flag (look (stagedD.port 0).stage 3) 8 = x.link.isSome ∧ ∀ d ∈ x.link, field (look (stagedD.port 0).stage 3) 0 8 = d.val) ∧
    (PortTakes stagedW 0 ∧ stagedW.hcu.supervisor = 0 ∧ (3 : Operand).toNat = (3 : HostId).val ∧
      (7 : Operand).toNat = (7 : Fin 8).val) ∧
    (let x : Window := { base := 1048575, count := 1, access := .readWrite, written := false }
     WindowLaw x ∧ field (look (stagedW.port 0).stage 0) 0 21 = x.base ∧ field (look (stagedW.port 0).stage 1) 0 17 = x.count ∧
      field (look (stagedW.port 0).stage 2) 0 2 = x.access.code) ∧
    (∀ x : Descriptor, DescriptorLaw x → x.valid = true → ¬field (look (running.port 0).stage 2) 0 3 = x.unitSize) ∧
    (∀ x : Window, ¬field (look (running.port 0).stage 2) 0 2 = x.access.code) := by
  refine ⟨by decide, by decide, by decide, by decide, fun x hx hv h => ?_, fun x h => ?_⟩
  · have h0 : field (look (running.port 0).stage 2) 0 3 = 0 := by decide
    have := (hx.2 hv).2.1
    omega
  · have h0 : field (look (running.port 0).stage 2) 0 2 = 0 := by decide
    rw [h0] at h
    cases hk : x.access <;> rw [hk] at h <;> exact absurd h (by decide)
theorem test_write_desc : after (exec (.writeDesc 0 127) stagedD)
    (fun t => t.desc 127 == { fullDesc with owner := some 0, faulted := false }) = true := by decide
theorem test_write_desc_active : after (exec (.writeDesc 0 0) stagedD) (fun t => answerIs t 0 21 .busy) = true := by decide
theorem test_write_window : after (exec (.writeWindow 0 3 7) stagedW)
    (fun t => look (t.windows 3) 7 == { base := 1048575, count := 1, access := .readWrite, written := false }) = true := by decide
theorem test_write_window_end : after (exec (.writeWindow 0 3 7) (staged running 0 [0xFFFFF, 2, 3]))
    (fun t => answerIs t 0 22 .range) = true := by decide

/-! ### The board -/

/-- The kinds of line sources, each on a line of its own. -/
def lined : State :=
  let s0 : State := { att with lines := 0b1000 }
  let c := fun k : Kind => ({ kind := k, level := 2, policy := .directed, targets := 1, enable := false } : EntryConfig)
  let s1 := ((((s0.setCfg 0 (c .falling)).setCfg 1 (c .both)).setCfg 2 (c .levelHigh)).setCfg 3 (c .levelHigh)).setCfg 4 (c .levelLow)
  placed s1 3 (c .levelHigh) { resetProgress with state := .latched, hold := true }

theorem witness_LineChangesAreJudgedByTheKind :
    (lined.pins.resetLow = false ∧ lined.lines.getLsbD 47 ≠ true ∧ lined.lines.getLsbD 3 ≠ false) ∧ EntryLaw lined ∧
    ((lined.cfg 47).kind = .rising ∧ (lined.cfg 0).kind = .falling ∧ (lined.cfg 1).kind = .both) ∧
    ((lined.cfg 2).kind = .levelHigh ∧ (lined.prog 2).state = .idle) ∧
    ((lined.cfg 3).kind = .levelHigh ∧ (lined.prog 3).hold = true ∧ (lined.cfg 3).enable = false) ∧
    ((lined.cfg 4).kind = .levelLow ∧ (lined.prog 4).hold = false ∧ lined.lines.getLsbD 4 ≠ true) :=
  ⟨by decide, ⟨by decide, by decide, by decide⟩, by decide, by decide, by decide, by decide⟩
theorem test_rising : after (exec (.lineChange 47 true) lined)
    (fun t => (t.prog 47).state == .latched && t.lines.getLsbD 47) = true := by decide
theorem test_hold_cleared : after (exec (.lineChange 3 false) lined)
    (fun t => (t.prog 3).state == .latched && !(t.prog 3).hold && t.lines == 0) = true := by decide

theorem witness_HostResetDetachesTheHost :
    (offers.ctx 1).session = .detached ∧ (busy.ctx 0).session ≠ .detached ∧
      ((busy.slot 0).offer = none → (busy.slot 0).timer = none) := by decide
theorem test_host_reset : after (exec (.hostReset 3) busy)
    (fun t => (t.ctx 3).session == .detached && (t.port 3).waiting == none && (t.takeOf 3).any TakeClaim.ended && t.pins.hrst == 8) =
    true := by decide
theorem test_host_reset_release : after (exec (.hostResetRelease 1) shut) (fun t => t.pins.hrst == 0) = true := by decide

theorem witness_FullResetClearsEveryBlock :
    (State.pins { att with pins := { resetLow := true, hrst := 0 } }).resetLow = true ∧ att.pins.resetLow = false := by decide
theorem test_full_reset : after (exec .fullReset busy)
    (fun t => t.lines == 1 && t.et.order == [] && t.pins.resetLow && (t.takeOf 3).isNone) = true := by decide
theorem test_full_reset_release : after
    (exec (.fullResetRelease 5 2 3) { att with pins := { resetLow := true, hrst := 0 } })
    (fun t => t.lines == 5 && t.hcu.supervisor == 3 && t.tb.clksel == 2 && !t.pins.resetLow) = true := by decide

/-! ### Offers -/

theorem test_eligible_any_offered_elsewhere : offers.eligible 48 1 = false ∧ offers.eligible 48 2 = true := by decide
/-- `offers` with a PARKED ANY entry S60 whose targets, H2 and H3, have offers of lower levels. -/
def reopening : State :=
  placed offers 60 (postedCfg 5 .any 12 true) { resetProgress with state := .parked, outcome := some .plain, decline := some 12 }

theorem witness_TheArbiterNarrowsInThreeSteps :
    ([0, 1, 2, 3] : List HostId) ≠ [] ∧ (PortTakes reopening 1 ∧ reopening.holdsRight 1 .config = true) ∧
    (60 : Operand).toNat = (60 : Source).val ∧ ((reopening.prog 60).state = .parked ∧ (reopening.cfg 60).policy = .any) ∧
    (let u := (reopening.setProg 60 { reopening.prog 60 with state := .delivering, decline := some 0 }).answered 1 17 .ok
     SettledBut u 60 ∧ u.arbitrate (u.candidates 60) = some 2) :=
  ⟨by decide, by decide, by decide, by decide, ⟨⟨by decide, by decide, by decide⟩, by decide⟩⟩
theorem test_retry_offers : after (exec (.retry 1 60) reopening)
    (fun t => (t.slot 2).offer == some ⟨60, 5, .any, .plain⟩ && (t.slot 3).offer == some ⟨49, 2, .any, .plain⟩ &&
      (t.slot 1).offer == none && (t.prog 48).offered == 0) = true := by decide
theorem test_arbiter_prefers_empty_slot : busy.arbitrate [0, 1, 2] = some 1 := by decide
theorem test_arbiter_rotation : State.reset.arbitrate [1, 2, 0] = some 0 ∧
    (State.arbitrate { State.reset with ou := { resetOfferUnit with rotation := 0 } } [2, 0, 1]) = some 1 := by decide

theorem witness_AnExpiryEmptiesTheSlot :
    (Lawful busy ∧ (busy.slot 1).timer = none) ∧
    (busy.slot 0 = { offer := some ⟨48, 3, .directed, .plain⟩, timer := some 16 } ∧ (busy.cfg 48).policy ≠ .any) ∧
    (Lawful offers ∧ offers.slot 2 = { offer := some ⟨48, 2, .any, .plain⟩, timer := some 16 } ∧
      (offers.cfg 48).policy = .any ∧
      hostsWithin (offers.cfg 48).targets (addHost ((offers.prog 48).decline.getD 0) 2) = false) ∧
    (offers.slot 3 = { offer := some ⟨49, 2, .any, .plain⟩, timer := some 16 } ∧ (offers.cfg 49).policy = .any ∧
      hostsWithin (offers.cfg 49).targets (addHost ((offers.prog 49).decline.getD 0) 3) = true) :=
  ⟨⟨busy_lawful, by decide⟩, by decide, ⟨offers_lawful, by decide⟩, by decide⟩
theorem test_expiry_declines : after (exec (.offerExpiry 2) offers)
    (fun t => !t.intAsserted 2 && (t.prog 48).decline == some 4 && t.lapseOf 2 == .reported && t.tb.micros == 16) = true := by
  decide
theorem test_expiry_parks : after (exec (.offerExpiry 3) offers)
    (fun t => (t.prog 49).state == .parked &&
      t.claims.notices == [(.host 3, { kind := .parked, source := some 49, host := some 3, desc := none, addr := none })]) =
    true := by decide

/-- `busy` where H2 has pushed a take of S51 that a CLEAR_ENTRY had cleared, S51 being delivered anew since. -/
def lapsing : State :=
  (((busy.setCtx 2 { busy.ctx 2 with stack := [⟨51, 3, .all, .plain⟩] }).setView 2 [⟨51, 3, .all, .plain⟩]).setHanded 2
    [.hold 51 true]).setPort 2 { resetPort with waiting := some .take }

theorem lapsing_lawful : Lawful lapsing :=
  ⟨by decide, ⟨by decide, by decide, by decide⟩, ⟨by decide, by decide, by decide, by decide⟩,
    delegationLaw_of_reset rfl rfl rfl rfl rfl, by decide⟩

theorem witness_ALapseIsCountedUpToTheLimit :
    (Lawful busy ∧ busy.lapseOf 0 ≠ .reported ∧ busy.lapseOf 0 ≠ .overtaken) ∧
    (Lawful (busy.setLapse 1 .overtaken) ∧ (busy.setLapse 1 .overtaken).lapseOf 1 = .overtaken) ∧
    (Lawful offers ∧ offers.lapseOf 0 = .reported ∧ (offers.ctx 0).session ≠ .attached) ∧
    (busy.lapseOf 1 = .reported ∧ (busy.ctx 1).session = .attached ∧
      (2 : Fin 16).val = min 15 ((busy.ctx 1).lapseCount.val + 1) ∧ (2 : Fin 16) < (busy.ctx 1).lapseLimit) ∧
    (busy.lapseOf 2 = .reported ∧ (busy.ctx 2).session = .attached ∧
      (3 : Fin 16).val = min 15 ((busy.ctx 2).lapseCount.val + 1) ∧ (busy.ctx 2).lapseLimit ≤ 3) ∧
    (Lawful lapsing ∧ lapsing.lapseOf 2 = .reported ∧ (lapsing.ctx 2).session = .attached ∧ (lapsing.ctx 2).lapseLimit ≤ 3) :=
  have h1 : Lawful (busy.setLapse 1 .overtaken) :=
    ⟨by decide, ⟨by decide, by decide, by decide⟩, ⟨by decide, by decide, by decide, by decide⟩,
      delegationLaw_of_reset rfl rfl rfl rfl rfl, by decide⟩
  ⟨⟨busy_lawful, by decide⟩, ⟨h1, by decide⟩, ⟨offers_lawful, by decide⟩, by decide, by decide, lapsing_lawful, by decide⟩
theorem test_lapse_counted : after (exec (.lapseReport 1) busy)
    (fun t => (t.ctx 1).lapseCount == 2 && (t.ctx 1).session == .attached && t.lapseOf 1 == .answered .attached) = true := by decide
theorem test_lapse_at_limit : after (exec (.lapseReport 2) busy)
    (fun t => (t.ctx 2).session == .lapsed && t.handedOf 2 == [.depart 51] && t.lapseOf 2 == .answered .lapsed) = true ∧
  after (exec (.lapseReport 2) lapsing) (fun t => t.handedOf 2 == [.hold 51 true, .depart 51]) = true := by decide

/-- R76: DETACH overtakes the report, and the session that follows is answered for without a count (log 35). -/
theorem test_lapse_overtaken : after (exec (.detach 1) busy) (fun t => t.lapseOf 1 == .overtaken) = true ∧
  after (exec (.lapseReport 1) (busy.setLapse 1 .overtaken))
    (fun t => (t.ctx 1).lapseCount == 1 && (t.ctx 1).session == .attached && t.lapseOf 1 == .answered .attached) = true := by decide

theorem witness_TheLapseAnswerStartsTheChoice :
    (Lawful busy ∧ ∀ a : Session, busy.lapseOf 0 ≠ .answered a) ∧ (Lawful waiting ∧ waiting.lapseOf 1 = .answered .attached) ∧
    waiting.lapseOf 0 = .answered .lapsed := by
  refine ⟨⟨busy_lawful, fun a => ?_⟩, ⟨waiting_lawful, by decide⟩, by decide⟩
  have h0 : busy.lapseOf 0 = .none := by decide
  rw [h0]
  simp
theorem test_lapse_answer : after (exec (.lapseAnswer 1) waiting)
    (fun t => (t.slot 1).offer == some ⟨48, 3, .directed, .plain⟩ && t.lapseOf 1 == .none) = true := by decide
theorem test_lapse_answer_lapsed : after (exec (.lapseAnswer 1) (waiting.setLapse 1 (.answered .lapsed)))
    (fun t => (t.slot 1).offer == none && t.lapseOf 1 == .none) = true := by decide

/-! ### Takes -/

theorem witness_ThePushPutsTheRecordOnTop :
    (Lawful busy ∧ busy.takeOf 0 = none) ∧
    (busy.takeOf 3 = some { offer := ⟨49, 4, .directed, .plain⟩, cleared := false, ended := false } ∧
      (busy.ctx 3).session = .attached) ∧
    (Lawful waiting ∧
      waiting.takeOf 2 = some { offer := ⟨49, 4, .directed, .plain⟩, cleared := false, ended := true }) :=
  ⟨⟨busy_lawful, by decide⟩, by decide, ⟨waiting_lawful, by decide⟩⟩
theorem test_push : after (exec (.takePush 3) busy)
    (fun t => (t.ctx 3).stack == [⟨49, 4, .directed, .plain⟩] && t.level 3 == 4 && t.handedOf 3 == [.hold 49 false] &&
      (t.port 3).waiting == some .take) = true := by decide
theorem test_push_ended : after (exec (.takePush 2) waiting)
    (fun t => (t.ctx 2).stack == [] && t.takeOf 2 == none && (t.slot 2).offer == some ⟨49, 4, .directed, .plain⟩) = true := by
  decide

/-- H3's pushed take of S49, with the hold on its way, and the same where the entry was cleared first. -/
def pushed (cleared : Bool) : State :=
  (((busy.setTake 3 none).setCtx 3 { busy.ctx 3 with stack := [⟨49, 4, .directed, .plain⟩] }).setView 3
    [⟨49, 4, .directed, .plain⟩]).setHanded 3 [.hold 49 cleared]

/-- `pushed` with S49 cleared and H3's stack given back since. -/
def evicted : State := ((pushed true).setCtx 3 resetContext).setView 3 []

theorem witness_TheHoldCompletesTheTake :
    (NextHanded (pushed false) 3 Handed.isHold (.hold 49 false) [] ∧ ((pushed false).prog 49).state = .delivering ∧
      hasHost ((pushed false).prog 49).offered 3 = true ∧ ((pushed false).port 3).waiting = some .take) ∧
    (NextHanded (pushed true) 3 Handed.isHold (.hold 49 true) [] ∧ ∃ r ∈ ((pushed true).ctx 3).stack, r.source = 49) ∧
    (NextHanded evicted 3 Handed.isHold (.hold 49 true) [] ∧ (∀ r ∈ (evicted.ctx 3).stack, r.source ≠ 49) ∧
      (evicted.port 3).waiting = some .take) ∧
    (∀ x ∈ busy.handedOf 3, x.isHold = false) ∧
    (waiting.undoOf 3 = some 50 ∧ (waiting.port 3).waiting = some .take ∧ Lawful waiting ∧ waiting.choiceWaits 3 = false) ∧
    busy.undoOf 3 = none :=
  ⟨⟨⟨rfl, [], [], rfl, rfl, by simp⟩, by decide, by decide, by decide⟩, ⟨⟨rfl, [], [], rfl, rfl, by simp⟩, by decide⟩,
    ⟨⟨rfl, [], [], rfl, rfl, by simp⟩, by decide, by decide⟩, by decide,
    ⟨by decide, by decide, waiting_lawful, by decide⟩, by decide⟩
theorem test_hold : after (exec (.takeHold 3) (pushed false))
    (fun t => (t.prog 49).held == 8 && (t.prog 49).offered == 0 && answerIs t 3 4 .ok && (t.port 3).waiting == none) = true := by
  decide
theorem test_hold_cleared_first : after (exec (.takeHold 3) (pushed true))
      (fun t => (t.prog 49).held == 0 && t.undoOf 3 == some 49) = true ∧
    after (exec (.takeHold 3) evicted)
      (fun t => (t.prog 49).held == 0 && answerIs t 3 4 .stale && (t.port 3).waiting == none) = true := by decide
theorem test_undo : after (exec (.takeUndo 3) waiting)
    (fun t => (t.ctx 3).stack == [] && answerIs t 3 4 .stale && (t.slot 3).offer == some ⟨51, 2, .directed, .plain⟩) = true := by
  decide

/-! ### Claims at the Event Table -/

/-- Entries that H0 has finished, released or left: S48 DIRECTED and held, S49 ANY and held, S50 ALL held by H0 and owed by H1 too,
S51 ALL held by H0 alone, S52 ALL offered to H0. -/
def held (xs : List Handed) : State :=
  let s0 := State.setHanded { att with hcu := { att.hcu with ctx := #v[attachedCtx, attachedCtx, resetContext, resetContext] } } 0 xs
  let s1 := placed s0 48 (postedCfg 3 .directed 1 true) (delivering 0 1 none none)
  let s2 := placed s1 49 (postedCfg 2 .any 3 true) (delivering 0 1 none (some 0))
  let s3 := placed s2 50 (postedCfg 2 .all 3 true) (delivering 0 1 (some 3) none)
  let s4 := placed s3 51 (postedCfg 2 .all 1 true) (delivering 0 1 (some 1) none)
  placed s4 52 (postedCfg 1 .directed 1 true) (delivering 1 0 none none)

theorem held_entryLaw (xs : List Handed) : EntryLaw (held xs) := by
  have h : EntryLaw (held []) := ⟨by decide, by decide, by decide⟩
  exact h

/-- `busy` after H0 has ended the service of S52, the Event Table and the Offer Unit yet to be told. -/
def ending (x : Handed) : State := (busy.setCtx 0 { busy.ctx 0 with stack := [] }).setHanded 0 [x]

theorem ending_finish_lawful : Lawful (ending (.finish 52)) :=
  ⟨by decide, ⟨by decide, by decide, by decide⟩, ⟨by decide, by decide, by decide, by decide⟩,
    delegationLaw_of_reset rfl rfl rfl rfl rfl, by decide⟩
theorem ending_release_lawful : Lawful (ending (.release 52 false)) :=
  ⟨by decide, ⟨by decide, by decide, by decide⟩, ⟨by decide, by decide, by decide, by decide⟩,
    delegationLaw_of_reset rfl rfl rfl rfl rfl, by decide⟩

/-- `offers` with the last effect of H1's departure outstanding and its ATTACH waiting for it; H1 owes S52. -/
def returning (x : Handed) : State :=
  ((placed offers 52 (postedCfg 1 .all 2 true) (delivering 0 0 (some 2) none)).setHanded 1 [x]).setPort 1
    { resetPort with waiting := some .attach }

theorem returning_release_lawful : Lawful (returning (.stackRelease 48)) :=
  ⟨by decide, ⟨by decide, by decide, by decide⟩, ⟨by decide, by decide, by decide, by decide⟩,
    delegationLaw_of_reset rfl rfl rfl rfl rfl, by decide⟩
theorem returning_departure_lawful : Lawful (returning (.depart 52)) :=
  ⟨by decide, ⟨by decide, by decide, by decide⟩, ⟨by decide, by decide, by decide, by decide⟩,
    delegationLaw_of_reset rfl rfl rfl rfl rfl, by decide⟩

/-- H0, at threshold 2, has ended the service of S48, an ANY entry for H0 and H1 with its again flag set; H1 is at level 0. -/
def finishing : State :=
  let s0 := State.setHanded { att with hcu := { att.hcu with
    ctx := #v[{ attachedCtx with threshold := 2 }, attachedCtx, resetContext, resetContext] } } 0 [.finish 48]
  placed (s0.setView 0 [⟨48, 3, .any, .plain⟩]) 48 (postedCfg 3 .any 3 true)
    { delivering 0 1 none (some 0) with again := true }

theorem finishing_lawful : Lawful finishing :=
  ⟨by decide, ⟨by decide, by decide, by decide⟩, ⟨by decide, by decide, by decide, by decide⟩,
    delegationLaw_of_reset rfl rfl rfl rfl rfl, by decide⟩

/-- Section 6.6 before step 8: S17 is ANY to H1 and H2, H2 has finished it, its again flag is set and the pointer stands at H2. -/
def sixSix : State :=
  let s0 := State.setHanded { State.reset with
    hcu := { ctx := #v[attachedCtx, attachedCtx, attachedCtx, resetContext], supervisor := 0 }
    ou := { resetOfferUnit with rotation := 2 } } 2 [.finish 17]
  placed (s0.setView 2 [⟨17, 8, .any, .plain⟩]) 17
    { kind := .rising, level := 8, policy := .any, targets := 6, enable := true }
    { delivering 0 4 none (some 0) with again := true }

/-- `s` as the Offer Unit finds it when the news of S17 or S48 is taken: the report of h is taken and its removed record told. -/
def relatched (s : State) (h : HostId) (e : Source) : State := ((s.setHanded h []).finishPart e h).1.tellRemoval h e

/-- What NewsShared asks for is met with several hosts seeking the entry and with one: the arbiter names H1 each time. -/
theorem witness_NewsShared :
    (SettledApart (relatched sixSix 2 17) 2 17 ∧ (relatched sixSix 2 17).seekers 17 = [1, 2] ∧
      (relatched sixSix 2 17).arbitrate [1, 2] = some 1) ∧
    (SettledApart (relatched finishing 0 48) 0 48 ∧ (relatched finishing 0 48).seekers 48 = [0, 1] ∧
      (relatched finishing 0 48).arbitrate [0, 1] = some 1) :=
  ⟨⟨⟨by decide, by decide, by decide, by decide⟩, by decide⟩, ⟨by decide, by decide, by decide, by decide⟩, by decide⟩

theorem witness_FinishAndReleaseReportsAreTaken :
    (EntryLaw (held [.finish 48]) ∧ (∀ x ∈ (held [.finish 48]).handedOf 0, x ≠ .finish 63)) ∧
    (NextHanded (held [.finish 48]) 0 (fun x => x == .finish 48) (.finish 48) [] ∧ ((held [.finish 48]).prog 48).state = .delivering ∧
      hasHost ((held [.finish 48]).prog 48).held 0 = true ∧ ((held [.finish 48]).cfg 48).policy ≠ .all) ∧
    (NextHanded (held [.finish 51]) 0 (fun x => x == .finish 51) (.finish 51) [] ∧ ((held [.finish 51]).cfg 51).policy = .all ∧
      dropHost (((held [.finish 51]).prog 51).owed.getD 0) 0 = 0) ∧
    (NextHanded (held [.finish 50]) 0 (fun x => x == .finish 50) (.finish 50) [] ∧ ((held [.finish 50]).cfg 50).policy = .all ∧
      dropHost (((held [.finish 50]).prog 50).owed.getD 0) 0 ≠ 0) ∧
    (NextHanded (held [.finish 63]) 0 (fun x => x == .finish 63) (.finish 63) [] ∧
      ((held [.finish 63]).prog 63).state ≠ .delivering) ∧
    (NextHanded (ending (.finish 52)) 0 (fun x => x == .finish 52) (.finish 52) [] ∧ Lawful (ending (.finish 52)) ∧
      (ending (.finish 52)).choiceWaits 0 = false) ∧
    (NextHanded finishing 0 (fun x => x == .finish 48) (.finish 48) [] ∧ Lawful finishing ∧
      (finishing.prog 48).state = .delivering ∧ hasHost (finishing.prog 48).held 0 = true ∧ (finishing.cfg 48).policy = .any ∧
      (finishing.prog 48).again = true ∧ (finishing.cfg 48).enable = true ∧ (finishing.bind 48).armed = false) ∧
    (NextHanded ((ending (.finish 52)).setLapse 0 .reported) 0 (fun x => x == .finish 52) (.finish 52) [] ∧
      ((ending (.finish 52)).setLapse 0 .reported).choiceWaits 0 = true) ∧
    (NextHanded (held [.release 49 false]) 0 (fun x => x == .release 49 false || x == .release 49 true) (.release 49 false) []) ∧
    (∀ e ∈ [(48 : Source), 49, 50, 51], ((held []).prog e).state = .delivering ∧ hasHost ((held []).prog e).held 0 = true) ∧
    (((held []).cfg 48).policy = .directed ∧ ((held []).cfg 49).policy = .any ∧ ((held []).cfg 50).policy = .all) ∧
    (hostsWithin ((held []).cfg 49).targets (addHost (((held []).prog 49).decline.getD 0) 0) = false) ∧
    (NextHanded (held [.release 51 true]) 0 (fun x => x == .release 51 false || x == .release 51 true) (.release 51 true) []) ∧
    (NextHanded (ending (.release 52 false)) 0 (fun x => x == .release 52 false || x == .release 52 true) (.release 52 false) [] ∧
      Lawful (ending (.release 52 false)) ∧ (ending (.release 52 false)).choiceWaits 0 = false ∧
      hostsWithin ((ending (.release 52 false)).cfg 52).targets (addHost (((ending (.release 52 false)).prog 52).decline.getD 0) 0) =
        true) ∧
    (∀ x ∈ (held []).handedOf 0, x ≠ .release 48 false ∧ x ≠ .release 48 true) ∧
    (NextHanded (held [.stackRelease 50]) 0 (fun x => match x with | .stackRelease _ => true | _ => false) (.stackRelease 50) [] ∧
      ((held [.stackRelease 50]).port 0).waiting ≠ some .attach) ∧
    (NextHanded (returning (.stackRelease 48)) 1 (fun x => match x with | .stackRelease _ => true | _ => false) (.stackRelease 48) [] ∧
      ((returning (.stackRelease 48)).port 1).waiting = some .attach ∧
      ((returning (.stackRelease 48)).setHanded 1 []).givingBack 1 = false ∧ Lawful (returning (.stackRelease 48)) ∧
      (returning (.stackRelease 48)).choiceWaits 1 = false) ∧
    (∀ x ∈ (held []).handedOf 0, ∀ f : Source, x ≠ .stackRelease f) :=
  ⟨⟨held_entryLaw _, by decide⟩, ⟨⟨rfl, [], [], rfl, rfl, by simp⟩, by decide⟩, ⟨⟨rfl, [], [], rfl, rfl, by simp⟩, by decide⟩,
    ⟨⟨rfl, [], [], rfl, rfl, by simp⟩, by decide⟩, ⟨⟨rfl, [], [], rfl, rfl, by simp⟩, by decide⟩,
    ⟨⟨rfl, [], [], rfl, rfl, by simp⟩, ending_finish_lawful, by decide⟩,
    ⟨⟨rfl, [], [], rfl, rfl, by simp⟩, finishing_lawful, by decide⟩, ⟨⟨rfl, [], [], rfl, rfl, by simp⟩, by decide⟩,
    ⟨rfl, [], [], rfl, rfl, by simp⟩, by decide, by decide, by decide, ⟨rfl, [], [], rfl, rfl, by simp⟩,
    ⟨⟨rfl, [], [], rfl, rfl, by simp⟩, ending_release_lawful, by decide⟩, by decide,
    ⟨⟨rfl, [], [], rfl, rfl, by simp⟩, by decide⟩,
    ⟨⟨rfl, [], [], rfl, rfl, by simp⟩, by decide, by decide, returning_release_lawful, by decide⟩, by decide⟩
theorem test_finish_directed : after (exec (.finishReport 0 48) (held [.finish 48]))
    (fun t => (t.prog 48).state == .idle && t.et.order == [49, 50, 51, 52]) = true ∧
  after (exec (.finishReport 0 52) (ending (.finish 52))) (fun t => t.viewOf 0 == [] && t.viewLevel 0 == 0) = true := by decide
/-- R68, and section 6.6 step 8 by its table: both hosts are candidates, and rotation after H2 gives S17 to H1 (log 4). -/
theorem test_finish_relatch : after (exec (.finishReport 2 17) sixSix)
    (fun t => (t.slot 1).offer == some ⟨17, 8, .any, .plain⟩ && (t.slot 2).offer == none && (t.prog 17).offered == 2 &&
      (t.prog 17).held == 0 && (t.prog 17).decline == some 0 && !(t.prog 17).again && t.ou.rotation == 2) = true := by
  decide
/-- R68: H1 at level 0 is preferred to the finishing host at level 2 (log 4). -/
theorem test_finish_relatch_level : after (exec (.finishReport 0 48) finishing)
    (fun t => (t.slot 0).offer == none && (t.slot 1).offer == some ⟨48, 3, .any, .plain⟩ && (t.prog 48).offered == 2) = true := by
  decide
theorem test_finish_all_others_owe : after (exec (.finishReport 0 50) (held [.finish 50]))
    (fun t => (t.prog 50).state == .delivering && (t.prog 50).owed == some 2 && (t.prog 50).held == 0) = true := by decide

theorem test_release_any : after (exec (.releaseReport 0 49) (held [.release 49 false]))
    (fun t => (t.prog 49).decline == some 1 && (t.slot 1).offer == some ⟨49, 2, .any, .plain⟩) = true := by decide
theorem test_release_lapsed_skips : after (exec (.releaseReport 0 51) (held [.release 51 true]))
    (fun t => (t.prog 51).state == .idle &&
      t.claims.notices == [(.host 0, { kind := .skipped, source := some 51, host := some 0, desc := none, addr := none })]) =
    true := by decide
theorem test_stack_release_still_owed : after (exec (.stackRelease 0) (held [.stackRelease 50]))
    (fun t => (t.prog 50).held == 0 && (t.prog 50).owed == some 3) = true := by decide
theorem test_stack_release_lets_attach : after (exec (.stackRelease 1) (returning (.stackRelease 48)))
    (fun t => (t.ctx 1).session == .attached && answerIs t 1 1 .ok && (t.slot 1).offer == some ⟨50, 3, .directed, .plain⟩) = true := by
  decide

/-- A DETACHED H1 whose ATTACH waits for its last departure. -/
def attaching (xs : List Handed) : State :=
  ((held []).setHanded 1 xs).setPort 1 { resetPort with waiting := some .attach } |>.setCtx 1 resetContext

theorem witness_DeparturesAndWithdrawalsAreTaken :
    (NextHanded (held [.depart 50]) 0 (fun x => match x with | .depart _ => true | _ => false) (.depart 50) [] ∧
      EntryLaw (held [.depart 50]) ∧ ((held [.depart 50]).port 0).waiting ≠ some .attach ∧
      ((held [.depart 50]).prog 50).state = .delivering ∧ hasHost (((held [.depart 50]).prog 50).owed.getD 0) 0 = true ∧
      dropHost (((held [.depart 50]).prog 50).owed.getD 0) 0 ≠ 0) ∧
    (NextHanded (held [.depart 51]) 0 (fun x => match x with | .depart _ => true | _ => false) (.depart 51) [] ∧
      dropHost (((held [.depart 51]).prog 51).owed.getD 0) 0 = 0) ∧
    (NextHanded (attaching [.depart 63]) 1 (fun x => match x with | .depart _ => true | _ => false) (.depart 63) [] ∧
      ((attaching [.depart 63]).port 1).waiting = some .attach ∧
      ((attaching [.depart 63]).setHanded 1 []).givingBack 1 = false ∧ ((attaching [.depart 63]).prog 63).state ≠ .delivering) ∧
    (NextHanded (returning (.depart 52)) 1 (fun x => match x with | .depart _ => true | _ => false) (.depart 52) [] ∧
      ((returning (.depart 52)).port 1).waiting = some .attach ∧
      ((returning (.depart 52)).setHanded 1 []).givingBack 1 = false ∧ Lawful (returning (.depart 52)) ∧
      (returning (.depart 52)).choiceWaits 1 = false ∧ ((returning (.depart 52)).prog 52).state = .delivering ∧
      hasHost (((returning (.depart 52)).prog 52).owed.getD 0) 1 = true) ∧
    (∀ x ∈ (held []).handedOf 0, ∀ f : Source, x ≠ .depart f) ∧
    (NextHanded (held [.withdraw 52]) 0 (fun x => match x with | .withdraw _ => true | _ => false) (.withdraw 52) [] ∧
      ((held [.withdraw 52]).prog 52).state = .delivering ∧ hasHost ((held [.withdraw 52]).prog 52).offered 0 = true ∧
      ((held [.withdraw 52]).prog 63).state ≠ .delivering) ∧
    (∀ x ∈ (held []).handedOf 0, ∀ f : Source, x ≠ .withdraw f) :=
  ⟨⟨⟨rfl, [], [], rfl, rfl, by simp⟩, held_entryLaw _, by decide⟩, ⟨⟨rfl, [], [], rfl, rfl, by simp⟩, by decide⟩,
    ⟨⟨rfl, [], [], rfl, rfl, by simp⟩, by decide⟩,
    ⟨⟨rfl, [], [], rfl, rfl, by simp⟩, by decide, by decide, returning_departure_lawful, by decide⟩, by decide,
    ⟨⟨rfl, [], [], rfl, rfl, by simp⟩, by decide⟩, by decide⟩

/-- The asserted ALL entry S0, which the detached H1 alone still owes. -/
def lastOwed : State :=
  (placed { att with lines := 1 } 0 { kind := .levelHigh, level := 2, policy := .all, targets := 2, enable := true }
    (delivering 0 0 (some 2) none)).setHanded 1 [.depart 0]

theorem test_departure : after (exec (.owedDeparture 0) (held [.depart 50]))
    (fun t => (t.prog 50).owed == some 2 && (t.prog 50).held == 0 && t.claims.notices.length == 1) = true ∧
  after (exec (.owedDeparture 1) lastOwed)
    (fun t => (t.prog 0).state == .latched && (t.prog 0).hold && t.claims.notices ==
      [(.host 1, deliveryNotice .skipped (some 0) (some 1)), (.host 1, deliveryNotice .undelivered (some 0) none)]) = true := by decide
theorem test_departure_lets_attach : after (exec (.owedDeparture 1) (attaching [.depart 63]))
    (fun t => (t.ctx 1).session == .attached && answerIs t 1 1 .ok && (t.slot 1).offer == some ⟨50, 2, .all, .plain⟩) = true := by
  decide
theorem test_withdrawal : after (exec (.withdrawalReport 0) (held [.withdraw 52]))
    (fun t => t.handedOf 0 == [] && (t.slot 0).offer == some ⟨52, 1, .directed, .plain⟩) = true := by decide

/-! ### Run results -/

/-- S1 (EACH_RUN, two runs left) and S3 (AT_LAST, its last run) on C0 or C1 with a result reported. -/
def reported (e : Source) (r : RunResult) (deliver : Deliver) (left : Fin 65536) (reload : Option (Fin 65536)) : State :=
  let s0 := State.setChannel { att with claims := { att.claims with reports := #v[some r, none] } } 0
    { resetChannel with running := true, entry := some e, reported := true }
  let s1 := placed s0 e { kind := .rising, level := 2, policy := .directed, targets := 1, enable := true }
    { resetProgress with state := .running, disarmPending := e == 3 }
  let s2 := s1.setBind e { head := some 0, runsLeft := left, reload := reload, deliver := deliver, armed := true }
  s2.setPort 0 { resetPort with working := true, pendingDisarm := some e }

theorem witness_ARunResultIsTakenByTheEntry :
    (EntryLaw (reported 1 .success .eachRun 2 none) ∧ ((reported 1 .success .eachRun 2 none).channel 0).entry = some 1 ∧
      ((reported 1 .success .eachRun 2 none).prog 1).state = .running ∧
      look (reported 1 .success .eachRun 2 none).claims.reports 0 = some .success ∧
      ((reported 1 .success .eachRun 2 none).bind 1).runsLeft - 1 ≠ 0) ∧
    (EntryLaw (reported 3 .success .atLast 1 (some 65535)) ∧
      ((reported 3 .success .atLast 1 (some 65535)).bind 3).runsLeft - 1 = 0) ∧
    (EntryLaw (reported 1 .success .quiet 65535 none) ∧ ((reported 1 .success .quiet 65535 none).bind 1).deliver = .quiet) ∧
    (EntryLaw (reported 1 .failure .quiet 1 none) ∧ look (reported 1 .failure .quiet 1 none).claims.reports 0 = some .failure ∧
      ∀ x ∈ (reported 1 .failure .quiet 1 none).claims.notices, x.1 ≠ .channel 0) ∧
    (EntryLaw (reported 1 .cut .quiet 1 none) ∧ look (reported 1 .cut .quiet 1 none).claims.reports 0 = some .cut) :=
  ⟨⟨⟨by decide, by decide, by decide⟩, by decide⟩, ⟨⟨by decide, by decide, by decide⟩, by decide⟩,
    ⟨⟨by decide, by decide, by decide⟩, by decide⟩, ⟨⟨by decide, by decide, by decide⟩, by decide⟩,
    ⟨⟨by decide, by decide, by decide⟩, by decide⟩⟩
theorem test_success_each_run : after (exec (.runSuccess 0) (reported 1 .success .eachRun 2 none))
    (fun t => (t.bind 1).runsLeft == 1 && (t.bind 1).armed && (t.slot 0).offer == some ⟨1, 2, .directed, .ran⟩ &&
      answerIs t 0 0 .ok && !(t.port 0).working && look t.claims.releases 0 == some false) = true := by decide
theorem test_success_at_last_reloads : after (exec (.runSuccess 0) (reported 3 .success .atLast 1 (some 65535)))
    (fun t => (t.bind 3).runsLeft == 65535 && !(t.bind 3).armed && (t.slot 0).offer == some ⟨3, 2, .directed, .ranLast⟩) = true := by
  decide
theorem test_failure : after (exec (.runFailure 0) (reported 1 .failure .quiet 1 none))
    (fun t => (t.bind 1).runsLeft == 1 && !(t.bind 1).armed && (t.slot 0).offer == some ⟨1, 2, .directed, .failed⟩) = true := by
  decide
theorem test_cut : after (exec (.runCut 0) (reported 1 .cut .quiet 1 none))
    (fun t => (t.slot 0).offer == some ⟨1, 2, .directed, .cut⟩ && look t.claims.reports 0 == none) = true := by decide

/-! ### Channels -/

/-- Both channels carry entries. -/
def full : State := running.setChannel 1 { resetChannel with running := true, entry := some 5, position := .arriving 7 }

theorem witness_AnInsertionJoinsTheListOrAChannel :
    (1 ∉ running.claims.inserts) ∧
    (2 ∈ full.claims.inserts ∧ full.carried 2 = false ∧ ¬(full.channel 0).running = false ∧ ¬(full.channel 1).running = false) ∧
    (2 ∈ running.claims.inserts ∧ running.carried 2 = false ∧ running.du.list = [] ∧ 2 ∈ running.et.order ∧
      (running.bind 2).head = some 3 ∧ (running.channel 1).running = false ∧
      ¬(running.channel (1 + 1)).running = false) := by decide
theorem test_insert_granted : after (exec (.delegationInsert 2) running)
    (fun t => (t.channel 1).position == .arriving 3 && (t.prog 2).state == .running && t.du.lastGrant == 1 && t.du.list == []) =
    true := by decide
theorem test_insert_waits : after (exec (.delegationInsert 2) full) (fun t => t.du.list == [2]) = true := by decide

/-- C0's release is handed on, with the list as given. -/
def releasing (again : Bool) (l : List Source) : State :=
  let s := State.setChannel { running with du := { running.du with list := l } } 0
    { resetChannel with running := true, entry := some 1, reported := true }
  { s with claims := { s.claims with releases := #v[some again, none], inserts := [] } }

theorem witness_AReleasedChannelTakesTheBest :
    look running.claims.releases 0 = none ∧ look (releasing false []).claims.releases 0 = some false ∧
    (look (releasing false [2]).claims.releases 0 = some false ∧ IsBestOf (releasing false [2]) [2] 2 ∧
      ((releasing false [2]).bind 2).head = some 3) ∧
    (look (releasing true [2]).claims.releases 0 = some true ∧ IsBestOf (releasing true [2]) [2, 1] 1 ∧
      ((releasing true [2]).bind 1).head = some 0) :=
  ⟨by decide, by decide, ⟨by decide, ⟨by decide, by decide, by decide⟩, by decide⟩,
    ⟨by decide, ⟨by decide, by decide, by decide⟩, by decide⟩⟩
theorem test_release_grants_arrival_order : after (exec (.channelRelease 0) (releasing true [2]))
    (fun t => (t.channel 0).entry == some 1 && (t.channel 0).position == .arriving 0 && t.du.list == [2]) = true := by decide
theorem test_release_frees : after (exec (.channelRelease 0) (releasing false []))
    (fun t => t.channel 0 == resetChannel && look t.claims.releases 0 == none) = true := by decide

/-- C1 arrives at a descriptor. -/
def arriving (d : DescId) (x : Descriptor) (cut : Bool) : State :=
  (running.setChannel 1 { resetChannel with running := true, entry := some 2, position := .arriving d, cutMark := cut }).setDesc d x

theorem witness_AnArrivalAtADescriptorIsJudged :
    (((arriving 3 fullDesc true).channel 1).position = .arriving 3 ∧ ((arriving 3 fullDesc true).channel 1).cutMark = true) ∧
    (((arriving 3 fullDesc false).channel 1).cutMark = false ∧ ((arriving 3 fullDesc false).desc 3).faulted = true) ∧
    (((arriving 0 (running.desc 0) false).desc 0).valid = true ∧ ((arriving 0 (running.desc 0) false).desc 0).faulted = false ∧
      ((arriving 0 (running.desc 0) false).desc 0).active = true) ∧
    (((arriving 3 { fullDesc with faulted := false } false).desc 3).valid = true ∧
      ((arriving 3 { fullDesc with faulted := false } false).desc 3).faulted = false ∧
      ((arriving 3 { fullDesc with faulted := false } false).desc 3).active = false) ∧
    (∀ d : DescId, (running.channel 1).position ≠ .arriving d ∧ (running.channel 1).position ≠ .waiting d) := by decide
theorem test_arrival_faulted : after (exec (.descriptorArrival 1) (arriving 3 fullDesc false))
    (fun t => look t.claims.reports 1 == some .failure && (t.channel 1).reported &&
      t.claims.notices == [(.channel 1, { kind := .descBad, source := some 2, host := some 3, desc := some 3, addr := none })]) =
    true := by decide
theorem test_arrival : after (exec (.descriptorArrival 1) (arriving 3 { fullDesc with faulted := false } false))
    (fun t => (t.desc 3).active && (t.channel 1).position == .executing 3 && (t.channel 1).phase == .checking) = true := by decide

/-! ### Units: windows and memory -/

theorem witness_AUnitIsCheckedAgainstTheWindows :
    ((running.channel 0).phase = .checking ∧ (running.channel 0).position = .executing 0 ∧ (running.desc 0).owner = some 0) ∧
    (decidingWindow (running.windows 0) (running.desc 0).src = some 1 ∧ (look (running.windows 0) 1).access ≠ .none ∧
      decidingWindow (running.windows 0) (running.desc 0).dst = some 2 ∧ (look (running.windows 0) 2).access = .readWrite) ∧
    decidingWindow (running.windows 0) 0x2000 = none ∧ (look (running.windows 0) 1).access ≠ .readWrite ∧
    (running.channel 1).phase ≠ .checking := by decide
theorem test_check_passes : after (exec (.unitCheck 0) running) (fun t => (t.channel 0).phase == .waitingPort) = true := by decide
theorem test_check_write_fails : after (exec (.unitCheck 0) (running.setDesc 0 { running.desc 0 with dst := 0x1FFE }))
    (fun t => (t.desc 0).faulted && !(t.desc 0).active &&
      t.claims.notices ==
        [(.channel 0, { kind := .windowWrite, source := some 1, host := some 0, desc := some 0, addr := some 0x1FFE })]) = true := by
  decide

/-- C0's unit waits for the port. -/
def asking : State := running.setChannel 0 { running.channel 0 with phase := .waitingPort }
/-- C0's unit is in flight: reading, or writing the data read. -/
def inFlight (isWrite : Bool) : State :=
  { (running.setChannel 0 { running.channel 0 with phase := if isWrite then .writing else .reading }) with
    mp := { grant := some 0
            access := some { isWrite := isWrite, addr := if isWrite then 0xFFFFFFFE else 0x1002, size := 2, tag := 15, deadline := 64 }
            heldData := if isWrite then some 7 else none
            alternation := 0
            tagCounter := 0 } }

theorem witness_TheMemoryPortAlternates :
    (inFlight false).mp.grant ≠ none ∧ (∀ c : ChannelId, (running.channel c).phase ≠ .waitingPort) ∧
    (asking.mp.grant = none ∧ (asking.channel 0).phase = .waitingPort ∧ (asking.channel 0).position = .executing 0 ∧
      (asking.channel (0 + 1)).phase ≠ .waitingPort) := by decide
theorem test_grant : after (exec .memoryGrant asking)
    (fun t => t.mp.grant == some 0 && t.mp.alternation == 0 && t.mp.tagCounter == 1 &&
      t.mp.access == some { isWrite := false, addr := 0x1002, size := 2, tag := 0, deadline := 64 }) = true := by decide

/-- An access whose deadline has passed. -/
def late (isWrite : Bool) : State := { inFlight isWrite with tb := { (inFlight isWrite).tb with micros := 65 } }

theorem witness_AReadResponseIssuesTheWrite :
    running.mp.access = none ∧ (∀ a ∈ (inFlight false).mp.access, a.tag ≠ 14) ∧
    (∀ a ∈ (late false).mp.access, a.tag = 15 ∧ a.deadline < (late false).tb.micros) ∧
    (∀ a ∈ (inFlight false).mp.access, (inFlight false).tb.micros ≤ a.deadline) ∧
    ((inFlight false).mp.access = some { isWrite := false, addr := 0x1002, size := 2, tag := 15, deadline := 64 } ∧
      (inFlight false).mp.grant = some 0 ∧ ((inFlight false).channel 0).position = .executing 0) := by decide
theorem test_read_response : after (exec (.memoryResponse 14 true 0) (inFlight true)) (fun t => decide (t = inFlight true)) = true ∧
    after (exec (.memoryResponse 15 false 0) (late true)) (fun t => decide (t = late true)) = true ∧
    after (exec (.memoryResponse 15 false 0xABCD) (inFlight false)) (fun t => t.mp.heldData == some 0xABCD && (t.channel 0).phase == .writing &&
      t.mp.access == some { isWrite := true, addr := 0xFFFFFFFE, size := 2, tag := 0, deadline := 64 }) = true := by decide

theorem witness_AWriteResponseEndsTheUnit :
    ((inFlight true).mp.access = some { isWrite := true, addr := 0xFFFFFFFE, size := 2, tag := 15, deadline := 64 } ∧
      (inFlight true).mp.grant = some 0 ∧ ((inFlight true).channel 0).position = .executing 0 ∧
      ((inFlight true).desc 0).owner = some 0 ∧ (inFlight true).executing (0 + 1) ≠ some 0 ∧
      ((inFlight true).channel (0 + 1)).phase ≠ .waitingPort) ∧
    (((inFlight true).channel 0).cutMark = false ∧ ((inFlight true).desc 0).runLength ≤ ((inFlight true).channel 0).units + 1 ∧
      ((inFlight true).desc 0).link = none) ∧
    (let s := (inFlight true).setDesc 0 { (inFlight true).desc 0 with runLength := 4096, link := some 0 }
     ((s.channel 0).units + 1 < (s.desc 0).runLength ∧ (s.desc 0).link = some 0)) ∧
    (15 + 1 : Nat) ≥ 16 ∧ (14 + 1 : Nat) < 16 ∧
    (inFlight true).tb.micros ≤ 64 ∧
    (let s := (inFlight true).setChannel 0 { (inFlight true).channel 0 with cutMark := true }
     (s.channel 0).cutMark = true ∧ (s.desc 0).runLength ≤ (s.channel 0).units + 1 ∧ (s.desc 0).link = none ∧
      ((s.setDesc 0 { s.desc 0 with link := some 0 }).desc 0).link ≠ none ∧
      (s.channel 0).units + 1 < ((s.setDesc 0 { s.desc 0 with runLength := 2 }).desc 0).runLength) := by decide
theorem test_write_response : after (exec (.memoryResponse 15 false 0) (inFlight true))
    (fun t => (t.desc 0).src == 0x1000 && (t.desc 0).dst == 0 && !(t.desc 0).active && look t.claims.reports 0 == some .success &&
      look t.claims.writes 0 == [(0, 0xFFFFFFFE)] && t.mp.grant == none) = true ∧
  after
    (exec (.memoryResponse 15 false 0) (((inFlight true).setDesc 0 { (inFlight true).desc 0 with link := some 9 }).setChannel 0
      { (inFlight true).channel 0 with completed := 15 }))
    (fun t => look t.claims.reports 0 == some .failure &&
      t.claims.notices == [(.channel 0, { kind := .chainLong, source := some 1, host := some 0, desc := some 9, addr := none })]) =
    true ∧
  after (exec (.memoryResponse 15 false 0) ((inFlight true).setChannel 0 { (inFlight true).channel 0 with cutMark := true }))
    (fun t => look t.claims.reports 0 == some .success) = true := by decide

theorem witness_AFailedAccessFailsTheUnit :
    running.mp.access = none ∧
    ((inFlight true).mp.access = some { isWrite := true, addr := 0xFFFFFFFE, size := 2, tag := 15, deadline := 64 } ∧
      (inFlight true).mp.grant = some 0 ∧ ((inFlight true).channel 0).position = .executing 0 ∧
      (inFlight true).executing (0 + 1) ≠ some 0 ∧ ((inFlight true).channel (0 + 1)).phase ≠ .waitingPort ∧
      (inFlight true).tb.micros ≤ 64) := by decide
theorem test_timeout : after (exec .memoryTimeout (inFlight false))
    (fun t => (t.desc 0).faulted && (t.desc 0).src == 0x1002 && t.tb.micros == 64 && t.mp.grant == none &&
      t.claims.notices ==
        [(.channel 0, { kind := .memTimeout, source := some 1, host := some 0, desc := some 0, addr := some 0x1002 })]) = true := by
  decide

/-- A write of C0 is to be recorded. -/
def wrote (a : Addr) : State := { running with claims := { running.claims with writes := #v[[(0, a)], []] } }

theorem witness_AWriteRecordMarksTheDecidingWindow :
    look running.claims.writes 0 = [] ∧
    (look (wrote 0x2000).claims.writes 0 = [(0, 0x2000)] ∧ ∀ k : Fin 8, (look (running.windows 0) k).contains 0x2000 = false) ∧
    (look (wrote 0xFFFFF000).claims.writes 0 = [(0, 0xFFFFF000)] ∧ (look (running.windows 0) 2).contains 0xFFFFF000 = true ∧
      ∀ j : Fin 8, j < 2 → (look (running.windows 0) j).contains 0xFFFFF000 = false) := by decide
theorem test_write_record : after (exec (.writeRecord 0) (wrote 0xFFFFF000))
    (fun t => (look (t.windows 0) 2).written && !(look (t.windows 0) 1).written && look t.claims.writes 0 == []) = true := by decide

/-- A cut of S1 is asked for. -/
def cutting (s : State) (stale : Bool) : State := { s with claims := { s.claims with cuts := [⟨1, stale⟩] } }

theorem witness_ACutRequestStopsTheChannel :
    ((cutting running true).claims.cuts = [] ++ { source := 1, stale := true } :: []) ∧
    ((cutting running false).claims.cuts = [] ++ { source := 1, stale := false } :: [] ∧
      ((cutting running false).channel 0).entry = some 1 ∧ ((cutting running false).channel (0 + 1)).entry ≠ some 1 ∧
      ((cutting running false).channel 0).reported = false ∧ ((cutting running false).channel 0).phase = .checking) ∧
    (((cutting asking false).channel 0).phase = .waitingPort ∧ (cutting asking false).executing 0 = some 0) ∧
    (let s := running.setChannel 0 { running.channel 0 with position := .waiting 9, phase := .idle }
     (s.channel 0).phase = .idle ∧ s.executing 0 = none) ∧
    (cutting (releasing false []) false).carried 1 = true ∧ ((releasing false []).channel 0).reported = true := by decide
theorem test_cut_marks : after (exec (.cutRequest 1) (cutting running false))
    (fun t => (t.channel 0).cutMark && (t.channel 0).phase == .checking && t.claims.cuts == []) = true := by decide
theorem test_cut_stops : after (exec (.cutRequest 1) (cutting asking false))
    (fun t => look t.claims.reports 0 == some .cut && !(t.desc 0).active && !(t.desc 0).faulted) = true := by decide

/-! ### Notices -/

/-- A notice of H0's sequence waits, behind one of H1's; the queue holds n records. -/
def notices (n : Nat) : State :=
  { att with
    nq := { records := List.replicate n (deliveryNotice .parked none none), overflow := 255 }
    claims := { att.claims with
      notices := [(.host 1, deliveryNotice .lapsed none (some 1)), (.host 0, deliveryNotice .evicted none (some 0))] } }

theorem witness_AnAppendIsTakenByTheFill :
    (∀ n ∈ [0, 1, 15, 16], (notices n).claims.notices =
      [(.host 1, deliveryNotice .lapsed none (some 1))] ++ (.host 0, deliveryNotice .evicted none (some 0)) :: [] ∧
      (notices n).nq.records.length = n) ∧
    (∀ x ∈ [(Origin.host 1, deliveryNotice .lapsed none (some 1))], x.1 ≠ .host 0) := by decide
theorem test_append_first : after (exec (.noticeAppend (.host 0)) (notices 0))
    (fun t => t.nq.records == [deliveryNotice .evicted none (some 0)] && t.claims.levels == [true] && t.claims.notices.length == 1) =
    true := by decide
theorem test_append_dropped : after (exec (.noticeAppend (.host 0)) (notices 16))
    (fun t => t.nq.records.length == 16 && t.nq.overflow == 255 && t.claims.levels == []) = true := by decide

/-- Changes of S63's level wait; S63 is IDLE, or LATCHED with its level hold mark set. -/
def levels (up hold enable : Bool) : State :=
  let s : State := { att with claims := { att.claims with levels := [up] } }
  let c : EntryConfig := { kind := .notice, level := 1, policy := .directed, targets := 1, enable := enable }
  if hold then placed s 63 c { resetProgress with state := .latched, hold := true } else s.setCfg 63 c

theorem witness_S63LevelChangesAreTaken :
    ((∃ x ∈ (notices 3).claims.notices, x.1 = .host 1) ∧ ∃ t : State, exec (.noticeAppend (.host 1)) (notices 3) = .next t) ∧
    ((∀ x ∈ (notices 15).claims.notices, x.1 ≠ .entry 63) ∧ (notices 15).nq.records.length < 16 ∧
      16 ≤ (notices 16).nq.records.length ∧ (255 : Fin 256).val = min 255 ((notices 16).nq.overflow.val + 1)) ∧
    ((62 : Source) ≠ 63) ∧
    (EntryLaw att ∧ att.claims.levels = []) ∧
    (EntryLaw (levels true false true) ∧ (levels true false true).claims.levels = true :: [] ∧
      ((levels true false true).prog 63).state = .idle) ∧
    (EntryLaw (levels true true true) ∧ ((levels true true true).prog 63).state ≠ .idle) ∧
    (EntryLaw (levels false true true) ∧ (levels false true true).claims.levels = false :: [] ∧
      ((levels false true true).prog 63).hold = true ∧ ((levels false true true).cfg 63).enable = true) ∧
    (EntryLaw (levels false true false) ∧ ((levels false true false).cfg 63).enable = false) ∧
    (EntryLaw (levels false false true) ∧ ((levels false false true).prog 63).hold = false) :=
  ⟨⟨by decide, _, rfl⟩, by decide, by decide,
    ⟨⟨by decide, by decide, by decide⟩, by decide⟩, ⟨⟨by decide, by decide, by decide⟩, by decide⟩,
    ⟨⟨by decide, by decide, by decide⟩, by decide⟩, ⟨⟨by decide, by decide, by decide⟩, by decide⟩,
    ⟨⟨by decide, by decide, by decide⟩, by decide⟩, ⟨⟨by decide, by decide, by decide⟩, by decide⟩⟩
theorem test_s63_asserted : after (exec .noticeLevelChange (levels true false true))
    (fun t => (t.slot 0).offer == some ⟨63, 1, .directed, .plain⟩ && t.claims.levels == []) = true := by decide
theorem test_note_on_s63 :
    (((notices 3).noteOn 63 (.host 1) (deliveryNotice .parked (some 63) (some 1))).nq.records.drop 3 ==
      [deliveryNotice .lapsed none (some 1), deliveryNotice .parked (some 63) (some 1)]) = true := by decide

/-! ### Laws -/

/-- A lawful state whose step has a next state meets the hypotheses of every statement of a law that every step keeps. -/
theorem witness_EveryStepKeepsTheLaws : Lawful busy ∧ ∃ t : State, step busy = .next t := ⟨busy_lawful, _, rfl⟩
theorem witness_OnlyTheSupervisorChangesWindows :
    (∃ t : State, exec (.writeRecord 0) (wrote 0xFFFFF000) = .next t) ∧ Instr.writeRecord 0 ≠ .fullReset ∧
    (∀ object sub : Operand, Instr.writeRecord 0 = .writeWindow (wrote 0xFFFFF000).hcu.supervisor object sub →
      object.toNat ≠ 0 ∨ sub.toNat ≠ 0) :=
  ⟨⟨_, rfl⟩, by decide, fun _ _ h => by simp at h⟩
theorem witness_DetachedIsLeftByAttachAlone :
    (∃ t : State, exec (.attach 1) offers = .next t ∧ (t.ctx 1).session ≠ .detached) ∧ (offers.ctx 1).session = .detached :=
  ⟨⟨_, rfl, by decide⟩, by decide⟩

/-! ### What the host and the board see -/

theorem witness_PortReadsAndSignalsShowTheState :
    ((busy.slot 1).offer = none ∧ (busy.slot 0).offer = some ⟨48, 3, .directed, .plain⟩) ∧ (busy.ctx 0).stack.length ≤ 8 ∧
    busy.mp.access = none ∧
    (∀ a ∈ (inFlight true).mp.access, (a.size = 2 ∧ (2 : BitVec 2) = 2)) ∧ (inFlight true).mp.access ≠ none := by decide
theorem test_read_views :
    readPort busy 0 1 = 0 ∧ readPort busy 0 2 = 0x01133001 ∧ readPort busy 0 3 = 0x40111 ∧ busy.intLines = 0b1110 ∧
    (inFlight true).memoryRequest = some (0xFFFFFFFE, 2, true, 15, some 7) := by decide

end Sys2Proof.Tests
end

section
/-! Full reset: the records it leaves, the laws that they keep, and its release. -/

open Sys2Proof Sys2Proof.Machine

namespace Sys2Proof.Machine

/-! ### The records after full reset -/

@[simp] theorem reset_entry (e : Source) : State.reset.entry e = resetEntry e := look_ofFn resetEntry e
@[simp] theorem reset_cfg (e : Source) :
    State.reset.cfg e = { kind := resetKind e, level := 0, policy := .directed, targets := 1, enable := false } :=
  congrArg Entry.cfg (reset_entry e)
@[simp] theorem reset_bind (e : Source) : State.reset.bind e = resetBinding := congrArg Entry.bind (reset_entry e)
@[simp] theorem reset_prog (e : Source) : State.reset.prog e = resetProgress := congrArg Entry.prog (reset_entry e)
@[simp] theorem reset_ctx (h : HostId) : State.reset.ctx h = resetContext := look_replicate _ h
@[simp] theorem reset_slot (h : HostId) : State.reset.slot h = { offer := none, timer := none } := look_replicate _ h
@[simp] theorem reset_viewOf (h : HostId) : State.reset.viewOf h = [] := look_replicate _ h
@[simp] theorem reset_handedOf (h : HostId) : State.reset.handedOf h = [] := look_replicate _ h
@[simp] theorem reset_takeOf (h : HostId) : State.reset.takeOf h = none := look_replicate _ h
@[simp] theorem reset_undoOf (h : HostId) : State.reset.undoOf h = none := look_replicate _ h
@[simp] theorem reset_channel (c : ChannelId) : State.reset.channel c = resetChannel := look_replicate _ c
@[simp] theorem reset_desc (d : DescId) : State.reset.desc d = resetDescriptor := look_replicate _ d
@[simp] theorem reset_port (h : HostId) : State.reset.port h = resetPort := look_replicate _ h
@[simp] theorem reset_window (h : HostId) (k : Fin 8) : look (State.reset.windows h) k = resetWindow := by
  simp [State.windows, State.reset, resetBlocks]
@[simp] theorem reset_reports (c : ChannelId) : look State.reset.claims.reports c = none := look_replicate _ c
@[simp] theorem reset_releases (c : ChannelId) : look State.reset.claims.releases c = none := look_replicate _ c
@[simp] theorem reset_executing (c : ChannelId) : State.reset.executing c = none := by
  simp [State.executing, resetChannel]

@[simp] theorem reset_order : State.reset.et.order = [] := rfl
@[simp] theorem reset_list : State.reset.du.list = [] := rfl
@[simp] theorem reset_inserts : State.reset.claims.inserts = [] := rfl
@[simp] theorem reset_mp : State.reset.mp = resetMemoryPort := rfl

/-! ### The laws at full reset -/

/-- Every host stands DETACHED, with no offer, stack or claim. -/
theorem reset_hostLaw : HostLaw State.reset := fun h => by
  refine ⟨?_, ?_, ?_, ?_, ?_⟩
  · simp [StackLaw, resetContext]
  · simp [ViewLaw, StackLaw, resetContext]
  · simp [SlotLaw]
  · simp [ClaimLaw]
  · simp [SessionLaw, resetContext]

/-- The kinds of full reset are those that the classes allow (R1, R2). -/
theorem resetKind_allowed (e : Source) : kindAllowed e (resetKind e) = true := by
  unfold kindAllowed resetKind
  split
  · rfl
  · split <;> rfl

/-- Every entry is IDLE and disarmed, and no list holds one. -/
theorem reset_entryLaw : EntryLaw State.reset := by
  refine ⟨fun e => ⟨?_, ?_, ?_⟩, ?_, ?_⟩
  · have htarget : isOneHost 1#4 = true := by decide
    simp [ConfigLaw, resetKind_allowed, htarget]
  · simp [BindingLaw, resetBinding, resetProgress]
  · simp [ProgressLaw, resetProgress]
  · simp [OrderLaw, resetProgress]
  · simp [QueuedLaw, State.waitingForChannel, State.reinserted, resetProgress]

/-- No host is offered or holds an entry, and no claim is on its way. -/
theorem reset_deliveryLaw : DeliveryLaw State.reset := by
  refine ⟨fun h => ⟨?_, ?_⟩, fun h => ⟨?_, ?_, ?_, ?_⟩, fun h => ?_, fun e => ⟨?_, ?_⟩⟩
  · simp [CopyLaw]
  · simp [HandedLaw, resetContext]
  · simp [PendingLaw]
  · simp
  · simp
  · simp
  · simp [SettledLaw]
  · simp [PartsLaw, resetProgress, hasHost, hostsWithin]
  · simp [DeclineLaw, resetProgress]

/-- No channel runs, no descriptor is valid and no access is outstanding. -/
theorem reset_delegationLaw : DelegationLaw State.reset := by
  refine ⟨fun d => ?_, fun c => ?_, ?_, ?_⟩
  · simp [DescriptorLaw, resetDescriptor]
  · simp [ChannelLaw, resetChannel]
  · simp [ActiveLaw, resetDescriptor]
  · simp [MemoryLaw, resetMemoryPort, resetChannel]

/-- Every window is the page 0 with no access, the Notice Queue is empty and every port is READY. -/
theorem reset_boardLaw : BoardLaw State.reset := by
  refine ⟨fun h k => ?_, ?_, fun h => ?_⟩
  · simp [WindowLaw, resetWindow, Config.maxPageCount, Config.pageLimit]
  · exact Nat.zero_le _
  · simp [PortLaw, resetPort]

end Sys2Proof.Machine

/-- Settles O52: each block's reset values keep its laws. -/
theorem resetIsLawful : Obligations.ResetIsLawful :=
  ⟨reset_hostLaw, reset_entryLaw, reset_deliveryLaw, reset_delegationLaw, reset_boardLaw⟩

/-- Settles O29: full reset is the state of reset with what it does not set kept, and only a release after it loads anything. -/
theorem fullResetClearsEveryBlock : Obligations.FullResetClearsEveryBlock := by
  intro s
  refine ⟨rfl, fun evt clksel supsel => ⟨fun hlow => ?_, fun hhigh => ?_⟩⟩
  · change execFullResetRelease evt clksel supsel s = _
    rw [execFullResetRelease, if_pos hlow]
  · change execFullResetRelease evt clksel supsel s = _
    rw [execFullResetRelease, if_neg (by simp [hhigh])]
end

section
/-! Words assembled from fields at bit positions, and their fields read back (R177). -/

open Sys2Proof Sys2Proof.Machine

namespace Sys2Proof

/-- The number that (bit position, value) pairs assemble. -/
def packNat (fs : List (Nat × Nat)) : Nat := fs.foldr (fun f acc => f.2 * 2 ^ f.1 + acc) 0

theorem packWord_eq (fs : List (Nat × Nat)) : packWord fs = BitVec.ofNat 32 (packNat fs) := rfl

/-- A layout of (bit position, width, value) fields: ascending from bit `lo` without overlap, every value within its width, the last
field ending at bit `hi` or below. -/
def Layout (hi : Nat) : Nat → List (Nat × Nat × Nat) → Prop
  | lo, [] => lo ≤ hi
  | lo, f :: fs => lo ≤ f.1 ∧ f.2.2 < 2 ^ f.2.1 ∧ Layout hi (f.1 + f.2.1) fs

/-- The pairs that a layout assembles. -/
def placedFields (fs : List (Nat × Nat × Nat)) : List (Nat × Nat) := fs.map fun f => (f.1, f.2.2)

/-- The fields from bit `lo` up assemble a multiple of 2^lo. -/
theorem Layout.dvd {hi lo : Nat} {fs : List (Nat × Nat × Nat)} (h : Layout hi lo fs) : 2 ^ lo ∣ packNat (placedFields fs) := by
  induction fs generalizing lo with
  | nil => exact dvd_zero _
  | cons f fs ih =>
    obtain ⟨hlo, -, hrest⟩ := h
    have htail : 2 ^ lo ∣ packNat (placedFields fs) := (pow_dvd_pow 2 (by omega)).trans (ih hrest)
    exact dvd_add (dvd_mul_of_dvd_right (pow_dvd_pow 2 hlo) _) htail

/-- Every field of a layout stands between its bounds. -/
theorem Layout.bounds {hi lo : Nat} {fs : List (Nat × Nat × Nat)} (h : Layout hi lo fs) :
    lo ≤ hi ∧ ∀ f ∈ fs, lo ≤ f.1 ∧ f.1 + f.2.1 ≤ hi := by
  induction fs generalizing lo with
  | nil => exact ⟨h, by simp⟩
  | cons f fs ih =>
    obtain ⟨hlo, -, hrest⟩ := h
    obtain ⟨htop, hall⟩ := ih hrest
    refine ⟨by omega, List.forall_mem_cons.mpr ⟨⟨hlo, htop⟩, fun g hg => ?_⟩⟩
    have := hall g hg
    omega

/-- A number below bit `a` is lost by a shift to bit `b` at or above it. -/
theorem add_div_two_pow {small a b : Nat} (m : Nat) (hs : small < 2 ^ a) (hab : a ≤ b) :
    (small + 2 ^ a * m) / 2 ^ b = 2 ^ a * m / 2 ^ b := by
  obtain ⟨k, rfl⟩ := Nat.exists_eq_add_of_le hab
  rw [pow_add, ← Nat.div_div_eq_div_mul, ← Nat.div_div_eq_div_mul, Nat.add_mul_div_left _ _ (by positivity),
    Nat.div_eq_of_lt hs, Nat.zero_add, Nat.mul_div_cancel_left _ (by positivity)]

/-- Every field of a layout is read back from the number it assembles. -/
theorem Layout.read {hi lo : Nat} {fs : List (Nat × Nat × Nat)} (h : Layout hi lo fs) :
    ∀ f ∈ fs, packNat (placedFields fs) / 2 ^ f.1 % 2 ^ f.2.1 = f.2.2 := by
  induction fs generalizing lo with
  | nil => simp
  | cons g fs ih =>
    obtain ⟨-, hval, hrest⟩ := h
    obtain ⟨m, hm⟩ := hrest.dvd
    have hsum : packNat (placedFields (g :: fs)) = g.2.2 * 2 ^ g.1 + 2 ^ (g.1 + g.2.1) * m :=
      congrArg (g.2.2 * 2 ^ g.1 + ·) hm
    refine List.forall_mem_cons.mpr ⟨?_, fun f hf => ?_⟩
    · have hfactor : g.2.2 * 2 ^ g.1 + 2 ^ (g.1 + g.2.1) * m = 2 ^ g.1 * (g.2.2 + 2 ^ g.2.1 * m) := by ring
      rw [hsum, hfactor, Nat.mul_div_cancel_left _ (by positivity), Nat.add_mul_mod_self_left, Nat.mod_eq_of_lt hval]
    · have hsmall : g.2.2 * 2 ^ g.1 < 2 ^ (g.1 + g.2.1) := by
        rw [Nat.pow_add, Nat.mul_comm]
        exact Nat.mul_lt_mul_of_pos_left hval (by positivity)
      rw [hsum, add_div_two_pow m hsmall (hrest.bounds.2 f hf).1, ← hm]
      exact ih hrest f hf

/-- A field within the 32 bits of a word is that of the number the word is made from. -/
theorem field_ofNat (n : Nat) {lo len : Nat} (h : lo + len ≤ 32) : field (BitVec.ofNat 32 n) lo len = n / 2 ^ lo % 2 ^ len := by
  obtain ⟨k, hk⟩ := Nat.exists_eq_add_of_le h
  have hsplit : (2 : Nat) ^ 32 = 2 ^ lo * 2 ^ (len + k) := by rw [hk]; ring
  rw [field, BitVec.toNat_ofNat, hsplit, Nat.mod_mul_right_div_self, Nat.mod_mod_of_dvd _ (pow_dvd_pow 2 (by omega))]

/-- A field that is wholly within a wider field is a field of its value. -/
theorem field_field (w : Word) {lo len p n : Nat} (h : p + n ≤ len) :
    field w (lo + p) n = field w lo len / 2 ^ p % 2 ^ n := by
  obtain ⟨k, rfl⟩ := Nat.exists_eq_add_of_le h
  have hsplit : (2 : Nat) ^ (p + n + k) = 2 ^ p * 2 ^ (n + k) := by ring
  rw [field, field, hsplit, Nat.mod_mul_right_div_self, Nat.mod_mod_of_dvd _ (pow_dvd_pow 2 (by omega)), Nat.div_div_eq_div_mul,
    ← pow_add]

/-- Every field of a layout is read back from the word it assembles. The word may leave out fields whose value is 0. -/
theorem Layout.fields {fs : List (Nat × Nat × Nat)} {ps : List (Nat × Nat)} (h : Layout 32 0 fs)
    (hp : packNat ps = packNat (placedFields fs)) : ∀ f ∈ fs, field (packWord ps) f.1 f.2.1 = f.2.2 := fun f hf => by
  rw [packWord_eq, hp, field_ofNat _ (h.bounds.2 f hf).2]
  exact h.read f hf

end Sys2Proof
end

section
/-! READ_ENTRY and READ_HOST: every word of the two records, field by field (R179, R180). -/

open Sys2Proof Sys2Proof.Machine

namespace Sys2Proof.Machine

/-! ### Codes fit their fields (R177) -/

theorem bit_le (b : Bool) : bit b ≤ 1 := by cases b <;> decide
theorem Kind.code_lt (k : Kind) : k.code < 16 := by cases k <;> decide
theorem Policy.code_lt (p : Policy) : p.code < 4 := by cases p <;> decide
theorem Deliver.code_lt (d : Deliver) : d.code < 4 := by cases d <;> decide
theorem EntryState.code_lt (x : EntryState) : x.code < 8 := by cases x <;> decide
theorem Outcome.code_lt (o : Outcome) : o.code < 8 := by cases o <;> decide
theorem Session.code_lt (x : Session) : x.code < 4 := by cases x <;> decide
theorem outcomeCode_lt : ∀ o : Option Outcome, outcomeCode o < 8
  | none => by decide
  | some o => o.code_lt

/-! ### The layouts of an entry record (R179) -/

@[simp] theorem look_stageRecord (ws : List Word) (i : Fin 8) : look (stageRecord ws) i = (ws[i.val]?).getD 0 :=
  look_ofFn _ i

theorem configWord_fields (c : EntryConfig) :
    ∀ f ∈ [(0, 4, c.kind.code), (4, 4, c.level.val), (8, 2, c.policy.code), (12, 4, c.targets.toNat), (16, 1, bit c.enable),
      (17, 15, 0)], field (configWord c) f.1 f.2.1 = f.2.2 := by
  unfold configWord
  refine Layout.fields ?_ rfl
  simp [Layout, c.kind.code_lt, c.level.isLt, c.policy.code_lt, c.targets.isLt, bit_le]

theorem countWord_fields (b : Binding) :
    ∀ f ∈ [(0, 16, b.runsLeft.val), (16, 16, (b.reload.getD 0).val)], field (countWord b) f.1 f.2.1 = f.2.2 := by
  unfold countWord
  refine Layout.fields ?_ rfl
  simp [Layout, b.runsLeft.isLt, (b.reload.getD 0).isLt]

theorem bindingWord_fields (b : Binding) :
    ∀ f ∈ [(0, 8, (b.head.getD 0).val), (8, 1, bit b.head.isSome), (9, 1, bit b.reload.isSome), (12, 2, b.deliver.code),
      (16, 1, bit b.armed), (17, 15, 0)], field (bindingWord b) f.1 f.2.1 = f.2.2 := by
  unfold bindingWord
  refine Layout.fields ?_ rfl
  have hhead : (b.head.getD 0).val < 256 := by omega
  simp [Layout, hhead, bit_le, b.deliver.code_lt]

/-- The position counts the entries ahead of e on the arrival order list, and is absent where the list does not hold e (R16, R19). -/
theorem position_eq {s : State} (ho : OrderLaw s) (e : Source) :
    s.position e = if (s.prog e).state = .idle then none else some (s.et.order.idxOf e) := by
  obtain ⟨-, hmem⟩ := ho
  unfold State.position
  by_cases hi : (s.prog e).state = .idle
  · simp [hi, hmem]
  · simp [hi, hmem]

/-- Of the 64 sources fewer than 64 stand ahead of one that is on the list. -/
theorem idxOf_lt {s : State} {e : Source} (ho : OrderLaw s) (hi : (s.prog e).state ≠ .idle) : s.et.order.idxOf e < 64 := by
  obtain ⟨hnodup, hmem⟩ := ho
  have hlen : s.et.order.length ≤ 64 := by simpa using hnodup.length_le_card
  exact lt_of_lt_of_le (List.idxOf_lt_length_of_mem ((hmem e).mpr hi)) hlen

theorem progressWord_fields {s : State} (ho : OrderLaw s) (e : Source) :
    let p := s.prog e
    ∀ f ∈ [(0, 3, p.state.code), (4, 1, bit p.again), (5, 1, bit p.saturated), (6, 1, bit p.hold),
      (7, 1, bit p.disarmPending), (8, 3, outcomeCode p.outcome), (16, 8, p.merged.val),
      (24, 6, if p.state = .idle then 0 else s.et.order.idxOf e), (30, 1, if p.state = .idle then 0 else 1)],
      field (progressWord p (s.position e)) f.1 f.2.1 = f.2.2 := by
  intro p
  rw [position_eq ho]
  by_cases hi : p.state = .idle
  · rw [if_pos hi, if_pos hi, if_pos hi]
    refine Layout.fields ?_ rfl
    simp [Layout, p.state.code_lt, bit_le, outcomeCode_lt, p.merged.isLt]
  · rw [if_neg hi, if_neg hi, if_neg hi]
    refine Layout.fields ?_ rfl
    simp [Layout, p.state.code_lt, bit_le, outcomeCode_lt, p.merged.isLt, idxOf_lt ho hi]

theorem setsWord_fields (p : Progress) :
    ∀ f ∈ [(0, 4, p.offered.toNat), (4, 4, p.held.toNat), (8, 4, (p.owed.getD 0).toNat), (12, 1, bit p.owed.isSome),
      (16, 4, (p.decline.getD 0).toNat), (20, 1, bit p.decline.isSome), (21, 11, 0)],
      field (setsWord p) f.1 f.2.1 = f.2.2 := by
  unfold setsWord
  refine Layout.fields ?_ rfl
  simp [Layout, p.offered.isLt, p.held.isLt, (p.owed.getD 0#4).isLt, (p.decline.getD 0#4).isLt, bit_le]

/-! ### The layouts of a host record (R178, R180) -/

theorem statusWord_fields (s : State) (k : HostId) (hd : (s.ctx k).stack.length ≤ 8) :
    let c := s.ctx k
    ∀ f ∈ [(0, 2, c.session.code), (4, 4, (s.level k).val), (8, 4, c.stack.length), (12, 4, c.lapseCount.val),
      (16, 1, bit c.configRight), (17, 1, bit c.descRight), (18, 1, if s.hcu.supervisor = k then 1 else 0),
      (20, 4, c.threshold.val), (24, 4, c.lapseLimit.val), (28, 4, 0)],
      field (packWord (s.statusFields k ++ [(20, c.threshold.val), (24, c.lapseLimit.val)])) f.1 f.2.1 = f.2.2 := by
  intro c
  have hsup : bit (s.hcu.supervisor == k) = if s.hcu.supervisor = k then 1 else 0 := by simp [bit]
  have hdepth : c.stack.length < 16 := by simp only [c]; omega
  rw [← hsup]
  refine Layout.fields ?_ rfl
  simp [Layout, c.session.code_lt, (s.level k).isLt, hdepth, c.lapseCount.isLt, bit_le, c.threshold.isLt, c.lapseLimit.isLt]

theorem offerView_fields {s : State} {k : HostId} {o : Offer} (ho : (s.slot k).offer = some o) :
    ∀ f ∈ [(0, 1, 1), (8, 6, o.source.val), (16, 4, o.level.val), (20, 3, o.outcome.code), (24, 2, o.policy.code)],
      field (s.offerView k) f.1 f.2.1 = f.2.2 := by
  rw [State.offerView, ho]
  refine Layout.fields ?_ rfl
  simp [Layout, o.source.isLt, o.level.isLt, o.outcome.code_lt, o.policy.code_lt]

/-- The fields of a stack record in its 16 bits. -/
def recordFields (r : StackRecord) : List (Nat × Nat × Nat) :=
  [(0, 6, r.source.val), (6, 2, r.policy.code), (8, 4, r.level.val), (12, 3, r.outcome.code)]

theorem recordFields_layout (r : StackRecord) : Layout 16 0 (recordFields r) := by
  simp [recordFields, Layout, r.source.isLt, r.policy.code_lt, r.level.isLt, r.outcome.code_lt]

/-- The 16 bits of a stack record assemble its fields. -/
theorem stackHalf_some {stack : List StackRecord} {k : Nat} {r : StackRecord} (hr : stack[k]? = some r) :
    stackHalf stack k = packNat (placedFields (recordFields r)) := by
  rw [stackHalf, hr]
  change _ = r.source.val * 2 ^ 0 + (r.policy.code * 2 ^ 6 + (r.level.val * 2 ^ 8 + (r.outcome.code * 2 ^ 12 + 0)))
  ring

theorem stackHalf_none {stack : List StackRecord} {k : Nat} (hr : stack[k]? = none) : stackHalf stack k = 0 := by
  rw [stackHalf, hr]

theorem stackHalf_lt (stack : List StackRecord) (k : Nat) : stackHalf stack k < 2 ^ 16 := by
  unfold stackHalf
  split
  · decide
  next r _ =>
    have := r.source.isLt; have := r.policy.code_lt; have := r.level.isLt; have := r.outcome.code_lt
    omega

/-- The two halves of a word of stack records. -/
theorem stackWord_half (stack : List StackRecord) (i : Fin 8) :
    field (stackWord stack (i.val / 2 * 2)) (16 * (i.val % 2)) 16 = stackHalf stack i.val := by
  have hl : Layout 32 0 [(0, 16, stackHalf stack (i.val / 2 * 2)), (16, 16, stackHalf stack (i.val / 2 * 2 + 1))] := by
    simpa [Layout] using ⟨stackHalf_lt stack _, stackHalf_lt stack _⟩
  have hr := hl.fields (ps := [(0, stackHalf stack (i.val / 2 * 2)), (16, stackHalf stack (i.val / 2 * 2 + 1))]) rfl
  simp only [List.mem_cons, List.not_mem_nil, or_false, forall_eq_or_imp, forall_eq] at hr
  obtain ⟨hlow, hhigh⟩ := hr
  rcases Nat.mod_two_eq_zero_or_one i.val with hp | hp
  · have hi : i.val / 2 * 2 = i.val := by omega
    rw [hp, Nat.mul_zero]
    exact hlow.trans (congrArg (stackHalf stack) hi)
  · have hi : i.val / 2 * 2 + 1 = i.val := by omega
    rw [hp, Nat.mul_one]
    exact hhigh.trans (congrArg (stackHalf stack) hi)

theorem stackWord_record {stack : List StackRecord} {i : Fin 8} {r : StackRecord} (hr : stack[i.val]? = some r) :
    ∀ f ∈ recordFields r, field (stackWord stack (i.val / 2 * 2)) (16 * (i.val % 2) + f.1) f.2.1 = f.2.2 := fun f hf => by
  have hl := recordFields_layout r
  rw [field_field (len := 16) _ (hl.bounds.2 f hf).2, stackWord_half, stackHalf_some hr]
  exact hl.read f hf

theorem stackWord_empty {stack : List StackRecord} {i : Fin 8} (hr : stack[i.val]? = none) :
    field (stackWord stack (i.val / 2 * 2)) (16 * (i.val % 2)) 16 = 0 := by
  rw [stackWord_half, stackHalf_none hr]

/-- The word of a host record that holds stack record i. -/
theorem hostRecord_stack (s : State) (k : HostId) (i : Fin 8) :
    look (s.hostRecord k) ⟨4 + i.val / 2, by omega⟩ = stackWord (s.ctx k).stack (i.val / 2 * 2) := by
  unfold State.hostRecord
  rw [look_stageRecord]
  fin_cases i <;> rfl

/-! ### The two requests -/

/-- READ_ENTRY is answered with the entry's record (R19). -/
theorem exec_readEntry {s : State} {h : HostId} {object : Operand} {e : Source} (hp : PortTakes s h)
    (hx : object.toNat = e.val) : exec (.readEntry h object) s = .next (s.answeredWith h 8 (s.entryRecord e)) := by
  change request h 8 .none false (readEntryBody h object) s = _
  rw [request_runs hp (holdsRight_none s h) (by simp), readEntryBody, withIndex_val hx, State.taken_entryRecord,
    State.taken_answerRecord]

/-- READ_HOST is answered with the host's record (R61). -/
theorem exec_readHost {s : State} {h : HostId} {object : Operand} {k : HostId} (hp : PortTakes s h)
    (hx : object.toNat = k.val) : exec (.readHost h object) s = .next (s.answeredWith h 11 (s.hostRecord k)) := by
  change request h 11 .none false (readHostBody h object) s = _
  rw [request_runs hp (holdsRight_none s h) (by simp), readHostBody, withIndex_val hx, State.taken_hostRecord,
    State.taken_answerRecord]

end Sys2Proof.Machine

/-- Settles O15: every word of the two records is a layout of fields, read back field by field. -/
theorem entryAndHostReadsReturnTheRecord : Obligations.EntryAndHostReadsReturnTheRecord := by
  intro s h object hp ho
  refine ⟨fun e hx => ⟨s.entryRecord e, exec_readEntry hp hx, configWord_fields _, countWord_fields _, bindingWord_fields _,
      progressWord_fields ho e, setsWord_fields _, rfl, rfl, rfl⟩,
    fun k hx hd => ⟨s.hostRecord k, exec_readHost hp hx, statusWord_fields s k hd, ?_, fun hn => ?_,
      fun o hm => offerView_fields hm, rfl, fun i r hr => ?_, fun i hr => ?_⟩⟩
  · change packWord [(0, (s.ctx k).timeout.val)] = _
    simp [packWord]
  · change s.offerView k = 0
    rw [State.offerView, hn]
  · rw [hostRecord_stack]; exact stackWord_record hr
  · rw [hostRecord_stack]; exact stackWord_empty hr
end

section
/-! The ports apart: the Event Table and the Offer Unit neither read nor change a port, so that an answer may be given before or
after what they do. -/

open Sys2Proof Sys2Proof.Machine

namespace Sys2Proof.Machine

/-- The state with other ports. -/
def State.withPorts (s : State) (p : Table Port 4) : State := { s with ports := p }

/-- The operation neither reads nor changes a port. -/
def PortBlind (f : State → State) : Prop := ∀ (s : State) (p : Table Port 4), f (s.withPorts p) = (f s).withPorts p

/- The proofs stand in parentheses so that simp rewrites with these, and carries along how the conditions of a branch are decided. -/

@[simp] theorem withPorts_cfg (s : State) (p : Table Port 4) (e : Source) : (s.withPorts p).cfg e = s.cfg e := (rfl)
@[simp] theorem withPorts_bind (s : State) (p : Table Port 4) (e : Source) : (s.withPorts p).bind e = s.bind e := (rfl)
@[simp] theorem withPorts_prog (s : State) (p : Table Port 4) (e : Source) : (s.withPorts p).prog e = s.prog e := (rfl)
@[simp] theorem withPorts_slot (s : State) (p : Table Port 4) (h : HostId) : (s.withPorts p).slot h = s.slot h := (rfl)
@[simp] theorem withPorts_attachedHosts (s : State) (p : Table Port 4) : (s.withPorts p).attachedHosts = s.attachedHosts := (rfl)
@[simp] theorem withPorts_levelAsserted (s : State) (p : Table Port 4) (e : Source) :
    (s.withPorts p).levelAsserted e = s.levelAsserted e := (rfl)
@[simp] theorem withPorts_sequenceOf (s : State) (p : Table Port 4) (e : Source) :
    (s.withPorts p).sequenceOf e = s.sequenceOf e := (rfl)
@[simp] theorem withPorts_wanted (s : State) (p : Table Port 4) (d : List Source) (h : HostId) :
    (s.withPorts p).wanted d h = s.wanted d h := (rfl)
@[simp] theorem withPorts_arbitrate (s : State) (p : Table Port 4) (hs : List HostId) :
    (s.withPorts p).arbitrate hs = s.arbitrate hs := (rfl)
@[simp] theorem withPorts_hostsFor (s : State) (p : Table Port 4) (e : Source) : (s.withPorts p).hostsFor e = s.hostsFor e := (rfl)
@[simp] theorem withPorts_choiceWaits (s : State) (p : Table Port 4) (h : HostId) :
    (s.withPorts p).choiceWaits h = s.choiceWaits h := (rfl)
@[simp] theorem withPorts_setProg (s : State) (p : Table Port 4) (e : Source) (x : Progress) :
    (s.withPorts p).setProg e x = (s.setProg e x).withPorts p := (rfl)
@[simp] theorem withPorts_toIdle (s : State) (p : Table Port 4) (e : Source) :
    (s.withPorts p).toIdle e = (s.toIdle e).withPorts p := (rfl)
@[simp] theorem withPorts_latch (s : State) (p : Table Port 4) (e : Source) :
    (s.withPorts p).latch e = (s.latch e).withPorts p := (rfl)
@[simp] theorem withPorts_enqueue (s : State) (p : Table Port 4) (e : Source) :
    (s.withPorts p).enqueue e = (s.enqueue e).withPorts p := (rfl)
@[simp] theorem withPorts_startDelivery (s : State) (p : Table Port 4) (e : Source) (o : Outcome) :
    (s.withPorts p).startDelivery e o = (s.startDelivery e o).withPorts p := (rfl)
@[simp] theorem withPorts_withOffers (s t : State) (p : Table Port 4) :
    (s.withPorts p).withOffers (t.withPorts p) = (s.withOffers t).withPorts p := (rfl)

/-- A port-blind operation leaves the ports as they are. -/
theorem PortBlind.ports {f : State → State} (hf : PortBlind f) (s : State) : (f s).ports = s.ports := by
  have hself : f s = (f s).withPorts s.ports := hf s s.ports
  rw [hself]
  rfl

theorem PortBlind.comp {f g : State → State} (hf : PortBlind f) (hg : PortBlind g) : PortBlind fun s => f (g s) := fun s p =>
  (congrArg f (hg s p)).trans (hf (g s) p)

/-- The answer to a request may be given before a port-blind operation. -/
theorem PortBlind.answer {f : State → State} (hf : PortBlind f) (s : State) (h : HostId) (code : Operand) (r : ResultCode) :
    (f (s.taken h)).answer h code r = f (s.answered h code r) := by
  have hans : s.answered h code r = (s.taken h).withPorts (s.answered h code r).ports := rfl
  rw [hans, hf]
  unfold State.answer State.setPort State.port
  rw [hf.ports, ← State.taken_answer]
  rfl

/-! ### The Offer Unit -/

theorem withPorts_placeOffer (s : State) (p : Table Port 4) (b : Source) (h : HostId) :
    (s.withPorts p).placeOffer b h = ((s.placeOffer b h).1, (s.placeOffer b h).2.withPorts p) := by
  unfold State.placeOffer
  rw [withPorts_slot]
  cases (s.slot h).offer <;> rfl

theorem withPorts_settle (p : Table Port 4) (n : Nat) : ∀ (hosts : List HostId) (d : List Source) (s : State),
    settle n hosts d (s.withPorts p) = ((settle n hosts d s).1, (settle n hosts d s).2.withPorts p) := by
  induction n with
  | zero => intro hosts d s; rfl
  | succ n ih =>
    intro hosts d s
    cases hosts with
    | nil => rfl
    | cons h rest =>
      unfold settle
      cases hb : s.wanted d h with
      | none => simp only [withPorts_wanted, hb, ih]
      | some b => simp only [withPorts_wanted, withPorts_cfg, withPorts_arbitrate, hb, withPorts_placeOffer, ih]

theorem newsLoop_portBlind (n : Nat) : ∀ es : List Source, PortBlind (newsLoop n es) := by
  induction n with
  | zero => intro es s p; rfl
  | succ n ih =>
    intro es s p
    cases es with
    | nil => rfl
    | cons e rest =>
      unfold newsLoop
      simp only [withPorts_hostsFor, withPorts_settle, ih _ _ p]

theorem offerNews_portBlind (e : Source) : PortBlind fun s => s.offerNews e := fun s p => by
  simp only [State.offerNews, newsLoop_portBlind _ _ s p, withPorts_withOffers]

theorem choose_portBlind (h : HostId) : PortBlind fun s => s.choose h := fun s p => by
  simp only [State.choose, withPorts_choiceWaits, withPorts_settle, newsLoop_portBlind _ _ _ p, withPorts_withOffers]
  split <;> rfl

/-! ### The Event Table -/

/-- The Event Table's part of a claim neither reads nor changes a port. -/
def PortBlindPart (f : State → State × Bool) : Prop :=
  ∀ (s : State) (p : Table Port 4), f (s.withPorts p) = ((f s).1.withPorts p, (f s).2)

theorem noteOn_portBlind (e : Source) (o : Origin) (n : Notice) : PortBlind fun s => s.noteOn e o n := fun s p => by
  have happends : ∀ (l : List Notice) (t : State),
      l.foldl State.takeAppend (t.withPorts p) = (l.foldl State.takeAppend t).withPorts p := by
    intro l
    induction l with
    | nil => intro t; rfl
    | cons x xs ih => intro t; exact ih (t.takeAppend x)
  have hflush : (s.withPorts p).flushNotices o = (s.flushNotices o).withPorts p :=
    happends ((s.claims.notices.filter fun (y : Origin × Notice) => y.1 == o).map Prod.snd)
      { s with claims := { s.claims with notices := s.claims.notices.filter fun (y : Origin × Notice) => y.1 != o } }
  simp only [State.noteOn, hflush]
  split <;> rfl

theorem completesOnce_portBlind {next : State → State × Bool} (hn : PortBlindPart next) (e : Source) :
    PortBlindPart (completesOnce next e) := fun t p => by
  unfold completesOnce
  simp only [withPorts_toIdle, withPorts_prog, withPorts_setProg, withPorts_latch, withPorts_cfg, withPorts_bind,
    withPorts_enqueue, withPorts_levelAsserted, hn _ p]
  split_ifs <;> rfl

/-- One round of the transition into DELIVERING, with what follows a re-latch that is to be delivered once more (R11, R15). -/
def deliverRound (next : State → State × Bool) (o : Outcome) (e : Source) (s : State) : State × Bool :=
  let s1 := s.startDelivery e o
  let owed := (s1.cfg e).targets &&& s1.attachedHosts
  if (s1.cfg e).level = 0 then completesOnce next e s1
  else match (s1.cfg e).policy with
    | .directed => (s1, true)
    | .any => (s1.setProg e { s1.prog e with decline := some 0 }, true)
    | .all =>
      if owed = 0 then completesOnce next e (s1.noteOn e (s1.sequenceOf e) (deliveryNotice .undelivered (some e) none))
      else (s1.setProg e { s1.prog e with owed := some owed }, true)

theorem deliver_zero (o : Outcome) (e : Source) : deliver 0 o e = deliverRound (fun t => (t, false)) o e := rfl
theorem deliver_succ (n : Nat) (o : Outcome) (e : Source) : deliver (n + 1) o e = deliverRound (deliver n .plain e) o e := rfl

theorem deliverRound_portBlind {next : State → State × Bool} (hn : PortBlindPart next) (o : Outcome) (e : Source) :
    PortBlindPart (deliverRound next o e) := fun s p => by
  unfold deliverRound
  simp only [withPorts_startDelivery, withPorts_cfg, withPorts_attachedHosts, withPorts_prog, withPorts_sequenceOf,
    withPorts_setProg, noteOn_portBlind _ _ _ _ p, completesOnce_portBlind hn e _ p]
  split
  · rfl
  · cases ((s.startDelivery e o).cfg e).policy with
    | directed => rfl
    | any => rfl
    | all => simp only; split <;> rfl

theorem deliver_portBlind (n : Nat) : ∀ (o : Outcome) (e : Source), PortBlindPart (deliver n o e) := by
  induction n with
  | zero => intro o e; rw [deliver_zero]; exact deliverRound_portBlind (fun _ _ => rfl) o e
  | succ n ih => intro o e; rw [deliver_succ]; exact deliverRound_portBlind (ih .plain e) o e

theorem tell_portBlind {f : State → State × Bool} (hf : PortBlindPart f) (e : Source) : PortBlind fun s => tell e (f s) :=
  fun s p => by
    simp only [hf s p, tell]
    split
    · exact offerNews_portBlind e _ p
    · rfl

theorem leaveLatchedPart_portBlind (e : Source) : PortBlindPart fun s => s.leaveLatchedPart e := fun s p => by
  simp only [State.leaveLatchedPart, withPorts_bind, withPorts_enqueue, deliver_portBlind _ _ _ s p]
  split <;> rfl

theorem latchAndGoPart_portBlind (e : Source) : PortBlindPart fun s => s.latchAndGoPart e := fun s p => by
  simp only [State.latchAndGoPart, withPorts_latch, withPorts_cfg, withPorts_prog, leaveLatchedPart_portBlind e _ p]
  split <;> rfl

theorem latchAndGo_portBlind (e : Source) : PortBlind fun s => s.latchAndGo e := tell_portBlind (latchAndGoPart_portBlind e) e
theorem leaveLatched_portBlind (e : Source) : PortBlind fun s => s.leaveLatched e :=
  tell_portBlind (leaveLatchedPart_portBlind e) e
theorem enterDelivering_portBlind (e : Source) (o : Outcome) : PortBlind fun s => s.enterDelivering e o :=
  tell_portBlind (deliver_portBlind 1 o e) e

end Sys2Proof.Machine
end

section
/-! WRITE_ENTRY: the configuration that the staging word holds, and the entry that takes it (R18, R26, R179). -/

open Sys2Proof Sys2Proof.Machine

namespace Sys2Proof.Machine

/-! ### The configuration staged for WRITE_ENTRY (R18, R179) -/

theorem Kind.ofCode_some {n : Nat} {k : Kind} : Kind.ofCode n = some k ↔ n = k.code := by
  constructor
  · intro h
    unfold Kind.ofCode at h
    split at h <;> cases h <;> rfl
  · rintro rfl
    cases k <;> rfl

theorem Policy.ofCode_some {n : Nat} {p : Policy} : Policy.ofCode n = some p ↔ n = p.code := by
  constructor
  · intro h
    unfold Policy.ofCode at h
    split at h <;> cases h <;> rfl
  · rintro rfl
    cases p <;> rfl

/-- The word holds the fields of an entry configuration at their bits (R179). -/
abbrev HoldsConfig (w : Word) (c : EntryConfig) : Prop :=
  field w 0 4 = c.kind.code ∧ field w 4 4 = c.level.val ∧ field w 8 2 = c.policy.code ∧ field w 12 4 = c.targets.toNat ∧
    flag w 16 = c.enable

theorem field_lt (w : Word) (lo len : Nat) : field w lo len < 2 ^ len := Nat.mod_lt _ (by positivity)

/-- The level and the targets of a configuration are the numbers that their fields hold. -/
theorem ofNat_level_eq (w : Word) (x : Level) : Fin.ofNat 16 (field w 4 4) = x ↔ field w 4 4 = x.val := by
  rw [Fin.ext_iff, Fin.val_ofNat, Nat.mod_eq_of_lt (show field w 4 4 < 16 from field_lt w 4 4)]

theorem ofNat_targets_eq (w : Word) (x : HostSet) : BitVec.ofNat 4 (field w 12 4) = x ↔ field w 12 4 = x.toNat := by
  rw [← BitVec.toNat_inj, BitVec.toNat_ofNat, Nat.mod_eq_of_lt (field_lt w 12 4)]

/-- A configuration that is staged keeps the law of its class, and the word holds it (R18). -/
theorem configLaw_of_staged {e : Source} {st : Table Word 8} {c : EntryConfig} (h : stagedConfig e st = some c) :
    ConfigLaw e c ∧ HoldsConfig (look st 0) c := by
  unfold stagedConfig stageWord at h
  dsimp only at h
  split at h
  next k p hk hp =>
    split_ifs at h with hallowed htargets hone
    cases h
    refine ⟨⟨by simpa using hallowed, htargets, by simpa using hone⟩, Kind.ofCode_some.mp hk, (ofNat_level_eq _ _).mp rfl,
      Policy.ofCode_some.mp hp, (ofNat_targets_eq _ _).mp rfl, rfl⟩
  next => cases h

/-- A configuration that the word holds and that keeps the law of its class is staged (R18). -/
theorem staged_of_configLaw {e : Source} {st : Table Word 8} {c : EntryConfig} (hc : ConfigLaw e c)
    (hw : HoldsConfig (look st 0) c) : stagedConfig e st = some c := by
  obtain ⟨hallowed, htargets, hone⟩ := hc
  obtain ⟨hk, hl, hp, ht, hen⟩ := hw
  unfold stagedConfig stageWord
  dsimp only
  rw [Kind.ofCode_some.mpr hk, Policy.ofCode_some.mpr hp, (ofNat_targets_eq _ _).mpr ht, (ofNat_level_eq _ _).mpr hl, hen]
  dsimp only
  have hdirected : ¬(c.policy == .directed && !isOneHost c.targets) = true := by simpa using hone
  rw [if_neg (by simp [hallowed]), if_neg htargets, if_neg hdirected]

/-! ### WRITE_ENTRY -/

/-- A WRITE_ENTRY that the port takes, from a host with the right, does what its body does. -/
theorem exec_writeEntry {s : State} {h : HostId} {object : Operand} (hp : PortTakes s h)
    (hr : s.holdsRight h .config = true) :
    exec (.writeEntry h object) s = .next (writeEntryBody h object (s.taken h)) :=
  request_runs hp hr (by simp)

theorem writeEntryBody_range {s : State} {h : HostId} {object : Operand} {e : Source} (hx : object.toNat = e.val)
    (hc : stagedConfig e (s.port h).stage = none) : writeEntryBody h object (s.taken h) = s.answered h 14 .range := by
  rw [writeEntryBody, withIndex_val hx, State.taken_stage, hc, State.taken_answer]

theorem writeEntryBody_busy {s : State} {h : HostId} {object : Operand} {e : Source} {c : EntryConfig}
    (hx : object.toNat = e.val) (hc : stagedConfig e (s.port h).stage = some c) (hb : (s.prog e).state ≠ .idle) :
    writeEntryBody h object (s.taken h) = s.answered h 14 .busy := by
  rw [writeEntryBody, withIndex_val hx, State.taken_stage, hc]
  simp [hb]

/-- The entry with its five configuration fields written, its merged count and its saturation mark cleared (R18). -/
def State.configured (s : State) (e : Source) (c : EntryConfig) : State :=
  s.setEntry e { s.entry e with cfg := c, prog := { s.prog e with merged := 0, saturated := false } }

theorem writeConfig_eq (s : State) (e : Source) (c : EntryConfig) :
    s.writeConfig e c =
      if c.kind.isLevel && (s.configured e c).levelAsserted e then (s.configured e c).latchAndGo e else s.configured e c := rfl

theorem writeConfig_portBlind (e : Source) (c : EntryConfig) : PortBlind fun s => s.writeConfig e c := fun s p => by
  have hconf : (s.withPorts p).configured e c = (s.configured e c).withPorts p := rfl
  simp only [writeConfig_eq, hconf, withPorts_levelAsserted, latchAndGo_portBlind e _ p]
  split <;> rfl

theorem writeEntryBody_idle {s : State} {h : HostId} {object : Operand} {e : Source} {c : EntryConfig}
    (hx : object.toNat = e.val) (hc : stagedConfig e (s.port h).stage = some c) (hi : (s.prog e).state = .idle) :
    writeEntryBody h object (s.taken h) = (s.answered h 14 .ok).writeConfig e c := by
  rw [writeEntryBody, withIndex_val hx, State.taken_stage, hc]
  simp only [State.taken_prog, hi, if_true]
  exact (writeConfig_portBlind e c).answer s h 14 .ok

/-- An entry that is IDLE and keeps the laws still does with another configuration written. -/
theorem configured_latches {s : State} {e : Source} {c : EntryConfig} (hl : EntryLaw s) (hi : (s.prog e).state = .idle) :
    Latches (s.configured e c) e ((s.configured e c).latchAndGo e) := by
  obtain ⟨hentries, ⟨-, horder⟩, -⟩ := hl
  obtain ⟨-, -, hprogress⟩ := hentries e
  have hprog : (s.configured e c).prog e = { s.prog e with merged := 0, saturated := false } := by
    simp [State.configured]
  refine latchAndGo_of_idle (c := s.cfg e) ?_ ?_ ?_ <;> rw [hprog]
  · exact hprogress
  · exact horder e
  · exact hi

end Sys2Proof.Machine

/-- Settles O20: the staged configuration is the one that the word holds, and a level kind's arrival is that of an IDLE entry. -/
theorem writeEntryReplacesTheConfiguration : Obligations.WriteEntryReplacesTheConfiguration := by
  intro s h e object hp hr hx w staged
  constructor
  · intro c hc hw u
    have hstaged := staged_of_configLaw hc hw
    refine ⟨fun hi hl => ⟨(s.answered h 14 .ok).writeConfig e c, ?_, fun hq => ?_, fun ha => ?_⟩, fun hb => ?_⟩
    · rw [exec_writeEntry hp hr, writeEntryBody_idle hx hstaged hi]
    · rw [writeConfig_eq]
      exact if_neg (by rw [Bool.not_eq_true]; exact hq)
    · rw [writeConfig_eq, if_pos (show (c.kind.isLevel && ((s.answered h 14 .ok).configured e c).levelAsserted e) = true from ha)]
      exact configured_latches (s := s.answered h 14 .ok) hl hi
    · rw [exec_writeEntry hp hr, writeEntryBody_busy hx hstaged hb]
  · intro hnone
    cases hc : stagedConfig e (s.port h).stage with
    | none => rw [exec_writeEntry hp hr, writeEntryBody_range hx hc]
    | some c => exact absurd (configLaw_of_staged hc).2 (hnone c (configLaw_of_staged hc).1)
end

section
/-! What every offer choice keeps, and the choices of several hosts one after another (R67, R73). -/

open Sys2Proof Sys2Proof.Machine

namespace Sys2Proof.Machine

/-! ### What every offer keeps -/

/-- What every offer that a host wants keeps, every offer choice keeps. -/
def KeptByOffers (P : State → Prop) : Prop :=
  ∀ (s : State) (d : List Source) (b : Source) (w : HostId), s.wanted d w = some b → s.choiceWaits w = false → P s →
    P (s.placeOffer b w).2

theorem KeptByOffers.settle {P : State → Prop} (hP : KeptByOffers P) (n : Nat) :
    ∀ (hosts : List HostId) (d : List Source) (s : State), (∀ k ∈ hosts, s.choiceWaits k = false) → P s →
      P (Machine.settle n hosts d s).2 := by
  induction n with
  | zero => intro hosts d s _ hs; exact hs
  | succ n ih =>
    intro hosts d s hw hs
    cases hosts with
    | nil => exact hs
    | cons h rest =>
      unfold Machine.settle
      cases hb : s.wanted d h with
      | none => exact ih rest d s (fun k hk => hw k (by simp [hk])) hs
      | some b =>
        obtain ⟨hmem, hwant, -⟩ := settle_winner (rest := rest) hb
        obtain ⟨-, -, -, hlo, -⟩ := wanted_some hwant
        have honly := OffersOnly.placeOffer (hw _ hmem) hlo
        exact ih _ _ _ (fun k hk => (honly.choiceWaits k).trans (hw k (List.mem_of_mem_erase hk)))
          (hP s d b _ hwant (hw _ hmem) hs)

theorem KeptByOffers.newsLoop {P : State → Prop} (hP : KeptByOffers P) (n : Nat) :
    ∀ (es : List Source) (s : State), P s → P (Machine.newsLoop n es s) := by
  induction n with
  | zero => intro es s hs; exact hs
  | succ n ih =>
    intro es s hs
    cases es with
    | nil => exact hs
    | cons e rest => exact ih _ _ (hP.settle 4 _ _ _ hostsFor_waits hs)

theorem KeptByOffers.choose {P : State → Prop} (hP : KeptByOffers P) (s : State) (h : HostId) (hs : P s) : P (s.choose h) := by
  cases hw : s.choiceWaits h with
  | true => rw [choose_waits hw]; exact hs
  | false =>
    rw [choose_eq hw]
    exact hP.newsLoop _ _ _ (hP.settle 4 [h] [] s (by simpa using hw) hs)

/-- Entry e has the state part p, and no slot holds an offer of it. -/
def Unoffered (e : Source) (p : Progress) (s : State) : Prop :=
  s.prog e = p ∧ ∀ k : HostId, (s.slot k).offer.map Offer.source ≠ some e

/-- No choice offers an entry that is not DELIVERING, nor touches its state part. -/
theorem unoffered_kept {e : Source} {p : Progress} (hstate : p.state ≠ .delivering) : KeptByOffers (Unoffered e p) := by
  intro s d b w hwant hw ⟨hprog, hslots⟩
  obtain ⟨-, helig, -, hlo, -⟩ := wanted_some hwant
  have hbe : b ≠ e := fun hbe => hstate (by rw [← hprog, ← hbe]; exact eligible_delivering helig)
  have hentry : ((s.placeOffer b w).2).prog e = { s.prog e with offered := (((s.placeOffer b w).2).prog e).offered } :=
    congrArg Entry.prog ((OffersOnly.placeOffer hw hlo).2.1 e)
  refine ⟨?_, fun k => ?_⟩
  · rw [hentry, placeOffer_offered, if_neg (hslots w), if_neg (Ne.symm hbe), hprog]
  · rw [placeOffer_slot]
    split
    · rw [filled_eq]
      exact fun h => hbe (Option.some.inj h)
    · exact hslots k

/-! ### One choice after another -/

theorem Met.mono {E E' : HostId → Prop} {s : State} {h : HostId} {f : Source} (hE : E h → E' h) (hm : Met E s h f) : Met E' s h f :=
  hm.imp_right fun ⟨he, hn⟩ => ⟨hE he, hn⟩

theorem chooseAll_offersOnly (hs : List HostId) : ∀ s : State, OffersOnly s (hs.foldl State.choose s) := by
  induction hs with
  | nil => exact OffersOnly.refl
  | cons h rest ih => exact fun s => (choose_offersOnly s h).trans (ih _)

theorem KeptByOffers.chooseAll {P : State → Prop} (hP : KeptByOffers P) (hs : List HostId) :
    ∀ s : State, P s → P (hs.foldl State.choose s) := by
  induction hs with
  | nil => exact fun _ h => h
  | cons h rest ih => exact fun s h' => ih _ (hP.choose s h h')

/-- After the choices of several hosts, one after another, none of them is left with an empty slot and an eligible entry, if no choice
was open but at empty slots. -/
theorem chooseAll_settles (hs : List HostId) : ∀ (E : HostId → Prop) (s : State), (∀ k ∈ hs, s.choiceWaits k = false) → LevelsOk s →
    InOrder s → MetOver E s (fun _ _ => True) →
    MetOver (fun k => E k ∧ k ∉ hs) (hs.foldl State.choose s) fun _ _ => True := by
  induction hs with
  | nil => exact fun E s _ _ _ hm k hk f hf he => (hm k hk f hf he).mono fun h => ⟨h, by simp⟩
  | cons h rest ih =>
    intro E s hw hl hi hm
    have hothers : MetOver (fun k => E k ∧ k ≠ h) s fun k _ => k ≠ h :=
      fun k hk f hkh he => (hm k hk f trivial he).mono fun h => ⟨h, hkh⟩
    obtain ⟨hl', hm'⟩ := choose_leaves (hw h (by simp)) hl hi hothers
    have honly := choose_offersOnly s h
    have hrest := ih _ (s.choose h) (fun k hk => by rw [honly.choiceWaits]; exact hw k (by simp [hk])) hl' (honly.inOrder hi) hm'
    exact fun k hk f hf he => (hrest k hk f hf he).mono fun ⟨⟨hE, hkh⟩, hkr⟩ => ⟨hE, by simp [hkh, hkr]⟩

/-- The state with another count of free values drawn. -/
def State.drawn (s : State) (n : Nat) : State := { s with freeCount := n }

theorem mem_hostOrder (i : Fin 24) (k : HostId) : k ∈ hostOrder i := by
  revert i k
  decide

/-- The fresh choices are those of the hosts, one after another in some order; for one host or none no order is drawn (log 5). -/
theorem chooseEach_eq (s : State) (hs : List HostId) :
    ∃ (l : List HostId) (n : Nat), s.chooseEach hs = l.foldl State.choose (s.drawn n) ∧ (∀ k, k ∈ l ↔ k ∈ hs) ∧
      (hs.length ≤ 1 → l = hs ∧ n = s.freeCount) := by
  unfold State.chooseEach
  split
  next hle => exact ⟨hs, s.freeCount, rfl, fun _ => Iff.rfl, fun _ => ⟨rfl, rfl⟩⟩
  next hgt => exact ⟨_, s.freeCount + 1, rfl, fun k => by simp [mem_hostOrder], fun hle => absurd hle hgt⟩

theorem chooseAll_portBlind (hs : List HostId) : PortBlind fun s => hs.foldl State.choose s := by
  induction hs with
  | nil => exact fun _ _ => rfl
  | cons h rest ih => exact ih.comp (choose_portBlind h)

theorem chooseEach_portBlind (hs : List HostId) : PortBlind fun s => s.chooseEach hs := fun s p => by
  unfold State.chooseEach
  split
  · exact chooseAll_portBlind hs s p
  · exact chooseAll_portBlind _ { s with freeCount := s.freeCount + 1 } p

end Sys2Proof.Machine
end

section
/-! CLEAR_ENTRY: the abandoned event, the fresh choices of the hosts whose offers it withdrew, and the re-latch (R20, R26, R73). -/

open Sys2Proof Sys2Proof.Machine

namespace Sys2Proof.Machine

/-! ### The entry that CLEAR_ENTRY abandons (R20) -/

/-- The slot with an offer of e withdrawn and its timer stopped (R73). -/
def clearSlot (e : Source) (x : Slot) : Slot := if x.offer.map Offer.source = some e then { offer := none, timer := none } else x

/-- The state part of an entry whose event is abandoned: at rest, with its again flag and its level hold mark clear (R20). -/
def Progress.abandoned (p : Progress) : Progress := { p.toIdle with again := false, hold := false }

/-- Entry e is IDLE and off the arrival order list, no slot holds an offer of it, and its takes on their way are marked; no choice
has been made yet (R20, R84). -/
def State.abandoned (s : State) (e : Source) : State :=
  { s.clearTakes e with
    et := { entries := put s.et.entries e { s.entry e with prog := (s.prog e).abandoned }, order := s.et.order.erase e }
    ou := { s.ou with slots := mapTable (clearSlot e) s.ou.slots } }

theorem mem_offeredHosts {s : State} {e : Source} {k : HostId} :
    k ∈ s.offeredHosts e ↔ (s.slot k).offer.map Offer.source = some e := by
  have hall : ∀ k : HostId, k ∈ allHosts := by decide
  cases ho : (s.slot k).offer <;> simp [State.offeredHosts, hall, ho]

/-- A host that alone is offered e is the one host of the list, which names no host twice. -/
theorem offeredHosts_singleton {s : State} {e : Source} {k : HostId} (hk : k ∈ s.offeredHosts e)
    (hothers : ∀ j ∈ s.offeredHosts e, j = k) : s.offeredHosts e = [k] := by
  have hnodup : (s.offeredHosts e).Nodup := List.Nodup.filter _ (by decide)
  exact List.perm_singleton.mp ((List.perm_ext_iff_of_nodup hnodup (List.nodup_singleton k)).mpr fun j =>
    ⟨fun hj => by simp [hothers j hj], fun hj => by rw [List.mem_singleton.mp hj]; exact hk⟩)

/-- Slots emptied one after another. -/
theorem emptySlots_eq (hs : List HostId) : ∀ s : State, hs.foldl State.emptySlot s =
    { s with ou := { s.ou with
      slots := Vector.ofFn fun k => if k ∈ hs then { offer := none, timer := none } else s.slot k } } := by
  induction hs with
  | nil =>
    intro s
    have hslots : (Vector.ofFn fun k => s.slot k) = s.ou.slots := table_ext fun k => look_ofFn _ k
    simp [hslots]
  | cons h rest ih =>
    intro s
    rw [List.foldl_cons, ih]
    refine congrArg (fun x => { s with ou := { s.ou with slots := x } }) (table_ext fun k => ?_)
    rw [look_ofFn, look_ofFn, State.emptySlot, State.setSlot_slot]
    by_cases hk : k = h <;> by_cases hr : k ∈ rest <;> simp [hk, hr]

/-- Emptying the slots of the hosts that are offered e withdraws every offer of e. -/
theorem emptySlots_offered (s : State) (e : Source) : (s.offeredHosts e).foldl State.emptySlot s =
    { s with ou := { s.ou with slots := mapTable (clearSlot e) s.ou.slots } } := by
  rw [emptySlots_eq]
  refine congrArg (fun x => { s with ou := { s.ou with slots := x } }) (table_ext fun k => ?_)
  rw [look_ofFn, look_mapTable, clearSlot]
  simp only [mem_offeredHosts]
  rfl

/-- CLEAR_ENTRY abandons the event, makes the fresh choices, and then takes a level that is still asserted as an arrival (log 5). -/
theorem clearNow_eq (s : State) (e : Source) :
    s.clearNow e =
      let u := (s.abandoned e).chooseEach (s.offeredHosts e)
      if (u.cfg e).kind.isLevel && u.levelAsserted e then u.latchAndGo e else u := by
  have hab : ((((s.offeredHosts e).foldl State.emptySlot s).clearTakes e).setProg e
      { (((s.offeredHosts e).foldl State.emptySlot s).clearTakes e).prog e with again := false, hold := false }).toIdle e =
      s.abandoned e := by
    rw [emptySlots_offered]
    simp only [State.toIdle, setProg_setProg, State.setProg_prog_self]
    rfl
  unfold State.clearNow
  simp only [hab]

theorem clearNow_portBlind (e : Source) : PortBlind fun s => s.clearNow e := fun s p => by
  have hab : (s.withPorts p).abandoned e = (s.abandoned e).withPorts p := rfl
  have hof : (s.withPorts p).offeredHosts e = s.offeredHosts e := rfl
  simp only [clearNow_eq, hab, hof, chooseEach_portBlind _ _ p, withPorts_cfg, withPorts_levelAsserted,
    latchAndGo_portBlind e _ p]
  split <;> rfl

@[simp] theorem abandoned_slot (s : State) (e : Source) (k : HostId) : (s.abandoned e).slot k = clearSlot e (s.slot k) :=
  look_mapTable _ _ _
@[simp] theorem abandoned_order (s : State) (e : Source) : (s.abandoned e).et.order = s.et.order.erase e := rfl
theorem abandoned_entry (s : State) (e f : Source) :
    (s.abandoned e).entry f = if f = e then { s.entry e with prog := (s.prog e).abandoned } else s.entry f :=
  look_put _ _ _ _
@[simp] theorem abandoned_cfg (s : State) (e f : Source) : (s.abandoned e).cfg f = s.cfg f := by
  unfold State.cfg
  rw [abandoned_entry]
  split
  next hf => rw [hf]
  next => rfl
@[simp] theorem abandoned_prog_self (s : State) (e : Source) : (s.abandoned e).prog e = (s.prog e).abandoned :=
  congrArg Entry.prog ((abandoned_entry s e e).trans (if_pos rfl))
theorem abandoned_prog_ne (s : State) {e f : Source} (hf : f ≠ e) : (s.abandoned e).prog f = s.prog f := by
  unfold State.prog
  rw [abandoned_entry, if_neg hf]
/-- A mark on a take leaves it outstanding. -/
@[simp] theorem abandoned_choiceWaits (s : State) (e : Source) (k : HostId) :
    (s.abandoned e).choiceWaits k = s.choiceWaits k := by
  simp [State.choiceWaits, State.abandoned, State.clearTakes, State.takeOf, State.lapseOf]

/-- The abandoned entry is eligible for no host. -/
theorem abandoned_eligible_self (s : State) (e : Source) (k : HostId) : (s.abandoned e).eligible e k = false := by
  rw [Bool.eq_false_iff]
  intro he
  have hstate := eligible_delivering he
  rw [abandoned_prog_self] at hstate
  exact absurd hstate (by simp [Progress.abandoned, Progress.toIdle])

/-- Every other entry is eligible as it was. -/
theorem abandoned_eligible_ne (s : State) {e f : Source} (hf : f ≠ e) (k : HostId) :
    (s.abandoned e).eligible f k = s.eligible f k := by
  have hentry : (s.abandoned e).entry f = s.entry f := by rw [abandoned_entry, if_neg hf]
  unfold State.eligible
  rw [hentry]
  rfl

/-! ### What CLEAR_ENTRY leaves -/

section
variable {s : State} {e : Source}

/-- The part of Lawful that CLEAR_ENTRY rests on. -/
structure Clearable (s : State) (e : Source) : Prop where
  entries : EntryLaw s
  copies : ∀ k : HostId, CopyLaw s k
  claims : ∀ k : HostId, ClaimLaw s k
  settled : ∀ k : HostId, SettledLaw s k
  notRunning : (s.prog e).state ≠ .running

theorem Clearable.levelsOk (hc : Clearable s e) : LevelsOk (s.abandoned e) := fun k o ho => by
  rw [abandoned_slot, clearSlot] at ho
  rw [abandoned_cfg]
  split at ho
  next => simp at ho
  next =>
    obtain ⟨-, -, hcopy⟩ := hc.copies k o ho
    exact congrArg Offer.level hcopy

theorem Clearable.inOrder (hc : Clearable s e) : InOrder (s.abandoned e) := fun f hf => by
  obtain ⟨-, ⟨-, horder⟩, -⟩ := hc.entries
  have hfe : f ≠ e := fun hfe => by
    rw [hfe, abandoned_prog_self] at hf
    exact absurd hf (by simp [Progress.abandoned, Progress.toIdle])
  rw [abandoned_prog_ne s hfe] at hf
  rw [abandoned_order, List.mem_erase_of_ne hfe, horder f, hf]
  decide

/-- No choice is open in the abandoned state but at empty slots. -/
theorem Clearable.met (hc : Clearable s e) : MetOver (fun _ => True) (s.abandoned e) fun _ _ => True := fun k hk f _ he => by
  have hfe : f ≠ e := fun hfe => by rw [hfe, abandoned_eligible_self] at he; simp at he
  rw [abandoned_eligible_ne s hfe] at he
  rw [abandoned_choiceWaits] at hk
  unfold Met Covers
  rw [abandoned_slot, abandoned_cfg, clearSlot]
  split
  next => exact .inr ⟨trivial, rfl⟩
  next => exact (settledLaw_iff s).mp hc.settled k hk f trivial he

/-- The choice of a host whose offer is withdrawn does not wait (R75, R77). -/
theorem Clearable.choiceWaits (hc : Clearable s e) {k : HostId} (hk : k ∈ s.offeredHosts e) :
    (s.abandoned e).choiceWaits k = false := by
  obtain ⟨-, hfilled, -⟩ := hc.claims k
  have hne : (s.slot k).offer ≠ none := fun hn => by simp [mem_offeredHosts, hn] at hk
  obtain ⟨htake, hlapse⟩ := hfilled hne
  rw [abandoned_choiceWaits]
  simp [State.choiceWaits, htake, hlapse]

theorem abandoned_unoffered (s : State) (e : Source) : Unoffered e (s.prog e).abandoned (s.abandoned e) := by
  refine ⟨abandoned_prog_self s e, fun k => ?_⟩
  rw [abandoned_slot, clearSlot]
  split
  next => simp
  next hk => exact hk

/-- An abandoned entry keeps R4's table. -/
theorem Clearable.progressLaw (hc : Clearable s e) : ProgressLaw (s.cfg e) (s.prog e).abandoned := by
  obtain ⟨hentries, -⟩ := hc.entries
  obtain ⟨-, -, -, -, -, -, -, hdisarm, -⟩ := hentries e
  have hclear : (s.prog e).disarmPending = false := by
    rw [Bool.eq_false_iff]
    exact fun h => hc.notRunning (hdisarm h)
  simp [ProgressLaw, Progress.abandoned, Progress.toIdle, hclear]

/-- The fresh choices after an abandoned event: they offer no more than R67 to R69 say, leave the abandoned entry alone, and leave none
of the hosts whose offer was withdrawn with an eligible entry above its slot; for one such host alone, its slot is as its choice
makes it. -/
theorem Clearable.choices (hc : Clearable s e) :
    let u := (s.abandoned e).chooseEach (s.offeredHosts e)
    OffersOnly ((s.abandoned e).drawn u.freeCount) u ∧ Unoffered e (s.prog e).abandoned u ∧
    (∀ k ∈ s.offeredHosts e, ∀ f : Source, u.eligible f k = true → Covers u k f) ∧
    (s.offeredHosts e = [] → u = s.abandoned e) ∧
    (∀ k : HostId, s.offeredHosts e = [k] → ChoiceFor (s.abandoned e) u k) := by
  intro u
  obtain ⟨l, n, hu, hmem, hshort⟩ := chooseEach_eq (s.abandoned e) (s.offeredHosts e)
  have honly : OffersOnly ((s.abandoned e).drawn n) u := by
    rw [show u = _ from hu]
    exact chooseAll_offersOnly l _
  have hcount : u.freeCount = n := by rw [honly.1]; rfl
  have hwaits : ∀ k ∈ l, ((s.abandoned e).drawn n).choiceWaits k = false := fun k hk => hc.choiceWaits ((hmem k).mp hk)
  refine ⟨hcount ▸ honly, ?_, fun k hk f he => ?_, fun hnil => ?_, fun k hone => ?_⟩
  · rw [show u = _ from hu]
    exact (unoffered_kept (by simp [Progress.abandoned, Progress.toIdle])).chooseAll l _ (abandoned_unoffered s e)
  · have hmet := chooseAll_settles l (fun _ => True) ((s.abandoned e).drawn n) hwaits hc.levelsOk hc.inOrder hc.met
    rw [← hu] at hmet
    have hkw : u.choiceWaits k = false := by rw [honly.choiceWaits]; exact hc.choiceWaits hk
    rcases hmet k hkw f trivial he with hcov | ⟨⟨-, hnot⟩, -⟩
    · exact hcov
    · exact absurd ((hmem k).mpr hk) hnot
  · simp only [u, hnil]
    rfl
  · have huk : u = (s.abandoned e).choose k := by
      simp only [u, hone]
      rfl
    rw [huk]
    exact (choose_choiceFor (hc.choiceWaits (by simp [hone])) hc.levelsOk hc.inOrder
      fun j hj f _ he => hc.met j hj f trivial he).1

/-- The abandoned entry rests, so a level still asserted is an arrival at an IDLE entry (R20, R26). -/
theorem Clearable.latches (hc : Clearable s e) {u : State} {n : Nat} (honly : OffersOnly ((s.abandoned e).drawn n) u)
    (hu : Unoffered e (s.prog e).abandoned u) : Latches u e (u.latchAndGo e) := by
  obtain ⟨-, ⟨hnodup, -⟩, -⟩ := hc.entries
  have horder : u.et.order = s.et.order.erase e := honly.order
  refine latchAndGo_of_idle (c := s.cfg e) ?_ ?_ ?_ <;> rw [hu.1]
  · exact hc.progressLaw
  · rw [horder]
    simp [Progress.abandoned, Progress.toIdle, hnodup.not_mem_erase]
  · rfl

end

/-! ### The request -/

section
variable {s : State} {h : HostId} {object : Operand} {e : Source}

/-- A CLEAR_ENTRY that the port takes, from a host with the right, does what its body does. -/
theorem exec_clearEntry (hp : PortTakes s h) (hr : s.holdsRight h .config = true) :
    exec (.clearEntry h object) s = .next (clearEntryBody h object (s.taken h)) :=
  request_runs hp hr (by simp)

theorem clearEntryBody_idle (hx : object.toNat = e.val) (hi : (s.prog e).state = .idle) :
    clearEntryBody h object (s.taken h) = s.answered h 16 .ok := by
  simp [clearEntryBody, withIndex_val hx, hi]

theorem clearEntryBody_busy (hx : object.toNat = e.val)
    (hb : (s.prog e).state = .queued ∨ (s.prog e).state = .running ∨ ((s.prog e).state = .delivering ∧ (s.prog e).held ≠ 0)) :
    clearEntryBody h object (s.taken h) = s.answered h 16 .busy := by
  rw [clearEntryBody, withIndex_val hx]
  rcases hb with hq | hq | ⟨hq, hheld⟩
  · simp [hq]
  · simp [hq]
  · simp only [State.taken_prog, hq, if_neg hheld, State.taken_answer]

theorem clearEntryBody_clears (hx : object.toNat = e.val)
    (hc : (s.prog e).state = .latched ∨ (s.prog e).state = .parked ∨ ((s.prog e).state = .delivering ∧ (s.prog e).held = 0)) :
    clearEntryBody h object (s.taken h) = (s.answered h 16 .ok).clearNow e := by
  rw [clearEntryBody, withIndex_val hx, ← (clearNow_portBlind e).answer s h 16 .ok]
  rcases hc with hq | hq | ⟨hq, hheld⟩
  · simp [hq]
  · simp [hq]
  · simp [hq, hheld]

end

end Sys2Proof.Machine

/-- Settles O22: the event is abandoned, the hosts whose offers were withdrawn choose one after another, and a level still asserted is
then an arrival at an entry at rest. -/
theorem clearEntryAbandonsTheEvent : Obligations.ClearEntryAbandonsTheEvent := by
  intro s h e object hp hr hx hl markTake markHold ofE idled cleared asserted clearable
  refine ⟨fun hi => ?_, fun hb => ?_, fun hc => ?_⟩
  · rw [exec_clearEntry hp hr, clearEntryBody_idle hx hi]
  · rw [exec_clearEntry hp hr, clearEntryBody_busy hx hb]
  obtain ⟨hhost, hentry, ⟨hcopy, -, hsettled, -⟩, -⟩ := hl
  have hclaim : ∀ k, ClaimLaw s k := fun k => by
    obtain ⟨-, -, -, hclaim, -⟩ := hhost k
    exact hclaim
  have hrun : (s.prog e).state ≠ .running := by
    rcases hc with hq | hq | ⟨hq, -⟩ <;> simp [hq]
  have hclear : Clearable (s.answered h 16 .ok) e :=
    ⟨hentry, fun k => (hcopy k).1, hclaim, hsettled, hrun⟩
  have hcleared : (s.answered h 16 .ok).abandoned e = cleared := rfl
  have hof : ∀ k, k ∈ (s.answered h 16 .ok).offeredHosts e ↔ ofE (s.slot k) := fun k => mem_offeredHosts
  obtain ⟨honly, hun, hcov, hnone, hone⟩ := hclear.choices
  have hnow := clearNow_eq (s.answered h 16 .ok) e
  have hbody := clearEntryBody_clears (h := h) hx hc
  set u := ((s.answered h 16 .ok).abandoned e).chooseEach ((s.answered h 16 .ok).offeredHosts e)
  have hcfg : ∀ f, u.cfg f = s.cfg f := fun f => (honly.cfg f).trans (abandoned_cfg _ e f)
  have hlevel : ((u.cfg e).kind.isLevel && u.levelAsserted e) = asserted := by
    have hlev : u.levelAsserted e = s.levelAsserted e :=
      levelAsserted_congr (hcfg e) (by rw [honly.1]; rfl) (by rw [honly.1]; rfl)
    rw [hcfg, hlev]
  simp only [hlevel] at hnow
  refine ⟨(s.answered h 16 .ok).clearNow e, u, ?_, honly, fun ha => ?_, fun ha => ?_, fun hno => ?_, fun k => ⟨hun.2 k, fun hk f he => ?_⟩,
    fun k hk hothers => ?_⟩
  · rw [exec_clearEntry hp hr, hbody]
  · rw [hnow, ha]
    rfl
  · rw [hnow, ha]
    exact hclear.latches honly hun
  · exact hnone (List.eq_nil_iff_forall_not_mem.mpr fun k hk => hno k ((hof k).mp hk))
  · rw [← hcfg f]
    exact hcov k ((hof k).mpr hk) f he
  · refine hone k (offeredHosts_singleton ((hof k).mpr hk) fun j hj => ?_)
    by_contra hjk
    exact hothers j hjk ((hof j).mp hj)
end

section
/-! An arrival at an entry and a change of its level (R7, R26 to R28, R33, R35), and the requests that rest on little else: POST,
ENABLE and DISABLE. -/

open Sys2Proof Sys2Proof.Machine

namespace Sys2Proof.Machine

/-! ### Arrivals and changes of level -/

section
variable {s : State} {e : Source}

theorem EntryLaw.progressLaw (hl : EntryLaw s) (e : Source) : ProgressLaw (s.cfg e) (s.prog e) := by
  obtain ⟨hentries, -⟩ := hl
  obtain ⟨-, -, hprogress⟩ := hentries e
  exact hprogress

/-- The again flag is never that of a level kind (R15). -/
theorem EntryLaw.again_isLevel (hl : EntryLaw s) (ha : (s.prog e).again = true) : (s.cfg e).kind.isLevel = false := by
  obtain ⟨-, -, -, -, -, -, -, hagain⟩ := hl.progressLaw e
  exact (hagain ha).2

/-- The level hold mark stands only in LATCHED (R28). -/
theorem EntryLaw.latched_of_hold (hl : EntryLaw s) (hh : (s.prog e).hold = true) : (s.prog e).state = .latched := by
  obtain ⟨-, -, -, -, -, -, hhold, -⟩ := hl.progressLaw e
  exact hhold hh

/-- An IDLE entry of a lawful Event Table latches (R7). -/
theorem EntryLaw.latches (hl : EntryLaw s) (hi : (s.prog e).state = .idle) : Latches s e (s.latchAndGo e) := by
  have ⟨_, ⟨_, horder⟩, _⟩ := hl
  exact latchAndGo_of_idle (hl.progressLaw e) (horder e) hi

theorem arrive_idle (hi : (s.prog e).state = .idle) : s.arrive e = s.latchAndGo e := if_pos hi
theorem arrive_busy (hb : (s.prog e).state ≠ .idle) : s.arrive e = s.merge e := if_neg hb

theorem arrive_arrives (hl : EntryLaw s) (he : e ≠ 63) : Arrives s e (s.arrive e) := by
  refine ⟨fun hi => ?_, fun hb => ?_⟩
  · rw [arrive_idle hi]
    exact hl.latches hi
  · rw [arrive_busy hb]
    exact merge_remembers he

theorem assertLevel_idle (hi : (s.prog e).state = .idle) : s.assertLevel e = s.latchAndGo e := if_pos hi
theorem assertLevel_busy (hb : (s.prog e).state ≠ .idle) : s.assertLevel e = s := if_neg hb

theorem assertLevel_latches (hl : EntryLaw s) (hi : (s.prog e).state = .idle) : Latches s e (s.assertLevel e) := by
  rw [assertLevel_idle hi]
  exact hl.latches hi

/-- The entry with its level hold mark cleared (R28). -/
def State.unheld (s : State) (e : Source) : State := s.setProg e { s.prog e with hold := false }

theorem deassertLevel_unmarked (hh : (s.prog e).hold = false) : s.deassertLevel e = s := by
  simp [State.deassertLevel, hh]

/-- The level hold mark stands only in LATCHED, so enable alone decides whether the entry goes on. -/
theorem deassertLevel_marked (hl : EntryLaw s) (hh : (s.prog e).hold = true) :
    s.deassertLevel e = if (s.cfg e).enable then (s.unheld e).leaveLatched e else s.unheld e := by
  simp [State.deassertLevel, State.unheld, hh, hl.latched_of_hold hh]

theorem deassertLevel_disabled (hl : EntryLaw s) (hh : (s.prog e).hold = true) (hen : (s.cfg e).enable = false) :
    s.deassertLevel e = s.unheld e := by
  rw [deassertLevel_marked hl hh, if_neg (by simp [hen])]

theorem deassertLevel_leaves (hl : EntryLaw s) (hh : (s.prog e).hold = true) (hen : (s.cfg e).enable = true) :
    LeavesLatched (s.unheld e) e (s.deassertLevel e) := by
  rw [deassertLevel_marked hl hh, if_pos hen]
  have hagain : ((s.unheld e).prog e).again = true → ((s.unheld e).cfg e).kind.isLevel = false := by
    simp only [State.unheld, State.setProg_prog_self, State.setProg_cfg]
    exact hl.again_isLevel
  exact leaveLatched_leaves (by simp [State.unheld]) hagain

end

/-! ### POST -/

theorem merge_portBlind (e : Source) : PortBlind fun s => s.merge e := fun s p => by
  simp only [State.merge, withPorts_prog, withPorts_setProg, withPorts_sequenceOf, noteOn_portBlind _ _ _ _ p]
  split_ifs <;> rfl

theorem arrive_portBlind (e : Source) : PortBlind fun s => s.arrive e := fun s p => by
  simp only [State.arrive, withPorts_prog, latchAndGo_portBlind e s p, merge_portBlind e s p]
  split <;> rfl

section
variable {s : State} {h : HostId} {object : Operand} {e : Source}

/-- A POST that the port takes, from a host with a session, does what its body does. -/
theorem exec_post (hp : PortTakes s h) (hs : (s.ctx h).session ≠ .detached) :
    exec (.post h object) s = .next (postBody h object (s.taken h)) :=
  request_runs hp (holdsRight_none s h) fun _ => hs

theorem postBody_attached (hx : object.toNat = e.val) (hlo : 48 ≤ e.val) (hhi : e.val ≤ 62)
    (hs : (s.ctx h).session ≠ .lapsed) : postBody h object (s.taken h) = (s.answered h 7 .ok).arrive e := by
  rw [postBody, withIndex_val hx, if_neg (by omega), State.taken_ctx, if_neg hs]
  exact (arrive_portBlind e).answer s h 7 .ok

theorem postBody_lapsed (hx : object.toNat = e.val) (hlo : 48 ≤ e.val) (hhi : e.val ≤ 62)
    (hs : (s.ctx h).session = .lapsed) : postBody h object (s.taken h) = s.answered h 7 .state := by
  rw [postBody, withIndex_val hx, if_neg (by omega), State.taken_ctx, if_pos hs, State.taken_answer]

end

/-! ### ENABLE and DISABLE -/

section
variable {s : State} {h : HostId} {object : Operand} {e : Source}

/-- The entry with its enable field written (R36, R37). -/
def State.enabledAs (s : State) (e : Source) (on : Bool) : State := s.setCfg e { s.cfg e with enable := on }

theorem enableEntry_eq (s : State) (e : Source) :
    s.enableEntry e =
      if (s.prog e).state = .latched ∧ (s.prog e).hold = false then (s.enabledAs e true).leaveLatched e
      else s.enabledAs e true := by
  simp [State.enableEntry, State.enabledAs]

theorem enableEntry_portBlind (e : Source) : PortBlind fun s => s.enableEntry e := fun s p => by
  have hset : (s.withPorts p).enabledAs e true = (s.enabledAs e true).withPorts p := rfl
  simp only [enableEntry_eq, withPorts_prog, hset, leaveLatched_portBlind e _ p]
  split <;> rfl

theorem enabledAs_leaves (hl : EntryLaw s) (hh : (s.prog e).hold = false) :
    LeavesLatched (s.enabledAs e true) e ((s.enabledAs e true).leaveLatched e) := by
  refine leaveLatched_leaves (by simpa [State.enabledAs] using hh) ?_
  simp only [State.enabledAs, State.setCfg_prog, State.setCfg_cfg_self]
  exact hl.again_isLevel

/-- An ENABLE that the port takes, from a host with the right, is answered OK and enables the entry. -/
theorem exec_enable (hp : PortTakes s h) (hr : s.holdsRight h .config = true) (hx : object.toNat = e.val) :
    exec (.enable h object 1) s = .next ((s.answered h 15 .ok).enableEntry e) := by
  have hrun : exec (.enable h object 1) s = .next (enableBody h object 1 (s.taken h)) :=
    request_runs hp hr (by simp)
  rw [hrun, enableBody, withIndex_val hx, if_pos rfl]
  exact congrArg _ ((enableEntry_portBlind e).answer s h 15 .ok)

/-- A DISABLE that the port takes, from a host with the right, is answered OK and clears the enable field. -/
theorem exec_disable (hp : PortTakes s h) (hr : s.holdsRight h .config = true) (hx : object.toNat = e.val) :
    exec (.disable h object) s = .next ((s.enabledAs e false).answered h 15 .ok) := by
  have hrun : exec (.disable h object) s = .next (disableBody h object (s.taken h)) :=
    request_runs hp hr (by simp)
  have hblind : PortBlind fun s => s.enabledAs e false := fun _ _ => rfl
  rw [hrun, disableBody, withIndex_val hx]
  exact congrArg _ (hblind.answer s h 15 .ok)

end

end Sys2Proof.Machine

/-- Settles O19: a POST is an arrival at an entry that is not S63, and the port's answer stands apart from it. -/
theorem postMakesAnArrival : Obligations.PostMakesAnArrival := by
  intro s h e object hp hx hlo hhi
  refine ⟨fun hs hl => ⟨(s.answered h 7 .ok).arrive e, ?_, ?_⟩, fun hs => ?_⟩
  · rw [exec_post hp (by simp [hs]), postBody_attached hx hlo hhi (by simp [hs])]
  · have hne : e ≠ 63 := fun he => by
      rw [he] at hhi
      exact absurd hhi (by decide)
    exact arrive_arrives (s := s.answered h 7 .ok) hl hne
  · rw [exec_post hp (by simp [hs]), postBody_lapsed hx hlo hhi hs]

/-- Settles O21: with the field written, the state part of the entry alone decides whether it goes on. -/
theorem enableAndDisableWriteTheField : Obligations.EnableAndDisableWriteTheField := by
  intro s h e object hp hr hx hl u
  have hu : (s.answered h 15 .ok).enabledAs e true = u := rfl
  refine ⟨fun hno => ?_, fun hlat hhold => ⟨u.leaveLatched e, ?_, ?_⟩, exec_disable hp hr hx⟩
  · rw [exec_enable hp hr hx, enableEntry_eq, hu]
    exact congrArg _ (if_neg hno)
  · rw [exec_enable hp hr hx, enableEntry_eq, hu]
    exact congrArg _ (if_pos ⟨hlat, hhold⟩)
  · exact enabledAs_leaves (s := s.answered h 15 .ok) hl hhold
end

section
/-! A change of an EVT line: the value sampled, and what the kind of the entry makes of it (R23 to R28). -/

open Sys2Proof Sys2Proof.Machine

namespace Sys2Proof.Machine

/-- The lines with one of them sampled at a value (R23). -/
def sampleLine (lines : BitVec 48) (line : LineId) (high : Bool) : BitVec 48 :=
  if high then lines ||| 1#48 <<< line.val else lines &&& ~~~(1#48 <<< line.val)

theorem getLsbD_lineMask (line l : LineId) : (1#48 <<< line.val).getLsbD l.val = decide (l = line) := by
  rw [BitVec.getLsbD_shiftLeft, BitVec.getLsbD_one, Bool.eq_iff_iff]
  simp only [Bool.and_eq_true, Bool.not_eq_true', decide_eq_true_eq, decide_eq_false_iff_not, Fin.ext_iff]
  omega

theorem sampleLine_getLsbD (lines : BitVec 48) (line : LineId) (high : Bool) (l : LineId) :
    (sampleLine lines line high).getLsbD l.val = if l = line then high else lines.getLsbD l.val := by
  cases high with
  | true =>
    rw [sampleLine, if_pos rfl, BitVec.getLsbD_or, getLsbD_lineMask]
    by_cases hl : l = line <;> simp [hl]
  | false =>
    rw [sampleLine, if_neg Bool.false_ne_true, BitVec.getLsbD_and, BitVec.getLsbD_not, getLsbD_lineMask]
    by_cases hl : l = line <;> simp [hl]

/-- A line that shows a change is sampled, and the entry of that line judges the change (R23). -/
theorem exec_lineChange {s : State} {line : LineId} {high : Bool} (hr : s.pins.resetLow = false)
    (hc : s.lines.getLsbD line.val ≠ high) :
    exec (.lineChange line high) s =
      .next ({ s with lines := sampleLine s.lines line high }.judgeLine (line.castLE (by decide)) high) := by
  change execLineChange line high s = _
  rw [execLineChange, if_neg (by rw [hr, Bool.false_or, beq_iff_eq]; exact hc)]
  rfl

section
variable {s : State} {e : Source} {high : Bool}

theorem judgeLine_arrival (hk : ((s.cfg e).kind = .rising ∧ high = true) ∨ ((s.cfg e).kind = .falling ∧ high = false) ∨
    (s.cfg e).kind = .both) : s.judgeLine e high = s.arrive e := by
  rcases hk with ⟨hk, rfl⟩ | ⟨hk, rfl⟩ | hk <;> simp [State.judgeLine, hk]

theorem judgeLine_otherEdge (hk : ((s.cfg e).kind = .rising ∧ high = false) ∨ ((s.cfg e).kind = .falling ∧ high = true)) :
    s.judgeLine e high = s := by
  rcases hk with ⟨hk, rfl⟩ | ⟨hk, rfl⟩ <;> simp [State.judgeLine, hk]

theorem judgeLine_assertion (hk : ((s.cfg e).kind = .levelHigh ∧ high = true) ∨
    ((s.cfg e).kind = .levelLow ∧ high = false)) : s.judgeLine e high = s.assertLevel e := by
  rcases hk with ⟨hk, rfl⟩ | ⟨hk, rfl⟩ <;> simp [State.judgeLine, hk]

theorem judgeLine_deassertion (hk : ((s.cfg e).kind = .levelHigh ∧ high = false) ∨
    ((s.cfg e).kind = .levelLow ∧ high = true)) : s.judgeLine e high = s.deassertLevel e := by
  rcases hk with ⟨hk, rfl⟩ | ⟨hk, rfl⟩ <;> simp [State.judgeLine, hk]

end

end Sys2Proof.Machine

/-- Settles O27: the Event Table does not read the lines, so the laws of the entry hold with the new value sampled, and its kind and
the direction of the change name the operation. -/
theorem lineChangesAreJudgedByTheKind : Obligations.LineChangesAreJudgedByTheKind := by
  intro s line high hr hc hl e
  let u : State := { s with lines := sampleLine s.lines line high }
  have hlaw : EntryLaw u := hl
  have hne : e ≠ 63 := fun he => by
    have hline : line.val = 63 := congrArg Fin.val he
    omega
  refine ⟨u.judgeLine e high, exec_lineChange hr hc, u, rfl, sampleLine_getLsbD s.lines line high, fun hk => ?_,
    fun hk => judgeLine_otherEdge (s := u) hk, fun hk => ?_, fun hk => ?_⟩
  · rw [judgeLine_arrival (s := u) hk]
    exact arrive_arrives hlaw hne
  · rw [judgeLine_assertion (s := u) hk]
    refine ⟨fun hi => ?_, fun hb => ?_⟩
    · exact assertLevel_latches hlaw hi
    · exact assertLevel_busy hb
  · rw [judgeLine_deassertion (s := u) hk]
    refine ⟨fun hh => ?_, fun hh hen => ?_, fun hh hen => ?_⟩
    · exact deassertLevel_unmarked hh
    · exact deassertLevel_disabled hlaw hh hen
    · exact deassertLevel_leaves hlaw hh hen
end

section
/-! The changes of S63's level, and the notices that a claim on S63 appends itself (R31, R32, R162, R167, log 12). -/

open Sys2Proof Sys2Proof.Machine

namespace Sys2Proof.Machine

/-! ### The notices of one sequence -/

/-- The state with other notices waiting to be appended. -/
def State.withNotices (s : State) (l : List (Origin × Notice)) : State :=
  { s with claims := { s.claims with notices := l } }

/-- An append reads and writes no notice that waits. -/
theorem takeAppend_withNotices (s : State) (l : List (Origin × Notice)) (n : Notice) :
    (s.withNotices l).takeAppend n = (s.takeAppend n).withNotices l := by
  cases hq : s.nq.records.isEmpty <;> simp [State.takeAppend, State.withNotices, hq]

theorem flushNotices_eq (s : State) (o : Origin) :
    s.flushNotices o = ((s.claims.notices.filter fun x => x.1 == o).map Prod.snd).foldl State.takeAppend
      (s.withNotices (s.claims.notices.filter fun x => x.1 != o)) := rfl

/-- With none of the sequence waiting, none is taken. -/
theorem flushNotices_of_none {s : State} {o : Origin} (hn : ∀ x ∈ s.claims.notices, x.1 ≠ o) : s.flushNotices o = s := by
  have hmine : (s.claims.notices.filter fun x => x.1 == o) = [] := List.filter_eq_nil_iff.mpr fun x hx => by simpa using hn x hx
  have hrest : (s.claims.notices.filter fun x => x.1 != o) = s.claims.notices :=
    List.filter_eq_self.mpr fun x hx => by simpa using hn x hx
  rw [flushNotices_eq, hmine, hrest]
  rfl

/-- The oldest notice of a sequence that waits, between those before it, all of other sequences, and the rest. -/
theorem exists_oldest {l : List (Origin × Notice)} {o : Origin} (hw : ∃ x ∈ l, x.1 = o) :
    ∃ before x after, l = before ++ x :: after ∧ x.1 = o ∧ ∀ y ∈ before, y.1 ≠ o := by
  obtain ⟨x, hfind⟩ : ∃ x, l.find? (fun x => x.1 == o) = some x :=
    Option.isSome_iff_exists.mp (by simpa using hw)
  obtain ⟨hx, before, after, hl, hbefore⟩ := List.find?_eq_some_iff_append.mp hfind
  exact ⟨before, x, after, hl, by simpa using hx, fun y hy => by simpa using hbefore y hy⟩

/-- NOTICE_APPEND takes the oldest notice of the sequence, and leaves the others as they wait (R163). -/
theorem exec_noticeAppend {s : State} {o : Origin} {before after : List (Origin × Notice)} {x : Origin × Notice}
    (hl : s.claims.notices = before ++ x :: after) (hx : x.1 = o) (hbefore : ∀ y ∈ before, y.1 ≠ o) :
    exec (.noticeAppend o) s = .next ((s.takeAppend x.2).withNotices (before ++ after)) := by
  have hfind : s.claims.notices.find? (fun y => y.1 == o) = some x :=
    List.find?_eq_some_iff_append.mpr ⟨by simpa using hx, before, after, hl, fun y hy => by simpa using hbefore y hy⟩
  have hmem : x ∉ before := fun hm => hbefore x hm hx
  have herase : s.claims.notices.erase x = before ++ after := by
    rw [hl, List.erase_append_right _ hmem, List.erase_cons_head]
  change execNoticeAppend o s = _
  simp only [execNoticeAppend, hfind, herase]
  exact congrArg _ (takeAppend_withNotices s (before ++ after) x.2)

/-- The notices of a sequence are taken all at once as they are one by one, the oldest first. -/
theorem flushNotices_append {s : State} {o : Origin} {before after : List (Origin × Notice)} {x : Origin × Notice}
    (hl : s.claims.notices = before ++ x :: after) (hx : x.1 = o) (hbefore : ∀ y ∈ before, y.1 ≠ o) :
    s.flushNotices o = ((s.takeAppend x.2).withNotices (before ++ after)).flushNotices o := by
  have hnone : (before.filter fun y => y.1 == o) = [] := List.filter_eq_nil_iff.mpr fun y hy => by simpa using hbefore y hy
  have hmine : (s.claims.notices.filter fun y => y.1 == o) = x :: ((before ++ after).filter fun y => y.1 == o) := by
    simp [hl, hx, hnone]
  have hrest : (s.claims.notices.filter fun y => y.1 != o) = (before ++ after).filter fun y => y.1 != o := by
    simp [hl, hx]
  rw [flushNotices_eq, hmine, hrest, List.map_cons, List.foldl_cons, takeAppend_withNotices, flushNotices_eq]
  rfl

/-! ### A claim on S63 -/

/-- On S63 the notice is appended once those of its sequence are (R32, R163). -/
theorem noteOn_s63 (s : State) (o : Origin) (n : Notice) :
    s.noteOn 63 o n = { s.flushNotices o with nq := (s.flushNotices o).nq.append n } := rfl

theorem noteOn_s63_of_none {s : State} {o : Origin} (hn : ∀ x ∈ s.claims.notices, x.1 ≠ o) (n : Notice) :
    s.noteOn 63 o n = { s with nq := s.nq.append n } := by
  rw [noteOn_s63, flushNotices_of_none hn]

theorem append_space {q : NoticeQueue} (hq : q.records.length < 16) (n : Notice) :
    q.append n = { q with records := q.records ++ [n] } := if_pos hq

/-- An append to a full queue counts in the overflow, which stays at 255 (R162). -/
theorem append_full {q : NoticeQueue} {k : Fin 256} (hq : 16 ≤ q.records.length)
    (hk : k.val = min 255 (q.overflow.val + 1)) (n : Notice) : q.append n = { q with overflow := k } := by
  have hcount : (if q.overflow = 255 then 255 else q.overflow + 1) = k := by
    split
    next hfull => exact Fin.ext (by rw [hk, hfull]; rfl)
    next hspace =>
      have hval : q.overflow.val ≠ 255 := fun hv => hspace (Fin.ext hv)
      have hlt := q.overflow.isLt
      refine Fin.ext ?_
      rw [hk, Fin.val_add_one_of_lt' (by omega)]
      omega
  rw [NoticeQueue.append, if_neg (show ¬q.records.length < Config.noticeDepth from Nat.not_lt.mpr hq), hcount]

/-! ### NOTICE_LEVEL_CHANGE -/

theorem exec_noticeLevelChange_none {s : State} (hn : s.claims.levels = []) : exec .noticeLevelChange s = .next s := by
  change execNoticeLevelChange s = _
  rw [execNoticeLevelChange, hn]

/-- The oldest change of S63's level is taken, and judged by its direction (R31, log 27). -/
theorem exec_noticeLevelChange {s : State} {up : Bool} {rest : List Bool} (hn : s.claims.levels = up :: rest) :
    let u : State := { s with claims := { s.claims with levels := rest } }
    exec .noticeLevelChange s = .next (if up then u.assertLevel 63 else u.deassertLevel 63) := by
  change execNoticeLevelChange s = _
  rw [execNoticeLevelChange, hn]

end Sys2Proof.Machine

/-- Settles O51: a sequence taken at once is taken one by one, and a change of the level is an assertion or a deassertion at S63 in a
state whose Event Table is as lawful as before. -/
theorem s63LevelChangesAreTaken : Obligations.S63LevelChangesAreTaken := by
  refine ⟨fun s e o n => ⟨fun he => noteOn_ne he s o n, ?_, ?_⟩, fun s hl => ⟨exec_noticeLevelChange_none, ?_⟩⟩
  · rintro rfl t hw ht
    obtain ⟨before, x, after, hwait, hx, hbefore⟩ := exists_oldest hw
    rw [exec_noticeAppend hwait hx hbefore] at ht
    cases ht
    rw [noteOn_s63, noteOn_s63, flushNotices_append hwait hx hbefore]
  · rintro rfl hn
    rw [noteOn_s63_of_none hn]
    exact ⟨fun hq => by rw [append_space hq], fun k hq hk => by rw [append_full hq hk]⟩
  · intro up rest hn u
    have hlaw : EntryLaw u := hl
    have hexec := exec_noticeLevelChange hn
    cases up with
    | true =>
      refine ⟨u.assertLevel 63, hexec, fun _ hi => ?_, fun _ hb => ?_, fun hup => ?_, fun hup => ?_, fun hup => ?_⟩
      · exact assertLevel_latches hlaw hi
      · exact assertLevel_busy hb
      all_goals exact absurd hup Bool.false_ne_true.symm
    | false =>
      refine ⟨u.deassertLevel 63, hexec, fun hup => ?_, fun hup => ?_, fun _ hh => ?_, fun _ hh hen => ?_, fun _ hh hen => ?_⟩
      · exact absurd hup Bool.false_ne_true
      · exact absurd hup Bool.false_ne_true
      · exact deassertLevel_unmarked hh
      · exact deassertLevel_disabled hlaw hh hen
      · exact deassertLevel_leaves hlaw hh hen
end

section
/-! The supervisor's requests on the host contexts: SET_HOST_LIMITS, SET_RIGHTS and HAND_OVER (R49, R51 to R53). -/

open Sys2Proof Sys2Proof.Machine

namespace Sys2Proof.Machine

section
variable {s : State} {h k : HostId} {object : Operand}

/-- A host context written apart from the ports may be written after the answer. -/
theorem setCtx_portBlind (k : HostId) (f : HostContext → HostContext) : PortBlind fun s => s.setCtx k (f (s.ctx k)) :=
  fun _ _ => rfl

theorem fin_ofNat_toNat (value : Operand) : Fin.ofNat 256 value.toNat = value.toFin :=
  Fin.ext (Nat.mod_eq_of_lt value.isLt)

/-- The two flags of a SET_RIGHTS value are bits 0 and 1, and no other bit is set (R177). -/
theorem rightsValue_bits (config desc : Bool) :
    (BitVec.ofNat 8 (bit config + 2 * bit desc)).toNat < 4 ∧
    (BitVec.ofNat 8 (bit config + 2 * bit desc)).getLsbD 0 = config ∧
    (BitVec.ofNat 8 (bit config + 2 * bit desc)).getLsbD 1 = desc := by
  revert config desc
  decide

theorem exec_setHostLimits {limit : Fin 16} {sub value : Operand} (hp : PortTakes s h) (hs : s.hcu.supervisor = h)
    (hx : object.toNat = k.val) (hl : limit ≠ 0) (hsub : sub.toNat = limit.val) :
    exec (.setHostLimits h object sub value) s =
      .next ((s.setCtx k { s.ctx k with lapseLimit := limit, timeout := value.toFin }).answered h 23 .ok) := by
  have hrun : exec (.setHostLimits h object sub value) s = .next (setHostLimitsBody h object sub value (s.taken h)) :=
    request_runs hp (holdsRight_supervisor hs _) (by simp)
  rw [hrun, setHostLimitsBody, withIndex_val hx, withIndex_val hsub, if_neg hl, fin_ofNat_toNat]
  exact congrArg _ ((setCtx_portBlind k fun c => { c with lapseLimit := limit, timeout := value.toFin }).answer s h 23 .ok)

theorem exec_setRights (hp : PortTakes s h) (hs : s.hcu.supervisor = h) (hx : object.toNat = k.val) (config desc : Bool) :
    exec (.setRights h object (BitVec.ofNat 8 (bit config + 2 * bit desc))) s =
      .next ((s.setCtx k { s.ctx k with configRight := config, descRight := desc }).answered h 24 .ok) := by
  have hrun : exec (.setRights h object (BitVec.ofNat 8 (bit config + 2 * bit desc))) s =
      .next (setRightsBody h object (BitVec.ofNat 8 (bit config + 2 * bit desc)) (s.taken h)) :=
    request_runs hp (holdsRight_supervisor hs _) (by simp)
  obtain ⟨hlt, hconfig, hdesc⟩ := rightsValue_bits config desc
  rw [hrun, setRightsBody, withIndex_val hx, if_pos hlt, hconfig, hdesc]
  exact congrArg _ ((setCtx_portBlind k fun c => { c with configRight := config, descRight := desc }).answer s h 24 .ok)

/-- A HAND_OVER that the port takes from the supervisor is judged by the host it names (R52). -/
theorem exec_handOver (hp : PortTakes s h) (hs : s.hcu.supervisor = h) (hx : object.toNat = k.val) :
    exec (.handOver h object) s = .next
      (if k = h then s.answered h 25 .ok
       else if (s.ctx k).session = .attached then State.answered { s with hcu := { s.hcu with supervisor := k } } h 25 .ok
       else s.answered h 25 .state) := by
  have hrun : exec (.handOver h object) s = .next (handOverBody h object (s.taken h)) :=
    request_runs hp (holdsRight_supervisor hs _) (by simp)
  have hblind : PortBlind fun s => { s with hcu := { s.hcu with supervisor := k } } := fun _ _ => rfl
  rw [hrun, handOverBody, withIndex_val hx]
  simp only [State.taken_hcu, hs, State.taken_ctx, State.taken_answer]
  exact congrArg (fun t => Host.Outcome.next (if k = h then s.answered h 25 .ok
    else if (s.ctx k).session = .attached then t else s.answered h 25 .state)) (hblind.answer s h 25 .ok)

end

end Sys2Proof.Machine

/-- Settles O13: the supervisor holds the right, every operand is in range, and no write touches a port. -/
theorem supervisorRequestsWriteTheContexts : Obligations.SupervisorRequestsWriteTheContexts := by
  intro s h k object hp hs hx
  refine ⟨fun limit sub value hl hsub => exec_setHostLimits hp hs hx hl hsub, exec_setRights hp hs hx, fun hk => ?_,
    fun hk ha => ?_, fun hk ha => ?_⟩
  · rw [exec_handOver hp hs hx, if_pos hk]
  · rw [exec_handOver hp hs hx, if_neg hk, if_pos ha]
  · rw [exec_handOver hp hs hx, if_neg hk, if_neg ha]
end

section
/-! The requests of the catalogue as one shape, and the ports that take none (R59, R168, R175). -/

open Sys2Proof Sys2Proof.Machine

namespace Sys2Proof.Machine

/-- Every well-formed request of the catalogue is its port's checks, with the code, right and session of R173, and then a body. -/
theorem exec_request {c : Instr} {h : HostId} (hc : c.port = some h) (hw : c.wellFormed = true) :
    ∃ body : State → State, ∀ s : State, exec c s = request h c.code c.right c.session body s := by
  cases c
  case enable k object value =>
    cases hc
    have hv : value ≠ 0 := by simpa [Instr.wellFormed] using hw
    exact ⟨enableBody h object value, fun s => if_neg hv⟩
  all_goals cases hc
  all_goals exact ⟨_, fun _ => rfl⟩

theorem exec_unknownRequest {code : Operand} (hc : ¬(1 ≤ code.toNat ∧ code.toNat ≤ 26)) (h : HostId) (s : State) :
    exec (.unknownRequest h code) s = request h 0 .none false (fun t => t.answer h 0 .unknown) s :=
  if_neg (by simpa [knownCode] using hc)

end Sys2Proof.Machine

/-- Settles O5: a known request and an unknown one meet the same two checks of their port, and LOST_REQUEST makes them itself. -/
theorem portsThatTakeNoRequest : Obligations.PortsThatTakeNoRequest := by
  intro c h s hc
  rcases hc with ⟨hport, hwell⟩ | rfl | ⟨code, hcode, rfl⟩
  · obtain ⟨body, hexec⟩ := exec_request hport hwell
    rw [hexec s]
    exact ⟨fun hp => request_ignored hp _ _ _ _, fun h1 h2 h3 => request_lost h1 h2 h3 _ _ _ _⟩
  · change (_ → execLostRequest h s = _) ∧ (_ → _ → _ → execLostRequest h s = _)
    refine ⟨fun hp => ?_, fun h1 h2 h3 => ?_⟩
    · rcases hp with hp | hp <;> simp [execLostRequest, hp]
    · simp [execLostRequest, h1, h2, h3]
  · rw [exec_unknownRequest hcode]
    exact ⟨fun hp => request_ignored hp _ _ _ _, fun h1 h2 h3 => request_lost h1 h2 h3 _ _ _ _⟩
end

section
/-! The choice for one host in a state that a change of that host alone has left of a lawful one (R67), and ATTACH, DETACH, the host
reset and SET_THRESHOLD. -/

open Sys2Proof Sys2Proof.Machine

namespace Sys2Proof.Machine

/-! ### The choice after a change of one host -/

section
variable {s u : State} {h : HostId}

/-- A standing offer has its entry's level, as a copy of it (R62). -/
theorem DeliveryLaw.levelsOk (hd : DeliveryLaw s) : LevelsOk s := fun k o ho => by
  obtain ⟨hcopy, -⟩ := hd
  obtain ⟨⟨-, -, heq⟩, -⟩ := (hcopy k).imp_left fun hk => hk o ho
  exact congrArg Offer.level heq

theorem EntryLaw.inOrder (hl : EntryLaw s) : InOrder s := fun f hf => by
  obtain ⟨-, ⟨-, horder⟩, -⟩ := hl
  exact (horder f).mpr (by simp [hf])

/-- Between commands no choice is open but at empty slots (R66, R69). -/
theorem DeliveryLaw.met (hd : DeliveryLaw s) : MetOver (fun _ => True) s fun _ _ => True := by
  obtain ⟨-, -, hsettled, -⟩ := hd
  exact (settledLaw_iff s).mp hsettled

/-- Eligibility is read from the entry, the host's context and the view of its stack (R64). -/
theorem eligible_congr {e : Source} {k : HostId} (he : u.entry e = s.entry e) (hc : u.ctx k = s.ctx k)
    (hv : u.viewOf k = s.viewOf k) : u.eligible e k = s.eligible e k := by
  unfold State.eligible State.viewLevel
  rw [he, hc, hv]

/-- The two states differ in host h alone, as far as offers are concerned: the entries are the same, h's slot is as it was or empty, and
every other host has its slot, its waiting claims, its context and the Offer Unit's view of its stack. -/
structure ApartFrom (h : HostId) (s u : State) : Prop where
  et : u.et = s.et
  slot_self : u.slot h = s.slot h ∨ (u.slot h).offer = none
  slot : ∀ k, k ≠ h → u.slot k = s.slot k
  waits : ∀ k, k ≠ h → u.choiceWaits k = s.choiceWaits k
  ctx : ∀ k, k ≠ h → u.ctx k = s.ctx k
  view : ∀ k, k ≠ h → u.viewOf k = s.viewOf k

theorem ApartFrom.trans {t : State} (ha : ApartFrom h s t) (hb : ApartFrom h t u) : ApartFrom h s u where
  et := hb.et.trans ha.et
  slot_self := hb.slot_self.elim (fun heq => heq ▸ ha.slot_self) .inr
  slot k hk := (hb.slot k hk).trans (ha.slot k hk)
  waits k hk := (hb.waits k hk).trans (ha.waits k hk)
  ctx k hk := (hb.ctx k hk).trans (ha.ctx k hk)
  view k hk := (hb.view k hk).trans (ha.view k hk)

theorem answered_apart (s : State) (h k : HostId) (code : Operand) (r : ResultCode) : ApartFrom h s (s.answered k code r) :=
  ⟨rfl, .inl rfl, fun _ _ => rfl, fun _ _ => rfl, fun _ _ => rfl, fun _ _ => rfl⟩

theorem setCtx_apart (s : State) (h : HostId) (c : HostContext) : ApartFrom h s (s.setCtx h c) :=
  ⟨rfl, .inl rfl, fun _ _ => rfl, fun _ _ => rfl, fun k hk => by rw [State.setCtx_ctx, if_neg hk], fun _ _ => rfl⟩

theorem ApartFrom.cfg (ha : ApartFrom h s u) (e : Source) : u.cfg e = s.cfg e := by
  simp only [State.cfg, State.entry, ha.et]

theorem ApartFrom.eligible (ha : ApartFrom h s u) {k : HostId} (hk : k ≠ h) (e : Source) : u.eligible e k = s.eligible e k :=
  eligible_congr (by simp only [State.entry, ha.et]) (ha.ctx k hk) (ha.view k hk)

theorem ApartFrom.levelsOk (ha : ApartFrom h s u) (hl : LevelsOk s) : LevelsOk u := fun k o ho => by
  rw [ha.cfg]
  refine hl k o ?_
  by_cases hk : k = h
  · subst hk
    rcases ha.slot_self with heq | hnone
    · exact heq ▸ ho
    · simp [hnone] at ho
  · exact ha.slot k hk ▸ ho

theorem ApartFrom.inOrder (ha : ApartFrom h s u) (hi : InOrder s) : InOrder u := fun f hf => by
  simp only [State.prog, State.entry, ha.et] at hf ⊢
  exact hi f hf

theorem ApartFrom.met (ha : ApartFrom h s u) (hm : MetOver (fun _ => True) s fun k _ => k ≠ h) :
    MetOver (fun _ => True) u fun k _ => k ≠ h := fun k hw f hk he => by
  rw [ha.waits k hk] at hw
  rw [ha.eligible hk] at he
  have := hm k hw f hk he
  simpa only [Met, Covers, ha.slot k hk, ha.cfg] using this

/-- The choice for a host whose own change alone is open (R67, R69). -/
theorem ApartFrom.choiceFor (ha : ApartFrom h s u) (hl : LevelsOk s) (hi : InOrder s)
    (hm : MetOver (fun _ => True) s fun k _ => k ≠ h) (hw : u.choiceWaits h = false) : ChoiceFor u (u.choose h) h :=
  (choose_choiceFor hw (ha.levelsOk hl) (ha.inOrder hi) (ha.met hm)).1

/-- The choice for a host that alone has changed since a lawful state. -/
theorem Lawful.choiceFor (hlaw : Lawful s) (ha : ApartFrom h s u) (hw : u.choiceWaits h = false) : ChoiceFor u (u.choose h) h := by
  obtain ⟨-, hentry, hdelivery, -, -⟩ := hlaw
  exact ha.choiceFor hdelivery.levelsOk hentry.inOrder (fun k hk f _ he => hdelivery.met k hk f trivial he) hw

end

/-! ### ATTACH -/

/-- The session of h ATTACHED with lapse count 0, its choice to follow (R44). -/
def State.opened (s : State) (h : HostId) : State := s.setCtx h { s.ctx h with session := .attached, lapseCount := 0 }

theorem attachNow_eq (s : State) (h : HostId) : s.attachNow h = (s.opened h).choose h := rfl

theorem attachNow_portBlind (h : HostId) : PortBlind fun s => s.attachNow h :=
  (choose_portBlind h).comp (setCtx_portBlind h fun c => { c with session := .attached, lapseCount := 0 })

section
variable {s : State} {h : HostId}

/-- An ATTACH that the port takes is judged by the session and by what is outstanding of the last departure (R44, R46). -/
theorem exec_attach (hp : PortTakes s h) :
    exec (.attach h) s = .next
      (if (s.ctx h).session = .attached then s.answered h 1 .ok
       else if s.givingBack h then s.setPort h { s.port h with lost := false, waiting := some .attach }
       else (s.answered h 1 .ok).attachNow h) := by
  have hrun : exec (.attach h) s = .next (attachBody h (s.taken h)) := request_runs hp (holdsRight_none s h) (by simp)
  have hattach : ((s.taken h).attachNow h).answer h 1 .ok = (s.answered h 1 .ok).attachNow h :=
    (attachNow_portBlind h).answer s h 1 .ok
  rw [hrun, attachBody, State.taken_ctx, State.taken_answer, State.taken_givingBack, State.taken_setPort, State.taken_port_self,
    hattach]

end

/-! ### The end of a session -/

section
variable {s : State} {h : HostId}

theorem gaveBack_portBlind (h : HostId) (es : List Source) : PortBlind fun s => s.gaveBack h es := fun _ _ => rfl

theorem giveBack_taken (hs : (s.slot h).offer = none → (s.slot h).timer = none) (k : HostId) :
    (s.taken k).giveBack h = (s.taken k).gaveBack h (s.owedBy h) := giveBack_eq (s := s.taken k) hs

/-- A DETACH that the port takes is judged by the session (R46). -/
theorem exec_detach (hp : PortTakes s h) :
    exec (.detach h) s = .next
      (if (s.ctx h).session = .detached then s.answered h 2 .ok else ((s.taken h).giveBack h).answer h 2 .ok) := by
  have hrun : exec (.detach h) s = .next (detachBody h (s.taken h)) := request_runs hp (holdsRight_none s h) (by simp)
  rw [hrun, detachBody, State.taken_ctx, State.taken_answer]

end

end Sys2Proof.Machine

/-- Settles O8: the choice does not read the port, so it is that of a state in which h's context alone has changed. -/
theorem attachOpensTheSession : Obligations.AttachOpensTheSession := by
  intro s h hp
  refine ⟨fun ha => ?_, fun hn hg => ?_, fun hn hg => ?_⟩
  · rw [exec_attach hp, if_pos ha]
  · rw [exec_attach hp, if_neg hn, if_pos hg]
  · refine ⟨(s.answered h 1 .ok).attachNow h, ?_, choose_offersOnly _ h, fun hlaw hw => ?_⟩
    · rw [exec_attach hp, if_neg hn, if_neg (by simp [hg])]
    · exact hlaw.choiceFor ((answered_apart s h h 1 .ok).trans (setCtx_apart _ h _)) hw

/-- Settles O9: what a session's end gives back is one update, made apart from the answer. -/
theorem detachGivesEverythingBack : Obligations.DetachGivesEverythingBack := by
  intro s h hp
  refine ⟨fun hd => ?_, fun hd hslot => ⟨s.owedBy h, owedBy_inOrder s h, ?_⟩⟩
  · rw [exec_detach hp, if_pos hd]
  · rw [exec_detach hp, if_neg hd, giveBack_taken hslot]
    exact congrArg _ ((gaveBack_portBlind h (s.owedBy h)).answer s h 2 .ok)

/-- Settles O28: a host reset is the end of the session, where there is one, and then writes the context, the port and the pin. -/
theorem hostResetDetachesTheHost : Obligations.HostResetDetachesTheHost := by
  intro s h reset
  have hexec : exec (.hostReset h) s = .next (reset (if (s.ctx h).session = .detached then s else s.giveBack h)) := rfl
  refine ⟨fun hd => ?_, fun hd hslot => ⟨s.owedBy h, owedBy_inOrder s h, ?_⟩, rfl,
    fun k => ⟨hasHost_addHost _ _ _, hasHost_dropHost _ _ _⟩⟩
  · rw [hexec, if_pos hd]
  · rw [hexec, if_neg hd, giveBack_eq hslot]
end

section
/-! SET_THRESHOLD (R48), EVICT (R56) and the lapse report (R54). -/

open Sys2Proof Sys2Proof.Machine

namespace Sys2Proof.Machine

/-! ### SET_THRESHOLD -/

/-- The threshold of h written, nothing else yet (R48). -/
def State.thresholdAt (s : State) (h : HostId) (v : Level) : State := s.setCtx h { s.ctx h with threshold := v }

/-- The offer of e to h withdrawn, the Event Table to be told (R73). -/
def State.withdrawn (s : State) (h : HostId) (e : Source) : State :=
  (s.setSlot h { offer := none, timer := none }).setHanded h (s.handedOf h ++ [.withdraw e])

theorem withdrawOffer_some {s : State} {h : HostId} {o : Offer} (ho : (s.slot h).offer = some o) :
    s.withdrawOffer h = s.withdrawn h o.source := by
  simp only [State.withdrawOffer, ho]
  rfl

theorem withdrawOffer_none {s : State} {h : HostId} (ho : (s.slot h).offer = none) : s.withdrawOffer h = s := by
  simp only [State.withdrawOffer, ho]

section
variable {s : State} {h : HostId} {v : Level}

/-- With no standing offer that the new effective level reaches, a choice is made where the effective level has changed (R67). -/
theorem writeThreshold_eq (hs : ∀ o ∈ (s.slot h).offer, (s.thresholdAt h v).viewLevel h < o.level) :
    s.writeThreshold h v =
      if (s.thresholdAt h v).level h = s.level h then s.thresholdAt h v else (s.thresholdAt h v).choose h := by
  have hthr : s.setCtx h { s.ctx h with threshold := v } = s.thresholdAt h v := rfl
  have hslot : (s.thresholdAt h v).slot h = s.slot h := rfl
  unfold State.writeThreshold
  simp only [hthr, hslot]
  cases ho : (s.slot h).offer with
  | none => simp
  | some o =>
    have hlt : ¬o.level ≤ (s.thresholdAt h v).viewLevel h := not_le.mpr (hs o ho)
    simp [hlt]

theorem writeThreshold_level_kept (hs : ∀ o ∈ (s.slot h).offer, (s.thresholdAt h v).viewLevel h < o.level)
    (hl : (s.thresholdAt h v).level h = s.level h) : s.writeThreshold h v = s.thresholdAt h v := by
  rw [writeThreshold_eq hs, if_pos hl]

theorem writeThreshold_level_changed (hs : ∀ o ∈ (s.slot h).offer, (s.thresholdAt h v).viewLevel h < o.level)
    (hl : (s.thresholdAt h v).level h ≠ s.level h) : s.writeThreshold h v = (s.thresholdAt h v).choose h := by
  rw [writeThreshold_eq hs, if_neg hl]

/-- A standing offer that the new effective level reaches is withdrawn, and the choice follows (R48, R73). -/
theorem writeThreshold_withdraws {o : Offer} (ho : (s.slot h).offer = some o)
    (hle : o.level ≤ (s.thresholdAt h v).viewLevel h) :
    s.writeThreshold h v = ((s.thresholdAt h v).withdrawn h o.source).choose h := by
  have hthr : s.setCtx h { s.ctx h with threshold := v } = s.thresholdAt h v := rfl
  have hslot : ((s.thresholdAt h v).slot h).offer = some o := ho
  unfold State.writeThreshold
  simp only [hthr, hslot, decide_eq_true hle, Bool.true_or, if_true, withdrawOffer_some hslot]

/-- A SET_THRESHOLD that the port takes writes its value and is answered OK. -/
theorem exec_setThreshold {value : Operand} (hp : PortTakes s h) (hx : value.toNat = v.val) :
    exec (.setThreshold h value) s = .next (((s.taken h).writeThreshold h v).answer h 3 .ok) := by
  have hrun : exec (.setThreshold h value) s = .next (setThresholdBody h value (s.taken h)) :=
    request_runs hp (holdsRight_none s h) (by simp)
  rw [hrun, setThresholdBody, withIndex_val hx]

theorem thresholdAt_portBlind (h : HostId) (v : Level) : PortBlind fun s => s.thresholdAt h v := fun _ _ => rfl

theorem withdrawn_portBlind (h : HostId) (e : Source) : PortBlind fun s => s.withdrawn h e := fun _ _ => rfl

theorem withdrawn_apart (s : State) (h : HostId) (e : Source) : ApartFrom h s (s.withdrawn h e) where
  et := rfl
  slot_self := .inr (by simp [State.withdrawn])
  slot k hk := by simp [State.withdrawn, State.setSlot_slot, hk]
  waits _ _ := rfl
  ctx _ _ := rfl
  view _ _ := rfl

end

/-! ### EVICT -/

section
variable {s : State} {h k : HostId} {object : Operand}

/-- The EVICTED notice of k handed on (R56). -/
def State.evictNoted (s : State) (k : HostId) : State := s.handNotice (.host k) (deliveryNotice .evicted none (some k))

/-- An EVICT that the port takes from the supervisor is judged by the host it names (R56). -/
theorem exec_evict (hp : PortTakes s h) (hs : s.hcu.supervisor = h) (hx : object.toNat = k.val) :
    exec (.evict h object) s = .next
      (if k ≠ h ∧ (s.ctx k).session = .lapsed then
        (if (s.undoOf k).isSome then (((s.taken h).evictNoted k).giveBack k).answerTake k .stale
         else ((s.taken h).evictNoted k).giveBack k).answer h 26 .ok
       else s.answered h 26 .state) := by
  have hrun : exec (.evict h object) s = .next (evictBody h object (s.taken h)) :=
    request_runs hp (holdsRight_supervisor hs _) (by simp)
  rw [hrun, evictBody, withIndex_val hx]
  simp only [State.taken_hcu, hs, State.taken_ctx, State.taken_undoOf, State.taken_answer]
  rfl

/-- A TAKE that does not wait at the port is not answered. -/
theorem answerTake_other {r : ResultCode} (hw : (s.port k).waiting ≠ some .take) : s.answerTake k r = s := if_neg hw

/-- A TAKE that waits at the port is answered (R84). -/
theorem answerTake_waiting {r : ResultCode} (hw : (s.port k).waiting = some .take) :
    s.answerTake k r = s.setPort k { s.port k with waiting := none, result := r, echo := 4 } := by
  unfold State.answerTake
  rw [if_pos hw]
  simp [State.answer, State.setPort, State.port]

/-- An answer at one port stands apart from what is written to another. -/
theorem setPort_taken_answer (hk : k ≠ h) (p : Port) (code : Operand) (r : ResultCode) :
    ((s.taken h).setPort k p).answer h code r = (s.setPort k p).answered h code r := by
  have hlook : look (put s.ports k p) h = look s.ports h := look_put_ne _ _ (Ne.symm hk)
  simp only [State.answer, State.answered, State.setPort, State.port, State.taken, put_comm _ _ _ (Ne.symm hk), put_put,
    look_put_ne _ _ (Ne.symm hk), look_put_self]

end

/-! ### The lapse report -/

section
variable {s : State} {h : HostId}

theorem lapseCountUp_eq {m n : Fin 16} (hn : n.val = min 15 (m.val + 1)) : lapseCountUp m = n := by
  unfold lapseCountUp
  split
  next hm => exact Fin.ext (by rw [hn, hm]; rfl)
  next hm =>
    have hval : m.val ≠ 15 := fun hv => hm (Fin.ext hv)
    refine Fin.ext ?_
    rw [hn, Fin.val_add_one_of_lt' (by omega)]
    omega

/-- LAPSE_REPORT by what is outstanding (R54, R76, log 35). -/
theorem exec_lapseReport_reported (hr : s.lapseOf h = .reported) :
    exec (.lapseReport h) s = .next ((s.countLapse h).setLapse h (.answered ((s.countLapse h).ctx h).session)) := by
  change execLapseReport h s = _
  simp only [execLapseReport, hr]

theorem exec_lapseReport_overtaken (hr : s.lapseOf h = .overtaken) :
    exec (.lapseReport h) s = .next (s.setLapse h (.answered (s.ctx h).session)) := by
  change execLapseReport h s = _
  simp only [execLapseReport, hr]

theorem exec_lapseReport_other (h1 : s.lapseOf h ≠ .reported) (h2 : s.lapseOf h ≠ .overtaken) :
    exec (.lapseReport h) s = .next s := by
  change execLapseReport h s = _
  unfold execLapseReport
  cases hr : s.lapseOf h with
  | none => rfl
  | reported => exact absurd hr h1
  | overtaken => exact absurd hr h2
  | answered a => rfl

theorem countLapse_other (ha : (s.ctx h).session ≠ .attached) : s.countLapse h = s := if_neg ha

/-- The lapse count of h written (R54). -/
def State.lapsedTimes (s : State) (h : HostId) (n : Fin 16) : State := s.setCtx h { s.ctx h with lapseCount := n }

theorem countLapse_attached {n : Fin 16} (ha : (s.ctx h).session = .attached)
    (hn : n.val = min 15 ((s.ctx h).lapseCount.val + 1)) :
    s.countLapse h = if (s.ctx h).lapseLimit ≤ n then (s.lapsedTimes h n).becomeLapsed h else s.lapsedTimes h n := by
  unfold State.countLapse
  rw [if_pos ha]
  simp only [lapseCountUp_eq hn, State.setCtx_ctx_self]
  rfl

/-- Where no offer stands, becoming LAPSED writes the session and hands on the notice and the departures (R54). -/
theorem becomeLapsed_eq (hs : (s.slot h).offer = none) :
    s.becomeLapsed h = ((s.setCtx h { s.ctx h with session := .lapsed }).handNotice (.host h)
      (deliveryNotice .lapsed none (some h))).setHanded h
        (s.handedOf h ++ ((s.owedBy h).filter fun e => !s.holdsCurrent h e).map Handed.depart) := by
  unfold State.becomeLapsed
  simp only
  rw [withdrawOffer_none (s := (s.setCtx h { s.ctx h with session := .lapsed }).handNotice (.host h)
    (deliveryNotice .lapsed none (some h))) hs]
  rfl

theorem setCtx_setCtx (c d : HostContext) : (s.setCtx h c).setCtx h d = s.setCtx h d := by simp [State.setCtx]

/-- What h holds is read from its stack and the claims on their way, not from its lapse count. -/
theorem lapsedTimes_holdsCurrent (n : Fin 16) (e : Source) : (s.lapsedTimes h n).holdsCurrent h e = s.holdsCurrent h e := by
  simp [State.holdsCurrent, State.lapsedTimes, holdsRecord]

/-- The lapse that reaches the limit (R54). -/
theorem lapsedTimes_becomeLapsed {n : Fin 16} (hs : (s.slot h).offer = none) :
    (s.lapsedTimes h n).becomeLapsed h = ((s.setCtx h { s.ctx h with session := .lapsed, lapseCount := n }).handNotice (.host h)
      (deliveryNotice .lapsed none (some h))).setHanded h
        (s.handedOf h ++ ((s.owedBy h).filter fun e => !s.holdsCurrent h e).map Handed.depart) := by
  have hctx : (s.lapsedTimes h n).setCtx h { (s.lapsedTimes h n).ctx h with session := .lapsed } =
      s.setCtx h { s.ctx h with session := .lapsed, lapseCount := n } := by
    simp only [State.lapsedTimes, setCtx_setCtx, State.setCtx_ctx_self]
  rw [becomeLapsed_eq (s := s.lapsedTimes h n) hs, hctx]
  simp only [lapsedTimes_holdsCurrent]
  rfl

theorem lapsedTimes_becomeLapsed_session {n : Fin 16} (hs : (s.slot h).offer = none) :
    (((s.lapsedTimes h n).becomeLapsed h).ctx h).session = .lapsed := by
  rw [lapsedTimes_becomeLapsed hs]
  exact congrArg HostContext.session (State.setCtx_ctx_self s h _)

end

end Sys2Proof.Machine

/-- Settles O10: neither the threshold nor what follows from it touches a port, so that the answer stands apart. -/
theorem setThresholdWritesTheThreshold : Obligations.SetThresholdWritesTheThreshold := by
  intro s h v value hp hx u
  have hapart : ApartFrom h s u := (setCtx_apart s h _).trans (answered_apart _ h h 3 .ok)
  have hblind := thresholdAt_portBlind h v
  refine ⟨fun hs hl => ?_, fun hs hl => ⟨u.choose h, ?_, choose_offersOnly u h, fun hlaw hw => hlaw.choiceFor hapart hw⟩, ?_⟩
  · rw [exec_setThreshold hp hx, writeThreshold_level_kept (s := s.taken h) hs hl]
    exact congrArg _ (hblind.answer s h 3 .ok)
  · rw [exec_setThreshold hp hx, writeThreshold_level_changed (s := s.taken h) hs hl]
    exact congrArg _ (((choose_portBlind h).comp hblind).answer s h 3 .ok)
  · intro o ho hle w
    refine ⟨w.choose h, ?_, choose_offersOnly w h, fun hlaw hw => ?_⟩
    · rw [exec_setThreshold hp hx, writeThreshold_withdraws (s := s.taken h) ho hle]
      exact congrArg _ (((choose_portBlind h).comp ((withdrawn_portBlind h o.source).comp hblind)).answer s h 3 .ok)
    · exact hlaw.choiceFor (hapart.trans (withdrawn_apart u h o.source)) hw

/-- Settles O14: the notice and the give-back are updates apart from the ports, of which the answers write two different ones. -/
theorem evictGivesEverythingBack : Obligations.EvictGivesEverythingBack := by
  intro s h k object hp hs hx
  refine ⟨fun hk hlapsed hslot => ⟨s.owedBy k, owedBy_inOrder s k, ?_⟩, fun hno => ?_⟩
  · intro u
    have hback : ((s.taken h).evictNoted k).giveBack k = u.taken h := giveBack_eq (s := (s.taken h).evictNoted k) hslot
    have hport : (u.taken h).port k = s.port k := look_put_ne _ _ hk
    refine ⟨fun hno => ?_, fun hundo hwait => ?_⟩
    · rw [exec_evict hp hs hx, if_pos ⟨hk, hlapsed⟩, hback]
      rcases hno with hundo | hwait
      · rw [hundo]
        exact congrArg _ (State.taken_answer u h 26 .ok)
      · rw [answerTake_other (by rw [hport]; exact hwait), ite_self, State.taken_answer]
    · rw [exec_evict hp hs hx, if_pos ⟨hk, hlapsed⟩, hback, if_pos (Option.isSome_iff_ne_none.mpr hundo),
        answerTake_waiting (by rw [hport]; exact hwait), hport, setPort_taken_answer hk]
  · rw [exec_evict hp hs hx, if_neg fun hx => hno.elim hx.1 fun hn => hn hx.2]

/-- Settles O33: while a report is outstanding the slot is empty, so that becoming LAPSED withdraws no offer. -/
theorem aLapseIsCountedUpToTheLimit : Obligations.ALapseIsCountedUpToTheLimit := by
  intro s h hlaw holds
  refine ⟨exec_lapseReport_other, exec_lapseReport_overtaken,
    fun hr => ⟨fun ha => ?_, fun n ha hn => ⟨fun hlt => ?_, fun hle => ?_⟩⟩⟩
  · rw [exec_lapseReport_reported hr, countLapse_other ha]
  · rw [exec_lapseReport_reported hr, countLapse_attached ha hn, if_neg (not_le.mpr hlt), ← ha]
    simp only [State.lapsedTimes, State.setCtx_ctx_self]
  · have hslot : (s.slot h).offer = none := by
      obtain ⟨hhost, -⟩ := hlaw
      obtain ⟨-, -, -, ⟨-, hfilled, -⟩, -⟩ := hhost h
      by_contra hne
      have := (hfilled hne).2
      rw [hr] at this
      exact absurd this (by decide)
    refine ⟨s.owedBy h, owedBy_inOrder s h, ?_⟩
    rw [exec_lapseReport_reported hr, countLapse_attached ha hn, if_pos hle, lapsedTimes_becomeLapsed_session hslot,
      lapsedTimes_becomeLapsed hslot]
    rfl
end

section
/-! What the Event Table's part of a claim on one entry leaves alone, and that no choice but for that entry is opened by it. -/

open Sys2Proof Sys2Proof.Machine

namespace Sys2Proof.Machine

/-! ### A claim on one entry -/

/-- The state t is s but for the event of entry e: its state part, its place in the arrival order list, notices and insertions. -/
structure EventOf (e : Source) (s t : State) : Prop where
  rest : t = { s with
    et := t.et
    nq := t.nq
    claims := { s.claims with notices := t.claims.notices, levels := t.claims.levels, inserts := t.claims.inserts } }
  cfg : ∀ f, t.cfg f = s.cfg f
  entry : ∀ f, f ≠ e → t.entry f = s.entry f
  order : ∀ f, f ≠ e → f ∈ s.et.order → f ∈ t.et.order

section
variable {e : Source} {s t u : State}

theorem EventOf.refl (e : Source) (s : State) : EventOf e s s := ⟨rfl, fun _ => rfl, fun _ _ => rfl, fun _ _ h => h⟩

theorem EventOf.trans (h : EventOf e s t) (g : EventOf e t u) : EventOf e s u where
  rest := by
    have hg := g.rest
    rw [h.rest] at hg
    exact hg
  cfg f := (g.cfg f).trans (h.cfg f)
  entry f hf := (g.entry f hf).trans (h.entry f hf)
  order f hf hm := g.order f hf (h.order f hf hm)

theorem EventOf.hcu (h : EventOf e s t) : t.hcu = s.hcu := by rw [h.rest]
theorem EventOf.ou (h : EventOf e s t) : t.ou = s.ou := by rw [h.rest]
theorem EventOf.handedOf (h : EventOf e s t) (k : HostId) : t.handedOf k = s.handedOf k := by rw [h.rest]; rfl
theorem EventOf.choiceWaits (h : EventOf e s t) (k : HostId) : t.choiceWaits k = s.choiceWaits k := by rw [h.rest]; rfl
theorem EventOf.slot (h : EventOf e s t) (k : HostId) : t.slot k = s.slot k := by rw [h.rest]; rfl
theorem EventOf.ctx (h : EventOf e s t) (k : HostId) : t.ctx k = s.ctx k := by rw [h.rest]; rfl
theorem EventOf.viewOf (h : EventOf e s t) (k : HostId) : t.viewOf k = s.viewOf k := by rw [h.rest]; rfl

theorem EventOf.setProg (s : State) (e : Source) (p : Progress) : EventOf e s (s.setProg e p) :=
  ⟨rfl, fun f => State.setProg_cfg s e p f, fun f hf => by rw [State.setProg_entry, if_neg hf], fun _ _ h => h⟩

theorem EventOf.setOrder {l : List Source} (hl : ∀ f, f ≠ e → f ∈ s.et.order → f ∈ l) : EventOf e s (s.setOrder l) :=
  ⟨rfl, fun _ => rfl, fun _ _ => rfl, hl⟩

theorem takeAppend_eventOf (e : Source) (s : State) (n : Notice) : EventOf e s (s.takeAppend n) := by
  refine ⟨?_, fun _ => rfl, fun _ _ => rfl, fun _ _ h => h⟩
  unfold State.takeAppend
  split <;> rfl

theorem noteOn_eventOf (s : State) (e : Source) (o : Origin) (n : Notice) : EventOf e s (s.noteOn e o n) := by
  have happends : ∀ (l : List Notice) (t : State), EventOf e t (l.foldl State.takeAppend t) := by
    intro l
    induction l with
    | nil => exact EventOf.refl e
    | cons x xs ih => exact fun t => (takeAppend_eventOf e t x).trans (ih _)
  unfold State.noteOn
  split
  · have hwaiting : EventOf e s
        { s with claims := { s.claims with notices := s.claims.notices.filter fun x => x.1 != o } } :=
      ⟨rfl, fun _ => rfl, fun _ _ => rfl, fun _ _ h => h⟩
    have happend : EventOf e (s.flushNotices o) { s.flushNotices o with nq := (s.flushNotices o).nq.append n } :=
      ⟨rfl, fun _ => rfl, fun _ _ => rfl, fun _ _ h => h⟩
    exact (hwaiting.trans (happends _ _)).trans happend
  · exact ⟨rfl, fun _ => rfl, fun _ _ => rfl, fun _ _ h => h⟩

theorem toIdle_eventOf (s : State) (e : Source) : EventOf e s (s.toIdle e) :=
  (EventOf.setProg s e _).trans (.setOrder fun _ hf hm => (List.mem_erase_of_ne hf).mpr hm)

theorem latch_eventOf (s : State) (e : Source) : EventOf e s (s.latch e) :=
  (EventOf.setProg s e _).trans (.setOrder fun _ _ hm => List.mem_append_left _ hm)

theorem enqueue_eventOf (s : State) (e : Source) : EventOf e s (s.enqueue e) :=
  (EventOf.setProg s e _).trans ⟨rfl, fun _ => rfl, fun _ _ => rfl, fun _ _ h => h⟩

end

/-! ### The Event Table's part -/

/-- What the Event Table leaves of entry e, with news of e to come if the flag says so: where e then stands in delivery there is news,
and e is in the arrival order list, if `listed` holds. -/
def EventPart (e : Source) (listed : Prop) (s : State) (x : State × Bool) : Prop :=
  EventOf e s x.1 ∧ ((x.1.prog e).state = .delivering → x.2 = true ∧ (listed → e ∈ x.1.et.order))

section
variable {e : Source} {listed : Prop} {s t : State}

theorem EventPart.of_not_delivering {b : Bool} (h : EventOf e s t) (hn : (t.prog e).state ≠ .delivering) :
    EventPart e listed s (t, b) :=
  ⟨h, fun hd => absurd hd hn⟩

theorem EventPart.after {x : State × Bool} (h : EventOf e s t) (ho : listed → e ∈ t.et.order)
    (hx : EventPart e (e ∈ t.et.order) t x) : EventPart e listed s x :=
  ⟨h.trans hx.1, fun hd => ⟨(hx.2 hd).1, fun hm => (hx.2 hd).2 (ho hm)⟩⟩

theorem toIdle_prog (s : State) (e : Source) : (s.toIdle e).prog e = (s.prog e).toIdle := rested_prog s e

theorem latch_prog (s : State) (e : Source) : (s.latch e).prog e = { s.prog e with state := .latched } :=
  State.setProg_prog_self s e _

theorem mem_latch_order (s : State) (e : Source) : e ∈ (s.latch e).et.order := List.mem_append_right _ (List.mem_singleton.mpr rfl)

theorem enqueue_prog (s : State) (e : Source) : (s.enqueue e).prog e = { s.prog e with state := .queued } :=
  State.setProg_prog_self s e _

theorem enqueue_part (listed : Prop) (s : State) (e : Source) (b : Bool) : EventPart e listed s (s.enqueue e, b) :=
  .of_not_delivering (enqueue_eventOf s e) (by simp [enqueue_prog])

theorem completesOnce_part {next : State → State × Bool}
    (hn : ∀ u : State, (u.prog e).state = .latched → EventPart e (e ∈ u.et.order) u (next u)) (listed : Prop)
    (s : State) : EventPart e listed s (completesOnce next e s) := by
  have hidle := toIdle_eventOf s e
  have hagain := hidle.trans ((EventOf.setProg (s.toIdle e) e { (s.toIdle e).prog e with again := false }).trans (latch_eventOf _ e))
  have hlatch := hidle.trans (latch_eventOf (s.toIdle e) e)
  unfold completesOnce
  simp only
  split_ifs
  · exact .after hagain (fun _ => mem_latch_order _ e) (enqueue_part _ _ e false)
  · exact .after hagain (fun _ => mem_latch_order _ e) (hn _ (by rw [latch_prog]))
  · exact .of_not_delivering hagain (by simp [latch_prog])
  · exact .of_not_delivering (hlatch.trans (.setProg _ e _)) (by simp [latch_prog])
  · exact .of_not_delivering hidle (by simp [toIdle_prog, Progress.toIdle])

theorem deliverRound_part {next : State → State × Bool}
    (hn : ∀ u : State, (u.prog e).state = .latched → EventPart e (e ∈ u.et.order) u (next u))
    (o : Outcome) (s : State) : EventPart e (e ∈ s.et.order) s (deliverRound next o e s) := by
  have hstart : EventOf e s (s.startDelivery e o) := .setProg s e _
  unfold deliverRound
  simp only
  split
  · exact .after hstart id (completesOnce_part hn _ _)
  · split
    · exact ⟨hstart, fun _ => ⟨rfl, id⟩⟩
    · exact ⟨hstart.trans (.setProg _ e _), fun _ => ⟨rfl, id⟩⟩
    · split
      · refine .after (hstart.trans (noteOn_eventOf _ e _ _)) (fun hm => ?_) (completesOnce_part hn _ _)
        rw [noteOn_et]
        exact hm
      · exact ⟨hstart.trans (.setProg _ e _), fun _ => ⟨rfl, id⟩⟩

theorem deliver_part (n : Nat) : ∀ (o : Outcome) (s : State), EventPart e (e ∈ s.et.order) s (deliver n o e s) := by
  induction n with
  | zero =>
    intro o s
    rw [deliver_zero]
    exact deliverRound_part (fun u hl => .of_not_delivering (.refl e u) (by simp [hl])) o s
  | succ n ih =>
    intro o s
    rw [deliver_succ]
    exact deliverRound_part (fun u _ => ih .plain u) o s

theorem leaveLatchedPart_part (s : State) (e : Source) : EventPart e (e ∈ s.et.order) s (s.leaveLatchedPart e) := by
  unfold State.leaveLatchedPart
  split
  · exact enqueue_part _ s e false
  · exact deliver_part 1 .plain s

theorem latchAndGoPart_part (listed : Prop) (s : State) (e : Source) : EventPart e listed s (s.latchAndGoPart e) := by
  unfold State.latchAndGoPart
  simp only
  split
  · exact .after (latch_eventOf s e) (fun _ => mem_latch_order s e) (leaveLatchedPart_part _ e)
  · exact .of_not_delivering (latch_eventOf s e) (by simp [latch_prog])

/-- An entry that completes and is delivered again has joined the list again (R14 to R16). -/
theorem completePart_part (s : State) (e : Source) : EventPart e True s (s.completePart e) := by
  have hidle := toIdle_eventOf s e
  unfold State.completePart
  simp only
  split_ifs
  · exact (latchAndGoPart_part True _ e).imp_left (hidle.trans (.setProg _ e _)).trans
  · exact (latchAndGoPart_part True _ e).imp_left hidle.trans
  · exact .of_not_delivering hidle (by simp [toIdle_prog, Progress.toIdle])

end

/-! ### The choices that it opens -/

section
variable {e : Source} {listed : Prop} {s t : State} {h : HostId} {E : HostId → Prop}

theorem EventOf.eligible (g : EventOf e s t) {f : Source} (hf : f ≠ e) (k : HostId) : t.eligible f k = s.eligible f k :=
  eligible_congr (g.entry f hf) (g.ctx k) (g.viewOf k)

theorem EventOf.levelsOk (g : EventOf e s t) (hl : LevelsOk s) : LevelsOk t := fun k o ho => by
  rw [g.cfg]
  exact hl k o (g.slot k ▸ ho)

theorem EventOf.inOrder (g : EventOf e s t) (hi : InOrder s) (he : (t.prog e).state = .delivering → e ∈ t.et.order) : InOrder t :=
  fun f hf => by
    by_cases hfe : f = e
    · subst hfe
      exact he hf
    · refine g.order f hfe (hi f ?_)
      rw [← hf]
      exact congrArg (fun x : Entry => x.prog.state) (g.entry f hfe).symm

/-- Where the claim left another entry, or left it as eligible as it was, a choice is as met as it was. -/
theorem EventOf.met (g : EventOf e s t) {p q : HostId → Source → Prop} (hm : MetOver E s p)
    (hq : ∀ k f, q k f → p k f ∧ (f = e → t.eligible e k = true → s.eligible e k = true)) :
    MetOver E t q := fun k hw f hqf he => by
  obtain ⟨hp, hsame⟩ := hq k f hqf
  have hes : s.eligible f k = true := by
    by_cases hfe : f = e
    · subst hfe
      exact hsame rfl he
    · rw [← g.eligible hfe k]
      exact he
  have := hm k ((g.choiceWaits k) ▸ hw) f hp hes
  simpa only [Met, Covers, g.slot k, g.cfg] using this

/-- After the Event Table's part only the choices for the entry are open, and those only if its news is to come. -/
theorem EventPart.met {x : State × Bool} (g : EventPart e listed s x) (hm : MetOver E s fun k _ => k ≠ h) :
    MetOver E x.1 fun k f => k ≠ h ∧ (x.2 = true → f ≠ e) :=
  g.1.met hm fun _ _ ⟨hk, hf⟩ => ⟨hk, fun hfe he => absurd hfe (hf (g.2 (eligible_delivering he)).1)⟩

/-- With the news taken no choice is open but that for h, if none was before it but that and those for the entry. -/
theorem tell_met {x : State × Bool} (hl : LevelsOk x.1) (hi : InOrder x.1)
    (hm : MetOver E x.1 fun k f => k ≠ h ∧ (x.2 = true → f ≠ e)) :
    LevelsOk (tell e x) ∧ InOrder (tell e x) ∧ MetOver E (tell e x) fun k _ => k ≠ h := by
  unfold tell
  split
  next hb =>
    obtain ⟨hlevels, hmet⟩ := offerNews_met (A := fun k => k = h) hl hi fun k hk f hf he => hm k hk f ⟨hf.1, fun _ => hf.2⟩ he
    exact ⟨hlevels, (offerNews_offersOnly x.1 e).inOrder hi, hmet⟩
  next hb => exact ⟨hl, hi, fun k hk f hkh he => hm k hk f ⟨hkh, fun h => absurd h hb⟩ he⟩

end

end Sys2Proof.Machine
end

section
/-! Departures and withdrawals at the Event Table, and the ATTACH that the last departure lets in (R46, R54, R73, R111). -/

open Sys2Proof Sys2Proof.Machine

namespace Sys2Proof.Machine

/-! ### The ATTACH that waited -/

/-- The answer to a write that waited at the port may be given before a port-blind operation. -/
theorem PortBlind.setPort_answer {f : State → State} (hf : PortBlind f) (s : State) (h : HostId) (p : Port) (code : Operand)
    (r : ResultCode) : (f (s.setPort h p)).answer h code r = f (s.setPort h { p with result := r, echo := code }) := by
  have hset : ∀ q : Port, f (s.setPort h q) = (f s).setPort h q := fun q => by
    have hports : s.setPort h q = s.withPorts (put s.ports h q) := rfl
    rw [hports, hf, ← hf.ports s]
    rfl
  rw [hset, hset]
  simp [State.answer, State.setPort, State.port]

section
variable {s : State} {h : HostId}

/-- What is outstanding of a session's end is a release or a departure. -/
theorem givingBack_eq (s : State) (h : HostId) : s.givingBack h = (s.handedOf h).any Handed.isReturn := rfl

/-- Choices void withdrawals only, so what is outstanding of a session's end stays so (log 6). -/
theorem OffersOnly.givingBack {t : State} (g : OffersOnly s t) (k : HostId) : t.givingBack k = s.givingBack k := by
  obtain ⟨hsub, hkept⟩ := g.2.2.1 k
  rw [givingBack_eq, givingBack_eq, Bool.eq_iff_iff, List.any_eq_true, List.any_eq_true]
  refine ⟨fun ⟨x, hx, hr⟩ => ⟨x, hsub.subset hx, hr⟩, fun ⟨x, hx, hr⟩ => ⟨x, ?_, hr⟩⟩
  rcases hkept x hx with hx | ⟨f, rfl⟩
  · exact hx
  · exact absurd hr Bool.false_ne_true

theorem resumeAttach_waits (hw : (s.port h).waiting ≠ some .attach ∨ s.givingBack h = true) : s.resumeAttach h = s := by
  unfold State.resumeAttach
  rw [if_neg]
  rcases hw with hw | hw <;> simp [hw]

/-- The state as the ATTACH that waited has opened the session and been answered, its choice to follow (R44, R46, R170). -/
def State.resumed (s : State) (h : HostId) : State :=
  (s.opened h).setPort h { s.port h with waiting := none, result := .ok, echo := 1 }

theorem resumeAttach_opens (hw : (s.port h).waiting = some .attach) (hg : s.givingBack h = false) :
    s.resumeAttach h = (s.resumed h).choose h := by
  unfold State.resumeAttach
  rw [if_pos (by simp [hw, hg])]
  exact (attachNow_portBlind h).setPort_answer s h { s.port h with waiting := none } 1 .ok

theorem resumed_apart (s : State) (h : HostId) : ApartFrom h s (s.resumed h) :=
  (setCtx_apart s h _).trans ⟨rfl, .inl rfl, fun _ _ => rfl, fun _ _ => rfl, fun _ _ => rfl, fun _ _ => rfl⟩

/-- An ATTACH that is taken after v, which leaves no choice open but that for h if the state before was lawful. -/
theorem resumed_sessionOpens {v : State} (hwaits : v.choiceWaits h = s.choiceWaits h)
    (hv : Lawful s → LevelsOk v ∧ InOrder v ∧ MetOver (fun _ => True) v fun k _ => k ≠ h) :
    SessionOpens s v h ((v.resumed h).choose h) := by
  refine ⟨choose_offersOnly _ h, fun hlaw hw => ?_⟩
  obtain ⟨hlevels, horder, hmet⟩ := hv hlaw
  exact (resumed_apart v h).choiceFor hlevels horder hmet (hwaits.trans hw)

end

/-! ### The departure -/

/-- Is it a departure from an owed set? -/
def Handed.isDeparture : Handed → Bool
  | .depart _ => true
  | _ => false

/-- Is it a withdrawn offer? -/
def Handed.isWithdrawal : Handed → Bool
  | .withdraw _ => true
  | _ => false

/-- Host h is out of the sets of entry e, with its SKIPPED notice, before e may complete (R111). -/
def State.skipped (s : State) (e : Source) (h : HostId) : State :=
  (s.setProg e { s.prog e with
    offered := dropHost (s.prog e).offered h
    held := dropHost (s.prog e).held h
    owed := some (dropHost ((s.prog e).owed.getD 0) h) }).noteOn e (.host h) (deliveryNotice .skipped (some e) (some h))

theorem skipPart_eq (s : State) (e : Source) (h : HostId) :
    s.skipPart e h =
      if dropHost ((s.prog e).owed.getD 0) h = 0 then (s.skipped e h).completePart e else (s.skipped e h, false) := rfl

section
variable {s : State} {h : HostId} {e : Source}

theorem skipped_eventOf (s : State) (e : Source) (h : HostId) : EventOf e s (s.skipped e h) :=
  (EventOf.setProg s e _).trans (noteOn_eventOf _ e _ _)

theorem skipped_prog (s : State) (e : Source) (h : HostId) :
    (s.skipped e h).prog e = { s.prog e with
      offered := dropHost (s.prog e).offered h
      held := dropHost (s.prog e).held h
      owed := some (dropHost ((s.prog e).owed.getD 0) h) } := by
  rw [State.skipped, noteOn_prog, State.setProg_prog_self]

/-- A host that leaves an ALL entry's sets changes no other host's part. -/
theorem skipped_eligible (hp : (s.cfg e).policy = .all) {k : HostId} (hk : k ≠ h) :
    (s.skipped e h).eligible e k = s.eligible e k := by
  have hentry : (s.skipped e h).entry e = { s.entry e with prog := (s.skipped e h).prog e } := by
    rw [State.skipped, noteOn_entry, State.setProg_entry_self, noteOn_prog, State.setProg_prog_self]
  have hlevel : (s.skipped e h).viewLevel k = s.viewLevel k := by
    rw [State.viewLevel, (skipped_eventOf s e h).ctx, (skipped_eventOf s e h).viewOf]
    rfl
  have hpolicy : (s.entry e).cfg.policy = .all := hp
  have hprog : (s.entry e).prog = s.prog e := rfl
  unfold State.eligible
  simp only [hentry, skipped_prog, hlevel, (skipped_eventOf s e h).ctx, (skipped_eventOf s e h).viewOf, hpolicy, hprog,
    Option.getD_some, hasHost_dropHost, bne_iff_ne.mpr hk, Bool.true_and]

/-- A host stands in an owed set of an ALL entry only (R4). -/
theorem EntryLaw.policy_of_owes (hl : EntryLaw s) (ho : hasHost ((s.prog e).owed.getD 0) h = true) : (s.cfg e).policy = .all := by
  obtain ⟨-, -, howed, -⟩ := hl.progressLaw e
  refine (howed.mp fun hnone => ?_).2
  rw [hnone] at ho
  simp [hasHost] at ho

theorem departAt_owes (hs : (s.prog e).state = .delivering) (ho : hasHost ((s.prog e).owed.getD 0) h = true) :
    s.departAt e h = tell e (s.skipPart e h) := by
  unfold State.departAt
  rw [if_pos (by rw [hs, ho]; rfl)]

theorem departAt_other (hn : ¬((s.prog e).state = .delivering ∧ hasHost ((s.prog e).owed.getD 0) h = true)) :
    s.departAt e h = s := by
  unfold State.departAt
  rw [if_neg (by simpa using hn)]

theorem departAt_skips (hs : (s.prog e).state = .delivering) (ho : hasHost ((s.prog e).owed.getD 0) h = true)
    (hleft : dropHost ((s.prog e).owed.getD 0) h ≠ 0) : s.departAt e h = s.skipped e h := by
  rw [departAt_owes hs ho, skipPart_eq, if_neg hleft]
  rfl

theorem departAt_completes (hs : (s.prog e).state = .delivering) (ho : hasHost ((s.prog e).owed.getD 0) h = true)
    (hleft : dropHost ((s.prog e).owed.getD 0) h = 0) : s.departAt e h = (s.skipped e h).complete e := by
  rw [departAt_owes hs ho, skipPart_eq, if_pos hleft]
  rfl

theorem EntryLaw.hold_of_delivering (hl : EntryLaw s) (hs : (s.prog e).state = .delivering) : (s.prog e).hold = false := by
  rw [Bool.eq_false_iff]
  intro hh
  rw [hl.latched_of_hold hh] at hs
  exact absurd hs (by decide)

/-- What a departure does at the entry (R85, R111). -/
theorem departAt_departs (hl : EntryLaw s) :
    let owes := (s.prog e).state = .delivering ∧ hasHost ((s.prog e).owed.getD 0) h = true
    (¬owes → s.departAt e h = s) ∧
    (owes → dropHost ((s.prog e).owed.getD 0) h ≠ 0 → s.departAt e h = s.skipped e h) ∧
    (owes → dropHost ((s.prog e).owed.getD 0) h = 0 → Completes (s.skipped e h) e (s.departAt e h)) := by
  refine ⟨departAt_other, fun ho hleft => departAt_skips ho.1 ho.2 hleft, fun ho hleft => ?_⟩
  rw [departAt_completes ho.1 ho.2 hleft]
  exact complete_completes (by rw [skipped_prog]; exact hl.hold_of_delivering ho.1)

theorem tell_offersOnly (e : Source) (x : State × Bool) : OffersOnly x.1 (tell e x) := by
  unfold tell
  split
  · exact offerNews_offersOnly x.1 e
  · exact .refl x.1

theorem skipPart_eventOf (s : State) (e : Source) (h : HostId) : EventOf e s (s.skipPart e h).1 := by
  rw [skipPart_eq]
  split
  · exact (skipped_eventOf s e h).trans (completePart_part _ e).1
  · exact skipped_eventOf s e h

/-- A departure is a claim on the entry, and then offer choices. -/
theorem departAt_event (s : State) (e : Source) (h : HostId) : ∃ w, EventOf e s w ∧ OffersOnly w (s.departAt e h) := by
  unfold State.departAt
  split
  · exact ⟨_, skipPart_eventOf s e h, tell_offersOnly e _⟩
  · exact ⟨s, .refl e s, .refl s⟩

/-- A departure touches neither a port, nor a claim of the host that keeps its ATTACH or its choice waiting. -/
theorem departAt_waits (s : State) (e : Source) (h k : HostId) :
    (s.departAt e h).port k = s.port k ∧ (s.departAt e h).givingBack k = s.givingBack k ∧
      (s.departAt e h).choiceWaits k = s.choiceWaits k := by
  obtain ⟨w, hevent, honly⟩ := departAt_event s e h
  refine ⟨?_, ?_, ?_⟩
  · rw [honly.1, hevent.rest]
    rfl
  · rw [honly.givingBack, givingBack_eq, hevent.handedOf, ← givingBack_eq]
  · rw [honly.choiceWaits, hevent.choiceWaits]

/-- After a departure of h no choice is open but its own, if none was before. -/
theorem departAt_met {E : HostId → Prop} (hl : EntryLaw s) (hlevels : LevelsOk s) (hm : MetOver E s fun k _ => k ≠ h) :
    LevelsOk (s.departAt e h) ∧ InOrder (s.departAt e h) ∧ MetOver E (s.departAt e h) fun k _ => k ≠ h := by
  by_cases hn : (s.prog e).state = .delivering ∧ hasHost ((s.prog e).owed.getD 0) h = true
  case neg => rw [departAt_other hn]; exact ⟨hlevels, hl.inOrder, hm⟩
  obtain ⟨hs, ho⟩ := hn
  have hskip := skipped_eventOf s e h
  by_cases hleft : dropHost ((s.prog e).owed.getD 0) h = 0
  · have hpart : EventPart e True s ((s.skipped e h).completePart e) := (completePart_part _ e).imp_left hskip.trans
    rw [departAt_completes hs ho hleft]
    exact tell_met (hpart.1.levelsOk hlevels) (hpart.1.inOrder hl.inOrder fun hd => (hpart.2 hd).2 trivial) (hpart.met hm)
  · rw [departAt_skips hs ho hleft]
    have hmem : e ∈ (s.skipped e h).et.order := by
      rw [State.skipped, noteOn_et]
      exact hl.inOrder e hs
    refine ⟨hskip.levelsOk hlevels, hskip.inOrder hl.inOrder fun _ => hmem, hskip.met hm fun k f hk => ⟨hk, fun _ he => ?_⟩⟩
    rw [← skipped_eligible (hl.policy_of_owes ho) hk]
    exact he

end

/-! ### The two commands -/

section
variable {s t : State} {h : HostId} {e : Source}

theorem exec_owedDeparture (ht : s.takeHanded h Handed.isDeparture = some (.depart e, t)) :
    exec (.owedDeparture h) s = .next ((t.departAt e h).resumeAttach h) := by
  have hexec : exec (.owedDeparture h) s = match s.takeHanded h Handed.isDeparture with
    | none => .next s
    | some (x, t) => .next ((t.departAt x.source h).resumeAttach h) := rfl
  rw [hexec, ht]
  rfl

theorem exec_owedDeparture_none (ht : s.takeHanded h Handed.isDeparture = none) : exec (.owedDeparture h) s = .next s := by
  have hexec : exec (.owedDeparture h) s = match s.takeHanded h Handed.isDeparture with
    | none => .next s
    | some (x, t) => .next ((t.departAt x.source h).resumeAttach h) := rfl
  rw [hexec, ht]

theorem exec_withdrawalReport (ht : s.takeHanded h Handed.isWithdrawal = some (.withdraw e, t)) :
    exec (.withdrawalReport h) s = .next (t.withdrawAt e h) := by
  have hexec : exec (.withdrawalReport h) s = match s.takeHanded h Handed.isWithdrawal with
    | none => .next s
    | some (x, t) => .next (t.withdrawAt x.source h) := rfl
  rw [hexec, ht]
  rfl

theorem exec_withdrawalReport_none (ht : s.takeHanded h Handed.isWithdrawal = none) : exec (.withdrawalReport h) s = .next s := by
  have hexec : exec (.withdrawalReport h) s = match s.takeHanded h Handed.isWithdrawal with
    | none => .next s
    | some (x, t) => .next (t.withdrawAt x.source h) := rfl
  rw [hexec, ht]

theorem withdrawAt_offered (hs : (s.prog e).state = .delivering) (ho : hasHost (s.prog e).offered h = true) :
    s.withdrawAt e h = (s.leaveOffered e h).offerNews e := by
  simp [State.withdrawAt, hs, ho]

theorem withdrawAt_other (hn : ¬((s.prog e).state = .delivering ∧ hasHost (s.prog e).offered h = true)) :
    s.withdrawAt e h = s := by
  unfold State.withdrawAt
  rw [if_neg (by simpa using hn)]

end

end Sys2Proof.Machine

/-- Settles O38: a departure is one claim on its entry and leaves no other host's choice open, so that the choice of an ATTACH that
waited is that of a state in which the host's own change alone is open. -/
theorem departuresAndWithdrawalsAreTaken : Obligations.DeparturesAndWithdrawalsAreTaken := by
  intro s h e hl
  refine ⟨?_, fun hnone => ?_, ?_, fun hnone => ?_⟩
  · intro rest hnext r o skipped owes departed
    have hexec := exec_owedDeparture (takeHanded_some.mpr ⟨rest, hnext, rfl⟩)
    have hrlaw : EntryLaw r := hl
    have hdeparted : departed (r.departAt e h) := departAt_departs hrlaw
    obtain ⟨hport, hback, hwaits⟩ := departAt_waits r e h h
    refine ⟨fun hw => ⟨r.departAt e h, ?_, hdeparted⟩, fun hw hg => ⟨_, r.departAt e h, ?_, hdeparted,
      resumed_sessionOpens hwaits fun hlaw => ?_⟩⟩
    · rw [hexec, resumeAttach_waits (by rw [hport, hback]; exact hw)]
    · rw [hexec, resumeAttach_opens (by rw [hport]; exact hw) (hback.trans hg)]
    · obtain ⟨-, -, hdelivery, -, -⟩ := hlaw
      exact departAt_met hrlaw hdelivery.levelsOk fun k hk f _ he => hdelivery.met k hk f trivial he
  · refine exec_owedDeparture_none (takeHanded_none fun x hx => ?_)
    cases x with
    | depart f => exact absurd rfl (hnone _ hx f)
    | _ => rfl
  · intro rest hnext r offers
    refine ⟨r.withdrawAt e h, exec_withdrawalReport (takeHanded_some.mpr ⟨rest, hnext, rfl⟩), fun hn => withdrawAt_other hn,
      fun ho => ?_⟩
    rw [withdrawAt_offered (s := r) ho.1 ho.2]
    exact offerNews_newsTaken _ e
  · refine exec_withdrawalReport_none (takeHanded_none fun x hx => ?_)
    cases x with
    | withdraw f => exact absurd rfl (hnone _ hx f)
    | _ => rfl
end

section
/-! The contexts: which operations leave the Host Context Unit as it is, and how a host leaves DETACHED (R42, R47). -/

open Sys2Proof Sys2Proof.Machine

namespace Sys2Proof.Machine

/-! ### Operations that leave the Host Context Unit as it is -/

theorem declinePart_eventOf (s : State) (e : Source) (h : HostId) : EventOf e s (s.declinePart e h).1 := by
  unfold State.declinePart
  simp only
  split
  · exact (EventOf.setProg s e _).trans (noteOn_eventOf _ e _ _)
  · exact .setProg s e _

theorem finishPart_eventOf (s : State) (e : Source) (h : HostId) : EventOf e s (s.finishPart e h).1 := by
  unfold State.finishPart
  simp only
  split
  · split
    · split
      · exact (EventOf.setProg s e _).trans (completePart_part _ e).1
      · exact .setProg s e _
    · exact (EventOf.setProg s e _).trans (completePart_part _ e).1
  · exact .refl e s

theorem releasePart_eventOf (s : State) (e : Source) (h : HostId) (skips : Bool) : EventOf e s (s.releasePart e h skips).1 := by
  unfold State.releasePart
  simp only
  split
  · split
    · exact .setProg s e _
    · exact declinePart_eventOf s e h
    · split
      · exact skipPart_eventOf s e h
      · exact .setProg s e _
  · exact .refl e s

theorem OffersOnly.hcu {s t : State} (g : OffersOnly s t) : t.hcu = s.hcu := by rw [g.1]

section
variable (s : State) (e : Source) (h : HostId)

@[simp] theorem offerNews_hcu : (s.offerNews e).hcu = s.hcu := (offerNews_offersOnly s e).hcu
@[simp] theorem choose_hcu : (s.choose h).hcu = s.hcu := (choose_offersOnly s h).hcu
@[simp] theorem chooseEach_hcu (hs : List HostId) : (s.chooseEach hs).hcu = s.hcu := by
  obtain ⟨l, n, heq, -⟩ := chooseEach_eq s hs
  rw [heq]
  exact (chooseAll_offersOnly l (s.drawn n)).hcu
@[simp] theorem tell_hcu (x : State × Bool) : (tell e x).hcu = x.1.hcu := (tell_offersOnly e x).hcu
@[simp] theorem withdrawOffer_hcu : (s.withdrawOffer h).hcu = s.hcu := by
  unfold State.withdrawOffer
  split <;> rfl
@[simp] theorem answer_hcu (code : Operand) (r : ResultCode) : (s.answer h code r).hcu = s.hcu := rfl
@[simp] theorem answerTake_hcu (r : ResultCode) : (s.answerTake h r).hcu = s.hcu := by
  unfold State.answerTake
  split <;> rfl
@[simp] theorem answerDisarms_hcu : (s.answerDisarms e).hcu = s.hcu := rfl

/-! The life of an entry. -/

@[simp] theorem latchAndGo_hcu : (s.latchAndGo e).hcu = s.hcu := by
  rw [State.latchAndGo, tell_hcu, (latchAndGoPart_part True s e).1.hcu]
@[simp] theorem leaveLatched_hcu : (s.leaveLatched e).hcu = s.hcu := by
  rw [State.leaveLatched, tell_hcu, (leaveLatchedPart_part s e).1.hcu]
@[simp] theorem completePart_hcu : (s.completePart e).1.hcu = s.hcu := (completePart_part s e).1.hcu
@[simp] theorem complete_hcu : (s.complete e).hcu = s.hcu := by rw [State.complete, tell_hcu, completePart_hcu]
@[simp] theorem enterDelivering_hcu (o : Outcome) : (s.enterDelivering e o).hcu = s.hcu := by
  rw [State.enterDelivering, tell_hcu, (deliver_part 1 o s).1.hcu]
@[simp] theorem merge_hcu : (s.merge e).hcu = s.hcu := by
  unfold State.merge
  simp only
  split_ifs <;> simp [noteOn_hcu]
@[simp] theorem arrive_hcu : (s.arrive e).hcu = s.hcu := by
  unfold State.arrive
  split <;> simp
@[simp] theorem assertLevel_hcu : (s.assertLevel e).hcu = s.hcu := by
  unfold State.assertLevel
  split <;> simp
@[simp] theorem deassertLevel_hcu : (s.deassertLevel e).hcu = s.hcu := by
  unfold State.deassertLevel
  simp only
  split_ifs <;> simp
@[simp] theorem judgeLine_hcu (high : Bool) : (s.judgeLine e high).hcu = s.hcu := by
  cases hk : (s.cfg e).kind <;> cases high <;> simp [State.judgeLine, hk]
@[simp] theorem declinePart_hcu : (s.declinePart e h).1.hcu = s.hcu := (declinePart_eventOf s e h).hcu
@[simp] theorem finishPart_hcu : (s.finishPart e h).1.hcu = s.hcu := (finishPart_eventOf s e h).hcu
@[simp] theorem releasePart_hcu (skips : Bool) : (s.releasePart e h skips).1.hcu = s.hcu := (releasePart_eventOf s e h skips).hcu
@[simp] theorem declineBy_hcu : (s.declineBy e h).hcu = s.hcu := by rw [State.declineBy, tell_hcu, declinePart_hcu]
@[simp] theorem releaseAt_hcu : (s.releaseAt e h).hcu = s.hcu := by rw [State.releaseAt, tell_hcu, releasePart_hcu]
@[simp] theorem departAt_hcu : (s.departAt e h).hcu = s.hcu := by
  obtain ⟨w, hevent, honly⟩ := departAt_event s e h
  rw [honly.hcu, hevent.hcu]
@[simp] theorem withdrawAt_hcu : (s.withdrawAt e h).hcu = s.hcu := by
  unfold State.withdrawAt
  split
  · rw [offerNews_hcu]
    rfl
  · rfl
@[simp] theorem tellStack_hcu (x : State × Bool) : (tellStack h e x).hcu = x.1.hcu := by
  rw [tellStack, choose_hcu, tell_hcu]
  rfl

/-! Delegated transfers. -/

variable (c : ChannelId) (d : DescId)

@[simp] theorem reportRun_hcu (r : RunResult) : (s.reportRun c r).hcu = s.hcu := rfl
@[simp] theorem failRun_hcu (k : NoticeKind) (o : Option HostId) (a : Option Addr) : (s.failRun c k o d a).hcu = s.hcu := rfl
@[simp] theorem stopForCut_hcu : (s.stopForCut c).hcu = s.hcu := by
  unfold State.stopForCut
  split <;> rfl
@[simp] theorem grantChannel_hcu : (s.grantChannel c).hcu = s.hcu := by
  unfold State.grantChannel
  split <;> rfl
@[simp] theorem arriveAt_hcu : (s.arriveAt c d).hcu = s.hcu := by
  unfold State.arriveAt
  simp only
  split_ifs <;> simp
@[simp] theorem grantPort_hcu : (s.grantPort c).hcu = s.hcu := by
  unfold State.grantPort
  split <;> rfl
@[simp] theorem nextGrant_hcu : s.nextGrant.hcu = s.hcu := by
  unfold State.nextGrant
  simp only
  split_ifs <;> simp
@[simp] theorem freePort_hcu : s.freePort.hcu = s.hcu := nextGrant_hcu _
@[simp] theorem failUnit_hcu (p : Bool) (k : NoticeKind) (a : Addr) : (s.failUnit c d p k a).hcu = s.hcu := by
  unfold State.failUnit
  cases p <;> simp
@[simp] theorem boundary_hcu : (s.boundary c d).hcu = s.hcu := by
  unfold State.boundary
  simp only
  split
  · simp
  · split
    · simp
    · cases (s.desc d).link with
      | none => rfl
      | some next => simp only; split <;> rfl
@[simp] theorem endUnit_hcu : (s.endUnit c d).hcu = s.hcu := by
  unfold State.endUnit
  simp
@[simp] theorem cutChannel_hcu : (s.cutChannel c).hcu = s.hcu := by
  unfold State.cutChannel
  simp only
  split
  · rfl
  · split <;> simp
@[simp] theorem succeedAt_hcu : (s.succeedAt e).hcu = s.hcu := by
  unfold State.succeedAt
  simp only
  split <;> simp
@[simp] theorem endRunAt_hcu (o : Outcome) : (s.endRunAt e o).hcu = s.hcu := by
  unfold State.endRunAt
  simp
@[simp] theorem takeResult_hcu {apply : State → Source → State} (ha : ∀ t f, (apply t f).hcu = t.hcu) :
    (s.takeResult c apply).hcu = s.hcu := by
  unfold State.takeResult
  simp only
  split
  · rfl
  · split <;> simp [ha]

/-! Requests. -/

@[simp] theorem writeConfig_hcu (x : EntryConfig) : (s.writeConfig e x).hcu = s.hcu := by
  unfold State.writeConfig
  simp only
  split <;> simp
@[simp] theorem enableEntry_hcu : (s.enableEntry e).hcu = s.hcu := by
  unfold State.enableEntry
  simp only
  split <;> simp
@[simp] theorem clearNow_hcu : (s.clearNow e).hcu = s.hcu := by
  have hempty : ∀ (l : List HostId) (t : State), (l.foldl State.emptySlot t).hcu = t.hcu := fun l t => by rw [emptySlots_eq]
  have hidle : ∀ t : State, (t.toIdle e).hcu = t.hcu := fun _ => rfl
  have hclear : ∀ t : State, (t.clearTakes e).hcu = t.hcu := fun _ => rfl
  unfold State.clearNow
  simp only
  split <;> simp [hempty, hidle, hclear]
@[simp] theorem askCut_hcu : (s.askCut h e).hcu = s.hcu := by
  unfold State.askCut
  simp only
  split <;> rfl

end

/-! ### Commands that open no session -/

/-- Every next state that the command answers passes the test. -/
def Answers (P : State → Prop) (r : Result) : Prop := ∀ t, r = .next t → P t

/-- Every host that is DETACHED in s is so in t. -/
def KeepsDetached (s t : State) : Prop := ∀ h, (s.ctx h).session = .detached → (t.ctx h).session = .detached

section
variable {P : State → Prop} {s t : State} {h : HostId}

theorem answers_next (hp : P t) : Answers P (.next t) := fun _ hx => by
  cases hx
  exact hp

theorem answers_refused (r : Refusal) : Answers P (.refused r) := fun _ hx => by cases hx

/-- A request writes its port alone, or does what its body does. -/
theorem request_answers {code : Operand} {right : Right} {ns : Bool} {body : State → State} (hport : ∀ p, P (s.setPort h p))
    (hself : P s) (hbody : P (body (s.taken h))) : Answers P (request h code right ns body s) := by
  unfold request
  split_ifs
  · exact answers_next hself
  · exact answers_next (hport _)
  · exact answers_refused _
  · refine answers_next ?_
    change P (if (!(s.taken h).holdsRight h right) = true then (s.taken h).answer h code .rights
      else if (ns && ((s.taken h).ctx h).session == .detached) = true then (s.taken h).answer h code .detached
      else body (s.taken h))
    split_ifs
    · rw [State.answer, State.taken_setPort]
      exact hport _
    · rw [State.answer, State.taken_setPort]
      exact hport _
    · exact hbody

theorem withIndex_cases {n : Nat} {code : Operand} {x : Operand} {body : Fin n → State → State}
    (hrange : P (s.answer h code .range)) (hbody : ∀ i, P (body i s)) : P (withIndex n h code x body s) := by
  unfold withIndex
  split
  · exact hbody _
  · exact hrange

theorem KeepsDetached.of_hcu (hh : t.hcu = s.hcu) : KeepsDetached s t := fun k hd => by
  have hctx : t.ctx k = s.ctx k := by rw [State.ctx, hh]; rfl
  rw [hctx]
  exact hd

theorem KeepsDetached.trans {u : State} (h : KeepsDetached s t) (g : KeepsDetached t u) : KeepsDetached s u :=
  fun k hd => g k (h k hd)

/-- A context written anew whose session, if it was DETACHED, is so still. -/
theorem KeepsDetached.setCtx {c : HostContext} (hc : (s.ctx h).session = .detached → c.session = .detached) :
    KeepsDetached s (s.setCtx h c) := fun k hd => by
  rw [State.setCtx_ctx]
  split
  next hk => exact hc (hk ▸ hd)
  next => exact hd

theorem KeepsDetached.of_setCtx {c : HostContext} (hc : (s.ctx h).session = .detached → c.session = .detached)
    (hh : t.hcu = (s.setCtx h c).hcu) : KeepsDetached s t := (KeepsDetached.setCtx hc).trans (.of_hcu hh)

theorem giveBack_keepsDetached (s : State) (h : HostId) : KeepsDetached s (s.giveBack h) := by
  refine .of_setCtx (h := h) (c := { s.ctx h with session := .detached, stack := [] }) (fun _ => rfl) ?_
  unfold State.giveBack
  simp [State.hand]

/-- A request whose body keeps every DETACHED host so. -/
theorem request_keepsDetached {code : Operand} {right : Right} {ns : Bool} {body : State → State}
    (hbody : KeepsDetached (s.taken h) (body (s.taken h))) : Answers (KeepsDetached s) (request h code right ns body s) :=
  request_answers (fun _ => .of_hcu rfl) (.of_hcu rfl) ((KeepsDetached.of_hcu rfl).trans hbody)

end

/-! ### Requests on the contexts -/

section
variable (s : State) (h : HostId)

theorem detachBody_keepsDetached : KeepsDetached s (detachBody h s) := by
  unfold detachBody
  split
  · exact .of_hcu rfl
  · exact (giveBack_keepsDetached s h).trans (.of_hcu rfl)

theorem writeThreshold_keepsDetached (v : Level) : KeepsDetached s (s.writeThreshold h v) := by
  refine .of_setCtx (h := h) (c := { s.ctx h with threshold := v }) id ?_
  unfold State.writeThreshold
  simp only
  split_ifs <;> simp

theorem matchTake_hcu (e : Source) : (s.matchTake h e).hcu = s.hcu := by
  unfold State.matchTake
  split
  · rfl
  · simp only
    split_ifs <;> rfl

theorem endService_keepsDetached (code : Operand) (e : Source) (x : Handed) : KeepsDetached s (s.endService h code e x) := by
  unfold State.endService
  split
  · exact .of_setCtx (h := h) (c := dropRecord (s.ctx h) e) id rfl
  · exact .of_hcu rfl

theorem handOverBody_keepsDetached (object : Operand) : KeepsDetached s (handOverBody h object s) := by
  refine withIndex_cases (.of_hcu rfl) fun k => ?_
  split_ifs
  · exact .of_hcu rfl
  · exact fun _ hd => hd
  · exact .of_hcu rfl

theorem evictBody_keepsDetached (object : Operand) : KeepsDetached s (evictBody h object s) := by
  refine withIndex_cases (.of_hcu rfl) fun k => ?_
  split_ifs with hk hundo
  · exact (giveBack_keepsDetached (s.evictNoted k) k).trans (.of_hcu (answerTake_hcu _ k .stale))
  · exact (giveBack_keepsDetached (s.evictNoted k) k).trans (.of_hcu rfl)
  · exact .of_hcu rfl

theorem hostReset_keepsDetached : Answers (KeepsDetached s) (exec (.hostReset h) s) := by
  let u := if (s.ctx h).session = .detached then s else s.giveBack h
  have hback : KeepsDetached s u := by
    simp only [u]
    split
    · exact .of_hcu rfl
    · exact giveBack_keepsDetached s h
  exact answers_next (hback.trans (.of_setCtx (h := h) (c := { u.ctx h with threshold := 0, lapseCount := 0 }) id rfl))

theorem countLapse_keepsDetached : KeepsDetached s (s.countLapse h) := by
  unfold State.countLapse
  split
  next ha =>
    have hcount := KeepsDetached.setCtx (s := s) (h := h) (c := { s.ctx h with lapseCount := lapseCountUp (s.ctx h).lapseCount }) id
    simp only
    split
    · refine hcount.trans (.of_setCtx (h := h) (fun hd => ?_) (withdrawOffer_hcu _ h))
      simp [ha] at hd
    · exact hcount
  next => exact .of_hcu rfl

theorem takeHanded_hcu {p : Handed → Bool} {x : Handed} {t : State} (ht : s.takeHanded h p = some (x, t)) : t.hcu = s.hcu := by
  obtain ⟨rest, -, rfl⟩ := takeHanded_some.mp ht
  rfl

end

/-! ### The commands -/


section
variable (s : State)

theorem lapseReport_keepsDetached (h : HostId) : Answers (KeepsDetached s) (exec (.lapseReport h) s) := by
  change Answers _ (execLapseReport h s)
  unfold execLapseReport
  simp only
  split
  · exact answers_next ((countLapse_keepsDetached s h).trans (.of_hcu rfl))
  · exact answers_next (.of_hcu rfl)
  · exact answers_next (.of_hcu rfl)

theorem takePush_keepsDetached (h : HostId) : Answers (KeepsDetached s) (exec (.takePush h) s) := by
  change Answers _ (execTakePush h s)
  unfold execTakePush
  split
  · exact answers_next (.of_hcu rfl)
  · simp only
    split
    · refine answers_next (.of_setCtx (h := h) ?_ (choose_hcu _ h))
      exact id
    · exact answers_next (.of_hcu (choose_hcu _ h))

theorem takeUndo_keepsDetached (h : HostId) : Answers (KeepsDetached s) (exec (.takeUndo h) s) := by
  change Answers _ (execTakeUndo h s)
  unfold execTakeUndo
  split
  · exact answers_next (.of_hcu rfl)
  next e _ =>
    refine answers_next (.of_setCtx (h := h) (c := dropRecord (s.ctx h) e) id ?_)
    rw [answerTake_hcu, choose_hcu]
    rfl

theorem exec_delegationInsert_hcu (e : Source) : Answers (fun t => t.hcu = s.hcu) (exec (.delegationInsert e) s) := by
  change Answers _ (execDelegationInsert e s)
  unfold execDelegationInsert
  simp only
  split_ifs <;> exact answers_next (by simp)

theorem exec_channelRelease_hcu (c : ChannelId) : Answers (fun t => t.hcu = s.hcu) (exec (.channelRelease c) s) := by
  change Answers _ (execChannelRelease c s)
  unfold execChannelRelease
  split <;> exact answers_next (by simp)

theorem exec_descriptorArrival_hcu (c : ChannelId) : Answers (fun t => t.hcu = s.hcu) (exec (.descriptorArrival c) s) := by
  change Answers _ (execDescriptorArrival c s)
  unfold execDescriptorArrival
  split <;> exact answers_next (by simp)

theorem exec_unitCheck_hcu (c : ChannelId) : Answers (fun t => t.hcu = s.hcu) (exec (.unitCheck c) s) := by
  change Answers _ (execUnitCheck c s)
  unfold execUnitCheck
  simp only
  split
  · split_ifs <;> exact answers_next (by simp)
  · exact answers_next rfl

theorem exec_memoryGrant_hcu : Answers (fun t => t.hcu = s.hcu) (exec .memoryGrant s) := by
  change Answers _ (execMemoryGrant s)
  unfold execMemoryGrant
  exact answers_next (nextGrant_hcu s)

theorem exec_memoryResponse_hcu (tag : BitVec 4) (error : Bool) (data : Word) :
    Answers (fun t => t.hcu = s.hcu) (exec (.memoryResponse tag error data) s) := by
  change Answers _ (execMemoryResponse tag error data s)
  unfold execMemoryResponse
  split
  · split
    · exact answers_next rfl
    · simp only
      split_ifs <;> exact answers_next (by simp [State.issueAccess])
  · exact answers_next rfl

theorem exec_memoryTimeout_hcu : Answers (fun t => t.hcu = s.hcu) (exec .memoryTimeout s) := by
  change Answers _ (execMemoryTimeout s)
  unfold execMemoryTimeout
  split
  · split <;> exact answers_next (by simp)
  · exact answers_next rfl

theorem exec_writeRecord_hcu (c : ChannelId) : Answers (fun t => t.hcu = s.hcu) (exec (.writeRecord c) s) := by
  change Answers _ (execWriteRecord c s)
  unfold execWriteRecord
  split
  · exact answers_next rfl
  · simp only
    split <;> exact answers_next rfl

theorem exec_cutRequest_hcu (e : Source) : Answers (fun t => t.hcu = s.hcu) (exec (.cutRequest e) s) := by
  change Answers _ (execCutRequest e s)
  unfold execCutRequest
  split
  · exact answers_next rfl
  · simp only
    split_ifs <;> exact answers_next (by simp)

theorem exec_runSuccess_hcu (c : ChannelId) : Answers (fun t => t.hcu = s.hcu) (exec (.runSuccess c) s) := by
  change Answers _ (execRunSuccess c s)
  unfold execRunSuccess
  split <;> exact answers_next (by simp)

theorem exec_runFailure_hcu (c : ChannelId) : Answers (fun t => t.hcu = s.hcu) (exec (.runFailure c) s) := by
  change Answers _ (execRunFailure c s)
  unfold execRunFailure
  split <;> exact answers_next (by simp)

theorem exec_runCut_hcu (c : ChannelId) : Answers (fun t => t.hcu = s.hcu) (exec (.runCut c) s) := by
  change Answers _ (execRunCut c s)
  unfold execRunCut
  split <;> exact answers_next (by simp)

theorem exec_offerExpiry_hcu (h : HostId) : Answers (fun t => t.hcu = s.hcu) (exec (.offerExpiry h) s) := by
  change Answers _ (execOfferExpiry h s)
  unfold execOfferExpiry
  split
  · simp only
    split_ifs <;> exact answers_next (by simp [State.emptySlot, State.leaveOffered])
  · exact answers_next rfl

theorem exec_takeHold_hcu (h : HostId) : Answers (fun t => t.hcu = s.hcu) (exec (.takeHold h) s) := by
  change Answers _ (execTakeHold h s)
  unfold execTakeHold
  split
  next ht =>
    simp only
    split_ifs <;> exact answers_next (by simp [takeHanded_hcu s h ht])
  next => exact answers_next rfl

theorem exec_finishReport_hcu (h : HostId) (e : Source) : Answers (fun t => t.hcu = s.hcu) (exec (.finishReport h e) s) := by
  change Answers _ (execFinishReport h e s)
  unfold execFinishReport
  split
  next => exact answers_next rfl
  next ht => exact answers_next (by simp [takeHanded_hcu s h ht])

theorem exec_releaseReport_hcu (h : HostId) (e : Source) : Answers (fun t => t.hcu = s.hcu) (exec (.releaseReport h e) s) := by
  change Answers _ (execReleaseReport h e s)
  unfold execReleaseReport
  split
  next ht => exact answers_next (by simp [takeHanded_hcu s h ht])
  next => exact answers_next rfl

theorem exec_withdrawalReport_hcu (h : HostId) : Answers (fun t => t.hcu = s.hcu) (exec (.withdrawalReport h) s) := by
  change Answers _ (execWithdrawalReport h s)
  unfold execWithdrawalReport
  split
  next => exact answers_next rfl
  next ht => exact answers_next (by simp [takeHanded_hcu s h ht])

theorem exec_lapseAnswer_hcu (h : HostId) : Answers (fun t => t.hcu = s.hcu) (exec (.lapseAnswer h) s) := by
  change Answers _ (execLapseAnswer h s)
  unfold execLapseAnswer
  split
  · exact answers_next (by simp)
  · exact answers_next rfl
  · exact answers_next rfl

theorem exec_noticeAppend_hcu (o : Origin) : Answers (fun t => t.hcu = s.hcu) (exec (.noticeAppend o) s) := by
  change Answers _ (execNoticeAppend o s)
  unfold execNoticeAppend
  split <;> exact answers_next rfl

theorem exec_noticeLevelChange_hcu : Answers (fun t => t.hcu = s.hcu) (exec .noticeLevelChange s) := by
  change Answers _ (execNoticeLevelChange s)
  unfold execNoticeLevelChange
  split
  · exact answers_next rfl
  · simp only
    split <;> exact answers_next (by simp)

theorem exec_lineChange_hcu (line : LineId) (high : Bool) : Answers (fun t => t.hcu = s.hcu) (exec (.lineChange line high) s) := by
  change Answers _ (execLineChange line high s)
  unfold execLineChange
  split
  · exact answers_next rfl
  · exact answers_next (by simp)

theorem exec_registerWrite_hcu (h : HostId) (offset : Fin 16) (word : Word) :
    Answers (fun t => t.hcu = s.hcu) (exec (.registerWrite h offset word) s) := by
  change Answers _ (execRegisterWrite h offset word s)
  unfold execRegisterWrite
  split_ifs
  · exact answers_refused _
  all_goals exact answers_next rfl

theorem exec_lostRequest_hcu (h : HostId) : Answers (fun t => t.hcu = s.hcu) (exec (.lostRequest h) s) := by
  change Answers _ (execLostRequest h s)
  unfold execLostRequest
  split_ifs
  · exact answers_next rfl
  · exact answers_next rfl
  · exact answers_refused _

end

/-! ### Who leaves DETACHED -/

section
variable {s t : State} {h : HostId}

theorem Answers.keepsDetached {r : Result} (hr : Answers (fun t => t.hcu = s.hcu) r) : Answers (KeepsDetached s) r :=
  fun t ht => .of_hcu (hr t ht)

/-- No request but ATTACH makes a host leave DETACHED. -/
theorem exec_request_keepsDetached {c : Instr} (hc : c.port = some h) (ha : c ≠ .attach h) :
    Answers (KeepsDetached s) (exec c s) := by
  cases c with
  | attach k => cases hc; exact absurd rfl ha
  | detach k => exact request_keepsDetached (detachBody_keepsDetached _ k)
  | setThreshold k v =>
    exact request_keepsDetached (withIndex_cases (.of_hcu rfl) fun v => (writeThreshold_keepsDetached _ k v).trans (.of_hcu rfl))
  | take k x => exact request_keepsDetached (withIndex_cases (.of_hcu rfl) fun e => .of_hcu (matchTake_hcu _ k e))
  | finish k x => exact request_keepsDetached (withIndex_cases (.of_hcu rfl) fun e => endService_keepsDetached _ k _ e _)
  | release k x => exact request_keepsDetached (withIndex_cases (.of_hcu rfl) fun e => endService_keepsDetached _ k _ e _)
  | post k x =>
    refine request_keepsDetached (withIndex_cases (.of_hcu rfl) fun e => ?_)
    split_ifs <;> exact .of_hcu (by simp)
  | readEntry k x => exact request_keepsDetached (withIndex_cases (.of_hcu rfl) fun _ => .of_hcu rfl)
  | readDesc k x => exact request_keepsDetached (withIndex_cases (.of_hcu rfl) fun _ => .of_hcu rfl)
  | readWindow k x y =>
    exact request_keepsDetached (withIndex_cases (.of_hcu rfl) fun _ => withIndex_cases (.of_hcu rfl) fun _ => .of_hcu rfl)
  | readHost k x => exact request_keepsDetached (withIndex_cases (.of_hcu rfl) fun _ => .of_hcu rfl)
  | popNotice k =>
    refine request_keepsDetached ?_
    unfold popNoticeBody
    split <;> exact .of_hcu rfl
  | readNoticeStatus k => exact request_keepsDetached (.of_hcu rfl)
  | writeEntry k x =>
    refine request_keepsDetached (withIndex_cases (.of_hcu rfl) fun e => ?_)
    split
    · exact .of_hcu rfl
    · split <;> exact .of_hcu (by simp)
  | enable k x v =>
    change Answers _ (execEnable k x v s)
    unfold execEnable
    split
    · exact answers_refused _
    · refine request_keepsDetached (withIndex_cases (.of_hcu rfl) fun e => ?_)
      split <;> exact .of_hcu (by simp)
  | disable k x => exact request_keepsDetached (withIndex_cases (.of_hcu rfl) fun _ => .of_hcu rfl)
  | clearEntry k x =>
    refine request_keepsDetached (withIndex_cases (.of_hcu rfl) fun e => ?_)
    split
    case h_4 => split <;> exact .of_hcu (by simp)
    all_goals exact .of_hcu (by simp)
  | retry k x =>
    refine request_keepsDetached (withIndex_cases (.of_hcu rfl) fun e => ?_)
    split <;> exact .of_hcu (by simp)
  | writeBinding k x =>
    refine request_keepsDetached (withIndex_cases (.of_hcu rfl) fun e => ?_)
    split
    · exact .of_hcu rfl
    · split
      · exact .of_hcu rfl
      · split <;> exact .of_hcu rfl
  | arm k x =>
    refine request_keepsDetached (withIndex_cases (.of_hcu rfl) fun e => ?_)
    split_ifs <;> exact .of_hcu rfl
  | disarm k x =>
    refine request_keepsDetached (withIndex_cases (.of_hcu rfl) fun e => ?_)
    split
    · exact .of_hcu (by simp)
    · exact .of_hcu (by rw [answer_hcu, enterDelivering_hcu]; rfl)
    · exact .of_hcu rfl
  | writeDesc k x =>
    refine request_keepsDetached (withIndex_cases (.of_hcu rfl) fun d => ?_)
    split
    · exact .of_hcu rfl
    · split <;> exact .of_hcu rfl
  | writeWindow k x y =>
    refine request_keepsDetached (withIndex_cases (.of_hcu rfl) fun i => withIndex_cases (.of_hcu rfl) fun j => ?_)
    split <;> exact .of_hcu rfl
  | setHostLimits k x y z =>
    refine request_keepsDetached (withIndex_cases (.of_hcu rfl) fun i => withIndex_cases (.of_hcu rfl) fun limit => ?_)
    split
    · exact .of_hcu rfl
    · exact .of_setCtx (h := i)
        (c := { (s.taken k).ctx i with lapseLimit := limit, timeout := Fin.ofNat 256 z.toNat }) id rfl
  | setRights k x v =>
    refine request_keepsDetached (withIndex_cases (.of_hcu rfl) fun i => ?_)
    split
    · exact .of_setCtx (h := i)
        (c := { (s.taken k).ctx i with configRight := v.getLsbD 0, descRight := v.getLsbD 1 }) id rfl
    · exact .of_hcu rfl
  | handOver k x => exact request_keepsDetached (handOverBody_keepsDetached _ k x)
  | evict k x => exact request_keepsDetached (evictBody_keepsDetached _ k x)
  | _ => cases hc

/-- Full reset leaves every host DETACHED (R40). -/
theorem fullReset_keepsDetached (s : State) : Answers (KeepsDetached s) (exec .fullReset s) :=
  answers_next fun k _ => congrArg HostContext.session (look_replicate resetContext k)

theorem fullResetRelease_keepsDetached (s : State) (evt : BitVec 48) (clksel supsel : BitVec 2) :
    Answers (KeepsDetached s) (exec (.fullResetRelease evt clksel supsel) s) := by
  change Answers _ (execFullResetRelease evt clksel supsel s)
  unfold execFullResetRelease
  split
  · exact answers_next fun _ hd => hd
  · exact answers_next (.of_hcu rfl)

theorem unknownRequest_keepsDetached (s : State) (h : HostId) (code : Operand) :
    Answers (KeepsDetached s) (exec (.unknownRequest h code) s) := by
  change Answers _ (execUnknownRequest h code s)
  unfold execUnknownRequest
  split
  · exact answers_refused _
  · exact request_keepsDetached (.of_hcu rfl)

/-- No command makes a host leave DETACHED but an ATTACH, or the release or departure that one may have waited for (R47). -/
theorem exec_keepsDetached {c : Instr} (ha : ∀ k, c ≠ .attach k) (hs : ∀ k, c ≠ .stackRelease k)
    (ho : ∀ k, c ≠ .owedDeparture k) : Answers (KeepsDetached s) (exec c s) := by
  cases hport : c.port with
  | some k => exact exec_request_keepsDetached hport (ha k)
  | none =>
    cases c with
    | unknownRequest k code => exact unknownRequest_keepsDetached s k code
    | lostRequest k => exact (exec_lostRequest_hcu s k).keepsDetached
    | registerWrite k offset word => exact (exec_registerWrite_hcu s k offset word).keepsDetached
    | lineChange line high => exact (exec_lineChange_hcu s line high).keepsDetached
    | hostReset k => exact hostReset_keepsDetached s k
    | hostResetRelease k => exact answers_next (.of_hcu rfl)
    | fullReset => exact fullReset_keepsDetached s
    | fullResetRelease evt clksel supsel => exact fullResetRelease_keepsDetached s evt clksel supsel
    | offerExpiry k => exact (exec_offerExpiry_hcu s k).keepsDetached
    | lapseReport k => exact lapseReport_keepsDetached s k
    | lapseAnswer k => exact (exec_lapseAnswer_hcu s k).keepsDetached
    | takePush k => exact takePush_keepsDetached s k
    | takeHold k => exact (exec_takeHold_hcu s k).keepsDetached
    | takeUndo k => exact takeUndo_keepsDetached s k
    | finishReport k e => exact (exec_finishReport_hcu s k e).keepsDetached
    | releaseReport k e => exact (exec_releaseReport_hcu s k e).keepsDetached
    | stackRelease k => exact absurd rfl (hs k)
    | owedDeparture k => exact absurd rfl (ho k)
    | withdrawalReport k => exact (exec_withdrawalReport_hcu s k).keepsDetached
    | delegationInsert e => exact (exec_delegationInsert_hcu s e).keepsDetached
    | channelRelease c => exact (exec_channelRelease_hcu s c).keepsDetached
    | descriptorArrival c => exact (exec_descriptorArrival_hcu s c).keepsDetached
    | unitCheck c => exact (exec_unitCheck_hcu s c).keepsDetached
    | memoryGrant => exact (exec_memoryGrant_hcu s).keepsDetached
    | memoryResponse tag error data => exact (exec_memoryResponse_hcu s tag error data).keepsDetached
    | memoryTimeout => exact (exec_memoryTimeout_hcu s).keepsDetached
    | writeRecord c => exact (exec_writeRecord_hcu s c).keepsDetached
    | cutRequest e => exact (exec_cutRequest_hcu s e).keepsDetached
    | runSuccess c => exact (exec_runSuccess_hcu s c).keepsDetached
    | runFailure c => exact (exec_runFailure_hcu s c).keepsDetached
    | runCut c => exact (exec_runCut_hcu s c).keepsDetached
    | noticeAppend o => exact (exec_noticeAppend_hcu s o).keepsDetached
    | noticeLevelChange => exact (exec_noticeLevelChange_hcu s).keepsDetached
    | _ => cases hport

/-- A host that is DETACHED in s and not in t is k, under a condition w, and is ATTACHED in t. -/
def OpensOnly (k : HostId) (w : Prop) (s t : State) : Prop :=
  ∀ h, (s.ctx h).session = .detached → (t.ctx h).session ≠ .detached → (t.ctx h).session = .attached ∧ h = k ∧ w

theorem KeepsDetached.opensOnly (hk : KeepsDetached s t) (k : HostId) (w : Prop) : OpensOnly k w s t :=
  fun h hd hn => absurd (hk h hd) hn

theorem attachNow_opensOnly (s : State) (k : HostId) : OpensOnly k True s (s.attachNow k) := fun h hd hn => by
  have hctx : (s.attachNow k).ctx h = (s.opened k).ctx h := by rw [State.ctx, attachNow_eq, choose_hcu]; rfl
  rw [hctx, State.opened, State.setCtx_ctx] at hn ⊢
  split at hn
  next hk => rw [if_pos hk]; exact ⟨rfl, hk, trivial⟩
  next => exact absurd hd hn

theorem exec_attach_opensOnly (s : State) (k : HostId) : Answers (OpensOnly k True s) (exec (.attach k) s) := by
  have hself : ∀ {t : State}, t.hcu = s.hcu → OpensOnly k True s t := fun ht => (KeepsDetached.of_hcu ht).opensOnly k True
  refine request_answers (fun _ => hself rfl) (hself rfl) ?_
  unfold attachBody
  split_ifs
  · exact hself rfl
  · exact hself rfl
  · exact attachNow_opensOnly (s.taken k) k

/-- After an effect that leaves contexts and ports as they are, only an ATTACH that waits at the port is taken (R46). -/
theorem resumeAttach_opensOnly {v : State} (hh : v.hcu = s.hcu) (hp : v.ports = s.ports) (k : HostId) :
    OpensOnly k ((s.port k).waiting = some .attach) s (v.resumeAttach k) := by
  have hport : v.port k = s.port k := by rw [State.port, hp]; rfl
  have hctx : ∀ j, v.ctx j = s.ctx j := fun j => by rw [State.ctx, hh]; rfl
  unfold State.resumeAttach
  split
  next hw =>
    rw [hport] at hw
    simp only [Bool.and_eq_true, beq_iff_eq] at hw
    intro h hd hn
    obtain ⟨hatt, hk, -⟩ := attachNow_opensOnly (v.setPort k { v.port k with waiting := none }) k h ((hctx h).symm ▸ hd) hn
    exact ⟨hatt, hk, hw.1⟩
  next => exact (KeepsDetached.of_hcu hh).opensOnly k _

theorem EventOf.ports {e : Source} (g : EventOf e s t) : t.ports = s.ports := by rw [g.rest]

theorem OffersOnly.ports (g : OffersOnly s t) : t.ports = s.ports := by rw [g.1]

theorem takeHanded_ports {p : Handed → Bool} {x : Handed} (ht : s.takeHanded h p = some (x, t)) : t.ports = s.ports := by
  obtain ⟨rest, -, rfl⟩ := takeHanded_some.mp ht
  rfl

theorem exec_stackRelease_opensOnly (s : State) (k : HostId) :
    Answers (OpensOnly k ((s.port k).waiting = some .attach) s) (exec (.stackRelease k) s) := by
  change Answers _ (execStackRelease k s)
  unfold execStackRelease
  split
  next => exact answers_next ((KeepsDetached.of_hcu rfl).opensOnly k _)
  next x u hu =>
    refine answers_next (resumeAttach_opensOnly (by rw [releaseAt_hcu, takeHanded_hcu s k hu]) ?_ k)
    rw [State.releaseAt, (tell_offersOnly _ _).ports, (releasePart_eventOf u x.source k false).ports, takeHanded_ports hu]

theorem exec_owedDeparture_opensOnly (s : State) (k : HostId) :
    Answers (OpensOnly k ((s.port k).waiting = some .attach) s) (exec (.owedDeparture k) s) := by
  change Answers _ (execOwedDeparture k s)
  unfold execOwedDeparture
  split
  next => exact answers_next ((KeepsDetached.of_hcu rfl).opensOnly k _)
  next x u hu =>
    obtain ⟨w, hevent, honly⟩ := departAt_event u x.source k
    refine answers_next (resumeAttach_opensOnly (by rw [departAt_hcu, takeHanded_hcu s k hu]) ?_ k)
    rw [honly.ports, hevent.ports, takeHanded_ports hu]

end

end Sys2Proof.Machine

/-- Settles O59: every other command keeps a DETACHED host so, by the cases of the catalogue, of the board's events and of the claims. -/
theorem detachedIsLeftByAttachAlone : Obligations.DetachedIsLeftByAttachAlone := by
  intro c s t h hx hd hn
  cases c with
  | attach k =>
    obtain ⟨hatt, rfl, -⟩ := exec_attach_opensOnly s k t hx h hd hn
    exact ⟨hatt, .inl rfl⟩
  | stackRelease k =>
    obtain ⟨hatt, rfl, hw⟩ := exec_stackRelease_opensOnly s k t hx h hd hn
    exact ⟨hatt, .inr ⟨.inl rfl, hw⟩⟩
  | owedDeparture k =>
    obtain ⟨hatt, rfl, hw⟩ := exec_owedDeparture_opensOnly s k t hx h hd hn
    exact ⟨hatt, .inr ⟨.inr rfl, hw⟩⟩
  | _ => exact absurd (exec_keepsDetached (by simp) (by simp) (by simp) t hx h hd) hn
end

section
/-! The record of one host: its context, the Offer Unit's view of its stack, its slot and the claims on their way for it. The laws of the
four hosts are laws of these records one by one (R47, R63, R65, R75, R77, R82). -/

open Sys2Proof Sys2Proof.Machine

namespace Sys2Proof.Machine

/-! ### The effective level -/

section
variable {v : Level} {l m : List StackRecord} {r : StackRecord}

theorem le_levelOver (v : Level) (l : List StackRecord) : v ≤ levelOver v l := by
  unfold levelOver
  split
  · exact le_refl v
  · exact le_max_left _ _

theorem levelOver_mono {v w : Level} (hv : v ≤ w) (l : List StackRecord) : levelOver v l ≤ levelOver w l := by
  unfold levelOver
  split
  · exact hv
  · exact max_le_max hv (le_refl _)

/-- The top record has the highest level of a stack, so that none stands above the effective level (R43, R82). -/
theorem level_le_levelOver (hl : l.Pairwise fun lower upper => lower.level < upper.level) (hr : r ∈ l) :
    r.level ≤ levelOver v l := by
  obtain ⟨init, top, rfl⟩ := (List.eq_nil_or_concat' l).resolve_left (List.ne_nil_of_mem hr)
  have htop : r.level ≤ top.level := by
    rcases List.mem_append.mp hr with hr | hr
    · exact le_of_lt ((List.pairwise_append.mp hl).2.2 r hr top (by simp))
    · rw [List.mem_singleton.mp hr]
  simp [levelOver, htop]

/-- Fewer records give no higher effective level (R43, R82). -/
theorem levelOver_sublist (hl : l.Pairwise fun lower upper => lower.level < upper.level) (hm : m.Sublist l) :
    levelOver v m ≤ levelOver v l := by
  rw [levelOver]
  split
  · exact le_levelOver v l
  next r hr => exact max_le (le_levelOver v l) (level_le_levelOver hl (hm.subset (List.mem_of_getLast? hr)))

end

/-! ### The record of a host -/

/-- What the laws of a host are about. -/
structure HostRecord where
  ctx    : HostContext
  view   : List StackRecord
  slot   : Slot
  take   : Option TakeClaim
  lapse  : LapseClaim
  handed : List Handed

/-- The record of each host. -/
def State.host (s : State) (h : HostId) : HostRecord :=
  { ctx := s.ctx h, view := s.viewOf h, slot := s.slot h, take := s.takeOf h, lapse := s.lapseOf h, handed := s.handedOf h }

/-- Is a FINISH or RELEASE of the record's source among the claims? -/
def removalIn (l : List Handed) (r : StackRecord) : Bool :=
  l.any fun x => x == .finish r.source || x == .release r.source false || x == .release r.source true

/-- The laws of one host, less what follows from the rest: the stack is part of the view, so that its depth, its order and the effective
level of the context need no law of their own. -/
structure HostRecord.Ok (x : HostRecord) : Prop where
  depth : x.view.length ≤ Config.stackDepth
  sorted : x.view.Pairwise fun lower upper => lower.level < upper.level
  stack : x.ctx.stack.Sublist x.view
  told : ∀ r ∈ x.view, r ∈ x.ctx.stack ∨ removalIn x.handed r = true
  gone : x.ctx.session = .detached → x.view = []
  offer : ∀ o ∈ x.slot.offer,
    x.ctx.session = .attached ∧ x.view.length < Config.stackDepth ∧ levelOver x.ctx.threshold x.view < o.level
  stopped : x.slot.offer = none → x.slot.timer = none
  filled : x.slot.offer ≠ none → x.take = none ∧ x.lapse = .none
  matched : ∀ t ∈ x.take, x.lapse = .none ∧
    (t.ended = false → x.ctx.session = .attached ∧ x.view.length < Config.stackDepth ∧ ∀ r ∈ x.view, r.level < t.offer.level)
  limit : x.ctx.lapseLimit ≠ 0

theorem hostLaw_iff {s : State} : HostLaw s ↔ ∀ h, (s.host h).Ok := by
  refine forall_congr' fun h => ⟨?_, fun hok => ?_⟩
  · rintro ⟨-, ⟨⟨hdepth, hsorted⟩, hstack, htold, hgone⟩, hslot, ⟨hstopped, hfilled, hmatched⟩, -, hlimit⟩
    exact ⟨hdepth, hsorted, hstack, htold, hgone, fun o ho => ⟨(hslot o ho).1, (hslot o ho).2.1, (hslot o ho).2.2.1⟩, hstopped,
      hfilled, hmatched, hlimit⟩
  · obtain ⟨hdepth, hsorted, hstack, htold, hgone, hoffer, hstopped, hfilled, hmatched, hlimit⟩ := hok
    refine ⟨⟨hstack.length_le.trans hdepth, hsorted.sublist hstack⟩, ⟨⟨hdepth, hsorted⟩, hstack, htold, hgone⟩,
      fun o ho => ?_, ⟨hstopped, hfilled, hmatched⟩, fun hd => ?_, hlimit⟩
    · obtain ⟨hatt, hroom, hlevel⟩ := hoffer o ho
      exact ⟨hatt, hroom, hlevel, hstack.length_le.trans_lt hroom, (levelOver_sublist hsorted hstack).trans_lt hlevel⟩
    · exact List.sublist_nil.mp (hgone hd ▸ hstack)

/-! ### What the records become with an update of the state -/

section
variable (s : State) (h : HostId)

@[simp] theorem setProg_host (e : Source) (p : Progress) : (s.setProg e p).host = s.host := rfl
@[simp] theorem setChannel_host (c : ChannelId) (x : Channel) : (s.setChannel c x).host = s.host := rfl
@[simp] theorem setDesc_host (d : DescId) (x : Descriptor) : (s.setDesc d x).host = s.host := rfl
@[simp] theorem setUndo_host (e : Option Source) : (s.setUndo h e).host = s.host := rfl
@[simp] theorem answer_host (code : Operand) (r : ResultCode) : (s.answer h code r).host = s.host := rfl
@[simp] theorem answerTake_host (r : ResultCode) : (s.answerTake h r).host = s.host := by
  unfold State.answerTake
  split <;> rfl

/-- An update of one host's record and of no other's. -/
theorem host_eq_update {t : State} {x : HostRecord} (hself : t.host h = x) (hne : ∀ k, k ≠ h → t.host k = s.host k) :
    t.host = Function.update s.host h x := Function.eq_update_iff.mpr ⟨hself, hne⟩

theorem setCtx_host (c : HostContext) : (s.setCtx h c).host = Function.update s.host h { s.host h with ctx := c } :=
  host_eq_update s h (by simp [State.host]) fun k hk => by simp [State.host, State.setCtx_ctx, hk]

theorem setSlot_host (x : Slot) : (s.setSlot h x).host = Function.update s.host h { s.host h with slot := x } :=
  host_eq_update s h (by simp [State.host]) fun k hk => by simp [State.host, State.setSlot_slot, hk]

theorem setView_host (l : List StackRecord) : (s.setView h l).host = Function.update s.host h { s.host h with view := l } :=
  host_eq_update s h (by simp [State.host]) fun k hk => by simp [State.host, State.setView_viewOf, hk]

theorem setTake_host (t : Option TakeClaim) : (s.setTake h t).host = Function.update s.host h { s.host h with take := t } :=
  host_eq_update s h (by simp [State.host]) fun k hk => by simp [State.host, State.setTake_takeOf, hk]

theorem setLapse_host (l : LapseClaim) : (s.setLapse h l).host = Function.update s.host h { s.host h with lapse := l } :=
  host_eq_update s h (by simp [State.host]) fun k hk => by simp [State.host, State.setLapse_lapseOf, hk]

theorem setHanded_host (l : List Handed) : (s.setHanded h l).host = Function.update s.host h { s.host h with handed := l } :=
  host_eq_update s h (by simp [State.host]) fun k hk => by simp [State.host, State.setHanded_handedOf, hk]

theorem gaveBack_host (es : List Source) : (s.gaveBack h es).host = Function.update s.host h
    { ctx := { s.ctx h with session := .detached, stack := [] }
      view := []
      slot := { offer := none, timer := none }
      take := (s.takeOf h).map fun t => { t with ended := true }
      lapse := if s.lapseOf h = .reported then .overtaken else s.lapseOf h
      handed := s.handedOf h ++ ((s.slot h).offer.toList.map fun o => Handed.withdraw o.source) ++
        ((s.ctx h).stack.reverse.map fun r => Handed.stackRelease r.source) ++ es.map Handed.depart } := by
  refine host_eq_update s h ?_ fun k hk => ?_
  · simp [State.host, State.gaveBack, State.ctx, State.viewOf, State.slot, State.takeOf, State.lapseOf, State.handedOf]
  · simp [State.host, State.gaveBack, State.ctx, State.viewOf, State.slot, State.takeOf, State.lapseOf, State.handedOf,
      look_put_ne _ _ hk]

end

/-! ### The rules of a host's record -/

section
variable {x : HostRecord} {l : List Handed}

@[simp] theorem removalIn_append (l m : List Handed) (r : StackRecord) :
    removalIn (l ++ m) r = (removalIn l r || removalIn m r) := List.any_append

/-- Records may leave the stack, and the view after it; a record that the view alone has is one whose removal is told (R63, R87). -/
theorem HostRecord.Ok.shrink (hx : x.Ok) {stack view : List StackRecord} (hview : view.Sublist x.view)
    (hstack : stack.Sublist view) (htold : ∀ r ∈ view, r ∈ stack ∨ removalIn l r = true) :
    HostRecord.Ok { x with ctx := { x.ctx with stack := stack }, view := view, handed := l } where
  depth := hview.length_le.trans hx.depth
  sorted := hx.sorted.sublist hview
  stack := hstack
  told := htold
  gone hd := List.sublist_nil.mp (hx.gone hd ▸ hview)
  offer o ho := by
    obtain ⟨hatt, hroom, hlevel⟩ := hx.offer o ho
    exact ⟨hatt, hview.length_le.trans_lt hroom, (levelOver_sublist hx.sorted hview).trans_lt hlevel⟩
  stopped := hx.stopped
  filled := hx.filled
  matched t ht := by
    obtain ⟨hlapse, hopen⟩ := hx.matched t ht
    refine ⟨hlapse, fun he => ?_⟩
    obtain ⟨hatt, hroom, habove⟩ := hopen he
    exact ⟨hatt, hview.length_le.trans_lt hroom, fun r hr => habove r (hview.subset hr)⟩
  limit := hx.limit

/-- Other claims, with the removals that were told. -/
theorem HostRecord.Ok.handed (hx : x.Ok) (hl : ∀ r, removalIn x.handed r = true → removalIn l r = true) :
    HostRecord.Ok { x with handed := l } :=
  hx.shrink (.refl _) hx.stack fun r hr => (hx.told r hr).imp_right (hl r)

theorem HostRecord.Ok.handMore (hx : x.Ok) (m : List Handed) : HostRecord.Ok { x with handed := x.handed ++ m } :=
  hx.handed fun r hr => by simp [hr]

/-- The record of e removed from the stack, which the Event Table is told (R86, R89). -/
theorem HostRecord.Ok.endService (hx : x.Ok) {e : Source} {y : Handed} (hy : ∀ r : StackRecord, r.source = e → removalIn [y] r = true) :
    HostRecord.Ok { x with ctx := dropRecord x.ctx e, handed := x.handed ++ [y] } :=
  hx.shrink (.refl _) (List.filter_sublist.trans hx.stack) fun r hr => by
    by_cases he : r.source = e
    · exact .inr (by simp [hy r he])
    · exact (hx.told r hr).imp (fun hs => List.mem_filter.mpr ⟨hs, by simpa using he⟩) fun ht => by simp [ht]

/-- The record of e leaves the view where it has left the stack, and the claim that told of it may go (R87 step 2). -/
theorem HostRecord.Ok.tellRemoval (hx : x.Ok) {e : Source}
    (hl : ∀ r : StackRecord, r.source ≠ e → removalIn x.handed r = true → removalIn l r = true) :
    HostRecord.Ok { x with view := x.view.filter fun r => r.source != e || x.ctx.stack.contains r, handed := l } := by
  refine hx.shrink List.filter_sublist ?_ fun r hr => ?_
  · have hself : x.ctx.stack.filter (fun r => r.source != e || x.ctx.stack.contains r) = x.ctx.stack :=
      List.filter_eq_self.mpr fun r hr => by simp [hr]
    have hkept := hx.stack.filter fun r => r.source != e || x.ctx.stack.contains r
    rwa [hself] at hkept
  · obtain ⟨hview, hkept⟩ := List.mem_filter.mp hr
    simp only [Bool.or_eq_true, bne_iff_ne, List.contains_iff_mem] at hkept
    rcases hkept with he | hs
    · exact (hx.told r hview).imp_right (hl r he)
    · exact .inl hs

/-- A pushed record that has to be removed leaves the stack and the view (R84). -/
theorem HostRecord.Ok.undo (hx : x.Ok) (e : Source) :
    HostRecord.Ok { x with
      ctx := dropRecord x.ctx e
      view := x.view.filter fun r => r.source != e || (dropRecord x.ctx e).stack.contains r } := by
  have hview : (x.view.filter fun r => r.source != e || (dropRecord x.ctx e).stack.contains r) =
      x.view.filter fun r => r.source != e := List.filter_congr fun r _ => by
    by_cases he : r.source = e <;> simp [dropRecord, he]
  rw [hview]
  refine hx.shrink List.filter_sublist (hx.stack.filter _) fun r hr => ?_
  obtain ⟨hr, he⟩ := List.mem_filter.mp hr
  exact (hx.told r hr).imp_left fun hs => List.mem_filter.mpr ⟨hs, he⟩

/-- The context written in other fields, or ATTACHED (R44, R51, R53, R54). -/
theorem HostRecord.Ok.withCtx (hx : x.Ok) {c : HostContext} (hsession : c.session = x.ctx.session ∨ c.session = .attached)
    (hthreshold : c.threshold = x.ctx.threshold) (hstack : c.stack = x.ctx.stack) (hlimit : c.lapseLimit ≠ 0) :
    HostRecord.Ok { x with ctx := c } where
  depth := hx.depth
  sorted := hx.sorted
  stack := hstack ▸ hx.stack
  told := hstack ▸ hx.told
  gone hd := by
    rcases hsession with hs | hs
    · exact hx.gone (hs ▸ hd)
    · exact absurd (hs.symm.trans hd) (by decide)
  offer o ho := by
    obtain ⟨hatt, hroom, hlevel⟩ := hx.offer o ho
    exact ⟨hsession.elim (fun hs => hs.trans hatt) id, hroom, hthreshold ▸ hlevel⟩
  stopped := hx.stopped
  filled := hx.filled
  matched t ht := by
    obtain ⟨hlapse, hopen⟩ := hx.matched t ht
    exact ⟨hlapse, fun he => (hopen he).imp_left fun hatt => hsession.elim (fun hs => hs.trans hatt) id⟩
  limit := hlimit

/-- Another threshold, no offer standing that the new effective level reaches (R48). -/
theorem HostRecord.Ok.threshold (hx : x.Ok) {v : Level} (hv : ∀ o ∈ x.slot.offer, levelOver v x.view < o.level) :
    HostRecord.Ok { x with ctx := { x.ctx with threshold := v } } :=
  { hx with offer := fun o ho => ⟨(hx.offer o ho).1, (hx.offer o ho).2.1, hv o ho⟩ }

/-- A host reset lowers the threshold and the lapse count to 0 (R58). -/
theorem HostRecord.Ok.hostReset (hx : x.Ok) : HostRecord.Ok { x with ctx := { x.ctx with threshold := 0, lapseCount := 0 } } :=
  (hx.threshold fun o ho => (levelOver_mono (Fin.zero_le _) x.view).trans_lt (hx.offer o ho).2.2).withCtx (.inl rfl) rfl rfl hx.limit

/-- The slot emptied and its timer stopped (R71). -/
theorem HostRecord.Ok.emptied (hx : x.Ok) : HostRecord.Ok { x with slot := { offer := none, timer := none } } :=
  { hx with offer := by simp, stopped := fun _ => rfl, filled := by simp }

/-- An offer above the effective level fills the slot of an ATTACHED host with room on its stack (R64, R67). -/
theorem HostRecord.Ok.offered (hx : x.Ok) {o : Offer} (timer : Option Nat) (htake : x.take = none) (hlapse : x.lapse = .none)
    (ho : x.ctx.session = .attached ∧ x.view.length < Config.stackDepth ∧ levelOver x.ctx.threshold x.view < o.level) :
    HostRecord.Ok { x with slot := { offer := some o, timer := timer } } :=
  { hx with
    offer := fun q hq => by
      cases hq
      exact ho
    stopped := by simp
    filled := fun _ => ⟨htake, hlapse⟩ }

/-- A matched TAKE finds room above every record (R77). -/
theorem HostRecord.Ok.matchTake (hx : x.Ok) {o : Offer} (ho : x.slot.offer = some o) :
    HostRecord.Ok { x with slot := { offer := none, timer := none }, take := some { offer := o, cleared := false, ended := false } } := by
  obtain ⟨hatt, hroom, hlevel⟩ := hx.offer o ho
  obtain ⟨-, hlapse⟩ := hx.filled (by simp [ho])
  refine { hx.emptied with filled := by simp, matched := fun t ht => ?_ }
  cases ht
  exact ⟨hlapse, fun _ => ⟨hatt, hroom, fun r hr => (level_le_levelOver hx.sorted hr).trans_lt hlevel⟩⟩

/-- The take is gone without a push (R85). -/
theorem HostRecord.Ok.untaken (hx : x.Ok) : HostRecord.Ok { x with take := none } :=
  { hx with filled := fun ho => ⟨rfl, (hx.filled ho).2⟩, matched := by simp }

/-- The record of a take whose session has not ended is pushed on top (R84). -/
theorem HostRecord.Ok.pushed (hx : x.Ok) {t : TakeClaim} (ht : x.take = some t) (he : t.ended = false) (m : List Handed) :
    HostRecord.Ok { x with
      ctx := { x.ctx with stack := x.ctx.stack ++ [t.offer], lapseCount := 0 }
      view := x.view ++ [t.offer]
      take := none
      handed := x.handed ++ m } := by
  obtain ⟨hatt, hroom, habove⟩ := (hx.matched t ht).2 he
  have hslot : x.slot.offer = none := by
    by_contra hne
    exact absurd (hx.filled hne).1 (by simp [ht])
  exact {
    depth := by simpa using hroom
    sorted := List.pairwise_append.mpr ⟨hx.sorted, List.pairwise_singleton _ _,
      fun r hr q hq => List.mem_singleton.mp hq ▸ habove r hr⟩
    stack := hx.stack.append (.refl _)
    told := fun r hr => by
      rcases List.mem_append.mp hr with hr | hr
      · exact (hx.told r hr).imp (List.mem_append_left _) fun ht => by simp [ht]
      · exact .inl (List.mem_append_right _ hr)
    gone := fun hd => absurd (hatt.symm.trans hd) (by decide)
    offer := by simp [hslot]
    stopped := hx.stopped
    filled := by simp [hslot]
    matched := by simp
    limit := hx.limit }

/-- A report or an answer on its way stands beside neither an offer nor a take (R75). -/
theorem HostRecord.Ok.withLapse (hx : x.Ok) {c : LapseClaim} (hc : c ≠ .none → x.slot.offer = none ∧ x.take = none) :
    HostRecord.Ok { x with lapse := c } := by
  by_cases hn : c = .none
  · subst hn
    exact { hx with filled := fun ho => ⟨(hx.filled ho).1, rfl⟩, matched := fun t ht => ⟨rfl, (hx.matched t ht).2⟩ }
  · obtain ⟨hslot, htake⟩ := hc hn
    exact { hx with filled := by simp [hslot], matched := by simp [htake] }

/-- While a report or an answer is on its way, no offer stands and no take is matched (R75). -/
theorem HostRecord.Ok.lapsing (hx : x.Ok) (hc : x.lapse ≠ .none) : x.slot.offer = none ∧ x.take = none := by
  constructor
  · by_contra hne
    exact hc (hx.filled hne).2
  · by_contra hne
    obtain ⟨t, ht⟩ := Option.ne_none_iff_exists'.mp hne
    exact hc (hx.matched t ht).1

/-- A host becomes LAPSED while its report is taken, with its stack kept (R54). -/
theorem HostRecord.Ok.lapsed (hx : x.Ok) (hc : x.lapse ≠ .none) (n : Fin 16) :
    HostRecord.Ok { x with ctx := { x.ctx with session := .lapsed, lapseCount := n } } := by
  obtain ⟨hslot, htake⟩ := hx.lapsing hc
  exact { hx with gone := fun hd => (by cases hd), offer := by simp [hslot], matched := by simp [htake] }

/-- A session's end leaves no stack, no view, no offer, and a take that is ended (R46, R47). -/
theorem HostRecord.Ok.gaveBack (hx : x.Ok) (l : List Handed) :
    HostRecord.Ok {
      ctx := { x.ctx with session := .detached, stack := [] }
      view := []
      slot := { offer := none, timer := none }
      take := x.take.map fun t => { t with ended := true }
      lapse := if x.lapse = .reported then .overtaken else x.lapse
      handed := l } where
  depth := Nat.zero_le _
  sorted := .nil
  stack := .refl _
  told := by simp
  gone _ := rfl
  offer := by simp
  stopped _ := rfl
  filled := by simp
  matched t ht := by
    obtain ⟨u, hu, rfl⟩ := Option.map_eq_some_iff.mp ht
    exact ⟨by simp [(hx.matched u hu).1], fun he => by simp at he⟩
  limit := hx.limit

/-- CLEAR_ENTRY empties the slot or leaves it, and marks a take and a hold (R20, R84). -/
theorem HostRecord.Ok.cleared (hx : x.Ok) (e : Source) {mark : TakeClaim → TakeClaim}
    (hmark : ∀ t, (mark t).offer = t.offer ∧ (mark t).ended = t.ended)
    (hl : ∀ r, removalIn x.handed r = true → removalIn l r = true) :
    HostRecord.Ok { x with slot := clearSlot e x.slot, take := x.take.map mark, handed := l } := by
  have hslot : HostRecord.Ok { x with slot := clearSlot e x.slot } := by
    unfold clearSlot
    split
    · exact hx.emptied
    · exact hx
  refine { hslot.handed hl with filled := fun ho => ?_, matched := fun t ht => ?_ }
  · obtain ⟨htake, hlapse⟩ := hslot.filled ho
    have htake : x.take = none := htake
    exact ⟨by simp [htake], hlapse⟩
  · obtain ⟨u, hu, rfl⟩ := Option.map_eq_some_iff.mp ht
    obtain ⟨hoffer, hended⟩ := hmark u
    rw [hoffer, hended]
    exact hslot.matched u hu

end

end Sys2Proof.Machine
end

section
/-! Eligibility (R64), and the commands that empty a slot or fill it again: TAKE (R77), the expiry of an offer and the answer to its
lapse report (R75). -/

open Sys2Proof Sys2Proof.Machine

namespace Sys2Proof.Machine

/-! ### Eligibility -/

theorem dropHost_eq_zero (x : HostSet) (h : HostId) : dropHost x h = 0#4 ↔ ∀ k, hasHost x k = true → k = h := by
  revert x h
  decide

/-- The last condition of R64, by the entry's policy. -/
abbrev PolicyAllows (s : State) (e : Source) (h : HostId) : Prop :=
  ((s.cfg e).policy = .directed → hasHost (s.cfg e).targets h = true ∧ (s.prog e).held = 0) ∧
  ((s.cfg e).policy = .any → hasHost (s.cfg e).targets h = true ∧ hasHost ((s.prog e).decline.getD 0) h = false ∧
    (s.prog e).held = 0 ∧ ∀ k : HostId, hasHost (s.prog e).offered k = true → k = h) ∧
  ((s.cfg e).policy = .all → hasHost ((s.prog e).owed.getD 0) h = true ∧ hasHost (s.prog e).held h = false)

/-- The five conditions of R64. -/
theorem eligible_iff {s : State} {e : Source} {h : HostId} :
    s.eligible e h = true ↔
      (s.prog e).state = .delivering ∧ s.viewLevel h < (s.cfg e).level ∧ (s.ctx h).session = .attached ∧
      (s.viewOf h).length < Config.stackDepth ∧ PolicyAllows s e h := by
  have hcfg : (s.entry e).cfg = s.cfg e := rfl
  have hprog : (s.entry e).prog = s.prog e := rfl
  unfold State.eligible PolicyAllows
  simp only [hcfg, hprog, Bool.and_eq_true, beq_iff_eq, decide_eq_true_eq, and_assoc]
  cases hp : (s.cfg e).policy with
  | directed => simp
  | any => simp [dropHost_eq_zero, and_assoc]
  | all => simp

/-! ### TAKE -/

section
variable {s : State} {h : HostId} {e : Source} {object : Operand}

/-- A TAKE that the port takes, from a host with a session, is matched against the slot. -/
theorem exec_take (hp : PortTakes s h) (hs : (s.ctx h).session ≠ .detached) (hx : object.toNat = e.val) :
    exec (.take h object) s = .next ((s.taken h).matchTake h e) := by
  have hrun : exec (.take h object) s = .next (takeBody h object (s.taken h)) :=
    request_runs hp (holdsRight_none s h) fun _ => hs
  rw [hrun, takeBody, withIndex_val hx]

/-- A TAKE of the offered source empties the slot and hands the take on, its answer to follow (R77, R105). -/
theorem matchTake_offered {o : Offer} (ho : (s.slot h).offer = some o) (he : o.source = e) :
    s.matchTake h e =
      { s with
        ou := { s.ou with
          slots := put s.ou.slots h { offer := none, timer := none }
          rotation := if o.policy = .any then h else s.ou.rotation }
        claims := { s.claims with takes := put s.claims.takes h (some { offer := o, cleared := false, ended := false }) }
        ports := put s.ports h { s.port h with waiting := some .take } } := by
  unfold State.matchTake
  simp only [ho, if_pos he, beq_iff_eq]
  split <;> rfl

/-- A TAKE of any other source is answered STALE (R77). -/
theorem matchTake_stale (ho : ∀ o ∈ (s.slot h).offer, o.source ≠ e) : s.matchTake h e = s.answer h 4 .stale := by
  unfold State.matchTake
  cases hs : (s.slot h).offer with
  | none => rfl
  | some o => exact if_neg (ho o hs)

end

/-! ### The expiry of an offer -/

section
variable {s : State} {h : HostId} {o : Offer} {due : Nat}

/-- The slot of h emptied at the expiry of its timer, and the lapse report sent; the Timebase stands at the expiry or past it (R75). -/
def State.expired (s : State) (h : HostId) (due : Nat) : State :=
  State.setLapse ({ s with tb := { s.tb with micros := max s.tb.micros due } }.setSlot h { offer := none, timer := none }) h .reported

theorem exec_offerExpiry_stopped (ht : (s.slot h).timer = none) : exec (.offerExpiry h) s = .next s := by
  change execOfferExpiry h s = _
  unfold execOfferExpiry
  rw [ht]
  split
  next _ heq => cases heq
  next => rfl

/-- The expiry of an offer of which the entry knows (R75): under ANY the host declines, and else the offer is taken back. -/
theorem exec_offerExpiry (hslot : s.slot h = { offer := some o, timer := some due })
    (hstate : (s.prog o.source).state = .delivering) (hoff : hasHost (s.prog o.source).offered h = true) :
    exec (.offerExpiry h) s = .next
      (if (s.cfg o.source).policy = .any then (s.expired h due).declineBy o.source h
       else ((s.expired h due).leaveOffered o.source h).offerNews o.source) := by
  change execOfferExpiry h s = _
  have hdeliver : ((s.expired h due).prog o.source).state = .delivering := hstate
  have hoffered : hasHost ((s.expired h due).prog o.source).offered h = true := hoff
  have hexec : execOfferExpiry h s =
      if ((s.expired h due).prog o.source).state = .delivering && hasHost ((s.expired h due).prog o.source).offered h then
        if ((s.expired h due).cfg o.source).policy = .any then .next ((s.expired h due).declineBy o.source h)
        else .next (((s.expired h due).leaveOffered o.source h).offerNews o.source)
      else .next (s.expired h due) := by
    unfold execOfferExpiry
    rw [hslot]
    rfl
  rw [hexec, if_pos (by simp [hdeliver, hoffered])]
  exact (apply_ite Host.Outcome.next _ _ _).symm

/-- A host that declines an ANY entry that no host holds joins its decline set, and leaves it open to others (R102). -/
theorem declineBy_open {e : Source} (hheld : (s.prog e).held = 0)
    (hopen : hostsWithin (s.cfg e).targets (addHost ((s.prog e).decline.getD 0) h) = false) :
    s.declineBy e h = (s.setProg e { s.prog e with
      offered := dropHost (s.prog e).offered h
      decline := some (addHost ((s.prog e).decline.getD 0) h) }).offerNews e := by
  have hdrop : dropHost 0 h = 0 := by simp [dropHost]
  simp only [State.declineBy, State.declinePart, tell, hopen, Bool.false_eq_true, if_false, if_true, hheld, hdrop]

/-- The last target to decline parks the entry, with a PARKED notice (R106). -/
theorem declineBy_parks {e : Source}
    (hcovered : hostsWithin (s.cfg e).targets (addHost ((s.prog e).decline.getD 0) h) = true) :
    s.declineBy e h = (s.setProg e { s.prog e with
      state := .parked
      offered := 0
      held := 0
      decline := some (addHost ((s.prog e).decline.getD 0) h) }).noteOn e (.host h) (deliveryNotice .parked (some e) (some h)) := by
  simp only [State.declineBy, State.declinePart, tell, hcovered, Bool.false_eq_true, if_false, if_true]

/-- A DIRECTED or ANY entry that is offered to a host is held by none (R99). -/
theorem DeliveryLaw.held_of_offered (hd : DeliveryLaw s) {e : Source} (hp : (s.cfg e).policy ≠ .all)
    (ho : hasHost (s.prog e).offered h = true) : (s.prog e).held = 0 := by
  obtain ⟨-, -, -, hparts⟩ := hd
  obtain ⟨⟨hone, -⟩, -⟩ := hparts e
  refine (hone hp).1.resolve_left fun hzero => ?_
  rw [hzero] at ho
  simp [hasHost] at ho

end

/-! ### The answer to the lapse report -/

section
variable {s : State} {h : HostId}

theorem setLapse_apart (s : State) (h : HostId) (l : LapseClaim) : ApartFrom h s (s.setLapse h l) where
  et := rfl
  slot_self := .inl rfl
  slot _ _ := rfl
  waits k hk := by simp [State.choiceWaits, State.setLapse_lapseOf, hk]
  ctx _ _ := rfl
  view _ _ := rfl

/-- While a report or an answer is on its way, no offer stands and no take is matched (R75, R77). -/
theorem HostLaw.lapsing (hl : HostLaw s) (hne : s.lapseOf h ≠ .none) : (s.slot h).offer = none ∧ s.takeOf h = none :=
  (hostLaw_iff.mp hl h).lapsing hne

theorem exec_lapseAnswer_attached (hr : s.lapseOf h = .answered .attached) :
    exec (.lapseAnswer h) s = .next ((s.setLapse h .none).choose h) := by
  change execLapseAnswer h s = _
  simp only [execLapseAnswer, hr]

theorem exec_lapseAnswer_ended {a : Session} (hr : s.lapseOf h = .answered a) (ha : a ≠ .attached) :
    exec (.lapseAnswer h) s = .next (s.setLapse h .none) := by
  change execLapseAnswer h s = _
  cases a with
  | attached => exact absurd rfl ha
  | detached => simp only [execLapseAnswer, hr]
  | lapsed => simp only [execLapseAnswer, hr]

theorem exec_lapseAnswer_other (hr : ∀ a : Session, s.lapseOf h ≠ .answered a) : exec (.lapseAnswer h) s = .next s := by
  change execLapseAnswer h s = _
  unfold execLapseAnswer
  cases hl : s.lapseOf h with
  | answered a => exact absurd hl (hr a)
  | _ => rfl

end

end Sys2Proof.Machine

/-- Settles O30: the five conditions of R64, the last by the cases of the policy. -/
theorem eligibilityIsByPolicy : Obligations.EligibilityIsByPolicy := fun _ _ _ => eligible_iff

/-- Settles O11: the match writes the slot, the take and the rotation pointer, and the port waits for the answer. -/
theorem takeEmptiesTheSlot : Obligations.TakeEmptiesTheSlot := by
  intro s h e object hp hs hx
  refine ⟨fun o ho he => ?_, fun ho => ?_⟩
  · rw [exec_take hp hs hx, matchTake_offered (s := s.taken h) ho he]
    simp [State.taken, State.setPort, State.port]
  · rw [exec_take hp hs hx, matchTake_stale (s := s.taken h) ho, State.taken_answer]

/-- Settles O32: the entry knows of a standing offer, so an expiry takes it back, or declines it for a host of which none holds it. -/
theorem anExpiryEmptiesTheSlot : Obligations.AnExpiryEmptiesTheSlot := by
  intro s h hl
  refine ⟨exec_offerExpiry_stopped, ?_⟩
  intro o due hslot e u p d
  obtain ⟨-, -, hdelivery, -, -⟩ := hl
  have ⟨hcopies, _⟩ := hdelivery
  obtain ⟨hcopy, -⟩ := hcopies h
  obtain ⟨hstate, hoff, -⟩ := hcopy o (by simp [hslot])
  refine ⟨_, exec_offerExpiry hslot hstate hoff, fun hp => ?_, fun hp hopen => ?_, fun hp hcovered => ?_⟩
  · rw [if_neg hp]
    exact offerNews_newsTaken _ e
  · have hheld : (u.prog e).held = 0 := hdelivery.held_of_offered (by rw [hp]; decide) hoff
    rw [if_pos hp, show (s.expired h due).declineBy e h = _ from declineBy_open hheld hopen]
    exact offerNews_newsTaken _ e
  · rw [if_pos hp]
    exact declineBy_parks (s := u) hcovered

/-- Settles O34: no offer stands while an answer is on its way, and its arrival changes nothing of any other host. -/
theorem theLapseAnswerStartsTheChoice : Obligations.TheLapseAnswerStartsTheChoice := by
  intro s h hl
  obtain ⟨hhost, -⟩ := id hl
  refine ⟨exec_lapseAnswer_other, fun hr => ⟨_, exec_lapseAnswer_attached hr, choose_offersOnly _ h, ?_⟩, fun hr => ?_⟩
  · obtain ⟨-, htake⟩ := hhost.lapsing (h := h) (by simp [hr])
    exact hl.choiceFor (setLapse_apart s h .none) (by simp [State.choiceWaits, htake])
  · obtain ⟨a, ha, hne⟩ : ∃ a, s.lapseOf h = .answered a ∧ a ≠ .attached := by
      rcases hr with hr | hr <;> exact ⟨_, hr, by decide⟩
    exact ⟨exec_lapseAnswer_ended ha hne, (hhost.lapsing (h := h) (by simp [ha])).1⟩
end

section
/-! What keeps the laws of the hosts: the offers that R64 allows, the life of an entry, delegated transfers, and the operations on one
host's context, slot and claims. -/

open Sys2Proof Sys2Proof.Machine

namespace Sys2Proof.Machine

/-! ### The law after an update -/

section
variable {s t : State} {h : HostId} {x : HostRecord}

theorem HostLaw.of_host (hl : HostLaw s) (ht : t.host = s.host) : HostLaw t := by
  rw [hostLaw_iff, ht]
  exact hostLaw_iff.mp hl

theorem HostLaw.update (hl : HostLaw s) (ht : t.host = Function.update s.host h x) (hx : (s.host h).Ok → x.Ok) : HostLaw t := by
  rw [hostLaw_iff, ht]
  intro k
  by_cases hk : k = h
  · subst hk
    rw [Function.update_self]
    exact hx (hostLaw_iff.mp hl k)
  · rw [Function.update_of_ne hk]
    exact hostLaw_iff.mp hl k

end

/-! ### Offers -/

section
variable {s t : State} {h : HostId} {e : Source}

theorem placeOffer_handedOf (s : State) (b : Source) (h k : HostId) :
    (s.placeOffer b h).2.handedOf k = if k = h then (s.handedOf h).filter fun x => x != .withdraw b else s.handedOf k := by
  unfold State.placeOffer
  cases (s.slot h).offer <;> simp [State.setHanded_handedOf, State.leaveOffered]

theorem placeOffer_host {b : Source} (hw : s.choiceWaits h = false) (hlo : ∀ o ∈ (s.slot h).offer, o.level < (s.cfg b).level) :
    (s.placeOffer b h).2.host = Function.update s.host h
      { s.host h with slot := s.filled h b, handed := (s.handedOf h).filter fun x => x != .withdraw b } := by
  have hrest : ∀ k, (s.placeOffer b h).2.host k =
      { s.host k with slot := (s.placeOffer b h).2.slot k, handed := (s.placeOffer b h).2.handedOf k } := fun k =>
    congrArg (fun u : State => u.host k) (OffersOnly.placeOffer hw hlo).1
  refine host_eq_update s h ?_ fun k hk => ?_
  · rw [hrest, placeOffer_slot, placeOffer_handedOf, if_pos rfl, if_pos rfl]
  · rw [hrest, placeOffer_slot, placeOffer_handedOf, if_neg hk, if_neg hk]
    rfl

theorem removalIn_filter_withdraw (l : List Handed) (b : Source) (r : StackRecord) :
    removalIn (l.filter fun x => x != .withdraw b) r = removalIn l r := by
  unfold removalIn
  rw [List.any_filter]
  congr 1
  funext x
  cases x <;> simp

/-- Every offer that a host wants keeps the laws: R64 is what R65 asks of a standing offer. -/
theorem hostLaw_keptByOffers : KeptByOffers HostLaw := fun s d b w hwant hw hl => by
  obtain ⟨-, helig, -, hlo, -⟩ := wanted_some hwant
  obtain ⟨-, hlevel, hatt, hroom, -⟩ := eligible_iff.mp helig
  obtain ⟨htake, hlapse⟩ : s.takeOf w = none ∧ s.lapseOf w = .none := by simpa [State.choiceWaits] using hw
  refine hl.update (placeOffer_host hw hlo) fun hx => ?_
  rw [filled_eq]
  exact (hx.offered (o := s.offerOf b) _ htake hlapse ⟨hatt, hroom, hlevel⟩).handed fun r hr =>
    (removalIn_filter_withdraw _ b r).trans hr

theorem HostLaw.choose (hl : HostLaw s) (h : HostId) : HostLaw (s.choose h) := hostLaw_keptByOffers.choose s h hl

theorem HostLaw.offerNews (hl : HostLaw s) (e : Source) : HostLaw (s.offerNews e) := by
  rw [offerNews_eq]
  exact hostLaw_keptByOffers.newsLoop _ _ s hl

theorem HostLaw.chooseEach (hl : HostLaw s) (hs : List HostId) : HostLaw (s.chooseEach hs) := by
  obtain ⟨l, n, heq, -⟩ := chooseEach_eq s hs
  rw [heq]
  exact hostLaw_keptByOffers.chooseAll l _ (hl.of_host rfl)

/-! ### The life of an entry -/

theorem EventOf.host (g : EventOf e s t) : t.host = s.host := by
  rw [g.rest]
  rfl

theorem HostLaw.tell (hl : HostLaw s) {x : State × Bool} (hx : x.1.host = s.host) (e : Source) : HostLaw (tell e x) := by
  unfold Machine.tell
  split
  · exact (hl.of_host hx).offerNews e
  · exact hl.of_host hx

theorem HostLaw.latchAndGo (hl : HostLaw s) (e : Source) : HostLaw (s.latchAndGo e) :=
  hl.tell (latchAndGoPart_part True s e).1.host e

theorem HostLaw.leaveLatched (hl : HostLaw s) (e : Source) : HostLaw (s.leaveLatched e) :=
  hl.tell (leaveLatchedPart_part s e).1.host e

theorem HostLaw.complete (hl : HostLaw s) (e : Source) : HostLaw (s.complete e) := hl.tell (completePart_part s e).1.host e

theorem HostLaw.enterDelivering (hl : HostLaw s) (e : Source) (o : Outcome) : HostLaw (s.enterDelivering e o) :=
  hl.tell (deliver_part 1 o s).1.host e

theorem merge_eventOf (s : State) (e : Source) : EventOf e s (s.merge e) := by
  unfold State.merge
  simp only
  split_ifs
  · exact .setProg s e _
  · exact .refl e s
  · exact (EventOf.setProg s e _).trans (noteOn_eventOf _ e _ _)
  · exact .setProg s e _

theorem HostLaw.arrive (hl : HostLaw s) (e : Source) : HostLaw (s.arrive e) := by
  unfold State.arrive
  split
  · exact hl.latchAndGo e
  · exact hl.of_host (merge_eventOf s e).host

theorem HostLaw.assertLevel (hl : HostLaw s) (e : Source) : HostLaw (s.assertLevel e) := by
  unfold State.assertLevel
  split
  · exact hl.latchAndGo e
  · exact hl

theorem HostLaw.deassertLevel (hl : HostLaw s) (e : Source) : HostLaw (s.deassertLevel e) := by
  unfold State.deassertLevel
  simp only
  split_ifs
  · refine HostLaw.leaveLatched ?_ e
    exact hl.of_host rfl
  · exact hl.of_host rfl
  · exact hl

theorem HostLaw.judgeLine (hl : HostLaw s) (e : Source) (high : Bool) : HostLaw (s.judgeLine e high) := by
  unfold State.judgeLine
  cases (s.cfg e).kind with
  | rising => cases high <;> [exact hl; exact hl.arrive e]
  | falling => cases high <;> [exact hl.arrive e; exact hl]
  | both => exact hl.arrive e
  | levelHigh => cases high <;> [exact hl.deassertLevel e; exact hl.assertLevel e]
  | levelLow => cases high <;> [exact hl.assertLevel e; exact hl.deassertLevel e]
  | posted => exact hl
  | notice => exact hl

theorem HostLaw.declineBy (hl : HostLaw s) (e : Source) (h : HostId) : HostLaw (s.declineBy e h) :=
  hl.tell (declinePart_eventOf s e h).host e

theorem HostLaw.releaseAt (hl : HostLaw s) (e : Source) (h : HostId) : HostLaw (s.releaseAt e h) :=
  hl.tell (releasePart_eventOf s e h false).host e

theorem HostLaw.departAt (hl : HostLaw s) (e : Source) (h : HostId) : HostLaw (s.departAt e h) := by
  unfold State.departAt
  split
  · exact hl.tell (skipPart_eventOf s e h).host e
  · exact hl

theorem HostLaw.withdrawAt (hl : HostLaw s) (e : Source) (h : HostId) : HostLaw (s.withdrawAt e h) := by
  unfold State.withdrawAt
  split
  · refine HostLaw.offerNews ?_ e
    exact hl.of_host rfl
  · exact hl

theorem HostLaw.endRunAt (hl : HostLaw s) (e : Source) (o : Outcome) : HostLaw (s.endRunAt e o) := by
  refine HostLaw.enterDelivering ?_ e o
  exact hl.of_host rfl

theorem HostLaw.succeedAt (hl : HostLaw s) (e : Source) : HostLaw (s.succeedAt e) := by
  unfold State.succeedAt
  simp only
  have hcounted : HostLaw (s.setEntry e { s.entry e with
      bind := countRun (s.entry e).bind (s.entry e).prog.disarmPending
      prog := { (s.entry e).prog with disarmPending := false } }) := hl.of_host rfl
  split
  · exact hcounted.enterDelivering e .ran
  · exact hcounted.enterDelivering e .ranLast
  · exact hcounted.enterDelivering e .ranLast
  · exact hcounted.complete e
  · exact hcounted.complete e

end

/-! ### Delegated transfers -/

section
variable (s : State) (c : ChannelId) (d : DescId) (e : Source)

@[simp] theorem failRun_host (k : NoticeKind) (o : Option HostId) (a : Option Addr) : (s.failRun c k o d a).host = s.host := rfl
@[simp] theorem stopForCut_host : (s.stopForCut c).host = s.host := by
  unfold State.stopForCut
  split <;> rfl
@[simp] theorem grantChannel_host : (s.grantChannel c).host = s.host := by
  unfold State.grantChannel
  split <;> rfl
@[simp] theorem arriveAt_host : (s.arriveAt c d).host = s.host := by
  unfold State.arriveAt
  simp only
  split_ifs <;> simp
@[simp] theorem grantPort_host : (s.grantPort c).host = s.host := by
  unfold State.grantPort
  split <;> rfl
@[simp] theorem nextGrant_host : s.nextGrant.host = s.host := by
  unfold State.nextGrant
  simp only
  split_ifs <;> simp
@[simp] theorem freePort_host : s.freePort.host = s.host := nextGrant_host _
@[simp] theorem failUnit_host (p : Bool) (k : NoticeKind) (a : Addr) : (s.failUnit c d p k a).host = s.host := by
  unfold State.failUnit
  cases p <;> simp
@[simp] theorem boundary_host : (s.boundary c d).host = s.host := by
  unfold State.boundary
  simp only
  split
  · simp
  · split
    · simp
    · cases (s.desc d).link with
      | none => rfl
      | some next => simp only; split <;> rfl
@[simp] theorem endUnit_host : (s.endUnit c d).host = s.host := by
  unfold State.endUnit
  simp only [boundary_host, freePort_host, setChannel_host]
  rfl
@[simp] theorem cutChannel_host : (s.cutChannel c).host = s.host := by
  unfold State.cutChannel
  simp only
  split
  · rfl
  · split <;> simp

end

/-! ### The operations on one host -/

section
variable {s : State} (hl : HostLaw s)
include hl

theorem HostLaw.attachNow (h : HostId) : HostLaw (s.attachNow h) := by
  have hopen : HostLaw (s.opened h) := hl.update (setCtx_host s h _) fun hx => hx.withCtx (.inr rfl) rfl rfl hx.limit
  exact hopen.choose h

theorem HostLaw.resumeAttach (h : HostId) : HostLaw (s.resumeAttach h) := by
  unfold State.resumeAttach
  split
  · have hport : HostLaw (s.setPort h { s.port h with waiting := none }) := hl.of_host rfl
    exact (hport.attachNow h).of_host rfl
  · exact hl

theorem HostLaw.giveBack (h : HostId) : HostLaw (s.giveBack h) := by
  obtain ⟨-, -, -, ⟨hstopped, -⟩, -⟩ := hl h
  rw [giveBack_eq hstopped]
  exact hl.update (gaveBack_host s h _) fun hx => hx.gaveBack _

theorem HostLaw.emptySlot (h : HostId) : HostLaw (s.emptySlot h) := hl.update (setSlot_host s h _) HostRecord.Ok.emptied

theorem HostLaw.hand (h : HostId) (xs : List Handed) : HostLaw (s.hand h xs) :=
  hl.update (setHanded_host s h _) fun hx => hx.handMore xs

/-- With no offer standing that the new effective level reaches, the threshold may be written (R48). -/
theorem HostLaw.thresholdAt {h : HostId} {v : Level} (hv : ∀ o ∈ (s.slot h).offer, (s.thresholdAt h v).viewLevel h < o.level) :
    HostLaw (s.thresholdAt h v) := by
  refine hl.update (setCtx_host s h _) fun hx => hx.threshold fun o ho => ?_
  have hlevel := hv o ho
  rwa [State.viewLevel, State.thresholdAt, State.setCtx_ctx_self] at hlevel

/-- An offer that the new effective level reaches is withdrawn as the threshold is written (R48, R73). -/
theorem HostLaw.thresholdAt_withdrawn (h : HostId) (v : Level) (e : Source) : HostLaw ((s.thresholdAt h v).withdrawn h e) := by
  have hempty : HostLaw ((s.emptySlot h).thresholdAt h v) :=
    (hl.emptySlot h).thresholdAt fun o ho => by simp [State.emptySlot] at ho
  exact hempty.hand h [.withdraw e]

theorem HostLaw.writeThreshold (h : HostId) (v : Level) : HostLaw (s.writeThreshold h v) := by
  by_cases hv : ∀ o ∈ (s.slot h).offer, (s.thresholdAt h v).viewLevel h < o.level
  · rw [writeThreshold_eq hv]
    split
    · exact hl.thresholdAt hv
    · exact (hl.thresholdAt hv).choose h
  · simp only [not_forall, not_lt] at hv
    obtain ⟨o, ho, hle⟩ := hv
    rw [writeThreshold_withdraws ho hle]
    exact (hl.thresholdAt_withdrawn h v o.source).choose h

theorem HostLaw.matchTake (h : HostId) (e : Source) : HostLaw (s.matchTake h e) := by
  by_cases ho : ∀ o ∈ (s.slot h).offer, o.source ≠ e
  · rw [matchTake_stale ho]
    exact hl.of_host rfl
  · simp only [not_forall, not_not] at ho
    obtain ⟨o, ho, he⟩ := ho
    rw [matchTake_offered ho he]
    refine hl.update (h := h) ?_ fun hx => hx.matchTake ho
    exact host_eq_update s h (by simp [State.host, State.ctx, State.viewOf, State.slot, State.takeOf, State.lapseOf, State.handedOf])
      fun k hk => by
        simp [State.host, State.ctx, State.viewOf, State.slot, State.takeOf, State.lapseOf, State.handedOf, look_put_ne _ _ hk]

theorem HostLaw.endService {e : Source} {y : Handed} (hy : ∀ r : StackRecord, r.source = e → removalIn [y] r = true) (h : HostId)
    (code : Operand) : HostLaw (s.endService h code e y) := by
  unfold State.endService
  split
  · refine hl.update (h := h) ?_ fun hx => hx.endService hy
    simp [State.hand, setHanded_host, setCtx_host, State.host]
  · exact hl.of_host rfl

theorem HostLaw.setLapse {h : HostId} {c : LapseClaim} (hc : c ≠ .none → (s.slot h).offer = none ∧ s.takeOf h = none) :
    HostLaw (s.setLapse h c) :=
  hl.update (setLapse_host s h c) fun hx => hx.withLapse hc

end

end Sys2Proof.Machine
end

section
/-! Every step keeps the laws of the hosts (R47, R63, R65, R75, R77, R82): a command writes the records of its own host by the rules of
such a record, and leaves every other record as it is, but for the offers that R64 allows. -/

open Sys2Proof Sys2Proof.Machine

namespace Sys2Proof.Machine

/-! ### CLEAR_ENTRY and the other requests on entries -/

section
variable {s : State}

/-- The take as CLEAR_ENTRY of e marks it (R84, log 7). -/
def TakeClaim.marked (e : Source) (x : TakeClaim) : TakeClaim := if x.offer.source = e then { x with cleared := true } else x

/-- The claim as CLEAR_ENTRY of e marks it (R84, log 7). -/
def Handed.marked (e : Source) : Handed → Handed
  | .hold f c => .hold f (c || f == e)
  | x => x

theorem abandoned_host (s : State) (e : Source) (k : HostId) : (s.abandoned e).host k =
    { s.host k with
      slot := clearSlot e (s.slot k)
      take := (s.takeOf k).map (TakeClaim.marked e)
      handed := (s.handedOf k).map (Handed.marked e) } := by
  have htake : (s.abandoned e).takeOf k = (s.takeOf k).map (TakeClaim.marked e) := look_mapTable _ _ _
  have hhanded : (s.abandoned e).handedOf k = (s.handedOf k).map (Handed.marked e) := by
    refine (look_mapTable _ _ _).trans (List.map_congr_left fun x _ => ?_)
    cases x <;> rfl
  rw [State.host, abandoned_slot, htake, hhanded]
  rfl

theorem removalIn_marked (l : List Handed) (e : Source) (r : StackRecord) : removalIn (l.map (Handed.marked e)) r = removalIn l r := by
  unfold removalIn
  rw [List.any_map]
  congr 1
  funext x
  cases x <;> rfl

theorem HostLaw.abandoned (hl : HostLaw s) (e : Source) : HostLaw (s.abandoned e) := by
  refine hostLaw_iff.mpr fun k => ?_
  rw [abandoned_host]
  refine (hostLaw_iff.mp hl k).cleared e (fun t => ?_) fun r hr => (removalIn_marked _ e r).trans hr
  unfold TakeClaim.marked
  split <;> exact ⟨rfl, rfl⟩

theorem HostLaw.clearNow (hl : HostLaw s) (e : Source) : HostLaw (s.clearNow e) := by
  have hchosen := (hl.abandoned e).chooseEach (s.offeredHosts e)
  rw [clearNow_eq]
  simp only
  split
  · exact hchosen.latchAndGo e
  · exact hchosen

theorem HostLaw.writeConfig (hl : HostLaw s) (e : Source) (c : EntryConfig) : HostLaw (s.writeConfig e c) := by
  have hwritten : HostLaw (s.configured e c) := hl.of_host rfl
  rw [writeConfig_eq]
  split
  · exact hwritten.latchAndGo e
  · exact hwritten

theorem HostLaw.enableEntry (hl : HostLaw s) (e : Source) : HostLaw (s.enableEntry e) := by
  have hwritten : HostLaw (s.enabledAs e true) := hl.of_host rfl
  rw [enableEntry_eq]
  split
  · exact hwritten.leaveLatched e
  · exact hwritten

theorem askCut_host (s : State) (h : HostId) (e : Source) : (s.askCut h e).host = s.host := by
  unfold State.askCut
  simp only
  split <;> rfl

theorem HostLaw.takeResult (hl : HostLaw s) (c : ChannelId) {apply : State → Source → State}
    (ha : ∀ (t : State) (e : Source), HostLaw t → HostLaw (apply t e)) : HostLaw (s.takeResult c apply) := by
  have htaken : HostLaw { s with claims := { s.claims with reports := put s.claims.reports c none } } := hl.of_host rfl
  unfold State.takeResult
  simp only
  split
  next => exact hl.of_host rfl
  next e _ =>
    split
    · exact (ha _ e htaken).of_host rfl
    · exact hl.of_host rfl

end

/-! ### The requests -/

section
variable {s : State} {h : HostId} (hl : HostLaw s)
include hl

theorem HostLaw.request {code : Operand} {right : Right} {ns : Bool} {body : State → State}
    (hbody : HostLaw (s.taken h) → HostLaw (body (s.taken h))) : Answers HostLaw (Machine.request h code right ns body s) :=
  request_answers (fun _ => hl.of_host rfl) hl (hbody (hl.of_host rfl))

theorem HostLaw.answer (code : Operand) (r : ResultCode) : HostLaw (s.answer h code r) := hl.of_host rfl

theorem HostLaw.withIndex {n : Nat} {code x : Operand} {body : Fin n → State → State} (hbody : ∀ i, HostLaw (body i s)) :
    HostLaw (Machine.withIndex n h code x body s) :=
  withIndex_cases (P := HostLaw) (hl.answer code .range) hbody

/-- A request whose body writes no host's record. -/
theorem HostLaw.request_host {code : Operand} {right : Right} {ns : Bool} {body : State → State}
    (hbody : (body (s.taken h)).host = s.host) : Answers HostLaw (Machine.request h code right ns body s) :=
  hl.request fun _ => hl.of_host hbody

theorem HostLaw.setContext {c : HostContext} (hsession : c.session = (s.ctx h).session) (hthreshold : c.threshold = (s.ctx h).threshold)
    (hstack : c.stack = (s.ctx h).stack) (hlimit : (s.ctx h).lapseLimit ≠ 0 → c.lapseLimit ≠ 0) : HostLaw (s.setCtx h c) :=
  hl.update (setCtx_host s h c) fun hx => hx.withCtx (.inl hsession) hthreshold hstack (hlimit hx.limit)

end

/-- No request breaks a law of a host. -/
theorem exec_request_hostLaw {c : Instr} {s : State} {h : HostId} (hc : c.port = some h) (hl : HostLaw s) :
    Answers HostLaw (exec c s) := by
  cases c with
  | attach k =>
    refine hl.request fun ht => ?_
    unfold attachBody
    split_ifs
    · exact ht.answer 1 .ok
    · exact ht.of_host rfl
    · exact (ht.attachNow k).answer 1 .ok
  | detach k =>
    refine hl.request fun ht => ?_
    unfold detachBody
    split
    · exact ht.answer 2 .ok
    · exact (ht.giveBack k).answer 2 .ok
  | setThreshold k v => exact hl.request fun ht => ht.withIndex fun v => (ht.writeThreshold k v).answer 3 .ok
  | take k x => exact hl.request fun ht => ht.withIndex fun e => ht.matchTake k e
  | finish k x => exact hl.request fun ht => ht.withIndex fun e => ht.endService (fun r hr => by simp [removalIn, hr]) k 5
  | release k x => exact hl.request fun ht => ht.withIndex fun e => ht.endService (fun r hr => by simp [removalIn, hr]) k 6
  | post k x =>
    refine hl.request fun ht => ht.withIndex fun e => ?_
    split_ifs
    · exact ht.answer 7 .range
    · exact ht.answer 7 .state
    · exact (ht.arrive e).answer 7 .ok
  | readEntry k x => exact hl.request fun ht => ht.withIndex fun e => ht.of_host rfl
  | readDesc k x => exact hl.request fun ht => ht.withIndex fun e => ht.of_host rfl
  | readWindow k x y => exact hl.request fun ht => ht.withIndex fun i => ht.withIndex fun j => ht.of_host rfl
  | readHost k x => exact hl.request fun ht => ht.withIndex fun i => ht.of_host rfl
  | popNotice k =>
    refine hl.request_host ?_
    unfold popNoticeBody
    split
    · rfl
    · simp only
      split <;> rfl
  | readNoticeStatus k => exact hl.request_host rfl
  | writeEntry k x =>
    refine hl.request fun ht => ht.withIndex fun e => ?_
    split
    · exact ht.answer 14 .range
    next c _ =>
      split
      · exact (ht.writeConfig e c).answer 14 .ok
      · exact ht.answer 14 .busy
  | enable k x v =>
    change Answers HostLaw (execEnable k x v s)
    unfold execEnable
    split
    · exact answers_refused _
    · refine hl.request fun ht => ht.withIndex fun e => ?_
      split
      · exact (ht.enableEntry e).answer 15 .ok
      · exact ht.answer 15 .range
  | disable k x => exact hl.request fun ht => ht.withIndex fun e => ht.of_host rfl
  | clearEntry k x =>
    refine hl.request fun ht => ht.withIndex fun e => ?_
    split
    · exact ht.answer 16 .ok
    · exact (ht.clearNow e).answer 16 .ok
    · exact (ht.clearNow e).answer 16 .ok
    · split
      · exact (ht.clearNow e).answer 16 .ok
      · exact ht.answer 16 .busy
    · exact ht.answer 16 .busy
    · exact ht.answer 16 .busy
  | retry k x =>
    refine hl.request fun ht => ht.withIndex fun e => ?_
    split
    · have hreopened : HostLaw ((s.taken k).setProg e { (s.taken k).prog e with state := .delivering, decline := some 0 }) :=
        ht.of_host rfl
      exact (hreopened.offerNews e).answer 17 .ok
    · exact ht.answer 17 .state
  | writeBinding k x =>
    refine hl.request fun ht => ht.withIndex fun e => ?_
    split
    · exact ht.answer 18 .range
    · split
      · exact ht.answer 18 .range
      · split <;> exact ht.of_host rfl
  | arm k x =>
    refine hl.request fun ht => ht.withIndex fun e => ?_
    split_ifs <;> exact ht.of_host rfl
  | disarm k x =>
    refine hl.request fun ht => ht.withIndex fun e => ?_
    have hdisarmed : HostLaw (((s.taken k).setBind e { (s.taken k).bind e with armed := false }).unqueue e) := ht.of_host rfl
    split
    · exact ht.of_host (askCut_host _ k e)
    · exact (hdisarmed.enterDelivering e .plain).answer 20 .ok
    · exact ht.of_host rfl
  | writeDesc k x =>
    refine hl.request fun ht => ht.withIndex fun d => ?_
    split
    · exact ht.answer 21 .range
    · split <;> exact ht.of_host rfl
  | writeWindow k x y =>
    refine hl.request fun ht => ht.withIndex fun i => ht.withIndex fun j => ?_
    split <;> exact ht.of_host rfl
  | setHostLimits k x y z =>
    refine hl.request fun ht => ht.withIndex fun i => ht.withIndex fun limit => ?_
    split
    next => exact ht.answer 23 .range
    next hlimit =>
      refine HostLaw.answer ?_ 23 .ok
      exact ht.setContext rfl rfl rfl fun _ => hlimit
  | setRights k x v =>
    refine hl.request fun ht => ht.withIndex fun i => ?_
    split
    · refine HostLaw.answer ?_ 24 .ok
      exact ht.setContext rfl rfl rfl id
    · exact ht.answer 24 .range
  | handOver k x =>
    refine hl.request fun ht => ht.withIndex fun i => ?_
    split_ifs
    · exact ht.answer 25 .ok
    · exact ht.of_host rfl
    · exact ht.answer 25 .state
  | evict k x =>
    refine hl.request fun ht => ht.withIndex fun i => ?_
    have hnoted : HostLaw ((s.taken k).evictNoted i) := ht.of_host rfl
    split
    · simp only
      split
      · exact (hnoted.giveBack i).of_host (answerTake_host _ i .stale)
      · exact (hnoted.giveBack i).answer 26 .ok
    · exact ht.answer 26 .state
  | _ => cases hc

/-! ### The claims -/

section
variable {s t : State} {h : HostId} {p : Handed → Bool} {y : Handed}

theorem takeHanded_host (ht : s.takeHanded h p = some (y, t)) :
    ∃ rest, t.host = Function.update s.host h { s.host h with handed := rest } ∧
      ∀ r, removalIn [y] r = false → removalIn (s.handedOf h) r = true → removalIn rest r = true := by
  obtain ⟨rest, ⟨-, before, after, hall, rfl, -⟩, rfl⟩ := takeHanded_some.mp ht
  refine ⟨_, setHanded_host s h _, fun r hy hr => ?_⟩
  rw [hall, ← List.singleton_append] at hr
  simpa only [removalIn_append, hy, Bool.false_or] using hr

/-- A claim that tells of no removal may be taken. -/
theorem HostLaw.takeHanded (hl : HostLaw s) (ht : s.takeHanded h p = some (y, t)) (hy : ∀ r, removalIn [y] r = false) :
    HostLaw t := by
  obtain ⟨rest, hhost, hrest⟩ := takeHanded_host ht
  exact hl.update hhost fun hx => hx.handed fun r hr => hrest r (hy r) hr

/-- The report of e may be taken as the view gives up the record of e; what the Event Table does at e comes between (R87, R89). -/
theorem HostLaw.tellStack (hl : HostLaw s) (ht : s.takeHanded h p = some (y, t)) {e : Source}
    (hy : ∀ r : StackRecord, r.source ≠ e → removalIn [y] r = false) {x : State × Bool} (hx : x.1.host = t.host) :
    HostLaw (tellStack h e x) := by
  obtain ⟨rest, hhost, hrest⟩ := takeHanded_host ht
  rw [hhost] at hx
  have hrecord : x.1.host h = { s.host h with handed := rest } := by rw [hx, Function.update_self]
  have hview : x.1.viewOf h = s.viewOf h := congrArg HostRecord.view hrecord
  have hctx : x.1.ctx h = s.ctx h := congrArg HostRecord.ctx hrecord
  have htold : HostLaw (x.1.tellRemoval h e) := by
    refine hl.update (h := h) ?_ fun hok => hok.tellRemoval fun r hr => hrest r (hy r hr)
    rw [State.tellRemoval, setView_host, hx, Function.update_self, Function.update_idem, hview, hctx]
    rfl
  exact (htold.tell rfl e).choose h

theorem removalIn_hold (e : Source) (c : Bool) (r : StackRecord) : removalIn [.hold e c] r = false := rfl

theorem takeHanded_passes (ht : s.takeHanded h p = some (y, t)) : p y = true := by
  obtain ⟨rest, ⟨hp, -⟩, -⟩ := takeHanded_some.mp ht
  exact hp

/-- A withdrawal, a release of a whole stack or a departure tells of no removal, so that it may be taken. -/
theorem HostLaw.takeHanded_giveBack (hl : HostLaw s) (ht : s.takeHanded h p = some (y, t))
    (hp : ∀ x, p x = true → x.isGiveBack = true) : HostLaw t := by
  have hy := hp y (takeHanded_passes ht)
  refine hl.takeHanded ht fun r => ?_
  cases y with
  | withdraw => rfl
  | stackRelease => rfl
  | depart => rfl
  | _ => cases hy

end

section
variable {s : State} (hl : HostLaw s) (h : HostId)
include hl

theorem exec_offerExpiry_hostLaw : Answers HostLaw (exec (.offerExpiry h) s) := by
  change Answers HostLaw (execOfferExpiry h s)
  unfold execOfferExpiry
  split
  next o due ho _ =>
    have hexpired : HostLaw (s.expired h due) := by
      have hempty : HostLaw (State.emptySlot { s with tb := { s.tb with micros := max s.tb.micros due } } h) :=
        HostLaw.emptySlot (hl.of_host rfl) h
      obtain ⟨-, -, -, ⟨-, hfilled, -⟩, -⟩ := hl h
      exact hempty.setLapse fun _ => ⟨by simp [State.emptySlot], (hfilled (by simp [ho])).1⟩
    have hback : HostLaw ((s.expired h due).leaveOffered o.source h) := hexpired.of_host rfl
    simp only
    split_ifs
    · exact answers_next (hexpired.declineBy o.source h)
    · exact answers_next (hback.offerNews o.source)
    · exact answers_next hexpired
  next => exact answers_next hl

/-- A lapse is counted, and may make the host LAPSED, while its report is taken (R54). -/
theorem HostLaw.countLapse (hr : s.lapseOf h = .reported) :
    HostLaw (s.countLapse h) ∧ (s.countLapse h).lapseOf h = .reported := by
  obtain ⟨hslot, -⟩ := hl.lapsing (h := h) (by simp [hr])
  by_cases ha : (s.ctx h).session = .attached
  case neg => rw [countLapse_other ha]; exact ⟨hl, hr⟩
  have hcount : s.countLapse h =
      let n := lapseCountUp (s.ctx h).lapseCount
      if ((s.lapsedTimes h n).ctx h).lapseLimit ≤ n then (s.lapsedTimes h n).becomeLapsed h else s.lapsedTimes h n := if_pos ha
  rw [hcount]
  simp only
  split
  · rw [lapsedTimes_becomeLapsed hslot]
    refine ⟨HostLaw.hand ?_ h _, hr⟩
    exact hl.update (setCtx_host s h _) fun hx => hx.lapsed (by simp [State.host, hr]) _
  · exact ⟨hl.setContext rfl rfl rfl id, hr⟩

theorem exec_lapseReport_hostLaw : Answers HostLaw (exec (.lapseReport h) s) := by
  cases hr : s.lapseOf h with
  | reported =>
    rw [exec_lapseReport_reported hr]
    obtain ⟨hcounted, hlapse⟩ := hl.countLapse h hr
    exact answers_next (hcounted.setLapse fun _ => hcounted.lapsing (by simp [hlapse]))
  | overtaken =>
    rw [exec_lapseReport_overtaken hr]
    exact answers_next (hl.setLapse fun _ => hl.lapsing (by simp [hr]))
  | _ =>
    rw [exec_lapseReport_other (by simp [hr]) (by simp [hr])]
    exact answers_next hl

theorem exec_lapseAnswer_hostLaw : Answers HostLaw (exec (.lapseAnswer h) s) := by
  have hnone : HostLaw (s.setLapse h .none) := hl.setLapse fun hne => absurd rfl hne
  change Answers HostLaw (execLapseAnswer h s)
  unfold execLapseAnswer
  split
  · exact answers_next (hnone.choose h)
  · exact answers_next hnone
  · exact answers_next hl

theorem exec_takePush_hostLaw : Answers HostLaw (exec (.takePush h) s) := by
  change Answers HostLaw (execTakePush h s)
  unfold execTakePush
  split
  next => exact answers_next hl
  next t ht =>
    simp only
    split
    next hopen =>
      obtain ⟨-, hended⟩ : (s.ctx h).session = .attached ∧ t.ended = false := by simpa using hopen
      refine answers_next (HostLaw.choose ?_ h)
      refine hl.update (h := h) ?_ fun hx => hx.pushed ht hended [.hold t.offer.source t.cleared]
      simp [State.hand, setHanded_host, setView_host, setCtx_host, setTake_host, State.host]
    next =>
      have huntaken : HostLaw (s.setTake h none) := hl.update (setTake_host s h none) HostRecord.Ok.untaken
      exact answers_next ((huntaken.hand h [.withdraw t.offer.source]).choose h)

theorem exec_takeHold_hostLaw : Answers HostLaw (exec (.takeHold h) s) := by
  change Answers HostLaw (execTakeHold h s)
  unfold execTakeHold
  split
  next e c t ht =>
    have htaken : HostLaw t := hl.takeHanded ht (removalIn_hold e c)
    simp only
    split_ifs
    · exact answers_next (htaken.of_host (by simp))
    · exact answers_next (htaken.of_host (by simp))
    · exact answers_next (htaken.of_host (by simp))
  next => exact answers_next hl

theorem exec_takeUndo_hostLaw : Answers HostLaw (exec (.takeUndo h) s) := by
  change Answers HostLaw (execTakeUndo h s)
  unfold execTakeUndo
  split
  next => exact answers_next hl
  next e _ =>
    have hremoved : HostLaw (((s.setUndo h none).setCtx h (dropRecord (s.ctx h) e)).tellRemoval h e) := by
      refine hl.update (h := h) ?_ fun hx => hx.undo e
      simp [State.tellRemoval, setView_host, setCtx_host, State.host]
    exact answers_next ((hremoved.choose h).of_host (answerTake_host _ h .stale))

theorem exec_finishReport_hostLaw (e : Source) : Answers HostLaw (exec (.finishReport h e) s) := by
  change Answers HostLaw (execFinishReport h e s)
  unfold execFinishReport
  split
  next => exact answers_next hl
  next y t ht =>
    have hy : y = .finish e := by simpa using takeHanded_passes ht
    refine answers_next (hl.tellStack ht (fun r hr => ?_) (finishPart_eventOf t e h).host)
    simp [hy, removalIn, Ne.symm hr]

theorem exec_releaseReport_hostLaw (e : Source) : Answers HostLaw (exec (.releaseReport h e) s) := by
  change Answers HostLaw (execReleaseReport h e s)
  unfold execReleaseReport
  split
  next f lapsed t ht =>
    have hf : f = e := by
      have hpass := takeHanded_passes ht
      simp only [Bool.or_eq_true, beq_iff_eq, Handed.release.injEq] at hpass
      exact hpass.elim And.left And.left
    refine answers_next (hl.tellStack ht (fun r hr => ?_) (releasePart_eventOf t e h lapsed).host)
    simp [hf, removalIn, Ne.symm hr]
  next => exact answers_next hl

theorem exec_stackRelease_hostLaw : Answers HostLaw (exec (.stackRelease h) s) := by
  change Answers HostLaw (execStackRelease h s)
  unfold execStackRelease
  split
  next => exact answers_next hl
  next y t ht =>
    have htaken : HostLaw t := hl.takeHanded_giveBack ht fun y => by cases y <;> simp [Handed.isGiveBack]
    exact answers_next ((htaken.releaseAt y.source h).resumeAttach h)

theorem exec_owedDeparture_hostLaw : Answers HostLaw (exec (.owedDeparture h) s) := by
  change Answers HostLaw (execOwedDeparture h s)
  unfold execOwedDeparture
  split
  next => exact answers_next hl
  next y t ht =>
    have htaken : HostLaw t := hl.takeHanded_giveBack ht fun y => by cases y <;> simp [Handed.isGiveBack]
    exact answers_next ((htaken.departAt y.source h).resumeAttach h)

theorem exec_withdrawalReport_hostLaw : Answers HostLaw (exec (.withdrawalReport h) s) := by
  change Answers HostLaw (execWithdrawalReport h s)
  unfold execWithdrawalReport
  split
  next => exact answers_next hl
  next y t ht =>
    have htaken : HostLaw t := hl.takeHanded_giveBack ht fun y => by cases y <;> simp [Handed.isGiveBack]
    exact answers_next (htaken.withdrawAt y.source h)

end

/-! ### The board and the transfers -/

section
variable {s : State} (hl : HostLaw s)
include hl

theorem HostLaw.resetCtx (h : HostId) : HostLaw (s.setCtx h { s.ctx h with threshold := 0, lapseCount := 0 }) :=
  hl.update (setCtx_host s h _) HostRecord.Ok.hostReset

theorem exec_hostReset_hostLaw (h : HostId) : Answers HostLaw (exec (.hostReset h) s) := by
  have hback : HostLaw (if (s.ctx h).session = .detached then s else s.giveBack h) := by
    split
    · exact hl
    · exact hl.giveBack h
  exact answers_next ((hback.resetCtx h).of_host rfl)

theorem exec_fullResetRelease_hostLaw (evt : BitVec 48) (clksel supsel : BitVec 2) :
    Answers HostLaw (exec (.fullResetRelease evt clksel supsel) s) := by
  change Answers HostLaw (execFullResetRelease evt clksel supsel s)
  unfold execFullResetRelease
  split
  · exact answers_next (hl.of_host rfl)
  · exact answers_next hl

theorem exec_unknownRequest_hostLaw (h : HostId) (code : Operand) : Answers HostLaw (exec (.unknownRequest h code) s) := by
  change Answers HostLaw (execUnknownRequest h code s)
  unfold execUnknownRequest
  split
  · exact answers_refused _
  · exact hl.request_host rfl

theorem exec_lostRequest_hostLaw (h : HostId) : Answers HostLaw (exec (.lostRequest h) s) := by
  change Answers HostLaw (execLostRequest h s)
  unfold execLostRequest
  split_ifs
  · exact answers_next hl
  · exact answers_next (hl.of_host rfl)
  · exact answers_refused _

theorem exec_registerWrite_hostLaw (h : HostId) (offset : Fin 16) (word : Word) :
    Answers HostLaw (exec (.registerWrite h offset word) s) := by
  change Answers HostLaw (execRegisterWrite h offset word s)
  unfold execRegisterWrite
  split_ifs
  · exact answers_refused _
  · exact answers_next hl
  · exact answers_next (hl.of_host rfl)
  · exact answers_next hl

theorem exec_lineChange_hostLaw (line : LineId) (high : Bool) : Answers HostLaw (exec (.lineChange line high) s) := by
  change Answers HostLaw (execLineChange line high s)
  unfold execLineChange
  split
  · exact answers_next hl
  · refine answers_next (HostLaw.judgeLine ?_ _ high)
    exact hl.of_host rfl

theorem exec_delegationInsert_hostLaw (e : Source) : Answers HostLaw (exec (.delegationInsert e) s) := by
  change Answers HostLaw (execDelegationInsert e s)
  unfold execDelegationInsert
  simp only
  split_ifs
  · exact answers_next (hl.of_host (grantChannel_host _ _))
  · exact answers_next (hl.of_host (grantChannel_host _ _))
  · exact answers_next (hl.of_host rfl)
  · exact answers_next hl

theorem exec_channelRelease_hostLaw (c : ChannelId) : Answers HostLaw (exec (.channelRelease c) s) := by
  change Answers HostLaw (execChannelRelease c s)
  unfold execChannelRelease
  split
  · exact answers_next hl
  · exact answers_next (hl.of_host (grantChannel_host _ c))

theorem exec_descriptorArrival_hostLaw (c : ChannelId) : Answers HostLaw (exec (.descriptorArrival c) s) := by
  change Answers HostLaw (execDescriptorArrival c s)
  unfold execDescriptorArrival
  split
  · exact answers_next (hl.of_host (arriveAt_host s c _))
  · exact answers_next (hl.of_host (arriveAt_host s c _))
  · exact answers_next hl

theorem exec_unitCheck_hostLaw (c : ChannelId) : Answers HostLaw (exec (.unitCheck c) s) := by
  change Answers HostLaw (execUnitCheck c s)
  unfold execUnitCheck
  simp only
  split
  · split_ifs
    · exact answers_next (hl.of_host (failUnit_host s c _ _ _ _))
    · exact answers_next (hl.of_host (failUnit_host s c _ _ _ _))
    · exact answers_next (hl.of_host (stopForCut_host s c))
    · exact answers_next (hl.of_host rfl)
  · exact answers_next hl

theorem exec_memoryResponse_hostLaw (tag : BitVec 4) (error : Bool) (data : Word) :
    Answers HostLaw (exec (.memoryResponse tag error data) s) := by
  change Answers HostLaw (execMemoryResponse tag error data s)
  unfold execMemoryResponse
  split
  · split
    · exact answers_next hl
    · simp only
      split_ifs
      · exact answers_next hl
      · exact answers_next (hl.of_host (failUnit_host s _ _ _ _ _))
      · exact answers_next (hl.of_host (endUnit_host s _ _))
      · exact answers_next (hl.of_host rfl)
  · exact answers_next hl

theorem exec_memoryTimeout_hostLaw : Answers HostLaw (exec .memoryTimeout s) := by
  change Answers HostLaw (execMemoryTimeout s)
  unfold execMemoryTimeout
  split
  · split
    · exact answers_next hl
    · exact answers_next (hl.of_host (failUnit_host _ _ _ _ _ _))
  · exact answers_next hl

theorem exec_writeRecord_hostLaw (c : ChannelId) : Answers HostLaw (exec (.writeRecord c) s) := by
  change Answers HostLaw (execWriteRecord c s)
  unfold execWriteRecord
  split
  · exact answers_next hl
  · simp only
    split <;> exact answers_next (hl.of_host rfl)

theorem exec_cutRequest_hostLaw (e : Source) : Answers HostLaw (exec (.cutRequest e) s) := by
  change Answers HostLaw (execCutRequest e s)
  unfold execCutRequest
  split
  · exact answers_next hl
  · simp only
    split_ifs
    · exact answers_next (hl.of_host rfl)
    · exact answers_next (hl.of_host (cutChannel_host _ 0))
    · exact answers_next (hl.of_host (cutChannel_host _ 1))
    · exact answers_next (hl.of_host rfl)

theorem exec_runSuccess_hostLaw (c : ChannelId) : Answers HostLaw (exec (.runSuccess c) s) := by
  change Answers HostLaw (execRunSuccess c s)
  unfold execRunSuccess
  split
  · exact answers_next (hl.takeResult c fun t e ht => ht.succeedAt e)
  · exact answers_next hl

theorem exec_runFailure_hostLaw (c : ChannelId) : Answers HostLaw (exec (.runFailure c) s) := by
  change Answers HostLaw (execRunFailure c s)
  unfold execRunFailure
  split
  · exact answers_next (hl.takeResult c fun t e ht => ht.endRunAt e .failed)
  · exact answers_next hl

theorem exec_runCut_hostLaw (c : ChannelId) : Answers HostLaw (exec (.runCut c) s) := by
  change Answers HostLaw (execRunCut c s)
  unfold execRunCut
  split
  · exact answers_next (hl.takeResult c fun t e ht => ht.endRunAt e .cut)
  · exact answers_next hl

theorem exec_noticeAppend_hostLaw (o : Origin) : Answers HostLaw (exec (.noticeAppend o) s) := by
  change Answers HostLaw (execNoticeAppend o s)
  unfold execNoticeAppend
  split
  · exact answers_next hl
  · refine answers_next (hl.of_host ?_)
    exact (takeAppend_eventOf 0 _ _).host

theorem exec_noticeLevelChange_hostLaw : Answers HostLaw (exec .noticeLevelChange s) := by
  change Answers HostLaw (execNoticeLevelChange s)
  unfold execNoticeLevelChange
  split
  · exact answers_next hl
  next rest _ =>
    have htaken : HostLaw { s with claims := { s.claims with levels := rest } } := hl.of_host rfl
    simp only
    split
    · exact answers_next (htaken.assertLevel 63)
    · exact answers_next (htaken.deassertLevel 63)

/-- No command breaks a law of a host. -/
theorem exec_hostLaw (c : Instr) : Answers HostLaw (exec c s) := by
  cases hport : c.port with
  | some k => exact exec_request_hostLaw hport hl
  | none =>
    cases c with
    | unknownRequest k code => exact exec_unknownRequest_hostLaw hl k code
    | lostRequest k => exact exec_lostRequest_hostLaw hl k
    | registerWrite k offset word => exact exec_registerWrite_hostLaw hl k offset word
    | lineChange line high => exact exec_lineChange_hostLaw hl line high
    | hostReset k => exact exec_hostReset_hostLaw hl k
    | hostResetRelease k => exact answers_next (hl.of_host rfl)
    | fullReset => exact answers_next (reset_hostLaw.of_host rfl)
    | fullResetRelease evt clksel supsel => exact exec_fullResetRelease_hostLaw hl evt clksel supsel
    | offerExpiry k => exact exec_offerExpiry_hostLaw hl k
    | lapseReport k => exact exec_lapseReport_hostLaw hl k
    | lapseAnswer k => exact exec_lapseAnswer_hostLaw hl k
    | takePush k => exact exec_takePush_hostLaw hl k
    | takeHold k => exact exec_takeHold_hostLaw hl k
    | takeUndo k => exact exec_takeUndo_hostLaw hl k
    | finishReport k e => exact exec_finishReport_hostLaw hl k e
    | releaseReport k e => exact exec_releaseReport_hostLaw hl k e
    | stackRelease k => exact exec_stackRelease_hostLaw hl k
    | owedDeparture k => exact exec_owedDeparture_hostLaw hl k
    | withdrawalReport k => exact exec_withdrawalReport_hostLaw hl k
    | delegationInsert e => exact exec_delegationInsert_hostLaw hl e
    | channelRelease c => exact exec_channelRelease_hostLaw hl c
    | descriptorArrival c => exact exec_descriptorArrival_hostLaw hl c
    | unitCheck c => exact exec_unitCheck_hostLaw hl c
    | memoryGrant => exact answers_next (hl.of_host (nextGrant_host s))
    | memoryResponse tag error data => exact exec_memoryResponse_hostLaw hl tag error data
    | memoryTimeout => exact exec_memoryTimeout_hostLaw hl
    | writeRecord c => exact exec_writeRecord_hostLaw hl c
    | cutRequest e => exact exec_cutRequest_hostLaw hl e
    | runSuccess c => exact exec_runSuccess_hostLaw hl c
    | runFailure c => exact exec_runFailure_hostLaw hl c
    | runCut c => exact exec_runCut_hostLaw hl c
    | noticeAppend o => exact exec_noticeAppend_hostLaw hl o
    | noticeLevelChange => exact exec_noticeLevelChange_hostLaw hl
    | _ => cases hport

end

end Sys2Proof.Machine

/-- Settles O53: a step is a command on the state without it, or a microsecond that no record of a host shows. -/
theorem everyStepKeepsTheHostLaw : Obligations.EveryStepKeepsTheHostLaw := by
  intro s t hl hstep
  obtain ⟨hhost, -⟩ := hl
  unfold step at hstep
  split at hstep
  next =>
    cases hstep
    exact hhost.of_host rfl
  next c rest _ =>
    have hrest : HostLaw { s with pending := rest } := hhost.of_host rfl
    exact exec_hostLaw hrest c t hstep
end

section
/-! FINISH and RELEASE at the port (R86, R89), and what becomes of a matched TAKE: the push, the hold and the removal of a record whose
entry was cleared first (R84, R85). -/

open Sys2Proof Sys2Proof.Machine

namespace Sys2Proof.Machine

/-! ### FINISH and RELEASE -/

theorem holdsRecord_iff {c : HostContext} {e : Source} : holdsRecord c e = true ↔ ∃ r ∈ c.stack, r.source = e := by
  simp [holdsRecord]

theorem holdsRecord_eq_false {c : HostContext} {e : Source} : holdsRecord c e = false ↔ ∀ r ∈ c.stack, r.source ≠ e := by
  simp [holdsRecord]

/-- The record of e gone from the stack of h, and the report of it handed on (R86, R89). -/
def State.served (s : State) (h : HostId) (e : Source) (x : Handed) : State :=
  (s.setCtx h (dropRecord (s.ctx h) e)).setHanded h (s.handedOf h ++ [x])

section
variable {s : State} {h : HostId} {e : Source} {object : Operand}

/-- The end of a service, at a port that has taken the request (R86). -/
theorem endService_taken (s : State) (h : HostId) (code : Operand) (e : Source) (x : Handed) :
    (s.taken h).endService h code e x =
      if holdsRecord (s.ctx h) e then (s.served h e x).answered h code .ok else s.answered h code .state := by
  rw [State.endService, State.taken_ctx, State.taken_answer]
  exact if_congr Iff.rfl (State.taken_answer (s.served h e x) h code .ok) rfl

theorem exec_finish (hp : PortTakes s h) (hs : (s.ctx h).session ≠ .detached) (hx : object.toNat = e.val) :
    exec (.finish h object) s = .next
      (if holdsRecord (s.ctx h) e then (s.served h e (.finish e)).answered h 5 .ok else s.answered h 5 .state) := by
  have hrun : exec (.finish h object) s = .next (finishBody h object (s.taken h)) :=
    request_runs hp (holdsRight_none s h) fun _ => hs
  rw [hrun, finishBody, withIndex_val hx, endService_taken]

theorem exec_release (hp : PortTakes s h) (hs : (s.ctx h).session ≠ .detached) (hx : object.toNat = e.val) :
    exec (.release h object) s = .next
      (if holdsRecord (s.ctx h) e then
        (s.served h e (.release e (decide ((s.ctx h).session = .lapsed)))).answered h 6 .ok
       else s.answered h 6 .state) := by
  have hrun : exec (.release h object) s = .next (releaseBody h object (s.taken h)) :=
    request_runs hp (holdsRight_none s h) fun _ => hs
  rw [hrun, releaseBody, withIndex_val hx, endService_taken, State.taken_ctx]

end

/-! ### The push -/

/-- The record of a matched take on top of the stack of h and of the view of it, and the hold handed on (R84). -/
def State.pushed (s : State) (h : HostId) (x : TakeClaim) : State :=
  (((s.setTake h none).setCtx h { s.ctx h with stack := (s.ctx h).stack ++ [x.offer], lapseCount := 0 }).setView h
    (s.viewOf h ++ [x.offer])).setHanded h (s.handedOf h ++ [.hold x.offer.source x.cleared])

section
variable {s : State} {h : HostId} {x : TakeClaim}

theorem exec_takePush_none (ht : s.takeOf h = none) : exec (.takePush h) s = .next s := by
  change execTakePush h s = _
  simp only [execTakePush, ht]

theorem exec_takePush_pushes (ht : s.takeOf h = some x) (ha : (s.ctx h).session = .attached) (he : x.ended = false) :
    exec (.takePush h) s = .next ((s.pushed h x).choose h) := by
  change execTakePush h s = _
  unfold execTakePush
  rw [ht]
  exact if_pos (by simp [ha, he])

theorem exec_takePush_withdraws (ht : s.takeOf h = some x) (hn : (s.ctx h).session ≠ .attached ∨ x.ended = true) :
    exec (.takePush h) s =
      .next (((s.setTake h none).setHanded h (s.handedOf h ++ [.withdraw x.offer.source])).choose h) := by
  change execTakePush h s = _
  unfold execTakePush
  rw [ht]
  exact if_neg (by rcases hn with hn | hn <;> simp [hn])

theorem pushed_level (s : State) (h : HostId) (x : TakeClaim) :
    (s.pushed h x).level h = max (s.ctx h).threshold x.offer.level := by
  simp [State.pushed, State.level, effectiveLevel, levelOver]

theorem pushed_viewLevel (s : State) (h : HostId) (x : TakeClaim) : (s.pushed h x).viewLevel h = (s.pushed h x).level h := by
  rw [pushed_level]
  simp [State.pushed, State.viewLevel, levelOver]

theorem pushed_apart (s : State) (h : HostId) (x : TakeClaim) : ApartFrom h s (s.pushed h x) where
  et := rfl
  slot_self := .inl rfl
  slot _ _ := rfl
  waits k hk := by simp [State.pushed, State.choiceWaits, State.setTake_takeOf, hk]
  ctx k hk := by simp [State.pushed, State.setCtx_ctx, hk]
  view k hk := by simp [State.pushed, State.setView_viewOf, hk]

/-- While a take is on its way no lapse report is, so that its push leaves the choice for the host free (R75, R77). -/
theorem HostLaw.pushed_choiceWaits (hl : HostLaw s) (ht : s.takeOf h = some x) : (s.pushed h x).choiceWaits h = false := by
  obtain ⟨hlapse, -⟩ := (hostLaw_iff.mp hl h).matched x ht
  have hnone : s.lapseOf h = .none := hlapse
  simp [State.pushed, State.choiceWaits, hnone]

end

/-! ### The hold and the removal -/

/-- The answer to a TAKE that waits may be given before a port-blind operation. -/
theorem PortBlind.answerTake {f : State → State} (hf : PortBlind f) (s : State) (h : HostId) (r : ResultCode) :
    (f s).answerTake h r = f (s.answerTake h r) := by
  have hport : (f s).port h = s.port h := congrArg (fun p => look p h) (hf.ports s)
  by_cases hw : (s.port h).waiting = some .take
  · have hset : ∀ p : Port, f (s.setPort h p) = (f s).setPort h p := fun p => by
      have hports : s.setPort h p = s.withPorts (put s.ports h p) := rfl
      rw [hports, hf, State.setPort, hf.ports]
      rfl
    rw [answerTake_waiting hw, answerTake_waiting (hport ▸ hw), hset, hport]
  · rw [answerTake_other hw, answerTake_other (hport ▸ hw)]

/-- A command that ends by answering a TAKE, by whether the TAKE waits at the port (R84). -/
theorem exec_answerTake {s u : State} {h : HostId} {c : Instr} {r : ResultCode} (hexec : exec c s = .next (u.answerTake h r))
    (hport : u.port h = s.port h) :
    ((s.port h).waiting = some .take →
      exec c s = .next (u.setPort h { s.port h with waiting := none, result := r, echo := 4 })) ∧
    ((s.port h).waiting ≠ some .take → exec c s = .next u) := by
  rw [hexec, ← hport]
  exact ⟨fun hw => by rw [answerTake_waiting hw], fun hw => by rw [answerTake_other hw]⟩

/-- The pushed record of e out of the stack of h and out of the view of it, with no release meaning (R84). -/
def State.undone (s : State) (h : HostId) (e : Source) : State :=
  ((s.setUndo h none).setCtx h (dropRecord (s.ctx h) e)).setView h ((s.viewOf h).filter fun r => r.source != e)

section
variable {s t : State} {h : HostId} {e : Source} {cleared : Bool}

theorem exec_takeHold (ht : s.takeHanded h Handed.isHold = some (.hold e cleared, t)) :
    exec (.takeHold h) s = .next
      (if !cleared && (t.prog e).state == .delivering && hasHost (t.prog e).offered h then
        (t.setProg e { t.prog e with
          offered := dropHost (t.prog e).offered h, held := addHost (t.prog e).held h }).answerTake h .ok
       else if holdsRecord (t.ctx h) e then t.setUndo h (some e) else t.answerTake h .stale) := by
  change execTakeHold h s = _
  unfold execTakeHold
  rw [ht]
  exact (apply_ite Host.Outcome.next _ _ _).symm

theorem exec_takeHold_none (ht : s.takeHanded h Handed.isHold = none) : exec (.takeHold h) s = .next s := by
  change execTakeHold h s = _
  unfold execTakeHold
  rw [ht]

/-- A hold of an entry that was cleared first changes nothing at it: the record is to be removed, or is gone (R84, log 7). -/
theorem exec_takeHold_cleared (ht : s.takeHanded h Handed.isHold = some (.hold e true, t)) :
    exec (.takeHold h) s = .next
      (if holdsRecord (t.ctx h) e then t.setUndo h (some e) else t.answerTake h .stale) := exec_takeHold ht

/-- Once the stack has no record of e, none stays in the view that the Offer Unit is told of (R63). -/
theorem tellRemoval_undone (s : State) (h : HostId) (e : Source) :
    ((s.setUndo h none).setCtx h (dropRecord (s.ctx h) e)).tellRemoval h e = s.undone h e := by
  unfold State.tellRemoval State.undone
  refine congrArg _ (List.filter_congr fun r _ => ?_)
  by_cases hr : r.source = e <;> simp [dropRecord, hr]

theorem exec_takeUndo (hu : s.undoOf h = some e) :
    exec (.takeUndo h) s = .next (((s.undone h e).choose h).answerTake h .stale) := by
  change execTakeUndo h s = _
  unfold execTakeUndo
  rw [hu, ← tellRemoval_undone]
  rfl

theorem exec_takeUndo_none (hu : s.undoOf h = none) : exec (.takeUndo h) s = .next s := by
  change execTakeUndo h s = _
  unfold execTakeUndo
  rw [hu]

theorem undone_apart (s : State) (h : HostId) (e : Source) : ApartFrom h s (s.undone h e) where
  et := rfl
  slot_self := .inl rfl
  slot _ _ := rfl
  waits _ _ := rfl
  ctx k hk := by simp [State.undone, State.setCtx_ctx, hk]
  view k hk := by simp [State.undone, State.setView_viewOf, hk]

theorem answerTake_slot (s : State) (h k : HostId) (r : ResultCode) : (s.answerTake h r).slot k = s.slot k := by
  unfold State.answerTake
  split <;> rfl

end

end Sys2Proof.Machine

/-- Settles O12: the request is judged by whether the stack has a record of the source, and its answer stands apart. -/
theorem finishAndReleaseRemoveTheRecord : Obligations.FinishAndReleaseRemoveTheRecord := by
  intro s h e object hp hs hx
  refine ⟨fun hr => ?_, fun hn => ?_⟩
  · rw [exec_finish hp hs hx, exec_release hp hs hx, if_pos (holdsRecord_iff.mpr hr), if_pos (holdsRecord_iff.mpr hr)]
    exact ⟨rfl, rfl⟩
  · rw [exec_finish hp hs hx, exec_release hp hs hx, holdsRecord_eq_false.mpr hn]
    exact ⟨rfl, rfl⟩

/-- Settles O35: the push changes the pushing host alone, and no lapse report makes its choice wait. -/
theorem thePushPutsTheRecordOnTop : Obligations.ThePushPutsTheRecordOnTop := by
  intro s h hl
  have ⟨hhost, _⟩ := hl
  refine ⟨exec_takePush_none, fun x ht => ⟨fun ha he => ?_, fun hn => ?_⟩⟩
  · exact ⟨pushed_level s h x, pushed_viewLevel s h x, _, exec_takePush_pushes ht ha he, choose_offersOnly _ h,
      hl.choiceFor (pushed_apart s h x) (hhost.pushed_choiceWaits ht)⟩
  · exact ⟨_, exec_takePush_withdraws ht hn, choose_offersOnly _ h⟩

/-- Settles O36: the hold is judged by its mark and by the stack; the removal changes its host alone, and the choice does not read the
port, so that the answer may be given before it. -/
theorem theHoldCompletesTheTake : Obligations.TheHoldCompletesTheTake := by
  intro s h
  refine ⟨fun e cleared rest hnext => ?_, fun hnone => exec_takeHold_none (takeHanded_none hnone), fun e hu => ?_,
    exec_takeUndo_none⟩
  · have ht := takeHanded_some.mpr ⟨rest, hnext, rfl⟩
    refine ⟨fun hc hstate hoff => exec_answerTake ?_ rfl, fun hc => ?_⟩
    · rw [exec_takeHold ht]
      exact congrArg _ (if_pos (by simp [hc, hstate, hoff]))
    · subst hc
      refine ⟨fun hr => ?_, fun hn => exec_answerTake (u := s.setHanded h rest) ?_ rfl⟩
      · rw [exec_takeHold_cleared ht, State.setHanded_ctx, if_pos (holdsRecord_iff.mpr hr)]
      · rw [exec_takeHold_cleared ht, State.setHanded_ctx, holdsRecord_eq_false.mpr hn]
        rfl
  · intro u
    have hanswer : ((s.undone h e).choose h).answerTake h .stale = (u.answerTake h .stale).choose h :=
      (choose_portBlind h).answerTake u h .stale
    refine ⟨_, exec_takeUndo hu, fun hw => ?_, fun hw => ?_, fun hlaw hw => ?_⟩
    · rw [hanswer, answerTake_waiting (s := u) hw]
      exact choose_offersOnly _ h
    · rw [hanswer, answerTake_other (s := u) hw]
      exact choose_offersOnly u h
    · have hchoice : ChoiceFor u (u.choose h) h := hlaw.choiceFor (undone_apart s h e) hw
      simp only [ChoiceFor, answerTake_slot]
      exact hchoice
end

section
/-! The reports of FINISH and RELEASE and the releases of a whole-stack give-back at the Event Table, the choices that follow them, and
the ATTACH that the last release lets in (R46, R87, R89, R91). -/

open Sys2Proof Sys2Proof.Machine

namespace Sys2Proof.Machine

/-! ### What the Event Table leaves -/

/-- Host h holds the delivery of entry e (R5). -/
abbrev Holds (s : State) (e : Source) (h : HostId) : Prop := (s.prog e).state = .delivering ∧ hasHost (s.prog e).held h = true

/-- The state part of e with h no longer among its holders. -/
def State.unheldBy (s : State) (e : Source) (h : HostId) : Progress := { s.prog e with held := dropHost (s.prog e).held h }

/-- The hosts that owe e when h no longer does (R87, R111). -/
def State.owedWithout (s : State) (e : Source) (h : HostId) : HostSet := dropHost ((s.prog e).owed.getD 0) h

/-- The decline set of e with h in it (R102). -/
def State.declinedBy (s : State) (e : Source) (h : HostId) : HostSet := addHost ((s.prog e).decline.getD 0) h

/-- What a FINISH by h leaves of entry e (R87): `done` and `news` as in CompletesInto. -/
abbrev FinishesInto (s : State) (e : Source) (h : HostId) (done news : State → Prop) : Prop :=
  (¬Holds s e h → done s) ∧
  (Holds s e h → (s.cfg e).policy ≠ .all → CompletesInto (s.setProg e (s.unheldBy e h)) e done news) ∧
  (Holds s e h → (s.cfg e).policy = .all → s.owedWithout e h = 0 →
    CompletesInto (s.setProg e { s.unheldBy e h with owed := some (s.owedWithout e h) }) e done news) ∧
  (Holds s e h → (s.cfg e).policy = .all → s.owedWithout e h ≠ 0 →
    done (s.setProg e { s.unheldBy e h with owed := some (s.owedWithout e h) }))

/-- What a release by h leaves of entry e (R89, R91, R102, R106, R111): `skips` as in releasePart. -/
abbrev ReleasesInto (s : State) (e : Source) (h : HostId) (skips : Bool) (done news : State → Prop) : Prop :=
  let q := { s.unheldBy e h with offered := dropHost (s.prog e).offered h }
  (¬Holds s e h → done s) ∧
  (Holds s e h →
    ((s.cfg e).policy = .directed → news (s.setProg e (s.unheldBy e h))) ∧
    ((s.cfg e).policy = .any → hostsWithin (s.cfg e).targets (s.declinedBy e h) = false →
      news (s.setProg e { q with decline := some (s.declinedBy e h) })) ∧
    ((s.cfg e).policy = .any → hostsWithin (s.cfg e).targets (s.declinedBy e h) = true →
      done ((s.setProg e { q with state := .parked, offered := 0, held := 0, decline := some (s.declinedBy e h) }).noteOn e
        (.host h) (deliveryNotice .parked (some e) (some h)))) ∧
    ((s.cfg e).policy = .all → skips = false → news (s.setProg e (s.unheldBy e h))) ∧
    ((s.cfg e).policy = .all → skips = true → s.owedWithout e h ≠ 0 → done (s.skipped e h)) ∧
    ((s.cfg e).policy = .all → skips = true → s.owedWithout e h = 0 → CompletesInto (s.skipped e h) e done news))

section
variable {s : State} {e : Source} {h : HostId} {skips : Bool} {P : State × Bool → Prop}

theorem finishPart_other (hn : ¬Holds s e h) : s.finishPart e h = (s, false) := by
  unfold State.finishPart
  exact if_neg (by simpa using hn)

theorem finishPart_holds (hh : Holds s e h) :
    s.finishPart e h =
      if (s.cfg e).policy = .all then
        if s.owedWithout e h = 0 then
          (s.setProg e { s.unheldBy e h with owed := some (s.owedWithout e h) }).completePart e
        else (s.setProg e { s.unheldBy e h with owed := some (s.owedWithout e h) }, false)
      else (s.setProg e (s.unheldBy e h)).completePart e := by
  unfold State.finishPart
  simp only
  rw [if_pos (by simp [hh.1, hh.2])]
  cases (s.cfg e).policy <;> rfl

theorem releasePart_other (hn : ¬Holds s e h) : s.releasePart e h skips = (s, false) := by
  unfold State.releasePart
  exact if_neg (by simpa using hn)

theorem releasePart_holds (hh : Holds s e h) :
    s.releasePart e h skips =
      match (s.cfg e).policy with
      | .directed => (s.setProg e (s.unheldBy e h), true)
      | .any => s.declinePart e h
      | .all => if skips then s.skipPart e h else (s.setProg e (s.unheldBy e h), true) := by
  unfold State.releasePart
  simp only
  rw [if_pos (by simp [hh.1, hh.2])]
  cases (s.cfg e).policy <;> rfl

/-- A DIRECTED entry, and an ALL entry that is still owed, stands unoffered after the release (R89, R91). -/
theorem releasePart_unoffered (hh : Holds s e h)
    (hp : (s.cfg e).policy = .directed ∨ (s.cfg e).policy = .all ∧ skips = false) :
    s.releasePart e h skips = (s.setProg e (s.unheldBy e h), true) := by
  rw [releasePart_holds hh]
  rcases hp with hp | ⟨hp, rfl⟩
  · rw [hp]
  · rw [hp]
    rfl

/-- The holder of an ANY entry declines it, and the entry parks if the decline set covers the targets (R102, R106). -/
theorem releasePart_declines (hh : Holds s e h) (hp : (s.cfg e).policy = .any) :
    s.releasePart e h skips =
      if hostsWithin (s.cfg e).targets (s.declinedBy e h) then
        ((s.setProg e { s.unheldBy e h with
          state := .parked, offered := 0, held := 0, decline := some (s.declinedBy e h) }).noteOn e (.host h)
            (deliveryNotice .parked (some e) (some h)), false)
      else (s.setProg e { s.unheldBy e h with
        offered := dropHost (s.prog e).offered h, decline := some (s.declinedBy e h) }, true) := by
  rw [releasePart_holds hh, hp]
  rfl

/-- The holder of an ALL entry that is LAPSED is skipped (R55, R111). -/
theorem releasePart_skips (hh : Holds s e h) (hp : (s.cfg e).policy = .all) :
    s.releasePart e h true =
      if s.owedWithout e h = 0 then (s.skipped e h).completePart e else (s.skipped e h, false) := by
  rw [releasePart_holds hh, hp]
  exact skipPart_eq s e h

/-- What the Event Table leaves of an entry that a host finishes (R87). -/
theorem finishPart_into (hl : EntryLaw s) (hP : P (s.finishPart e h)) :
    FinishesInto s e h (fun u => P (u, false)) fun u => P (u, true) := by
  refine ⟨fun hn => ?_, fun hh hp => ?_, fun hh hp ho => ?_, fun hh hp ho => ?_⟩
  · rwa [finishPart_other hn] at hP
  · rw [finishPart_holds hh, if_neg hp] at hP
    exact completePart_into (by rw [State.setProg_prog_self]; exact hl.hold_of_delivering hh.1) hP
  · rw [finishPart_holds hh, if_pos hp, if_pos ho] at hP
    exact completePart_into (by rw [State.setProg_prog_self]; exact hl.hold_of_delivering hh.1) hP
  · rwa [finishPart_holds hh, if_pos hp, if_neg ho] at hP

/-- What the Event Table leaves of an entry that a host releases (R89, R91). -/
theorem releasePart_into (hl : EntryLaw s) (hP : P (s.releasePart e h skips)) :
    ReleasesInto s e h skips (fun u => P (u, false)) fun u => P (u, true) := by
  refine ⟨fun hn => by rwa [releasePart_other hn] at hP, fun hh => ⟨fun hp => ?_, fun hp hd => ?_, fun hp hd => ?_,
    fun hp hs => ?_, fun hp hs ho => ?_, fun hp hs ho => ?_⟩⟩
  · rwa [releasePart_unoffered hh (.inl hp)] at hP
  · rwa [releasePart_declines hh hp, hd, if_neg Bool.false_ne_true] at hP
  · rwa [releasePart_declines hh hp, hd, if_pos rfl] at hP
  · rwa [releasePart_unoffered hh (.inr ⟨hp, hs⟩)] at hP
  · rwa [hs, releasePart_skips hh hp, if_neg ho] at hP
  · rw [hs, releasePart_skips hh hp, if_pos ho] at hP
    exact completePart_into (by rw [skipped_prog]; exact hl.hold_of_delivering hh.1) hP

theorem FinishesInto.mono {done done' news news' : State → Prop} (hd : ∀ u, done u → done' u) (hn : ∀ u, news u → news' u)
    (hf : FinishesInto s e h done news) : FinishesInto s e h done' news' := by
  obtain ⟨hother, hone, hlast, hleft⟩ := hf
  exact ⟨fun hh => hd _ (hother hh), fun hh hp => (hone hh hp).mono hd hn, fun hh hp ho => (hlast hh hp ho).mono hd hn,
    fun hh hp ho => hd _ (hleft hh hp ho)⟩

theorem ReleasesInto.mono {done done' news news' : State → Prop} (hd : ∀ u, done u → done' u) (hn : ∀ u, news u → news' u)
    (hr : ReleasesInto s e h skips done news) : ReleasesInto s e h skips done' news' := by
  obtain ⟨hother, hholds⟩ := hr
  refine ⟨fun hh => hd _ (hother hh), fun hh => ?_⟩
  obtain ⟨hdirected, hopen, hparked, howed, hskipped, hlast⟩ := hholds hh
  exact ⟨fun hp => hn _ (hdirected hp), fun hp hx => hn _ (hopen hp hx), fun hp hx => hd _ (hparked hp hx),
    fun hp hs => hn _ (howed hp hs), fun hp hs ho => hd _ (hskipped hp hs ho), fun hp hs ho => (hlast hp hs ho).mono hd hn⟩

end

/-! ### The choices that follow a report -/

section
variable {s t u : State} {e : Source} {h : HostId}

/-- The Offer Unit told in the state u of the stack that h has in the state s (R87 step 2). -/
def State.toldIn (s : State) (h : HostId) (e : Source) (u : State) : State :=
  u.setView h ((s.viewOf h).filter fun r => r.source != e || (s.ctx h).stack.contains r)

/-- From the state s the Event Table's part of a report leaves x, and what the Offer Unit then does leaves t. -/
abbrev ReportsTo (s : State) (h : HostId) (e : Source) (t : State) (x : State × Bool) : Prop :=
  EventOf e s x.1 ∧ tellStack h e x = t

/-- A claim on an entry touches neither the stack nor the view of it. -/
theorem EventOf.tellRemoval (g : EventOf e s u) : u.tellRemoval h e = s.toldIn h e u := by
  rw [State.tellRemoval, g.viewOf, g.ctx]
  rfl

theorem ReportsTo.chooses (hr : ReportsTo s h e t (u, false)) : Chooses (s.toldIn h e u) h t := by
  obtain ⟨hevent, rfl⟩ := hr
  rw [← hevent.tellRemoval]
  exact tellStack_done h e u

theorem ReportsTo.shares (hr : ReportsTo s h e t (u, true)) :
    ∃ x : State, NewsTaken (s.toldIn h e u) e x ∧ NewsShared (s.toldIn h e u) h e x ∧ Chooses x h t := by
  obtain ⟨hevent, rfl⟩ := hr
  rw [← hevent.tellRemoval]
  exact tellStack_news h e u

end

/-! ### The choices that a whole-stack give-back leaves open -/

section
variable {s : State} {e : Source} {h : HostId}

/-- A release in a whole-stack give-back leaves news of every entry that then still stands in delivery (R91). -/
theorem releasePart_part (hh : Holds s e h) : EventPart e (e ∈ s.et.order) s (s.releasePart e h false) := by
  have hnews : ∀ p : Progress, EventPart e (e ∈ s.et.order) s (s.setProg e p, true) := fun p =>
    ⟨.setProg s e p, fun _ => ⟨rfl, id⟩⟩
  cases hp : (s.cfg e).policy with
  | directed =>
    rw [releasePart_unoffered hh (.inl hp)]
    exact hnews _
  | any =>
    rw [releasePart_declines hh hp]
    split
    · exact .of_not_delivering ((EventOf.setProg s e _).trans (noteOn_eventOf _ e _ _)) (by simp)
    · exact hnews _
  | all =>
    rw [releasePart_unoffered hh (.inr ⟨hp, rfl⟩)]
    exact hnews _

/-- After a release of h's whole-stack give-back no choice is open but its own, if none was before. -/
theorem releaseAt_met {E : HostId → Prop} (hl : EntryLaw s) (hlevels : LevelsOk s) (hm : MetOver E s fun k _ => k ≠ h) :
    LevelsOk (s.releaseAt e h) ∧ InOrder (s.releaseAt e h) ∧ MetOver E (s.releaseAt e h) fun k _ => k ≠ h := by
  by_cases hh : Holds s e h
  · have hpart := releasePart_part hh
    exact tell_met (hpart.1.levelsOk hlevels)
      (hpart.1.inOrder hl.inOrder fun hd => (hpart.2 hd).2 (hl.inOrder e hh.1)) (hpart.met hm)
  · have hsame : s.releaseAt e h = s := congrArg (tell e) (releasePart_other hh)
    rw [hsame]
    exact ⟨hlevels, hl.inOrder, hm⟩

/-- A release touches neither a port, nor a claim of a host that keeps its ATTACH or its choice waiting. -/
theorem releaseAt_waits (s : State) (e : Source) (h k : HostId) :
    (s.releaseAt e h).port k = s.port k ∧ (s.releaseAt e h).givingBack k = s.givingBack k ∧
      (s.releaseAt e h).choiceWaits k = s.choiceWaits k := by
  have g := releasePart_eventOf s e h false
  have honly : OffersOnly _ (s.releaseAt e h) := tell_offersOnly e (s.releasePart e h false)
  refine ⟨?_, ?_, ?_⟩
  · rw [honly.1, g.rest]
    rfl
  · rw [honly.givingBack, givingBack_eq, g.handedOf, ← givingBack_eq]
  · rw [honly.choiceWaits, g.choiceWaits]

end

/-! ### The three commands -/

/-- Is it a release of a whole-stack give-back? -/
def Handed.isStackRelease : Handed → Bool
  | .stackRelease _ => true
  | _ => false

section
variable {s t : State} {h : HostId} {e : Source} {x : Handed} {lapsed : Bool}

theorem exec_finishReport (ht : s.takeHanded h (fun x => x == .finish e) = some (x, t)) :
    exec (.finishReport h e) s = .next (tellStack h e (t.finishPart e h)) := by
  change execFinishReport h e s = _
  unfold execFinishReport
  rw [ht]

theorem exec_finishReport_none (ht : s.takeHanded h (fun x => x == .finish e) = none) : exec (.finishReport h e) s = .next s := by
  change execFinishReport h e s = _
  unfold execFinishReport
  rw [ht]

theorem exec_releaseReport
    (ht : s.takeHanded h (fun x => x == .release e false || x == .release e true) = some (.release e lapsed, t)) :
    exec (.releaseReport h e) s = .next (tellStack h e (t.releasePart e h lapsed)) := by
  change execReleaseReport h e s = _
  unfold execReleaseReport
  rw [ht]

theorem exec_releaseReport_none
    (ht : s.takeHanded h (fun x => x == .release e false || x == .release e true) = none) :
    exec (.releaseReport h e) s = .next s := by
  change execReleaseReport h e s = _
  unfold execReleaseReport
  rw [ht]

theorem exec_stackRelease (ht : s.takeHanded h Handed.isStackRelease = some (.stackRelease e, t)) :
    exec (.stackRelease h) s = .next ((t.releaseAt e h).resumeAttach h) := by
  have hexec : exec (.stackRelease h) s = match s.takeHanded h Handed.isStackRelease with
    | none => .next s
    | some (x, t) => .next ((t.releaseAt x.source h).resumeAttach h) := rfl
  rw [hexec, ht]
  rfl

theorem exec_stackRelease_none (ht : s.takeHanded h Handed.isStackRelease = none) : exec (.stackRelease h) s = .next s := by
  have hexec : exec (.stackRelease h) s = match s.takeHanded h Handed.isStackRelease with
    | none => .next s
    | some (x, t) => .next ((t.releaseAt x.source h).resumeAttach h) := rfl
  rw [hexec, ht]

end

end Sys2Proof.Machine

/-- Settles O37: what the Event Table leaves of the entry is stated once for FINISH and once for a release, whatever follows; a report
is followed by the news and the choice with the stack told, a release of a give-back by the news and the ATTACH that waited. -/
theorem finishAndReleaseReportsAreTaken : Obligations.FinishAndReleaseReportsAreTaken := by
  intro s h e hl p q d o holds finished released told chosen shared
  refine ⟨fun rest hnext => ?_, fun hnone => ?_, fun lapsed rest hnext => ?_, fun hnone => ?_, ?_, fun hnone => ?_⟩
  · have hrlaw : EntryLaw (s.setHanded h rest) := hl
    refine ⟨_, exec_finishReport (takeHanded_some.mpr ⟨rest, hnext, rfl⟩), ?_⟩
    exact (finishPart_into (P := ReportsTo (s.setHanded h rest) h e _) hrlaw ⟨finishPart_eventOf _ e h, rfl⟩).mono
      (fun _ => ReportsTo.chooses) fun _ => ReportsTo.shares
  · exact exec_finishReport_none (takeHanded_none fun x hx => by simpa using hnone x hx)
  · have hrlaw : EntryLaw (s.setHanded h rest) := hl
    refine ⟨_, exec_releaseReport (takeHanded_some.mpr ⟨rest, hnext, rfl⟩), ?_⟩
    exact (releasePart_into (P := ReportsTo (s.setHanded h rest) h e _) hrlaw ⟨releasePart_eventOf _ e h lapsed, rfl⟩).mono
      (fun _ => ReportsTo.chooses) fun _ => ReportsTo.shares
  · exact exec_releaseReport_none (takeHanded_none fun x hx => by simpa using hnone x hx)
  · intro rest hnext r
    have hrlaw : EntryLaw r := hl
    have hexec := exec_stackRelease (takeHanded_some.mpr ⟨rest, hnext, rfl⟩)
    have hreleased : released r false (fun v => r.releaseAt e h = v) fun v => NewsTaken v e (r.releaseAt e h) :=
      (releasePart_into (P := fun x => tell e x = r.releaseAt e h) hrlaw rfl).mono (fun _ hx => hx.symm) fun _ => tell_news
    obtain ⟨hport, hback, hwaits⟩ := releaseAt_waits r e h h
    refine ⟨fun hw => ⟨r.releaseAt e h, ?_, hreleased⟩, fun hw hg => ⟨_, r.releaseAt e h, ?_, hreleased,
      resumed_sessionOpens hwaits fun hlaw => ?_⟩⟩
    · rw [hexec, resumeAttach_waits (by rw [hport, hback]; exact hw)]
    · rw [hexec, resumeAttach_opens (by rw [hport]; exact hw) (hback.trans hg)]
    · obtain ⟨-, -, hdelivery, -, -⟩ := hlaw
      exact releaseAt_met hrlaw hdelivery.levelsOk fun k hk f _ he => hdelivery.met k hk f trivial he
  · refine exec_stackRelease_none (takeHanded_none fun x hx => ?_)
    cases x with
    | stackRelease f => exact absurd rfl (hnone _ hx f)
    | _ => rfl
end

section
/-! The ANY arbiter (R103), and RETRY of a PARKED entry (R13, R107). -/

open Sys2Proof Sys2Proof.Machine

namespace Sys2Proof.Machine

/-! ### The arbiter's three steps -/

/-- The candidates with an empty slot, if there are any, and else all (R103). -/
def State.emptiest (s : State) (cs : List HostId) : List HostId :=
  if (cs.filter fun h => (s.slot h).offer.isNone).isEmpty then cs else cs.filter fun h => (s.slot h).offer.isNone

/-- The hosts of lowest effective level in the Offer Unit's view (R63, R103). -/
def State.lowest (s : State) (cs : List HostId) : List HostId :=
  cs.filter fun h => cs.all fun k => decide (s.viewLevel h ≤ s.viewLevel k)

theorem arbitrate_eq (s : State) (cs : List HostId) :
    s.arbitrate cs = (rotationFrom s.ou.rotation).find? fun h => (s.lowest (s.emptiest cs)).contains h := rfl

section
variable {s : State} {cs : List HostId} {h : HostId}

theorem mem_emptiest :
    h ∈ s.emptiest cs ↔ h ∈ cs ∧ ((∃ j ∈ cs, (s.slot j).offer = none) → (s.slot h).offer = none) := by
  unfold State.emptiest
  split
  next hnone =>
    have hfull : ¬∃ j ∈ cs, (s.slot j).offer = none := by simpa using hnone
    simp [hfull]
  next hsome =>
    have hempty : ∃ j ∈ cs, (s.slot j).offer = none := by simpa using hsome
    simp [hempty]

theorem mem_lowest : h ∈ s.lowest cs ↔ h ∈ cs ∧ ∀ k ∈ cs, s.viewLevel h ≤ s.viewLevel k := by
  simp [State.lowest]

theorem emptiest_ne_nil (hne : cs ≠ []) : s.emptiest cs ≠ [] := by
  unfold State.emptiest
  split
  next => exact hne
  next hsome => simpa using hsome

theorem lowest_ne_nil (hne : cs ≠ []) : s.lowest cs ≠ [] := by
  obtain ⟨h, hmem, hmin⟩ := cs.toFinset.exists_min_image s.viewLevel (List.toFinset_nonempty_iff cs |>.mpr hne)
  exact List.ne_nil_of_mem (mem_lowest.mpr ⟨List.mem_toFinset.mp hmem, fun k hk => hmin k (List.mem_toFinset.mpr hk)⟩)

end

theorem mem_rotationFrom (p h : HostId) : h ∈ rotationFrom p := by
  revert p h
  decide

/-- The rotation runs through the hosts by their distance from the host after the pointer (R103). -/
theorem rotationFrom_ordered (p : HostId) : (rotationFrom p).Pairwise fun h k => (h - p - 1).val ≤ (k - p - 1).val := by
  revert p
  decide

/-- The first host of a list in the rotation. -/
theorem find_rotationFrom {p : HostId} {l : List HostId} (hne : l ≠ []) :
    ∃ h ∈ l, (rotationFrom p).find? (fun h => l.contains h) = some h ∧ ∀ k ∈ l, (h - p - 1).val ≤ (k - p - 1).val := by
  obtain ⟨j, hj⟩ := List.exists_mem_of_ne_nil l hne
  obtain ⟨h, hfind⟩ : ∃ h, (rotationFrom p).find? (fun h => l.contains h) = some h :=
    Option.isSome_iff_exists.mp (List.find?_isSome.mpr ⟨j, mem_rotationFrom p j, by simpa using hj⟩)
  obtain ⟨hmem, before, after, hsplit, hbefore⟩ := List.find?_eq_some_iff_append.mp hfind
  refine ⟨h, by simpa using hmem, hfind, fun k hk => ?_⟩
  have hordered := rotationFrom_ordered p
  have hkmem := mem_rotationFrom p k
  rw [hsplit] at hordered hkmem
  rcases List.mem_append.mp hkmem with hkb | hka
  · have hnot := hbefore k hkb
    simp [hk] at hnot
  · obtain ⟨-, hrest, -⟩ := List.pairwise_append.mp hordered
    rcases List.mem_cons.mp hka with rfl | hka
    · exact le_refl _
    · exact (List.pairwise_cons.mp hrest).1 k hka

/-! ### RETRY -/

/-- A PARKED entry open to every target again, its outcome kept (R13, R107). -/
def State.reopened (s : State) (e : Source) : State := s.setProg e { s.prog e with state := .delivering, decline := some 0 }

theorem reopened_portBlind (e : Source) : PortBlind fun s => s.reopened e := fun _ _ => rfl

section
variable {s : State} {h : HostId} {e : Source} {object : Operand}

/-- A RETRY that the port takes, from a host with the right, is judged by the state of the entry (R107). -/
theorem exec_retry (hp : PortTakes s h) (hr : s.holdsRight h .config = true) (hx : object.toNat = e.val) :
    exec (.retry h object) s = .next
      (if (s.prog e).state = .parked then ((s.reopened e).answered h 17 .ok).offerNews e else s.answered h 17 .state) := by
  have hrun : exec (.retry h object) s = .next (retryBody h object (s.taken h)) := request_runs hp hr (by simp)
  have hnews : (((s.taken h).reopened e).offerNews e).answer h 17 .ok = ((s.reopened e).answered h 17 .ok).offerNews e :=
    ((offerNews_portBlind e).comp (reopened_portBlind e)).answer s h 17 .ok
  rw [hrun, retryBody, withIndex_val hx, ← hnews, ← State.taken_answer]
  rfl

end

end Sys2Proof.Machine

/-- Settles O23: the entry is reopened apart from the port, and its news is taken as any other. -/
theorem retryReopensAParkedEntry : Obligations.RetryReopensAParkedEntry := by
  intro s h e object hp hr hx
  refine ⟨fun hparked => ⟨_, ?_, offerNews_newsTaken _ e⟩, fun hother => ?_⟩
  · rw [exec_retry hp hr hx, if_pos hparked]
    rfl
  · rw [exec_retry hp hr hx, if_neg hother]

/-- Settles O31: the arbiter keeps the emptiest of the candidates, of these the lowest, and of these the first in the rotation; RETRY is
the news of the reopened entry. -/
theorem theArbiterNarrowsInThreeSteps : Obligations.TheArbiterNarrowsInThreeSteps := by
  refine ⟨fun s candidates hne => ?_, ?_⟩
  · obtain ⟨h, hlow, hfind, hfirst⟩ :=
      find_rotationFrom (p := s.ou.rotation) (lowest_ne_nil (s := s) (emptiest_ne_nil (s := s) hne))
    obtain ⟨hkept, hleast⟩ := mem_lowest.mp hlow
    refine ⟨h, (arbitrate_eq s candidates).trans hfind, (mem_emptiest.mp hkept).1, mem_emptiest.mp hkept,
      fun k hk => hleast k (mem_emptiest.mpr hk), fun k hk heq => hfirst k ?_⟩
    exact mem_lowest.mpr ⟨mem_emptiest.mpr hk, fun j hj => heq ▸ hleast j hj⟩
  · intro s h w e object hp hr hx hparked hany u hsettled hw
    obtain ⟨-, hnews⟩ := offerNews_newsTaken u e
    obtain ⟨-, hplaced, -⟩ := hnews hsettled
    refine ⟨u.offerNews e, ?_, (hplaced w ?_).1⟩
    · rw [exec_retry hp hr hx, if_pos hparked]
      rfl
    · have hpolicy : (u.cfg e).policy = .any := (State.setProg_cfg s e _ e).symm ▸ hany
      rw [if_pos hpolicy]
      exact hw
end

section
/-! What the laws of deliveries say of one host: its record, the record that a cleared take has to have removed, and the write that
waits at its port. The laws ask of the entries no more than which of them count the host as offered, and what a copy of each is (R62,
R84, R85). -/

open Sys2Proof Sys2Proof.Machine

namespace Sys2Proof.Machine

/-! ### The side of a host -/

/-- What the laws of deliveries are about, of one host. -/
structure HostSide where
  host    : HostRecord
  undo    : Option Source
  waiting : Option BusWait

/-- The side of each host. -/
def State.side (s : State) (h : HostId) : HostSide := { host := s.host h, undo := s.undoOf h, waiting := (s.port h).waiting }

/-- Entry e is in delivery and counts h among the hosts it is offered to. -/
def State.counts (s : State) (h : HostId) (e : Source) : Prop :=
  (s.prog e).state = .delivering ∧ hasHost (s.prog e).offered h = true

/-- The host goes by being offered e: with its standing offer, with a take that CLEAR_ENTRY has not marked, or with such a hold. -/
def HostSide.Relies (x : HostSide) (e : Source) : Prop :=
  (∃ o ∈ x.host.slot.offer, o.source = e) ∨
  (∃ t ∈ x.host.take, t.ended = false ∧ t.cleared = false ∧ t.offer.source = e) ∨ Handed.hold e false ∈ x.host.handed

/-- Where the record of a hold on its way is: on the stack, with the TAKE waiting, or given back (R84, R91). -/
def HostSide.Placed (copy : Source → Offer) (x : HostSide) (e : Source) (cleared : Bool) : Prop :=
  (x.waiting = some .take ∧ ∃ r ∈ x.host.ctx.stack, r.source = e ∧ (cleared = false → r.level = (copy e).level)) ∨
  (x.host.ctx.session = .detached ∧ Handed.stackRelease e ∈ x.host.handed)

/-- The laws of deliveries for one host. -/
structure HostSide.Ok (counts : Source → Prop) (copy : Source → Offer) (x : HostSide) : Prop where
  counted : ∀ e, x.Relies e → counts e ∧ Handed.withdraw e ∉ x.host.handed
  copies : ∀ o ∈ x.host.slot.offer, o = copy o.source
  returns : x.host.handed.any Handed.isReturn = true → x.host.ctx.session ≠ .attached
  alone : ∀ t ∈ x.host.take, x.undo = none ∧ ∀ y ∈ x.host.handed, y.isHold = false
  awaited : ∀ t ∈ x.host.take, t.ended = false →
    x.waiting = some .take ∧ (t.cleared = false → t.offer.level = (copy t.offer.source).level)
  order : x.host.handed.Pairwise fun first later => later.isHold = true → first.isHold = false ∧ first.isReturn = false
  holds : ∀ e c, Handed.hold e c ∈ x.host.handed → x.undo = none ∧ x.Placed copy e c
  undone : ∀ e ∈ x.undo, x.waiting = some .take ∧ holdsRecord x.host.ctx e = true

theorem offeredStill_iff {s : State} {h : HostId} {e : Source} :
    s.offeredStill h e = true ↔ s.counts h e ∧ Handed.withdraw e ∉ s.handedOf h := by
  simp [State.offeredStill, State.counts]

/-- The laws of deliveries are laws of the sides of the hosts. -/
theorem side_ok_iff {s : State} :
    ((∀ h, CopyLaw s h ∧ HandedLaw s h) ∧ ∀ h, TakeLaw s h) ↔ ∀ h, (s.side h).Ok (s.counts h) s.offerOf := by
  rw [← forall_and]
  refine forall_congr' fun h => ⟨?_, fun hx => ⟨⟨fun o ho => ?_, fun o ho => ?_, hx.returns⟩, fun t ht => ?_, hx.order,
    fun y hy hhold => ?_, hx.undone⟩⟩
  · rintro ⟨⟨hcopy, hstanding, hreturns⟩, hpending, horder, hholds, hundone⟩
    refine ⟨fun e he => ?_, fun o ho => (hcopy o ho).2.2, hreturns, fun t ht => ?_, fun t ht hended => ?_, horder,
      fun e c hy => ?_, hundone⟩
    · rcases he with ⟨o, ho, rfl⟩ | ⟨t, ht, hended, hcleared, rfl⟩ | hy
      · exact ⟨⟨(hcopy o ho).1, (hcopy o ho).2.1⟩, hstanding o ho⟩
      · exact offeredStill_iff.mp (((hpending t ht).2.2 hended).2 hcleared).1
      · exact offeredStill_iff.mp ((hholds _ hy rfl).2.1 rfl)
    · exact ⟨(hpending t ht).1, (hpending t ht).2.1⟩
    · exact ⟨((hpending t ht).2.2 hended).1, fun hcleared => (((hpending t ht).2.2 hended).2 hcleared).2⟩
    · exact ⟨(hholds _ hy rfl).1, (hholds _ hy rfl).2.2⟩
  · obtain ⟨⟨hstate, hoff⟩, -⟩ := hx.counted o.source (.inl ⟨o, ho, rfl⟩)
    exact ⟨hstate, hoff, hx.copies o ho⟩
  · exact (hx.counted o.source (.inl ⟨o, ho, rfl⟩)).2
  · refine ⟨(hx.alone t ht).1, (hx.alone t ht).2, fun hended => ⟨(hx.awaited t ht hended).1, fun hcleared => ⟨?_, ?_⟩⟩⟩
    · exact offeredStill_iff.mpr (hx.counted _ (.inr (.inl ⟨t, ht, hended, hcleared, rfl⟩)))
    · exact (hx.awaited t ht hended).2 hcleared
  · cases y with
    | hold e c =>
      refine ⟨(hx.holds e c hy).1, fun hc => ?_, (hx.holds e c hy).2⟩
      have hc : c = false := hc
      subst hc
      exact offeredStill_iff.mpr (hx.counted e (.inr (.inr hy)))
    | _ => cases hhold

/-! ### The rules of a side -/

section
variable {counts counts' : Source → Prop} {copy copy' : Source → Offer} {x : HostSide} {e : Source} {l m : List Handed}

/-- The entries may change as they like where the host does not go by them. -/
theorem HostSide.Ok.entries (hx : x.Ok counts copy) (hkept : ∀ e, x.Relies e → counts' e ∧ copy' e = copy e) : x.Ok counts' copy' :=
  { hx with
    counted := fun e he => ⟨(hkept e he).1, (hx.counted e he).2⟩
    copies := fun o ho => (hx.copies o ho).trans (hkept _ (.inl ⟨o, ho, rfl⟩)).2.symm
    awaited := fun t ht hended => by
      obtain ⟨hwaits, hlevel⟩ := hx.awaited t ht hended
      refine ⟨hwaits, fun hcleared => ?_⟩
      rw [(hkept _ (.inr (.inl ⟨t, ht, hended, hcleared, rfl⟩))).2]
      exact hlevel hcleared
    holds := fun e c hy => by
      obtain ⟨hundo, hplaced⟩ := hx.holds e c hy
      refine ⟨hundo, hplaced.imp_left fun ⟨hwaits, r, hr, hre, hlevel⟩ => ⟨hwaits, r, hr, hre, fun hc => ?_⟩⟩
      subst hc
      rw [(hkept e (.inr (.inr hy))).2]
      exact hlevel rfl }

/-- No record of an uncleared hold is that of the standing offer, which stands above every record (R65, R82). -/
theorem HostSide.Ok.no_hold_of_offer (hx : x.Ok counts copy) (hhost : x.host.Ok) {o : Offer} (ho : o ∈ x.host.slot.offer) :
    Handed.hold o.source false ∉ x.host.handed := fun hy => by
  obtain ⟨hatt, -, hlevel⟩ := hhost.offer o ho
  rcases (hx.holds _ _ hy).2 with ⟨-, r, hr, -, hcopy⟩ | ⟨hdetached, -⟩
  · have hle := level_le_levelOver (v := x.host.ctx.threshold) hhost.sorted (hhost.stack.subset hr)
    rw [hcopy rfl, ← hx.copies o ho] at hle
    exact absurd (hle.trans_lt hlevel) (lt_irrefl _)
  · exact absurd (hatt.symm.trans hdetached) (by decide)

/-- Of an ATTACHED host, every hold is that of a record on the stack, for which the TAKE waits (R84). -/
theorem HostSide.Ok.waits_of_hold (hx : x.Ok counts copy) (hs : x.host.ctx.session ≠ .detached) {c : Bool}
    (hy : Handed.hold e c ∈ x.host.handed) :
    x.waiting = some .take ∧ ∃ r ∈ x.host.ctx.stack, r.source = e ∧ (c = false → r.level = (copy e).level) :=
  (hx.holds e c hy).2.resolve_right fun hd => hs hd.1

theorem isHold_iff {y : Handed} : y.isHold = true ↔ ∃ e c, y = .hold e c := by
  cases y <;> simp [Handed.isHold]

/-- With no TAKE waiting at the port none is on its way but one whose session is over, and no hold of a host that has a session. -/
theorem HostSide.Ok.quiet (hx : x.Ok counts copy) (hw : x.waiting ≠ some .take) :
    (∀ t ∈ x.host.take, t.ended = true) ∧ x.undo = none ∧
      (x.host.ctx.session ≠ .detached → ∀ y ∈ x.host.handed, y.isHold = false) := by
  refine ⟨fun t ht => ?_, ?_, fun hs y hy => ?_⟩
  · by_contra hne
    exact hw (hx.awaited t ht (by simpa using hne)).1
  · by_contra hne
    obtain ⟨e, he⟩ := Option.ne_none_iff_exists'.mp hne
    exact hw (hx.undone e he).1
  · rw [Bool.eq_false_iff]
    intro hhold
    obtain ⟨e, c, rfl⟩ := isHold_iff.mp hhold
    exact hw (hx.waits_of_hold hs hy).1

/-- The slot emptied: the host goes by less (R71). -/
theorem HostSide.Ok.emptied (hx : x.Ok counts copy) :
    HostSide.Ok counts copy { x with host := { x.host with slot := { offer := none, timer := none } } } :=
  { hx with
    counted := fun e he => hx.counted e (he.imp_left fun ⟨o, ho, _⟩ => by cases ho)
    copies := by simp }

/-- An emptied slot leaves the host without the entry of its standing offer. -/
theorem HostSide.Ok.emptied_not_relies (hx : x.Ok counts copy) (hhost : x.host.Ok) {o : Offer} (ho : o ∈ x.host.slot.offer) :
    ¬HostSide.Relies { x with host := { x.host with slot := { offer := none, timer := none } } } o.source := by
  have htake := (hhost.filled fun hn => by rw [hn] at ho; cases ho).1
  rintro (⟨q, hq, -⟩ | ⟨t, ht, -⟩ | hy)
  · cases hq
  · rw [htake] at ht
    cases ht
  · exact hx.no_hold_of_offer hhost ho hy

/-- More claims handed on, none of them a hold: no return of a host that is ATTACHED, no withdrawal of an entry that it goes by. -/
theorem HostSide.Ok.handMore (hx : x.Ok counts copy) (hm : ∀ y ∈ m, y.isHold = false)
    (hreturn : ∀ y ∈ m, y.isReturn = true → x.host.ctx.session ≠ .attached)
    (hwithdraw : ∀ e, Handed.withdraw e ∈ m → ¬x.Relies e) :
    HostSide.Ok counts copy { x with host := { x.host with handed := x.host.handed ++ m } } := by
  have hhold : ∀ e c, Handed.hold e c ∈ x.host.handed ++ m → Handed.hold e c ∈ x.host.handed := fun e c hy =>
    (List.mem_append.mp hy).resolve_right fun hy => by simpa [Handed.isHold] using hm _ hy
  have hrelies : ∀ e, HostSide.Relies { x with host := { x.host with handed := x.host.handed ++ m } } e → x.Relies e :=
    fun e he => he.imp_right (Or.imp_right (hhold e false))
  refine { hx with counted := fun e he => ?_, returns := fun hr => ?_, alone := fun t ht => ?_, order := ?_, holds := fun e c hy => ?_ }
  · obtain ⟨hcounts, hnot⟩ := hx.counted e (hrelies e he)
    exact ⟨hcounts, fun hy => (List.mem_append.mp hy).elim hnot fun hy => hwithdraw e hy (hrelies e he)⟩
  · simp only [List.any_append, Bool.or_eq_true, List.any_eq_true] at hr
    rcases hr with hr | ⟨y, hy, hr⟩
    · exact hx.returns (List.any_eq_true.mpr hr)
    · exact hreturn y hy hr
  · exact ⟨(hx.alone t ht).1, fun y hy => (List.mem_append.mp hy).elim ((hx.alone t ht).2 y) (hm y)⟩
  · refine List.pairwise_append.mpr ⟨hx.order, ?_, fun y _ z hz hhold => absurd hhold (by simp [hm z hz])⟩
    exact List.Pairwise.imp_of_mem (fun _ hz _ hhold => absurd hhold (by simp [hm _ hz]))
      (List.pairwise_of_forall (l := m) fun _ _ => trivial)
  · obtain ⟨hundo, hplaced⟩ := hx.holds e c (hhold e c hy)
    exact ⟨hundo, hplaced.imp_right fun ⟨hd, hr⟩ => ⟨hd, List.mem_append_left _ hr⟩⟩

/-- Fewer claims on their way, with the releases of the holds that are left. -/
theorem HostSide.Ok.handFewer (hx : x.Ok counts copy) (hl : l.Sublist x.host.handed)
    (hrelease : ∀ e c, Handed.hold e c ∈ l → Handed.stackRelease e ∈ x.host.handed → Handed.stackRelease e ∈ l) :
    HostSide.Ok counts copy { x with host := { x.host with handed := l } } where
  counted e he := by
    obtain ⟨hcounts, hnot⟩ := hx.counted e (he.imp_right (Or.imp_right (hl.subset ·)))
    exact ⟨hcounts, fun hy => hnot (hl.subset hy)⟩
  copies := hx.copies
  returns hr := by
    obtain ⟨y, hy, hret⟩ := List.any_eq_true.mp hr
    exact hx.returns (List.any_eq_true.mpr ⟨y, hl.subset hy, hret⟩)
  alone t ht := ⟨(hx.alone t ht).1, fun y hy => (hx.alone t ht).2 y (hl.subset hy)⟩
  awaited := hx.awaited
  order := hx.order.sublist hl
  holds e c hy := by
    obtain ⟨hundo, hplaced⟩ := hx.holds e c (hl.subset hy)
    exact ⟨hundo, hplaced.imp_right fun ⟨hd, hr⟩ => ⟨hd, hrelease e c hy hr⟩⟩
  undone := hx.undone

/-- The claim y is the next one taken from the list, and `l` is what is left (log 2). -/
def NextOf (y : Handed) (handed l : List Handed) : Prop :=
  ∃ before after, handed = before ++ y :: after ∧ l = before ++ after ∧ ∀ z ∈ before, z.before y = false

theorem NextOf.sublist {y : Handed} {handed : List Handed} (hn : NextOf y handed l) : l.Sublist handed := by
  obtain ⟨before, after, rfl, rfl, -⟩ := hn
  exact (List.Sublist.refl before).append (List.sublist_cons_self y after)

theorem NextOf.mem {y : Handed} {handed : List Handed} (hn : NextOf y handed l) : y ∈ handed := by
  obtain ⟨before, after, rfl, -⟩ := hn
  simp

/-- What else is handed is left. -/
theorem NextOf.mem_of_ne {y z : Handed} {handed : List Handed} (hn : NextOf y handed l) (hz : z ∈ handed) (hne : z ≠ y) : z ∈ l := by
  obtain ⟨before, after, rfl, rfl, -⟩ := hn
  simpa [hne] using hz

/-- With a release or a departure, or the one hold, taken next, no other hold is on its way. -/
theorem HostSide.Ok.next_no_hold (hx : x.Ok counts copy) {y : Handed} (hn : NextOf y x.host.handed l)
    (hy : y.isReturn = true ∨ y.isHold = true) : ∀ z ∈ l, z.isHold = false := by
  obtain ⟨before, after, hall, rfl, hbefore⟩ := hn
  have horder := hx.order
  rw [hall] at horder
  obtain ⟨-, hafter, -⟩ := List.pairwise_append.mp horder
  intro z hz
  rw [Bool.eq_false_iff]
  intro hhold
  rcases List.mem_append.mp hz with hz | hz
  · have hnot := hbefore z hz
    simp [Handed.before, hhold] at hnot
  · obtain ⟨hfirst, hreturn⟩ := (List.pairwise_cons.mp hafter).1 z hz hhold
    rcases hy with hy | hy
    · simp [hreturn] at hy
    · simp [hfirst] at hy

/-- The next claim may be taken (R84, R91, log 2). -/
theorem HostSide.Ok.next (hx : x.Ok counts copy) {y : Handed} (hn : NextOf y x.host.handed l) :
    HostSide.Ok counts copy { x with host := { x.host with handed := l } } :=
  hx.handFewer hn.sublist fun e c hy hr => by
    refine hn.mem_of_ne hr fun heq => ?_
    have hno := hx.next_no_hold hn (.inl (by rw [← heq]; rfl)) _ hy
    simp [Handed.isHold] at hno

/-- The host of a release or a departure that is taken next goes by no entry (R45, R46, R54). -/
theorem HostSide.Ok.next_not_relies (hx : x.Ok counts copy) (hhost : x.host.Ok) {y : Handed} (hn : NextOf y x.host.handed l)
    (hy : y.isReturn = true) (e : Source) : ¬HostSide.Relies { x with host := { x.host with handed := l } } e := by
  have hsession := hx.returns (List.any_eq_true.mpr ⟨y, hn.mem, hy⟩)
  rintro (⟨o, ho, -⟩ | ⟨t, ht, hended, -⟩ | hz)
  · exact hsession (hhost.offer o ho).1
  · exact hsession ((hhost.matched t ht).2 hended).1
  · exact absurd (hx.next_no_hold hn (.inl hy) _ hz) (by simp [Handed.isHold])

/-- A TAKE is matched (R77): the take takes the place of the offer. -/
theorem HostSide.Ok.matchTake (hx : x.Ok counts copy) (hhost : x.host.Ok) {o : Offer} (ho : x.host.slot.offer = some o)
    (hw : x.waiting ≠ some .take) :
    HostSide.Ok counts copy
      { x with
        host := { x.host with slot := { offer := none, timer := none }, take := some { offer := o, cleared := false, ended := false } }
        waiting := some .take } := by
  have hatt : x.host.ctx.session ≠ .detached := by rw [(hhost.offer o ho).1]; decide
  obtain ⟨-, hundo, hnohold⟩ := hx.quiet hw
  refine { counted := fun e he => ?_, copies := by simp, returns := hx.returns, alone := fun t _ => ⟨hundo, hnohold hatt⟩,
           awaited := fun t ht _ => ?_, order := hx.order, holds := fun e c hy => ?_, undone := fun e he => ?_ }
  · rcases he with ⟨q, hq, -⟩ | ⟨t, ht, -, -, rfl⟩ | hy
    · cases hq
    · cases ht
      exact hx.counted _ (.inl ⟨o, ho, rfl⟩)
    · exact hx.counted e (.inr (.inr hy))
  · cases ht
    exact ⟨rfl, fun _ => congrArg Offer.level (hx.copies o ho)⟩
  · exact absurd (hnohold hatt _ hy) (by simp [Handed.isHold])
  · rw [hundo] at he
    cases he

/-- A matched take is pushed: the hold takes the place of the take (R84). -/
theorem HostSide.Ok.pushed (hx : x.Ok counts copy) (hhost : x.host.Ok) {t : TakeClaim} (ht : x.host.take = some t)
    (hended : t.ended = false) :
    HostSide.Ok counts copy { x with host := { x.host with
      ctx := { x.host.ctx with stack := x.host.ctx.stack ++ [t.offer], lapseCount := 0 }
      view := x.host.view ++ [t.offer]
      take := none
      handed := x.host.handed ++ [.hold t.offer.source t.cleared] } } := by
  obtain ⟨hundo, hnohold⟩ := hx.alone t ht
  obtain ⟨hwaits, hlevel⟩ := hx.awaited t ht hended
  have hatt := ((hhost.matched t ht).2 hended).1
  have hnoreturn : ∀ y ∈ x.host.handed, y.isReturn = false := fun y hy => by
    rw [Bool.eq_false_iff]
    exact fun hr => hx.returns (List.any_eq_true.mpr ⟨y, hy, hr⟩) hatt
  have hlast : ∀ e c, Handed.hold e c ∈ x.host.handed ++ [.hold t.offer.source t.cleared] →
      e = t.offer.source ∧ c = t.cleared := fun e c hy => by
    rcases List.mem_append.mp hy with hy | hy
    · exact absurd (hnohold _ hy) (by simp [Handed.isHold])
    · simpa using hy
  refine { counted := fun e he => ?_, copies := hx.copies, returns := fun hr => ?_, alone := by simp, awaited := by simp, order := ?_,
           holds := fun e c hy => ?_, undone := fun e he => ?_ }
  · suffices hrelies : x.Relies e by
      obtain ⟨hcounts, hnot⟩ := hx.counted e hrelies
      exact ⟨hcounts, by simpa using hnot⟩
    rcases he with ho | ⟨u, hu, -⟩ | hy
    · exact .inl ho
    · cases hu
    · obtain ⟨rfl, hc⟩ := hlast e false hy
      exact .inr (.inl ⟨t, ht, hended, hc.symm, rfl⟩)
  · refine hx.returns ?_
    simpa [Handed.isReturn] using hr
  · refine List.pairwise_append.mpr ⟨hx.order, List.pairwise_singleton _ _, fun y hy z _ _ => ⟨hnohold y hy, hnoreturn y hy⟩⟩
  · obtain ⟨rfl, rfl⟩ := hlast e c hy
    exact ⟨hundo, .inl ⟨hwaits, t.offer, by simp, rfl, hlevel⟩⟩
  · have he : e ∈ x.undo := he
    rw [hundo] at he
    cases he

/-- A take that is not pushed is withdrawn (R85). -/
theorem HostSide.Ok.untaken (hx : x.Ok counts copy) (hhost : x.host.Ok) {t : TakeClaim} (ht : x.host.take = some t) :
    HostSide.Ok counts copy { x with host := { x.host with take := none, handed := x.host.handed ++ [.withdraw t.offer.source] } } := by
  have hslot : x.host.slot.offer = none := by
    by_contra hne
    exact absurd (hhost.filled hne).1 (by simp [ht])
  have htake : HostSide.Ok counts copy { x with host := { x.host with take := none } } :=
    { hx with
      counted := fun e he => hx.counted e (he.imp_right (Or.imp_left fun ⟨_, hu, _⟩ => by cases hu))
      alone := by simp
      awaited := by simp }
  refine htake.handMore (by simp [Handed.isHold]) (by simp [Handed.isReturn]) fun e _ he => ?_
  rcases he with ⟨o, ho, -⟩ | ⟨u, hu, -⟩ | hy
  · have ho : o ∈ x.host.slot.offer := ho
    rw [hslot] at ho
    cases ho
  · cases hu
  · exact absurd ((hx.alone t ht).2 _ hy) (by simp [Handed.isHold])

/-- An offer of b fills the slot of an ATTACHED host whose choice does not wait; an outstanding withdrawal of b is void (R67, R69, log
6). -/
theorem HostSide.Ok.offered (hx : x.Ok counts copy) (hhost : x.host.Ok) {b : Source} {slot : Slot} (htake : x.host.take = none)
    (hslot : slot.offer = some (copy b)) (hsource : (copy b).source = b) (hcounts : counts' b)
    (hkept : ∀ e, (∀ o ∈ x.host.slot.offer, o.source ≠ e) → counts e → counts' e) :
    HostSide.Ok counts' copy
      { x with host := { x.host with slot := slot, handed := x.host.handed.filter fun y => y != .withdraw b } } := by
  have hother : ∀ y, y ≠ .withdraw b → y ∈ x.host.handed → y ∈ x.host.handed.filter fun y => y != .withdraw b := fun y hy hm =>
    List.mem_filter.mpr ⟨hm, by simpa using hy⟩
  have hsub : (x.host.handed.filter fun y => y != .withdraw b).Sublist x.host.handed := List.filter_sublist
  have hfewer := hx.handFewer hsub fun e c _ hr => hother _ (by simp) hr
  refine { hfewer with counted := fun e he => ?_, copies := fun o ho => ?_ }
  · rcases he with ⟨o, ho, rfl⟩ | ⟨t, ht, -⟩ | hy
    · have ho : slot.offer = some o := ho
      obtain rfl : copy b = o := Option.some.inj (hslot.symm.trans ho)
      rw [hsource]
      exact ⟨hcounts, by simp⟩
    · have ht : x.host.take = some t := ht
      rw [htake] at ht
      cases ht
    · have hy := hsub.subset hy
      obtain ⟨hcounted, hnot⟩ := hx.counted e (.inr (.inr hy))
      refine ⟨hkept e (fun o ho heq => ?_) hcounted, fun hw => hnot (hsub.subset hw)⟩
      subst heq
      exact hx.no_hold_of_offer hhost ho hy
  · have ho : slot.offer = some o := ho
    obtain rfl : copy b = o := Option.some.inj (hslot.symm.trans ho)
    rw [hsource]

/-- A session's end gives back the offer, the stack and what the host owes; a take is ended, and no record is left to be removed (R46,
R91, log 8). -/
theorem HostSide.Ok.gaveBack (hx : x.Ok counts copy) (hhost : x.host.Ok) (hs : x.host.ctx.session ≠ .detached) {es : List Source}
    {lapse : LapseClaim} {w : Option BusWait} :
    HostSide.Ok counts copy
      { host :=
          { ctx := { x.host.ctx with session := .detached, stack := [] }
            view := []
            slot := { offer := none, timer := none }
            take := x.host.take.map fun t => { t with ended := true }
            lapse := lapse
            handed := x.host.handed ++ (x.host.slot.offer.toList.map fun o => Handed.withdraw o.source) ++
              (x.host.ctx.stack.reverse.map fun r => Handed.stackRelease r.source) ++ es.map Handed.depart }
        undo := none
        waiting := w } := by
  set given := x.host.handed ++ (x.host.slot.offer.toList.map fun o => Handed.withdraw o.source) ++
    (x.host.ctx.stack.reverse.map fun r => Handed.stackRelease r.source) ++ es.map Handed.depart with hgiven
  obtain ⟨m, hm, hmore⟩ : ∃ m, given = x.host.handed ++ m ∧ ∀ y ∈ m, y.isHold = false := by
    refine ⟨(x.host.slot.offer.toList.map fun o => Handed.withdraw o.source) ++
      (x.host.ctx.stack.reverse.map fun r => Handed.stackRelease r.source) ++ es.map Handed.depart, by simp [hgiven], fun y hy => ?_⟩
    simp only [List.mem_append, List.mem_map] at hy
    rcases hy with (⟨_, -, rfl⟩ | ⟨_, -, rfl⟩) | ⟨_, -, rfl⟩ <;> rfl
  have hold : ∀ e c, Handed.hold e c ∈ given → Handed.hold e c ∈ x.host.handed := fun e c hy => by
    rw [hm] at hy
    exact (List.mem_append.mp hy).resolve_right fun hy => by simpa [Handed.isHold] using hmore _ hy
  refine { counted := fun e he => ?_, copies := by simp, returns := fun _ => by simp, alone := fun t ht => ⟨rfl, fun y hy => ?_⟩,
           awaited := fun t ht hended => ?_, order := ?_, holds := fun e c hy => ⟨rfl, .inr ⟨rfl, ?_⟩⟩, undone := by simp }
  · have hy : Handed.hold e false ∈ x.host.handed := by
      rcases he with ⟨o, ho, -⟩ | ⟨t, ht, hended, -⟩ | hy
      · cases ho
      · obtain ⟨u, -, rfl⟩ := Option.map_eq_some_iff.mp ht
        cases hended
      · exact hold e false hy
    obtain ⟨hcounts, hnot⟩ := hx.counted e (.inr (.inr hy))
    refine ⟨hcounts, fun hwithdraw => ?_⟩
    have hwithdraw : Handed.withdraw e ∈ given := hwithdraw
    have hslot : ∃ o ∈ x.host.slot.offer, o.source = e := by
      simpa [hgiven, hnot] using hwithdraw
    obtain ⟨o, ho, rfl⟩ := hslot
    exact hx.no_hold_of_offer hhost ho hy
  · obtain ⟨u, hu, rfl⟩ := Option.map_eq_some_iff.mp ht
    have hy : y ∈ given := hy
    rw [hm] at hy
    exact (List.mem_append.mp hy).elim ((hx.alone u hu).2 y) (hmore y)
  · obtain ⟨u, -, rfl⟩ := Option.map_eq_some_iff.mp ht
    cases hended
  · change given.Pairwise _
    rw [hm]
    refine List.pairwise_append.mpr ⟨hx.order, ?_, fun y _ z hz hhold => absurd hhold (by simp [hmore z hz])⟩
    exact List.Pairwise.imp_of_mem (fun _ hz _ hhold => absurd hhold (by simp [hmore _ hz]))
      (List.pairwise_of_forall (l := m) fun _ _ => trivial)
  · obtain ⟨-, r, hr, rfl, -⟩ := hx.waits_of_hold hs (hold e c hy)
    simp only [hgiven, List.mem_append, List.mem_map, List.mem_reverse]
    exact .inl (.inr ⟨r, hr, rfl⟩)

/-- The context written in other fields than session and stack, or the session opened with nothing left to be given back (R44). -/
theorem HostSide.Ok.withCtx (hx : x.Ok counts copy) {c : HostContext}
    (hs : c.session = x.host.ctx.session ∨ x.host.handed.any Handed.isReturn = false ∨
      (c.session ≠ .attached ∧ x.host.ctx.session ≠ .detached)) (hstack : c.stack = x.host.ctx.stack) :
    HostSide.Ok counts copy { x with host := { x.host with ctx := c } } where
  counted := hx.counted
  copies := hx.copies
  returns hr := by
    have hr : x.host.handed.any Handed.isReturn = true := hr
    rcases hs with hs | hs | hs
    · exact hs ▸ hx.returns hr
    · rw [hs] at hr
      cases hr
    · exact hs.1
  alone := hx.alone
  awaited := hx.awaited
  order := hx.order
  holds e b hy := by
    obtain ⟨hundo, hplaced⟩ := hx.holds e b hy
    refine ⟨hundo, ?_⟩
    rcases hplaced with ⟨hw, hr⟩ | ⟨hd, hr⟩
    · exact .inl ⟨hw, by rw [hstack]; exact hr⟩
    · rcases hs with hs | hs | hs
      · exact .inr ⟨hs.trans hd, hr⟩
      · exact absurd (hs.symm.trans (List.any_eq_true.mpr ⟨_, hr, rfl⟩)) Bool.false_ne_true
      · exact absurd hd hs.2
  undone e he := by
    have hundone := hx.undone e he
    simpa only [holdsRecord, hstack] using hundone

/-- Where no TAKE waits, another write may wait, or none. -/
theorem HostSide.Ok.withWaiting (hx : x.Ok counts copy) (hw : x.waiting ≠ some .take) (w : Option BusWait) :
    HostSide.Ok counts copy { x with waiting := w } := by
  obtain ⟨hended, hundo, -⟩ := hx.quiet hw
  refine { hx with awaited := fun t ht hopen => ?_, holds := fun e c hy => ?_, undone := fun e he => ?_ }
  · rw [hended t ht] at hopen
    cases hopen
  · exact ⟨hundo, (hx.holds e c hy).2.imp_left fun hp => absurd hp.1 hw⟩
  · have he : e ∈ x.undo := he
    rw [hundo] at he
    cases he

/-- A host that goes by no TAKE any more: none is matched, no hold is on its way, and no record is to be removed. -/
theorem HostSide.Ok.answered (hx : x.Ok counts copy) (htake : x.host.take = none) (hhold : ∀ y ∈ x.host.handed, y.isHold = false)
    {c : HostContext} (hs : c.session = x.host.ctx.session) (w : Option BusWait) :
    HostSide.Ok counts copy { host := { x.host with ctx := c }, undo := none, waiting := w } :=
  { hx with
    returns := fun hr => hs ▸ hx.returns hr
    alone := fun t ht => by
      have ht : x.host.take = some t := ht
      rw [htake] at ht
      cases ht
    awaited := fun t ht => by
      have ht : x.host.take = some t := ht
      rw [htake] at ht
      cases ht
    holds := fun e c hy => absurd (hhold _ hy) (by simp [Handed.isHold])
    undone := by simp }

/-- A record whose entry was cleared is to be removed (R84). -/
theorem HostSide.Ok.toUndo (hx : x.Ok counts copy) (htake : x.host.take = none) (hhold : ∀ y ∈ x.host.handed, y.isHold = false)
    (hw : x.waiting = some .take) (he : holdsRecord x.host.ctx e = true) : HostSide.Ok counts copy { x with undo := some e } :=
  { hx with
    alone := fun t ht => by
      have ht : x.host.take = some t := ht
      rw [htake] at ht
      cases ht
    holds := fun e c hy => absurd (hhold _ hy) (by simp [Handed.isHold])
    undone := fun f hf => by
      cases hf
      exact ⟨hw, he⟩ }

/-- The service of a record ends while no TAKE waits (R86, R89). -/
theorem HostSide.Ok.endService (hx : x.Ok counts copy) (hw : x.waiting ≠ some .take) {y : Handed} (hhold : y.isHold = false)
    (hreturn : y.isReturn = false) (hwithdraw : ∀ f, y ≠ .withdraw f) :
    HostSide.Ok counts copy { x with host := { x.host with ctx := dropRecord x.host.ctx e, handed := x.host.handed ++ [y] } } := by
  obtain ⟨-, hundo, -⟩ := hx.quiet hw
  have hdropped : HostSide.Ok counts copy { x with host := { x.host with ctx := dropRecord x.host.ctx e } } :=
    { hx with
      holds := fun f c hy => ⟨hundo, (hx.holds f c hy).2.imp_left fun hp => absurd hp.1 hw⟩
      undone := fun f hf => by
        have hf : f ∈ x.undo := hf
        rw [hundo] at hf
        cases hf }
  exact hdropped.handMore (by simpa using hhold) (by simp [hreturn]) fun f hf => absurd (List.mem_singleton.mp hf).symm (hwithdraw f)

end

/-! ### What CLEAR_ENTRY marks -/

section
variable {counts counts' : Source → Prop} {copy copy' : Source → Offer} {x : HostSide} {e f : Source} {l : List Handed}

/-- The side of a host with its offer of e withdrawn, and a take and a hold of e marked (R20, R84). -/
def HostSide.marked (e : Source) (x : HostSide) : HostSide :=
  { x with host := { x.host with
      slot := clearSlot e x.host.slot
      take := x.host.take.map (TakeClaim.marked e)
      handed := x.host.handed.map (Handed.marked e) } }

theorem mem_clearSlot {x : Slot} {o : Offer} (ho : o ∈ (clearSlot e x).offer) : o ∈ x.offer ∧ o.source ≠ e := by
  unfold clearSlot at ho
  split at ho
  next => cases ho
  next hne =>
    refine ⟨ho, fun he => hne ?_⟩
    rw [Option.mem_def.mp ho, ← he]
    rfl

theorem TakeClaim.marked_offer (t : TakeClaim) : (t.marked e).offer = t.offer ∧ (t.marked e).ended = t.ended := by
  unfold TakeClaim.marked
  split <;> exact ⟨rfl, rfl⟩

theorem TakeClaim.marked_cleared {t : TakeClaim} (hc : (t.marked e).cleared = false) : t.cleared = false ∧ t.offer.source ≠ e := by
  unfold TakeClaim.marked at hc
  split at hc
  next => cases hc
  next hne => exact ⟨hc, hne⟩

theorem Handed.marked_kind (y : Handed) : (y.marked e).isHold = y.isHold ∧ (y.marked e).isReturn = y.isReturn := by
  cases y <;> exact ⟨rfl, rfl⟩

theorem hold_of_marked {c : Bool} (hy : Handed.hold f c ∈ l.map (Handed.marked e)) :
    ∃ b, Handed.hold f b ∈ l ∧ (c = false → b = false ∧ f ≠ e) := by
  obtain ⟨y, hmem, heq⟩ := List.mem_map.mp hy
  cases y with
  | hold g b =>
    simp only [Handed.marked, Handed.hold.injEq] at heq
    obtain ⟨rfl, rfl⟩ := heq
    exact ⟨b, hmem, fun hc => by simpa using hc⟩
  | _ => simp [Handed.marked] at heq

/-- What is no hold is not marked. -/
theorem mem_marked {y : Handed} (hy : y.isHold = false) : y ∈ l.map (Handed.marked e) ↔ y ∈ l := by
  have hself : y.marked e = y := by
    cases y with
    | hold => cases hy
    | _ => rfl
  refine ⟨fun hm => ?_, fun hm => List.mem_map.mpr ⟨y, hm, hself⟩⟩
  obtain ⟨z, hz, heq⟩ := List.mem_map.mp hm
  cases z with
  | hold g b =>
    rw [← heq] at hy
    cases hy
  | _ =>
    rw [← heq]
    exact hz

theorem HostSide.relies_of_marked (hf : (x.marked e).Relies f) : x.Relies f ∧ f ≠ e := by
  rcases hf with ⟨o, ho, rfl⟩ | ⟨t, ht, hended, hcleared, rfl⟩ | hy
  · obtain ⟨ho, hne⟩ := mem_clearSlot ho
    exact ⟨.inl ⟨o, ho, rfl⟩, hne⟩
  · obtain ⟨u, hu, rfl⟩ := Option.map_eq_some_iff.mp ht
    obtain ⟨hsource, hend⟩ := u.marked_offer (e := e)
    obtain ⟨hunmarked, hne⟩ := TakeClaim.marked_cleared hcleared
    rw [hsource]
    exact ⟨.inr (.inl ⟨u, hu, hend ▸ hended, hunmarked, rfl⟩), hne⟩
  · obtain ⟨b, hb, hunmarked⟩ := hold_of_marked hy
    obtain ⟨rfl, hne⟩ := hunmarked rfl
    exact ⟨.inr (.inr hb), hne⟩

/-- A host whose claims on e are marked goes by e no more, so that e may be abandoned (R20, R84). -/
theorem HostSide.Ok.marked (hx : x.Ok counts copy) (e : Source) (hkept : ∀ f, f ≠ e → counts f → counts' f)
    (hcopy : ∀ f, f ≠ e → copy' f = copy f) : (x.marked e).Ok counts' copy' where
  counted f hf := by
    obtain ⟨hf, hne⟩ := HostSide.relies_of_marked hf
    obtain ⟨hcounts, hnot⟩ := hx.counted f hf
    exact ⟨hkept f hne hcounts, fun hw => hnot ((mem_marked rfl).mp hw)⟩
  copies o ho := by
    obtain ⟨ho, hne⟩ := mem_clearSlot ho
    exact (hx.copies o ho).trans (hcopy _ hne).symm
  returns hr := by
    obtain ⟨y, hy, hret⟩ := List.any_eq_true.mp hr
    obtain ⟨z, hz, rfl⟩ := List.mem_map.mp hy
    exact hx.returns (List.any_eq_true.mpr ⟨z, hz, z.marked_kind.2 ▸ hret⟩)
  alone t ht := by
    obtain ⟨u, hu, -⟩ := Option.map_eq_some_iff.mp ht
    refine ⟨(hx.alone u hu).1, fun y hy => ?_⟩
    obtain ⟨z, hz, rfl⟩ := List.mem_map.mp hy
    exact z.marked_kind.1.trans ((hx.alone u hu).2 z hz)
  awaited t ht hended := by
    obtain ⟨u, hu, rfl⟩ := Option.map_eq_some_iff.mp ht
    obtain ⟨hoffer, hend⟩ := u.marked_offer (e := e)
    obtain ⟨hwaits, hlevel⟩ := hx.awaited u hu (hend ▸ hended)
    refine ⟨hwaits, fun hcleared => ?_⟩
    obtain ⟨hunmarked, hne⟩ := TakeClaim.marked_cleared hcleared
    rw [hoffer, hcopy _ hne]
    exact hlevel hunmarked
  order := List.pairwise_map.mpr (hx.order.imp fun {y z} hyz hhold => by
    rw [y.marked_kind.1, y.marked_kind.2]
    exact hyz (z.marked_kind.1 ▸ hhold))
  holds f c hy := by
    obtain ⟨b, hb, hunmarked⟩ := hold_of_marked hy
    obtain ⟨hundo, hplaced⟩ := hx.holds f b hb
    refine ⟨hundo, hplaced.imp (fun ⟨hw, r, hr, hsource, hlevel⟩ => ⟨hw, r, hr, hsource, fun hc => ?_⟩) fun ⟨hd, hr⟩ =>
      ⟨hd, (mem_marked rfl).mpr hr⟩⟩
    rw [hcopy f (hunmarked hc).2]
    exact hlevel (hunmarked hc).1
  undone := hx.undone

end

end Sys2Proof.Machine
end

section
/-! The laws of deliveries that every claim keeps as it changes one host or one entry, and that every offer choice keeps (R62, R64, R99,
R102). -/

open Sys2Proof Sys2Proof.Machine

namespace Sys2Proof.Machine

/-! ### Sets of hosts -/

theorem hasHost_or (x y : HostSet) (k : HostId) : hasHost (x ||| y) k = (hasHost x k || hasHost y k) := BitVec.getLsbD_or ..

theorem hasHost_and (x y : HostSet) (k : HostId) : hasHost (x &&& y) k = (hasHost x k && hasHost y k) := BitVec.getLsbD_and ..

theorem hasHost_zero (k : HostId) : hasHost 0 k = false := BitVec.getLsbD_zero ..

theorem hostSet_ext {x y : HostSet} (hxy : ∀ k, hasHost x k = hasHost y k) : x = y :=
  BitVec.eq_of_getLsbD_eq fun i hi => hxy ⟨i, hi⟩

theorem hostSet_eq_zero {x : HostSet} : x = 0 ↔ ∀ k, hasHost x k = false := by
  refine ⟨fun h k => h ▸ hasHost_zero k, fun h => hostSet_ext fun k => ?_⟩
  rw [h k, hasHost_zero]

theorem hostsWithin_iff {x y : HostSet} : hostsWithin x y = true ↔ ∀ k, hasHost x k = true → hasHost y k = true := by
  have hand : hostsWithin x y = true ↔ x &&& y = x := beq_iff_eq
  rw [hand]
  refine ⟨fun h k hk => ?_, fun h => hostSet_ext fun k => ?_⟩
  · rw [← h, hasHost_and, Bool.and_eq_true] at hk
    exact hk.2
  · rw [hasHost_and]
    cases hx : hasHost x k with
    | false => rfl
    | true => rw [h k hx]; rfl

/-- A set of one host has no second one. -/
theorem eq_of_isOneHost {x : HostSet} (hx : isOneHost x = true) {h k : HostId} (hh : hasHost x h = true) (hk : hasHost x k = true) :
    k = h := by
  revert x h k
  decide

/-! ### The parts of an entry -/

/-- The host is offered the entry or holds it. -/
def Progress.shares (p : Progress) (k : HostId) : Prop := hasHost p.offered k = true ∨ hasHost p.held k = true

theorem shares_iff (p : Progress) (k : HostId) : hasHost (p.offered ||| p.held) k = true ↔ p.shares k := by
  rw [hasHost_or, Bool.or_eq_true]
  rfl

/-- R99 and R109 by the hosts: no host is offered the entry while it holds it; one host shares a DIRECTED or ANY entry, and is a target;
the hosts that share an ALL entry owe it. -/
theorem partsLaw_iff {c : EntryConfig} {p : Progress} :
    PartsLaw c p ↔ (∀ k, hasHost p.offered k = true → hasHost p.held k = false) ∧
      (c.policy ≠ .all → ∀ h, p.shares h → hasHost c.targets h = true ∧ ∀ k, p.shares k → k = h) ∧
      (c.policy = .all → ∀ k, p.shares k → hasHost (p.owed.getD 0) k = true) := by
  unfold PartsLaw
  simp only [hostsWithin_iff, shares_iff]
  refine ⟨fun ⟨hone, hall⟩ => ⟨fun k hk => ?_, fun hp h hh => ?_, fun hp => (hall hp).2⟩, fun ⟨hdisjoint, hone, hall⟩ =>
    ⟨fun hp => ⟨?_, fun h k hh hk => (hone hp k hk).2 h hh, fun k hk => (hone hp k hk).1⟩, fun hp => ⟨?_, hall hp⟩⟩⟩
  · by_cases hp : c.policy = .all
    · have hnone := hostSet_eq_zero.mp (hall hp).1 k
      rwa [hasHost_and, hk, Bool.true_and] at hnone
    · rcases (hone hp).1 with h0 | h0
      · rw [h0, hasHost_zero] at hk
        cases hk
      · rw [h0, hasHost_zero]
  · obtain ⟨-, hunique, htargets⟩ := hone hp
    exact ⟨htargets h hh, fun k hk => hunique k h hk hh⟩
  · by_contra hne
    obtain ⟨hoffered, hheld⟩ := not_or.mp hne
    obtain ⟨h, hh⟩ : ∃ h, hasHost p.offered h = true := by simpa using hostSet_eq_zero.not.mp hoffered
    obtain ⟨k, hk⟩ : ∃ k, hasHost p.held k = true := by simpa using hostSet_eq_zero.not.mp hheld
    obtain rfl := (hone hp h (.inl hh)).2 k (.inr hk)
    rw [hdisjoint k hh] at hk
    cases hk
  · refine hostSet_eq_zero.mpr fun k => ?_
    rw [hasHost_and]
    cases hk : hasHost p.offered k with
    | false => rfl
    | true => exact hdisjoint k hk

/-- Hosts may leave the sets of an entry; an ALL entry's owed set keeps those that stay. -/
theorem PartsLaw.fewer {c : EntryConfig} {p q : Progress} (hp : PartsLaw c p)
    (hoffered : ∀ k, hasHost q.offered k = true → hasHost p.offered k = true)
    (hheld : ∀ k, hasHost q.held k = true → hasHost p.held k = true)
    (howed : c.policy = .all → ∀ k, q.shares k → hasHost (p.owed.getD 0) k = true → hasHost (q.owed.getD 0) k = true) :
    PartsLaw c q := by
  obtain ⟨hdisjoint, hone, hall⟩ := partsLaw_iff.mp hp
  have hshares : ∀ k, q.shares k → p.shares k := fun k hk => hk.imp (hoffered k) (hheld k)
  refine partsLaw_iff.mpr ⟨fun k hk => ?_, fun hpol h hh => ?_, fun hpol k hk => howed hpol k hk (hall hpol k (hshares k hk))⟩
  · rw [Bool.eq_false_iff]
    exact fun hheldk => absurd (hheld k hheldk) (by simp [hdisjoint k (hoffered k hk)])
  · obtain ⟨htarget, hunique⟩ := hone hpol h (hshares h hh)
    exact ⟨htarget, fun k hk => hunique k (hshares k hk)⟩

/-- An offer to a host for which the entry is eligible keeps the entry's law (R64, R99, R109). -/
theorem PartsLaw.offered {s : State} {e : Source} {h : HostId} {x : HostSet} (hp : PartsLaw (s.cfg e) (s.prog e))
    (hconfig : ConfigLaw e (s.cfg e)) (helig : s.eligible e h = true)
    (hx : ∀ k, hasHost x k = true → k = h ∨ hasHost (s.prog e).offered k = true) :
    PartsLaw (s.cfg e) { s.prog e with offered := x } := by
  obtain ⟨hdisjoint, hone, hall⟩ := partsLaw_iff.mp hp
  obtain ⟨-, -, hdirected⟩ := hconfig
  obtain ⟨-, -, -, -, hdir, hany, howes⟩ := eligible_iff.mp helig
  have hshares : ∀ k, Progress.shares { s.prog e with offered := x } k → k = h ∨ (s.prog e).shares k := fun k hk =>
    hk.elim (fun ho => (hx k ho).imp_right .inl) fun hh => .inr (.inr hh)
  have hother : (s.cfg e).policy ≠ .all → hasHost (s.cfg e).targets h = true ∧ (s.prog e).held = 0 ∧
      ∀ k, (s.prog e).shares k → k = h := fun hpol => by
    cases hpolicy : (s.cfg e).policy with
    | directed =>
      obtain ⟨htarget, hheld⟩ := hdir hpolicy
      exact ⟨htarget, hheld, fun k hk => eq_of_isOneHost (hdirected hpolicy) htarget (hone hpol k hk).1⟩
    | any =>
      obtain ⟨htarget, -, hheld, hoffered⟩ := hany hpolicy
      refine ⟨htarget, hheld, fun k hk => hk.elim (hoffered k) fun hk => ?_⟩
      rw [hheld, hasHost_zero] at hk
      cases hk
    | all => exact absurd hpolicy hpol
  refine partsLaw_iff.mpr ⟨fun k hk => ?_, fun hpol j hj => ?_, fun hpol k hk => ?_⟩
  · rcases hx k hk with rfl | hk
    · by_cases hpol : (s.cfg e).policy = .all
      · exact (howes hpol).2
      · rw [(hother hpol).2.1, hasHost_zero]
    · exact hdisjoint k hk
  · obtain ⟨htarget, -, hself⟩ := hother hpol
    have heq : ∀ k, Progress.shares { s.prog e with offered := x } k → k = h := fun k hk => (hshares k hk).elim id (hself k)
    obtain rfl := heq j hj
    exact ⟨htarget, heq⟩
  · rcases hshares k hk with rfl | hk
    · exact (howes hpol).1
    · exact hall hpol k hk

/-! ### Updates of one side -/

section
variable {s t : State} {h : HostId} {x : HostSide}

theorem side_eq_update (hself : t.side h = x) (hne : ∀ k, k ≠ h → t.side k = s.side k) : t.side = Function.update s.side h x :=
  Function.eq_update_iff.mpr ⟨hself, hne⟩

variable (s h)

theorem side_eq_of_host {u : State} {r : HostRecord} (hhost : u.host = Function.update s.host h r) (hundo : ∀ k, u.undoOf k = s.undoOf k)
    (hport : ∀ k, u.port k = s.port k) : u.side = Function.update s.side h { s.side h with host := r } := by
  refine side_eq_update ?_ fun k hk => ?_
  · rw [State.side, hhost, Function.update_self, hundo, hport]
    rfl
  · rw [State.side, hhost, Function.update_of_ne hk, hundo, hport]
    rfl

theorem setCtx_side (c : HostContext) :
    (s.setCtx h c).side = Function.update s.side h { s.side h with host := { s.host h with ctx := c } } :=
  side_eq_of_host s h (setCtx_host s h c) (fun _ => rfl) fun _ => rfl

theorem setLapse_side (l : LapseClaim) :
    (s.setLapse h l).side = Function.update s.side h { s.side h with host := { s.host h with lapse := l } } :=
  side_eq_of_host s h (setLapse_host s h l) (fun _ => rfl) fun _ => rfl

theorem setHanded_side (l : List Handed) :
    (s.setHanded h l).side = Function.update s.side h { s.side h with host := { s.host h with handed := l } } :=
  side_eq_of_host s h (setHanded_host s h l) (fun _ => rfl) fun _ => rfl

theorem setUndo_side (e : Option Source) : (s.setUndo h e).side = Function.update s.side h { s.side h with undo := e } :=
  side_eq_update (by simp [State.side]) fun k hk => by simp [State.side, State.setUndo_undoOf, hk]

theorem setPort_side (p : Port) : (s.setPort h p).side = Function.update s.side h { s.side h with waiting := p.waiting } := by
  refine side_eq_update ?_ fun k hk => ?_
  · simp only [State.side, State.setPort_port_self]
    rfl
  · simp only [State.side, State.setPort_port, if_neg hk]
    rfl

variable {s h}

/-- A port's write that leaves what waits there is seen by no side. -/
theorem setPort_side_same {p : Port} (hp : p.waiting = (s.port h).waiting) : (s.setPort h p).side = s.side := by
  rw [setPort_side, hp]
  exact Function.update_eq_self h s.side

theorem answer_side (s : State) (h : HostId) (code : Operand) (r : ResultCode) : (s.answer h code r).side = s.side :=
  setPort_side_same rfl

theorem gaveBack_side (s : State) (h : HostId) (es : List Source) :
    (s.gaveBack h es).side = Function.update s.side h { host := (s.gaveBack h es).host h, undo := none, waiting := (s.port h).waiting } := by
  refine side_eq_update ?_ fun k hk => ?_
  · simp [State.side, State.gaveBack, State.undoOf, State.port]
  · rw [State.side, gaveBack_host, Function.update_of_ne hk]
    simp [State.side, State.gaveBack, State.undoOf, State.port, look_put_ne _ _ hk]

end

/-! ### The laws, with what they rest on -/

/-- The laws of hosts, configurations, sides and parts. -/
structure Sound (s : State) : Prop where
  hosts : HostLaw s
  config : ∀ e, ConfigLaw e (s.cfg e)
  linked : ∀ h, (s.side h).Ok (s.counts h) s.offerOf
  parts : ∀ e, PartsLaw (s.cfg e) (s.prog e)
  declines : ∀ e, DeclineLaw (s.cfg e) (s.prog e)

section
variable {s t : State} {h : HostId} {x : HostSide} {e : Source}

theorem counts_congr (hp : t.prog e = s.prog e) (h : HostId) : t.counts h e ↔ s.counts h e := by
  unfold State.counts
  rw [hp]

theorem offerOf_congr (hc : t.cfg e = s.cfg e) (ho : (t.prog e).outcome = (s.prog e).outcome) : t.offerOf e = s.offerOf e := by
  unfold State.offerOf
  rw [hc, ho]

theorem Sound.copy (hs : Sound s) {o : Offer} (ho : o ∈ (s.slot h).offer) : o = s.offerOf o.source := (hs.linked h).copies o ho

theorem Sound.levelsOk (hs : Sound s) : LevelsOk s := fun h o ho => by
  have hcopy := hs.copy ho
  exact congrArg Offer.level hcopy

theorem Sound.host (hs : Sound s) (h : HostId) : (s.side h).host.Ok := hostLaw_iff.mp hs.hosts h

/-- The laws after an update of one host's side. -/
theorem Sound.update (hs : Sound s) (ht : HostLaw t) (het : t.et = s.et) (hside : t.side = Function.update s.side h x)
    (hx : (s.side h).host.Ok → (s.side h).Ok (s.counts h) s.offerOf → x.Ok (s.counts h) s.offerOf) : Sound t := by
  have hentry : ∀ f, t.entry f = s.entry f := fun f => by rw [State.entry, het]; rfl
  have hcfg : ∀ f, t.cfg f = s.cfg f := fun f => congrArg Entry.cfg (hentry f)
  have hprog : ∀ f, t.prog f = s.prog f := fun f => congrArg Entry.prog (hentry f)
  have hcounts : ∀ k, t.counts k = s.counts k := fun k => funext fun f => propext (counts_congr (hprog f) k)
  have hcopy : t.offerOf = s.offerOf := funext fun f => offerOf_congr (hcfg f) (by rw [hprog])
  have hall : ∀ k, (t.side k).Ok (s.counts k) s.offerOf := fun k => by
    rw [hside]
    by_cases hk : k = h
    · subst hk
      rw [Function.update_self]
      exact hx (hs.host k) (hs.linked k)
    · rw [Function.update_of_ne hk]
      exact hs.linked k
  refine ⟨ht, fun f => ?_, fun k => ?_, fun f => ?_, fun f => ?_⟩
  · rw [hcfg]
    exact hs.config f
  · rw [hcounts, hcopy]
    exact hall k
  · rw [hcfg, hprog]
    exact hs.parts f
  · rw [hcfg, hprog]
    exact hs.declines f

/-- The laws after a change at one entry that no host which goes by it sees. -/
theorem Sound.rewrite (hs : Sound s) (hside : t.side = s.side) (hentry : ∀ f, f ≠ e → t.cfg f = s.cfg f ∧ t.prog f = s.prog f)
    (hconfig : ConfigLaw e (t.cfg e)) (hkept : ∀ h, (s.side h).Relies e → t.counts h e ∧ t.offerOf e = s.offerOf e)
    (hparts : PartsLaw (t.cfg e) (t.prog e)) (hdecline : DeclineLaw (t.cfg e) (t.prog e)) : Sound t := by
  refine ⟨hostLaw_iff.mpr fun k => ?_, fun f => ?_, fun k => ?_, fun f => ?_, fun f => ?_⟩
  · have hhost := hs.host k
    rw [← hside] at hhost
    exact hhost
  · by_cases hf : f = e
    · exact hf ▸ hconfig
    · exact (hentry f hf).1 ▸ hs.config f
  · rw [hside]
    refine (hs.linked k).entries fun f hf => ?_
    by_cases hfe : f = e
    · subst hfe
      exact hkept k hf
    · obtain ⟨hc, hp⟩ := hentry f hfe
      exact ⟨(counts_congr hp k).mpr ((hs.linked k).counted f hf).1, offerOf_congr hc (by rw [hp])⟩
  · by_cases hf : f = e
    · exact hf ▸ hparts
    · obtain ⟨hc, hp⟩ := hentry f hf
      rw [hc, hp]
      exact hs.parts f
  · by_cases hf : f = e
    · exact hf ▸ hdecline
    · obtain ⟨hc, hp⟩ := hentry f hf
      rw [hc, hp]
      exact hs.declines f

end

/-! ### Offers -/

theorem OffersOnly.port {s t : State} (g : OffersOnly s t) (k : HostId) : t.port k = s.port k := by rw [g.1]; rfl

theorem OffersOnly.undoOf {s t : State} (g : OffersOnly s t) (k : HostId) : t.undoOf k = s.undoOf k := by rw [g.1]; rfl

theorem OffersOnly.prog {s t : State} (g : OffersOnly s t) (e : Source) :
    t.prog e = { s.prog e with offered := (t.prog e).offered } := congrArg Entry.prog (g.2.1 e)

theorem OffersOnly.offerOf {s t : State} (g : OffersOnly s t) (e : Source) : t.offerOf e = s.offerOf e :=
  offerOf_congr (g.cfg e) (by rw [g.prog])

/-- After an offer of b to w the offered sets have w with b, and have lost w with the entry displaced. -/
theorem hasHost_placeOffer (s : State) (b : Source) (w k : HostId) (f : Source) :
    hasHost (((s.placeOffer b w).2).prog f).offered k = true ↔
      (k = w ∧ f = b) ∨ (hasHost (s.prog f).offered k = true ∧ (k = w → (s.slot w).offer.map Offer.source ≠ some f)) := by
  rw [placeOffer_offered]
  simp only
  split <;> split <;> simp_all [hasHost_addHost, hasHost_dropHost, and_comm]

/-- Every offer that a host wants keeps the laws (R64, R67, R69, log 6). -/
theorem sound_keptByOffers : KeptByOffers Sound := fun s d b w hwant hw hs => by
  obtain ⟨-, helig, -, hlo, -⟩ := wanted_some hwant
  obtain ⟨hstate, -⟩ := eligible_iff.mp helig
  obtain ⟨htake, -⟩ : s.takeOf w = none ∧ s.lapseOf w = .none := by simpa [State.choiceWaits] using hw
  have honly := OffersOnly.placeOffer hw hlo
  have hcopy : (s.placeOffer b w).2.offerOf = s.offerOf := funext honly.offerOf
  have hside := side_eq_of_host s w (placeOffer_host hw hlo) honly.undoOf honly.port
  have hcounts : ∀ k f, (s.prog f).state = .delivering →
      (k = w ∧ f = b) ∨ (hasHost (s.prog f).offered k = true ∧ (k = w → (s.slot w).offer.map Offer.source ≠ some f)) →
      (s.placeOffer b w).2.counts k f := fun k f hf hk => ⟨by rw [honly.prog]; exact hf, (hasHost_placeOffer s b w k f).mpr hk⟩
  refine ⟨hostLaw_keptByOffers s d b w hwant hw hs.hosts, fun e => honly.cfg e ▸ hs.config e, fun k => ?_, fun e => ?_, fun e => ?_⟩
  · rw [hside, hcopy]
    by_cases hk : k = w
    · subst hk
      rw [Function.update_self]
      refine (hs.linked k).offered (hs.host k) htake (by rw [filled_eq]) rfl (hcounts k b hstate (.inl ⟨rfl, rfl⟩))
        fun f hf hcount => hcounts k f hcount.1 (.inr ⟨hcount.2, fun _ heq => ?_⟩)
      obtain ⟨o, ho, hof⟩ := Option.map_eq_some_iff.mp heq
      exact hf o ho hof
    · rw [Function.update_of_ne hk]
      refine (hs.linked k).entries fun f hf => ⟨?_, rfl⟩
      obtain ⟨hdelivering, hoffered⟩ := ((hs.linked k).counted f hf).1
      exact hcounts k f hdelivering (.inr ⟨hoffered, fun h => absurd h hk⟩)
  · rw [honly.cfg, honly.prog]
    by_cases he : e = b
    · subst he
      exact (hs.parts e).offered (hs.config e) helig fun k hk => ((hasHost_placeOffer s e w k e).mp hk).imp And.left And.left
    · refine (hs.parts e).fewer (fun k hk => ?_) (fun _ => id) fun _ _ _ => id
      exact (((hasHost_placeOffer s b w k e).mp hk).resolve_left fun h => he h.2).1
  · rw [honly.cfg, honly.prog]
    exact hs.declines e

end Sys2Proof.Machine
end

section
/-! The laws of deliveries with the choices that are still open (R66, R67, R69), and what closes them. -/

open Sys2Proof Sys2Proof.Machine

namespace Sys2Proof.Machine

/-- The laws hold, and of the choices of the hosts over the entries those that pass the test are settled. -/
structure Settled (p : HostId → Source → Prop) (s : State) : Prop where
  sound : Sound s
  order : InOrder s
  met : MetOver (fun _ => True) s p

/-- The laws hold, and no choice is open. -/
abbrev Resting : State → Prop := Settled fun _ _ => True

/-- The laws hold, and no choice is open but that of h. -/
abbrev OpenAt (h : HostId) : State → Prop := Settled fun k _ => k ≠ h

section
variable {s t u : State} {h : HostId} {e : Source} {x : HostSide} {p q : HostId → Source → Prop}

/-- A lawful state rests. -/
theorem Lawful.resting (hl : Lawful s) : Resting s := by
  obtain ⟨hhosts, hentries, hdelivery, -, -⟩ := hl
  have hmet := hdelivery.met
  obtain ⟨hcopies, htakes, -, hentry⟩ := hdelivery
  exact ⟨⟨hhosts, fun e => (hentries.1 e).1, side_ok_iff.mp ⟨hcopies, htakes⟩, fun e => (hentry e).1, fun e => (hentry e).2⟩,
    hentries.inOrder, hmet⟩

/-- In a state that rests the laws of deliveries hold. -/
theorem Settled.deliveryLaw (hs : Resting s) : DeliveryLaw s := by
  obtain ⟨hlinked, htakes⟩ := side_ok_iff.mpr hs.sound.linked
  exact ⟨hlinked, htakes, (settledLaw_iff s).mpr hs.met, fun e => ⟨hs.sound.parts e, hs.sound.declines e⟩⟩

theorem Settled.mono (hs : Settled p s) (hq : ∀ k f, q k f → p k f) : Settled q s :=
  ⟨hs.sound, hs.order, fun k hk f hf he => hs.met k hk f (hq k f hf) he⟩

theorem Settled.openAt (hs : Resting s) (h : HostId) : OpenAt h s := hs.mono fun _ _ _ => trivial

/-! ### Choices -/

/-- The choice of h closes what is open of it (R67). -/
theorem Settled.choose (hs : OpenAt h s) : Resting (s.choose h) := by
  refine ⟨sound_keptByOffers.choose s h hs.sound, (choose_offersOnly s h).inOrder hs.order, ?_⟩
  cases hw : s.choiceWaits h with
  | false => exact (choose_leaves hw hs.sound.levelsOk hs.order hs.met).2
  | true =>
    rw [choose_waits hw]
    refine fun k hk f _ he => hs.met k hk f (fun heq => ?_) he
    rw [heq, hw] at hk
    cases hk

/-- With the news of an entry taken only the choices of whole hosts are open, if nothing else was (R67, R69). -/
theorem Settled.offerNews {p : HostId → Prop} (hs : Settled (fun k f => p k ∧ f ≠ e) s) :
    Settled (fun k _ => p k) (s.offerNews e) := by
  refine ⟨?_, (offerNews_offersOnly s e).inOrder hs.order, ?_⟩
  · rw [offerNews_eq]
    exact sound_keptByOffers.newsLoop _ _ s hs.sound
  · have hmet := (offerNews_met (A := fun k => ¬p k) hs.sound.levelsOk hs.order fun k hk f hf he =>
      hs.met k hk f ⟨not_not.mp hf.1, hf.2⟩ he).2
    exact fun k hk f hp he => hmet k hk f (not_not.mpr hp) he

theorem Settled.tell {p : HostId → Prop} {x : State × Bool} (hs : Settled (fun k f => p k ∧ (x.2 = true → f ≠ e)) x.1) :
    Settled (fun k _ => p k) (tell e x) := by
  unfold Machine.tell
  split
  next hnews => exact (hs.mono fun k f hf => ⟨hf.1, fun _ => hf.2⟩).offerNews
  next hnone => exact hs.mono fun k f hp => ⟨hp, fun hnews => absurd hnews hnone⟩

/-! ### A change of one host -/

theorem choiceWaits_eq_host (s : State) (k : HostId) :
    s.choiceWaits k = ((s.host k).take.isSome || (s.host k).lapse != .none) := rfl

/-- A change of h's side alone, with its slot as it was or emptied, is apart from the other hosts. -/
theorem ApartFrom.of_side (het : t.et = s.et) (hside : t.side = Function.update s.side h x)
    (hslot : x.host.slot = s.slot h ∨ x.host.slot.offer = none) : ApartFrom h s t := by
  have hself : t.slot h = x.host.slot :=
    congrArg (fun y : HostSide => y.host.slot) ((congrFun hside h).trans (Function.update_self h x s.side))
  have hother : ∀ k, k ≠ h → t.host k = s.host k := fun k hk => by
    have hsame : t.side k = s.side k := hside ▸ Function.update_of_ne hk x s.side
    exact congrArg HostSide.host hsame
  exact ⟨het, hself ▸ hslot, fun k hk => congrArg HostRecord.slot (hother k hk),
    fun k hk => by rw [choiceWaits_eq_host, choiceWaits_eq_host, hother k hk], fun k hk => congrArg HostRecord.ctx (hother k hk),
    fun k hk => congrArg HostRecord.view (hother k hk)⟩

/-- The laws after an update of one host's side, whose own choice is then open. -/
theorem Settled.update (hs : OpenAt h s) (ht : HostLaw t) (het : t.et = s.et) (hside : t.side = Function.update s.side h x)
    (hslot : x.host.slot = s.slot h ∨ x.host.slot.offer = none)
    (hx : (s.side h).host.Ok → (s.side h).Ok (s.counts h) s.offerOf → x.Ok (s.counts h) s.offerOf) : OpenAt h t :=
  have hapart := ApartFrom.of_side het hside hslot
  ⟨hs.sound.update ht het hside hx, hapart.inOrder hs.order, hapart.met hs.met⟩

/-- No choice is open at an empty slot: R69 bounds a standing offer only. -/
theorem Settled.of_empty (hs : OpenAt h s) (hslot : (s.slot h).offer = none) : Resting s :=
  ⟨hs.sound, hs.order, fun k hk f _ he => by
    by_cases hkh : k = h
    · exact .inr ⟨trivial, hkh ▸ hslot⟩
    · exact hs.met k hk f hkh he⟩

/-- What the eligibility of an entry for the host, and the host's choice, see of its record (R64, R67). -/
def HostRecord.sees (r : HostRecord) : Level × Nat × Slot × Option TakeClaim × LapseClaim × Session :=
  (levelOver r.ctx.threshold r.view, r.view.length, r.slot, r.take, r.lapse, r.ctx.session)

/-- An update of a host's side that no choice sees leaves the settled choices so. -/
theorem Settled.unseen (hs : Settled p s) (ht : HostLaw t) (het : t.et = s.et) (hside : t.side = Function.update s.side h x)
    (hsees : x.host.sees = (s.host h).sees)
    (hx : (s.side h).host.Ok → (s.side h).Ok (s.counts h) s.offerOf → x.Ok (s.counts h) s.offerOf) : Settled p t := by
  have hall : ∀ k, (t.host k).sees = (s.host k).sees := fun k => by
    change (t.side k).host.sees = _
    rw [hside]
    by_cases hk : k = h
    · subst hk
      rw [Function.update_self, hsees]
    · rw [Function.update_of_ne hk]
      rfl
  have hentry : ∀ f, t.entry f = s.entry f := fun f => by rw [State.entry, het]; rfl
  have hcfg : ∀ f, t.cfg f = s.cfg f := fun f => congrArg Entry.cfg (hentry f)
  have hprog : ∀ f, t.prog f = s.prog f := fun f => congrArg Entry.prog (hentry f)
  refine ⟨hs.sound.update ht het hside hx, fun f hf => ?_, fun k hk f hp he => ?_⟩
  · rw [het]
    exact hs.order f (hprog f ▸ hf)
  · have hlevel : t.viewLevel k = s.viewLevel k := congrArg (fun y => y.1) (hall k)
    have hlength : (t.viewOf k).length = (s.viewOf k).length := congrArg (fun y => y.2.1) (hall k)
    have hslot : t.slot k = s.slot k := congrArg (fun y => y.2.2.1) (hall k)
    have htake : t.takeOf k = s.takeOf k := congrArg (fun y => y.2.2.2.1) (hall k)
    have hlapse : t.lapseOf k = s.lapseOf k := congrArg (fun y => y.2.2.2.2.1) (hall k)
    have hsession : (t.ctx k).session = (s.ctx k).session := congrArg (fun y => y.2.2.2.2.2) (hall k)
    have helig : t.eligible f k = s.eligible f k := by
      rw [Bool.eq_iff_iff, eligible_iff, eligible_iff]
      simp only [PolicyAllows, hcfg, hprog, hlevel, hlength, hsession]
    have hwaits : s.choiceWaits k = false := by
      rw [← hk, State.choiceWaits, State.choiceWaits, htake, hlapse]
    have hmet := hs.met k hwaits f hp (helig ▸ he)
    simpa only [Met, Covers, hslot, hcfg] using hmet

end

/-! ### What the laws of deliveries do not see -/

/-- What the laws of deliveries see of an entry: not its enable field, its binding, its marks and its merges. -/
def Entry.shown (x : Entry) : EntryConfig × EntryState × Option Outcome × HostSet × HostSet × Option HostSet × Option HostSet :=
  ({ x.cfg with enable := false }, x.prog.state, x.prog.outcome, x.prog.offered, x.prog.held, x.prog.owed, x.prog.decline)

/-- No host's side, no place in the arrival order and nothing that is shown of an entry has changed. -/
structure Untouched (s t : State) : Prop where
  side : t.side = s.side
  order : t.et.order = s.et.order
  shown : ∀ e, (t.entry e).shown = (s.entry e).shown

section
variable {s t u : State} {h : HostId} {e : Source} {p : HostId → Source → Prop}

theorem Untouched.refl (s : State) : Untouched s s := ⟨rfl, rfl, fun _ => rfl⟩

theorem Untouched.trans (h : Untouched s t) (g : Untouched t u) : Untouched s u :=
  ⟨g.side.trans h.side, g.order.trans h.order, fun e => (g.shown e).trans (h.shown e)⟩

/-- A state with another of the blocks that the laws of deliveries do not speak of. -/
theorem Untouched.of_eq (hside : t.side = s.side) (het : t.et = s.et) : Untouched s t :=
  ⟨hside, congrArg EventTable.order het, fun e => by rw [State.entry, het]; rfl⟩

/-- An entry rewritten with the same shown. -/
theorem Untouched.setEntry {x : Entry} (hx : x.shown = (s.entry e).shown) : Untouched s (s.setEntry e x) := by
  refine ⟨rfl, rfl, fun f => ?_⟩
  rw [State.setEntry_entry]
  split
  next hf => exact hf ▸ hx
  next => rfl

theorem Untouched.answer (s : State) (h : HostId) (code : Operand) (r : ResultCode) : Untouched s (s.answer h code r) :=
  .of_eq (answer_side s h code r) rfl

theorem Untouched.setPort {q : Port} (hq : q.waiting = (s.port h).waiting) : Untouched s (s.setPort h q) :=
  .of_eq (setPort_side_same hq) rfl

theorem Settled.untouched (hs : Settled p s) (hu : Untouched s t) : Settled p t := by
  have hhost : t.host = s.host := funext fun k => congrArg HostSide.host (congrFun hu.side k)
  have hstate : ∀ f, (t.prog f).state = (s.prog f).state := fun f => congrArg (fun y => y.2.1) (hu.shown f)
  have houtcome : ∀ f, (t.prog f).outcome = (s.prog f).outcome := fun f => congrArg (fun y => y.2.2.1) (hu.shown f)
  have hoffered : ∀ f, (t.prog f).offered = (s.prog f).offered := fun f => congrArg (fun y => y.2.2.2.1) (hu.shown f)
  have hheld : ∀ f, (t.prog f).held = (s.prog f).held := fun f => congrArg (fun y => y.2.2.2.2.1) (hu.shown f)
  have howed : ∀ f, (t.prog f).owed = (s.prog f).owed := fun f => congrArg (fun y => y.2.2.2.2.2.1) (hu.shown f)
  have hdecline : ∀ f, (t.prog f).decline = (s.prog f).decline := fun f => congrArg (fun y => y.2.2.2.2.2.2) (hu.shown f)
  have hkind : ∀ f, (t.cfg f).kind = (s.cfg f).kind := fun f => congrArg (fun y => y.1.kind) (hu.shown f)
  have hlevel : ∀ f, (t.cfg f).level = (s.cfg f).level := fun f => congrArg (fun y => y.1.level) (hu.shown f)
  have hpolicy : ∀ f, (t.cfg f).policy = (s.cfg f).policy := fun f => congrArg (fun y => y.1.policy) (hu.shown f)
  have htargets : ∀ f, (t.cfg f).targets = (s.cfg f).targets := fun f => congrArg (fun y => y.1.targets) (hu.shown f)
  have hcounts : ∀ k, t.counts k = s.counts k := fun k => funext fun f => by simp only [State.counts, hstate, hoffered]
  have hcopy : t.offerOf = s.offerOf := funext fun f => by simp only [State.offerOf, hlevel, hpolicy, houtcome]
  have helig : ∀ f k, t.eligible f k = s.eligible f k := fun f k => by
    have hctx : t.ctx k = s.ctx k := congrArg HostRecord.ctx (congrFun hhost k)
    have hview : t.viewOf k = s.viewOf k := congrArg HostRecord.view (congrFun hhost k)
    rw [Bool.eq_iff_iff, eligible_iff, eligible_iff]
    simp only [PolicyAllows, State.viewLevel, hctx, hview, hstate, hlevel, hpolicy, htargets, hoffered, hheld, howed, hdecline]
  refine ⟨⟨hs.sound.hosts.of_host hhost, fun f => ?_, fun k => ?_, fun f => ?_, fun f => ?_⟩, fun f hf => ?_, fun k hk f hp he => ?_⟩
  · obtain ⟨hallowed, hsome, hone⟩ := hs.sound.config f
    exact ⟨by rw [hkind]; exact hallowed, by rw [htargets]; exact hsome, by rw [hpolicy, htargets]; exact hone⟩
  · rw [hcounts, hcopy, hu.side]
    exact hs.sound.linked k
  · have hparts := hs.sound.parts f
    unfold PartsLaw at hparts ⊢
    rw [hpolicy, htargets, hoffered, hheld, howed]
    exact hparts
  · have hdeclines := hs.sound.declines f
    unfold DeclineLaw at hdeclines ⊢
    rw [htargets, hdecline, hstate]
    exact hdeclines
  · rw [hu.order]
    exact hs.order f (hstate f ▸ hf)
  · have hslot : t.slot k = s.slot k := congrArg HostRecord.slot (congrFun hhost k)
    have hwaits : s.choiceWaits k = false := by
      rw [← hk, choiceWaits_eq_host, choiceWaits_eq_host, hhost]
    have hmet := hs.met k hwaits f hp (helig f k ▸ he)
    simpa only [Met, Covers, hslot, hlevel] using hmet

end

end Sys2Proof.Machine
end

section
/-! What the Event Table's part of a claim makes of one entry, as far as the laws of deliveries see it (R11 to R15, R87, R89, R102,
R106, R111). -/

open Sys2Proof Sys2Proof.Machine

namespace Sys2Proof.Machine

/-! ### A change of one entry -/

/-- The laws of one entry, of which every host that goes by it is counted. -/
structure Standing (relies : HostId → Prop) (s : State) (e : Source) : Prop where
  config : ConfigLaw e (s.cfg e)
  parts : PartsLaw (s.cfg e) (s.prog e)
  declines : DeclineLaw (s.cfg e) (s.prog e)
  counted : ∀ k, relies k → s.counts k e
  listed : (s.prog e).state = .delivering → e ∈ s.et.order

/-- A claim on entry e leaves x, with news of e to come if the flag says so: the laws hold of e, a host that goes by it sees no change,
and without news e is eligible for no host for which it was not. -/
structure Reshapes (relies : HostId → Prop) (e : Source) (s : State) (x : State × Bool) : Prop where
  event : EventOf e s x.1
  kept : ∀ k, relies k → x.1.counts k e ∧ x.1.offerOf e = s.offerOf e
  parts : PartsLaw (s.cfg e) (x.1.prog e)
  declines : DeclineLaw (s.cfg e) (x.1.prog e)
  listed : (x.1.prog e).state = .delivering → e ∈ x.1.et.order
  told : x.2 = false → (x.1.prog e).state = .delivering →
    (s.prog e).state = .delivering ∧ ∀ k, PolicyAllows x.1 e k → PolicyAllows s e k

section
variable {s t : State} {e : Source} {h : HostId} {p : HostId → Source → Prop} {relies : HostId → Prop} {listed : Prop}
variable {x : State × Bool}

theorem Settled.standing (hs : Settled p s) (e : Source) : Standing (fun k => (s.side k).Relies e) s e :=
  ⟨hs.sound.config e, hs.sound.parts e, hs.sound.declines e, fun k hk => ((hs.sound.linked k).counted e hk).1, hs.order e⟩

/-- With an entry not in delivery, or offered to no host, no host goes by it. -/
theorem Standing.nobody (hs : Standing relies s e) (hn : (s.prog e).state ≠ .delivering ∨ (s.prog e).offered = 0) :
    ∀ k, ¬relies k := fun k hk => by
  obtain ⟨hstate, hoffered⟩ := hs.counted k hk
  rcases hn with hn | hn
  · exact hn hstate
  · rw [hn, hasHost_zero] at hoffered
    cases hoffered

theorem EventOf.side (g : EventOf e s t) : t.side = s.side := by
  rw [g.rest]
  rfl

/-- The laws after a claim on one entry; its news is then open if there is any. -/
theorem Settled.reshape (hs : Settled p s) (hx : Reshapes (fun k => (s.side k).Relies e) e s x) :
    Settled (fun k f => p k f ∧ (x.2 = true → f ≠ e)) x.1 := by
  have hprog : ∀ f, f ≠ e → x.1.cfg f = s.cfg f ∧ x.1.prog f = s.prog f := fun f hf =>
    ⟨hx.event.cfg f, congrArg Entry.prog (hx.event.entry f hf)⟩
  refine ⟨hs.sound.rewrite hx.event.side hprog ?_ hx.kept ?_ ?_, hx.event.inOrder hs.order hx.listed, hx.event.met hs.met ?_⟩
  · rw [hx.event.cfg]
    exact hs.sound.config e
  · rw [hx.event.cfg]
    exact hx.parts
  · rw [hx.event.cfg]
    exact hx.declines
  · rintro k f ⟨hp, hf⟩
    refine ⟨hp, fun hfe helig => ?_⟩
    have hquiet : x.2 = false := by
      rw [Bool.eq_false_iff]
      exact fun hnews => hf hnews hfe
    obtain ⟨hstate, hlevel, hsession, hroom, hpolicy⟩ := eligible_iff.mp helig
    obtain ⟨hdelivering, hallows⟩ := hx.told hquiet hstate
    rw [hx.event.cfg, State.viewLevel, hx.event.ctx, hx.event.viewOf] at hlevel
    rw [hx.event.ctx] at hsession
    rw [hx.event.viewOf] at hroom
    exact eligible_iff.mpr ⟨hdelivering, hlevel, hsession, hroom, hallows k hpolicy⟩

/-- What the Event Table leaves has its news to come wherever it then stands in delivery. -/
theorem Reshapes.of_part (hpart : EventPart e listed s x) (hl : listed)
    (hkept : ∀ k, relies k → x.1.counts k e ∧ x.1.offerOf e = s.offerOf e) (hparts : PartsLaw (s.cfg e) (x.1.prog e))
    (hdeclines : DeclineLaw (s.cfg e) (x.1.prog e)) : Reshapes relies e s x :=
  ⟨hpart.1, hkept, hparts, hdeclines, fun hd => (hpart.2 hd).2 hl, fun hquiet hd => by
    rw [(hpart.2 hd).1] at hquiet
    cases hquiet⟩

theorem Reshapes.refl (hs : Standing relies s e) (b : Bool) : Reshapes relies e s (s, b) :=
  ⟨.refl e s, fun k hk => ⟨hs.counted k hk, rfl⟩, hs.parts, hs.declines, hs.listed, fun _ hd => ⟨hd, fun _ => id⟩⟩

/-! ### Entries with no host in their sets -/

/-- No host is offered the entry or holds it, and its decline set is that of its state (R11 step 3, R14). -/
def Progress.Fresh (p : Progress) : Prop :=
  p.offered = 0 ∧ p.held = 0 ∧ (p.decline = none ∨ p.state = .delivering ∧ p.decline = some 0)

/-- No host is offered the entry or holds it, and it has no decline set. -/
def Progress.Bare (p : Progress) : Prop := p.offered = 0 ∧ p.held = 0 ∧ p.decline = none

theorem Progress.Bare.fresh {p : Progress} (hp : p.Bare) : p.Fresh := by
  obtain ⟨hoffered, hheld, hdecline⟩ := hp
  exact ⟨hoffered, hheld, .inl hdecline⟩

theorem EntryLaw.bare (hl : EntryLaw s) (hd : (s.prog e).state ≠ .delivering) (hp : (s.prog e).state ≠ .parked) :
    (s.prog e).Bare := by
  obtain ⟨-, hsets, -, hdecline, -⟩ := hl.progressLaw e
  obtain ⟨hoffered, hheld⟩ := hsets hd
  refine ⟨hoffered, hheld, ?_⟩
  by_contra hne
  obtain ⟨hin, -⟩ := hdecline.mp hne
  exact hin.elim hd hp

/-- A set of targets is that of a host at least, so that no empty decline set covers it. -/
theorem Progress.Fresh.laws {p : Progress} {c : EntryConfig} (hp : p.Fresh) (hc : ConfigLaw e c) :
    PartsLaw c p ∧ DeclineLaw c p := by
  obtain ⟨hoffered, hheld, hdecline⟩ := hp
  obtain ⟨-, htargets, -⟩ := hc
  have hnone : ∀ k, ¬p.shares k := fun k hk => by
    rw [Progress.shares, hoffered, hheld, hasHost_zero] at hk
    exact hk.elim Bool.noConfusion Bool.noConfusion
  refine ⟨partsLaw_iff.mpr ⟨fun k hk => absurd (.inl hk) (hnone k), fun _ k hk => absurd hk (hnone k),
    fun _ k hk => absurd hk (hnone k)⟩, fun d hd => ?_⟩
  rcases hdecline with hn | ⟨hstate, hn⟩
  · rw [hn] at hd
    cases hd
  · rw [hn] at hd
    cases hd
    refine ⟨hostsWithin_iff.mpr fun k hk => ?_, fun hcover => absurd ?_ htargets, fun hparked => ?_⟩
    · rw [hasHost_zero] at hk
      cases hk
    · refine hostSet_eq_zero.mpr fun k => ?_
      rw [Bool.eq_false_iff]
      intro hk
      have hin := hostsWithin_iff.mp hcover k hk
      rw [hasHost_zero] at hin
      cases hin
    · rw [hstate] at hparked
      cases hparked

/-- A claim on an entry that no host goes by may leave it with no host in its sets. -/
theorem Reshapes.of_fresh (hs : Standing relies s e) (hpart : EventPart e listed s x) (hl : listed)
    (hn : (s.prog e).state ≠ .delivering ∨ (s.prog e).offered = 0) (hfresh : (x.1.prog e).Fresh) : Reshapes relies e s x :=
  .of_part hpart hl (fun k hk => absurd hk (hs.nobody hn k)) (hfresh.laws hs.config).1 (hfresh.laws hs.config).2

/-! ### The life of an entry -/

theorem toIdle_bare (s : State) (e : Source) : ((s.toIdle e).prog e).Bare := by
  rw [toIdle_prog]
  exact ⟨rfl, rfl, rfl⟩

theorem latch_bare (hb : (s.prog e).Bare) : ((s.latch e).prog e).Bare := by
  rw [latch_prog]
  exact hb

theorem enqueue_fresh (hb : (s.prog e).Bare) : ((s.enqueue e).prog e).Fresh := by
  rw [enqueue_prog]
  exact Progress.Bare.fresh hb

theorem completesOnce_fresh {next : State → State × Bool} (hn : ∀ u : State, (u.prog e).Bare → ((next u).1.prog e).Fresh) (s : State) :
    ((completesOnce next e s).1.prog e).Fresh := by
  have hidle := toIdle_bare s e
  have hagain : (((s.toIdle e).setProg e { (s.toIdle e).prog e with again := false }).prog e).Bare := by
    rw [State.setProg_prog_self]
    exact hidle
  unfold completesOnce
  simp only
  split_ifs
  · exact enqueue_fresh (latch_bare hagain)
  · exact hn _ (latch_bare hagain)
  · exact (latch_bare hagain).fresh
  · rw [State.setProg_prog_self]
    exact Progress.Bare.fresh (latch_bare hidle)
  · exact hidle.fresh

theorem deliverRound_fresh {next : State → State × Bool} (hn : ∀ u : State, (u.prog e).Bare → ((next u).1.prog e).Fresh) (o : Outcome) (s : State) :
    ((deliverRound next o e s).1.prog e).Fresh := by
  unfold deliverRound
  simp only
  split
  · exact completesOnce_fresh hn _
  · split
    · rw [State.startDelivery, State.setProg_prog_self]
      exact ⟨rfl, rfl, .inl rfl⟩
    · rw [State.startDelivery, State.setProg_prog_self, State.setProg_prog_self]
      exact ⟨rfl, rfl, .inr ⟨rfl, rfl⟩⟩
    · split
      · exact completesOnce_fresh hn _
      · rw [State.startDelivery, State.setProg_prog_self, State.setProg_prog_self]
        exact ⟨rfl, rfl, .inl rfl⟩

theorem deliver_fresh (n : Nat) : ∀ (o : Outcome) (s : State), ((deliver n o e s).1.prog e).Fresh := by
  induction n with
  | zero =>
    intro o s
    rw [deliver_zero]
    exact deliverRound_fresh (fun _ hu => hu.fresh) o s
  | succ n ih =>
    intro o s
    rw [deliver_succ]
    exact deliverRound_fresh (fun u _ => ih .plain u) o s

theorem leaveLatchedPart_fresh (hb : (s.prog e).Bare) : ((s.leaveLatchedPart e).1.prog e).Fresh := by
  unfold State.leaveLatchedPart
  split
  · exact enqueue_fresh hb
  · exact deliver_fresh 1 .plain s

theorem latchAndGoPart_fresh (hb : (s.prog e).Bare) : ((s.latchAndGoPart e).1.prog e).Fresh := by
  unfold State.latchAndGoPart
  simp only
  split
  · exact leaveLatchedPart_fresh (latch_bare hb)
  · exact (latch_bare hb).fresh

theorem completePart_fresh (s : State) (e : Source) : ((s.completePart e).1.prog e).Fresh := by
  have hidle := toIdle_bare s e
  unfold State.completePart
  simp only
  split_ifs
  · refine latchAndGoPart_fresh ?_
    rw [State.setProg_prog_self]
    exact hidle
  · exact latchAndGoPart_fresh hidle
  · exact hidle.fresh

/-! ### Parts given up and finished -/

theorem hasHost_of_dropHost {x : HostSet} {k : HostId} (hk : hasHost (dropHost x h) k = true) : k ≠ h ∧ hasHost x k = true := by
  simpa [hasHost_dropHost] using hk

theorem hasHost_drop_of_ne {x : HostSet} {k : HostId} (hk : hasHost x k = true) (hne : k ≠ h) : hasHost (dropHost x h) k = true := by
  simp [hasHost_dropHost, hk, hne]

/-- While h holds a DIRECTED or ANY entry, or is the last to owe an ALL entry, the entry is offered to no host (R99, R109). -/
theorem PartsLaw.unoffered {c : EntryConfig} {p : Progress} (hp : PartsLaw c p) (hh : hasHost p.held h = true)
    (hlast : c.policy = .all → dropHost (p.owed.getD 0) h = 0) : p.offered = 0 := by
  obtain ⟨hdisjoint, hone, hall⟩ := partsLaw_iff.mp hp
  refine hostSet_eq_zero.mpr fun k => ?_
  rw [Bool.eq_false_iff]
  intro hk
  have hkh : k = h := by
    by_cases hpol : c.policy = .all
    · exact (dropHost_eq_zero _ h).mp (hlast hpol) k (hall hpol k (.inl hk))
    · exact (hone hpol h (.inr hh)).2 k (.inl hk)
  rw [hkh] at hk
  have hnot := hdisjoint h hk
  rw [hh] at hnot
  cases hnot

/-- A host that shares a DIRECTED or ANY entry is a target of it. -/
theorem PartsLaw.target {c : EntryConfig} {p : Progress} (hp : PartsLaw c p) (hpol : c.policy ≠ .all) (hh : p.shares h) :
    hasHost c.targets h = true := by
  obtain ⟨-, hone, -⟩ := partsLaw_iff.mp hp
  exact (hone hpol h hh).1

theorem declinePart_part (s : State) (e : Source) (h : HostId) : EventPart e (e ∈ s.et.order) s (s.declinePart e h) := by
  unfold State.declinePart
  simp only
  split
  · exact .of_not_delivering ((EventOf.setProg s e _).trans (noteOn_eventOf _ e _ _)) (by simp)
  · exact ⟨.setProg s e _, fun _ => ⟨rfl, id⟩⟩

/-- The decline set of an entry that a host declines: of its targets, and all of them exactly if it parks (R102, R106). -/
theorem declinePart_laws (hs : Standing relies s e) (hpol : (s.cfg e).policy ≠ .all) (hstate : (s.prog e).state = .delivering)
    (hh : (s.prog e).shares h) :
    PartsLaw (s.cfg e) ((s.declinePart e h).1.prog e) ∧ DeclineLaw (s.cfg e) ((s.declinePart e h).1.prog e) := by
  have hdeclined : hostsWithin (addHost ((s.prog e).decline.getD 0) h) (s.cfg e).targets = true := by
    refine hostsWithin_iff.mpr fun k hk => ?_
    rw [hasHost_addHost, Bool.or_eq_true, beq_iff_eq] at hk
    rcases hk with rfl | hk
    · exact hs.parts.target hpol hh
    · cases hd : (s.prog e).decline with
      | none =>
        rw [hd] at hk
        simp [hasHost] at hk
      | some d =>
        rw [hd] at hk
        exact hostsWithin_iff.mp (hs.declines d hd).1 k hk
  unfold State.declinePart
  simp only
  split
  next hcover =>
    rw [noteOn_prog, State.setProg_prog_self]
    refine ⟨hs.parts.fewer (fun k hk => ?_) (fun k hk => ?_) fun hall => absurd hall hpol, fun d hd => ?_⟩
    · simp [hasHost] at hk
    · simp [hasHost] at hk
    · cases hd
      exact ⟨hdeclined, fun _ => rfl, fun _ => hcover⟩
  next hopen =>
    rw [State.setProg_prog_self]
    refine ⟨hs.parts.fewer (fun k hk => (hasHost_of_dropHost hk).2) (fun k hk => (hasHost_of_dropHost hk).2)
      fun hall => absurd hall hpol, fun d hd => ?_⟩
    cases hd
    refine ⟨hdeclined, fun hcover => absurd hcover hopen, fun hparked => ?_⟩
    change (s.prog e).state = .parked at hparked
    rw [hstate] at hparked
    cases hparked

/-- Host h declines an ANY entry that no host goes by any more (R102, R106). -/
theorem declinePart_reshapes (hs : Standing relies s e) (hpol : (s.cfg e).policy ≠ .all) (hstate : (s.prog e).state = .delivering)
    (hh : (s.prog e).shares h) (hnobody : ∀ k, ¬relies k) : Reshapes relies e s (s.declinePart e h) :=
  have hlaws := declinePart_laws hs hpol hstate hh
  .of_part (declinePart_part s e h) (hs.listed hstate) (fun k hk => absurd hk (hnobody k)) hlaws.1 hlaws.2

/-- The state part of e is changed in its host sets alone, of which those that go by it stay offered. -/
theorem Reshapes.of_sets (hs : Standing relies s e) {q : Progress} {b : Bool} (hstate : q.state = (s.prog e).state)
    (houtcome : q.outcome = (s.prog e).outcome) (hdecline : q.decline = (s.prog e).decline)
    (hoffered : ∀ k, relies k → hasHost q.offered k = true) (hparts : PartsLaw (s.cfg e) q)
    (htold : b = false → ∀ k, PolicyAllows (s.setProg e q) e k → PolicyAllows s e k) : Reshapes relies e s (s.setProg e q, b) where
  event := .setProg s e q
  kept k hk := by
    refine ⟨?_, offerOf_congr (State.setProg_cfg s e q e) (by rw [State.setProg_prog_self, houtcome])⟩
    rw [State.counts, State.setProg_prog_self, hstate]
    exact ⟨(hs.counted k hk).1, hoffered k hk⟩
  parts := by
    rw [State.setProg_prog_self]
    exact hparts
  declines := by
    rw [State.setProg_prog_self]
    unfold DeclineLaw
    rw [hdecline, hstate]
    exact hs.declines
  listed hd := by
    rw [State.setProg_prog_self, hstate] at hd
    exact hs.listed hd
  told hb hd := by
    rw [State.setProg_prog_self, hstate] at hd
    exact ⟨hd, htold hb⟩

/-- The owed set without h keeps the hosts other than h that share an ALL entry. -/
theorem PartsLaw.without {c : EntryConfig} {p q : Progress} (hp : PartsLaw c p)
    (hoffered : ∀ k, hasHost q.offered k = true → k ≠ h ∧ hasHost p.offered k = true)
    (hheld : ∀ k, hasHost q.held k = true → k ≠ h ∧ hasHost p.held k = true)
    (howed : q.owed = some (dropHost (p.owed.getD 0) h)) : PartsLaw c q := by
  refine hp.fewer (fun k hk => (hoffered k hk).2) (fun k hk => (hheld k hk).2) fun _ k hk ho => ?_
  rw [howed]
  exact hasHost_drop_of_ne ho (hk.elim (fun hk => (hoffered k hk).1) fun hk => (hheld k hk).1)

/-- A host that no longer owes an ALL entry has it no more, and another host no more than before. -/
theorem policyAllows_without {q : Progress} (hpol : (s.cfg e).policy = .all)
    (howed : q.owed = some (dropHost ((s.prog e).owed.getD 0) h)) (hheld : q.held = dropHost (s.prog e).held h) {k : HostId} (hk : PolicyAllows (s.setProg e q) e k) : PolicyAllows s e k := by
  obtain ⟨-, -, hall⟩ := hk
  rw [State.setProg_cfg, State.setProg_prog_self, howed, hheld, Option.getD_some] at hall
  obtain ⟨ho, hnot⟩ := hall hpol
  obtain ⟨hne, ho⟩ := hasHost_of_dropHost ho
  refine ⟨fun hd => absurd (hd.symm.trans hpol) (by decide), fun hd => absurd (hd.symm.trans hpol) (by decide), fun _ => ⟨ho, ?_⟩⟩
  rw [Bool.eq_false_iff]
  intro hk
  rw [hasHost_drop_of_ne hk hne] at hnot
  cases hnot

/-- Host h, which does not go by e, leaves the owed set of e by another cause than FINISH (R111). -/
theorem skipPart_reshapes (hs : Standing relies s e) (hpol : (s.cfg e).policy = .all) (hself : ¬relies h) :
    Reshapes relies e s (s.skipPart e h) := by
  have hne : ∀ k, relies k → k ≠ h := fun k hk hkh => hself (hkh ▸ hk)
  rw [skipPart_eq]
  split
  next hlast =>
    have hnobody : ∀ k, ¬relies k := fun k hk => by
      obtain ⟨-, -, hall⟩ := partsLaw_iff.mp hs.parts
      exact hne k hk ((dropHost_eq_zero _ h).mp hlast k (hall hpol k (.inl (hs.counted k hk).2)))
    have hpart : EventPart e True s ((s.skipped e h).completePart e) :=
      (completePart_part _ e).imp_left (skipped_eventOf s e h).trans
    have hlaws := (completePart_fresh (s.skipped e h) e).laws hs.config
    exact .of_part hpart trivial (fun k hk => absurd hk (hnobody k)) hlaws.1 hlaws.2
  next =>
    have hsets : Reshapes relies e s (s.setProg e { s.prog e with
        offered := dropHost (s.prog e).offered h
        held := dropHost (s.prog e).held h
        owed := some (dropHost ((s.prog e).owed.getD 0) h) }, false) :=
      .of_sets hs rfl rfl rfl (fun k hk => hasHost_drop_of_ne (hs.counted k hk).2 (hne k hk))
        (hs.parts.without (fun _ => hasHost_of_dropHost) (fun _ => hasHost_of_dropHost) rfl)
        fun _ _ => policyAllows_without hpol rfl rfl
    exact
      { event := skipped_eventOf s e h
        kept := fun k hk => by
          obtain ⟨hcounts, hcopy⟩ := hsets.kept k hk
          exact ⟨(counts_congr (noteOn_prog ..) k).mpr hcounts,
            (offerOf_congr (noteOn_cfg ..) (congrArg Progress.outcome (noteOn_prog ..))).trans hcopy⟩
        parts := by
          rw [State.skipped, noteOn_prog]
          exact hsets.parts
        declines := by
          rw [State.skipped, noteOn_prog]
          exact hsets.declines
        listed := fun hd => by
          rw [State.skipped, noteOn_et]
          rw [State.skipped, noteOn_prog] at hd
          exact hsets.listed hd
        told := fun hb hd => by
          rw [State.skipped, noteOn_prog] at hd
          obtain ⟨hdelivering, hallows⟩ := hsets.told hb hd
          refine ⟨hdelivering, fun k hk => hallows k ?_⟩
          simpa only [State.skipped, PolicyAllows, noteOn_prog, noteOn_cfg] using hk }

/-- The Event Table takes host h's FINISH of e (R87). -/
theorem finishPart_reshapes (hs : Standing relies s e) : Reshapes relies e s (s.finishPart e h) := by
  by_cases hh : Holds s e h
  case neg =>
    rw [finishPart_other hh]
    exact .refl hs false
  have hcompletes : ∀ q : Progress, ((s.cfg e).policy = .all → dropHost ((s.prog e).owed.getD 0) h = 0) →
      Reshapes relies e s ((s.setProg e q).completePart e) := fun q hlast =>
    .of_fresh hs ((completePart_part _ e).imp_left (EventOf.setProg s e q).trans) trivial (.inr (hs.parts.unoffered hh.2 hlast))
      (completePart_fresh _ e)
  rw [finishPart_holds hh]
  split
  next hpol =>
    split
    next hlast => exact hcompletes _ fun _ => hlast
    next =>
      obtain ⟨hdisjoint, -⟩ := partsLaw_iff.mp hs.parts
      refine .of_sets hs rfl rfl rfl (fun k hk => (hs.counted k hk).2) (hs.parts.without (fun k hk => ⟨?_, hk⟩)
        (fun _ => hasHost_of_dropHost) rfl) fun _ _ => policyAllows_without hpol rfl rfl
      rintro rfl
      have hnot := hdisjoint k hk
      rw [hh.2] at hnot
      cases hnot
  next hpol => exact hcompletes _ fun hall => absurd hall hpol

/-- The Event Table takes a release of e by host h (R89, R91). -/
theorem releasePart_reshapes (hs : Standing relies s e) (skips : Bool) : Reshapes relies e s (s.releasePart e h skips) := by
  by_cases hh : Holds s e h
  case neg =>
    rw [releasePart_other hh]
    exact .refl hs false
  have hhanded : Reshapes relies e s (s.setProg e (s.unheldBy e h), true) :=
    .of_sets hs rfl rfl rfl (fun k hk => (hs.counted k hk).2)
      (hs.parts.fewer (fun _ => id) (fun k hk => (hasHost_of_dropHost hk).2) fun _ _ _ => id) fun hb => by cases hb
  rw [releasePart_holds hh]
  cases hpol : (s.cfg e).policy with
  | directed => exact hhanded
  | any =>
    have hnall : (s.cfg e).policy ≠ .all := by simp [hpol]
    exact declinePart_reshapes hs hnall hh.1 (.inr hh.2)
      (hs.nobody (.inr (hs.parts.unoffered hh.2 fun hall => absurd hall hnall)))
  | all =>
    cases skips with
    | false => exact hhanded
    | true =>
      refine skipPart_reshapes hs hpol fun hr => ?_
      obtain ⟨hdisjoint, -⟩ := partsLaw_iff.mp hs.parts
      have hnot := hdisjoint h (hs.counted h hr).2
      rw [hh.2] at hnot
      cases hnot

end

end Sys2Proof.Machine
end

section
/-! The operations of the Event Table and of the transfers on a state that rests (chapters 1, 2 and 6 to 9). -/

open Sys2Proof Sys2Proof.Machine

namespace Sys2Proof.Machine

/-! ### Claims on one entry -/

section
variable {s t : State} {e : Source} {h : HostId} {p : HostId → Prop} {x : State × Bool}

theorem noteOn_untouched (s : State) (e : Source) (o : Origin) (n : Notice) : Untouched s (s.noteOn e o n) :=
  .of_eq (noteOn_eventOf s e o n).side (noteOn_et s e o n)

theorem merge_untouched (s : State) (e : Source) : Untouched s (s.merge e) := by
  unfold State.merge
  simp only
  split_ifs
  · exact .setEntry rfl
  · exact .refl s
  · exact (Untouched.setEntry (x := { s.entry e with prog := { s.prog e with merged := (s.prog e).merged + 1, saturated := true } })
      rfl).trans (noteOn_untouched ..)
  · exact .setEntry rfl

theorem Settled.enterDelivering (hs : Settled (fun k _ => p k) s) (hn : (s.prog e).state ≠ .delivering) (hm : e ∈ s.et.order)
    (o : Outcome) : Settled (fun k _ => p k) (s.enterDelivering e o) :=
  (hs.reshape (.of_fresh (hs.standing e) (deliver_part 1 o s) hm (.inl hn) (deliver_fresh 1 o s))).tell

theorem Settled.leaveLatched (hs : Settled (fun k _ => p k) s) (hn : (s.prog e).state ≠ .delivering) (hm : e ∈ s.et.order)
    (hb : (s.prog e).Bare) : Settled (fun k _ => p k) (s.leaveLatched e) :=
  (hs.reshape (.of_fresh (hs.standing e) (leaveLatchedPart_part s e) hm (.inl hn) (leaveLatchedPart_fresh hb))).tell

theorem Settled.latchAndGo (hs : Settled (fun k _ => p k) s) (hn : (s.prog e).state ≠ .delivering) (hb : (s.prog e).Bare) :
    Settled (fun k _ => p k) (s.latchAndGo e) :=
  (hs.reshape (.of_fresh (hs.standing e) (latchAndGoPart_part True s e) trivial (.inl hn) (latchAndGoPart_fresh hb))).tell

theorem Settled.complete (hs : Settled (fun k _ => p k) s) (hn : (s.prog e).state ≠ .delivering) :
    Settled (fun k _ => p k) (s.complete e) :=
  (hs.reshape (.of_fresh (hs.standing e) (completePart_part s e) trivial (.inl hn) (completePart_fresh s e))).tell

/-- An IDLE entry of a lawful Event Table latches. -/
theorem Settled.latches (hs : Settled (fun k _ => p k) s) (hl : EntryLaw s) (hi : (s.prog e).state = .idle) :
    Settled (fun k _ => p k) (s.latchAndGo e) :=
  hs.latchAndGo (by simp [hi]) (hl.bare (by simp [hi]) (by simp [hi]))

theorem Settled.arrive (hs : Settled (fun k _ => p k) s) (hl : EntryLaw s) (e : Source) : Settled (fun k _ => p k) (s.arrive e) := by
  unfold State.arrive
  split
  next hi => exact hs.latches hl hi
  next => exact hs.untouched (merge_untouched s e)

theorem Settled.assertLevel (hs : Settled (fun k _ => p k) s) (hl : EntryLaw s) (e : Source) :
    Settled (fun k _ => p k) (s.assertLevel e) := by
  unfold State.assertLevel
  split
  next hi => exact hs.latches hl hi
  next => exact hs

/-- An entry that is not IDLE stands in the arrival order list (R16). -/
theorem EntryLaw.listed (hl : EntryLaw s) (hn : (s.prog e).state ≠ .idle) : e ∈ s.et.order := by
  obtain ⟨-, ⟨-, horder⟩, -⟩ := hl
  exact (horder e).mpr hn

theorem Settled.deassertLevel (hs : Settled (fun k _ => p k) s) (hl : EntryLaw s) (e : Source) :
    Settled (fun k _ => p k) (s.deassertLevel e) := by
  by_cases hh : (s.prog e).hold = true
  case neg =>
    rw [deassertLevel_unmarked (by simpa using hh)]
    exact hs
  have hlatched := hl.latched_of_hold hh
  have hunheld : Settled (fun k _ => p k) (s.unheld e) := hs.untouched (.setEntry rfl)
  have hbare : ((s.unheld e).prog e).Bare := by
    rw [State.unheld, State.setProg_prog_self]
    exact hl.bare (e := e) (by simp [hlatched]) (by simp [hlatched])
  rw [deassertLevel_marked hl hh]
  split
  · refine hunheld.leaveLatched ?_ (hl.listed (e := e) (by simp [hlatched])) hbare
    rw [State.unheld, State.setProg_prog_self]
    change (s.prog e).state ≠ _
    simp [hlatched]
  · exact hunheld

theorem Settled.judgeLine (hs : Settled (fun k _ => p k) s) (hl : EntryLaw s) (e : Source) (high : Bool) :
    Settled (fun k _ => p k) (s.judgeLine e high) := by
  unfold State.judgeLine
  cases (s.cfg e).kind with
  | rising => cases high <;> [exact hs; exact hs.arrive hl e]
  | falling => cases high <;> [exact hs.arrive hl e; exact hs]
  | both => exact hs.arrive hl e
  | levelHigh => cases high <;> [exact hs.deassertLevel hl e; exact hs.assertLevel hl e]
  | levelLow => cases high <;> [exact hs.assertLevel hl e; exact hs.deassertLevel hl e]
  | posted => exact hs
  | notice => exact hs

/-- A release by a host whose session is over (R91). -/
theorem Settled.releaseAt (hs : Settled (fun k _ => p k) s) (e : Source) (h : HostId) : Settled (fun k _ => p k) (s.releaseAt e h) :=
  (hs.reshape (releasePart_reshapes (hs.standing e) false)).tell

/-- A departure of a host that does not go by the entry (R111). -/
theorem Settled.departAt (hs : Settled (fun k _ => p k) s) (hl : EntryLaw s) (hself : ¬(s.side h).Relies e) :
    Settled (fun k _ => p k) (s.departAt e h) := by
  by_cases howes : (s.prog e).state = .delivering ∧ hasHost ((s.prog e).owed.getD 0) h = true
  case neg =>
    rw [departAt_other howes]
    exact hs
  rw [departAt_owes howes.1 howes.2]
  exact (hs.reshape (skipPart_reshapes (hs.standing e) (hl.policy_of_owes howes.2) hself)).tell

/-- Host h, which does not go by e, declines it (R102). -/
theorem Settled.declineBy (hs : Settled (fun k _ => p k) s) (hpol : (s.cfg e).policy ≠ .all) (hc : s.counts h e)
    (hself : ¬(s.side h).Relies e) : Settled (fun k _ => p k) (s.declineBy e h) := by
  refine (hs.reshape (declinePart_reshapes (hs.standing e) hpol hc.1 (.inl hc.2) fun k hk => ?_)).tell
  obtain ⟨-, hone, -⟩ := partsLaw_iff.mp (hs.sound.parts e)
  have hkh : k = h := (hone hpol h (.inl hc.2)).2 k (.inl ((hs.standing e).counted k hk).2)
  exact hself (hkh ▸ hk)

/-- Host h, which does not go by e, leaves the offered set of e, and the news of e is taken (R12, R67). -/
theorem Settled.leaveOffered (hs : Settled (fun k _ => p k) s) (hself : ¬(s.side h).Relies e) :
    Settled (fun k _ => p k) ((s.leaveOffered e h).offerNews e) := by
  have hreshape : Reshapes (fun k => (s.side k).Relies e) e s (s.leaveOffered e h, true) := by
    refine .of_sets (hs.standing e) rfl rfl rfl (fun k hk => ?_)
      ((hs.sound.parts e).fewer (fun k hk => (hasHost_of_dropHost hk).2) (fun _ => id) fun _ _ _ => id) fun hb => by cases hb
    exact hasHost_drop_of_ne ((hs.standing e).counted k hk).2 fun hkh => hself (hkh ▸ hk)
  exact Settled.tell (e := e) (hs.reshape hreshape)

theorem Settled.withdrawAt (hs : Settled (fun k _ => p k) s) (hself : ¬(s.side h).Relies e) :
    Settled (fun k _ => p k) (s.withdrawAt e h) := by
  unfold State.withdrawAt
  split
  · exact hs.leaveOffered hself
  · exact hs

end

/-! ### Run results -/

section
variable {s : State} {e : Source} {p : HostId → Prop}

theorem answerDisarms_untouched (s : State) (e : Source) : Untouched s (s.answerDisarms e) := by
  refine .of_eq (funext fun k => ?_) rfl
  simp only [State.side, State.answerDisarms, State.port, look_mapTable]
  split <;> rfl

/-- The run of an entry is counted, or ended, in its binding and its marks. -/
theorem runEnded_untouched (s : State) (e : Source) (b : Binding) :
    Untouched s (s.setEntry e { s.entry e with bind := b, prog := { (s.entry e).prog with disarmPending := false } }) := .setEntry rfl

theorem Settled.endRunAt (hs : Settled (fun k _ => p k) s) (hr : (s.prog e).state = .running) (hm : e ∈ s.et.order) (o : Outcome) :
    Settled (fun k _ => p k) (s.endRunAt e o) := by
  refine (hs.untouched (runEnded_untouched s e _)).enterDelivering ?_ hm o
  rw [State.setEntry_prog, if_pos rfl]
  change (s.prog e).state ≠ _
  simp [hr]

theorem Settled.succeedAt (hs : Settled (fun k _ => p k) s) (hr : (s.prog e).state = .running) (hm : e ∈ s.et.order) :
    Settled (fun k _ => p k) (s.succeedAt e) := by
  have hcounted := hs.untouched (runEnded_untouched s e (countRun (s.entry e).bind (s.entry e).prog.disarmPending))
  have hn : ((s.setEntry e { s.entry e with
      bind := countRun (s.entry e).bind (s.entry e).prog.disarmPending
      prog := { (s.entry e).prog with disarmPending := false } }).prog e).state ≠ .delivering := by
    rw [State.setEntry_prog, if_pos rfl]
    change (s.prog e).state ≠ _
    simp [hr]
  unfold State.succeedAt
  simp only
  split
  · exact hcounted.enterDelivering hn hm .ran
  · exact hcounted.enterDelivering hn hm .ranLast
  · exact hcounted.enterDelivering hn hm .ranLast
  · exact hcounted.complete hn
  · exact hcounted.complete hn

theorem Settled.takeResult (hs : Settled (fun k _ => p k) s) (hl : EntryLaw s) (c : ChannelId) {apply : State → Source → State}
    (ha : ∀ (t : State) (e : Source), Settled (fun k _ => p k) t → (t.prog e).state = .running → e ∈ t.et.order →
      Settled (fun k _ => p k) (apply t e)) : Settled (fun k _ => p k) (s.takeResult c apply) := by
  have htaken : Settled (fun k _ => p k) { s with claims := { s.claims with reports := put s.claims.reports c none } } :=
    hs.untouched (.of_eq rfl rfl)
  unfold State.takeResult
  simp only
  split
  next => exact htaken.untouched (.of_eq rfl rfl)
  next e _ =>
    split
    next hr =>
      have happlied := ha _ e htaken hr (hl.listed (e := e) (by rw [show (s.prog e).state = .running from hr]; decide))
      exact (happlied.untouched (answerDisarms_untouched _ e)).untouched (.of_eq rfl rfl)
    next => exact htaken.untouched (.of_eq rfl rfl)

end

/-! ### The transfers -/

section
variable {s : State} {c : ChannelId} {e : Source} {p : HostId → Source → Prop}

theorem setChannel_untouched (s : State) (c : ChannelId) (x : Channel) : Untouched s (s.setChannel c x) := .of_eq rfl rfl

theorem setDesc_untouched (s : State) (d : DescId) (x : Descriptor) : Untouched s (s.setDesc d x) := .of_eq rfl rfl

theorem reportRun_untouched (s : State) (c : ChannelId) (r : RunResult) : Untouched s (s.reportRun c r) := .of_eq rfl rfl

theorem failRun_untouched (s : State) (c : ChannelId) (d : DescId) (k : NoticeKind) (o : Option HostId) (a : Option Addr) :
    Untouched s (s.failRun c k o d a) := .of_eq rfl rfl

theorem stopForCut_untouched (s : State) (c : ChannelId) : Untouched s (s.stopForCut c) := by
  unfold State.stopForCut
  split <;> exact .of_eq rfl rfl

theorem arriveAt_untouched (s : State) (c : ChannelId) (d : DescId) : Untouched s (s.arriveAt c d) := by
  unfold State.arriveAt
  simp only
  split_ifs
  · exact stopForCut_untouched s c
  · exact failRun_untouched ..
  · exact .of_eq rfl rfl
  · exact .of_eq rfl rfl

theorem grantPort_untouched (s : State) (c : ChannelId) : Untouched s (s.grantPort c) := by
  unfold State.grantPort
  split
  · exact .refl s
  · exact .of_eq rfl rfl

theorem nextGrant_untouched (s : State) : Untouched s s.nextGrant := by
  unfold State.nextGrant
  simp only
  split_ifs
  · exact .refl s
  · exact grantPort_untouched s _
  · exact grantPort_untouched s _
  · exact .refl s

theorem freePort_untouched (s : State) : Untouched s s.freePort := by
  have hfreed : Untouched s { s with mp := { s.mp with grant := none, access := none, heldData := none } } := .of_eq rfl rfl
  exact hfreed.trans (nextGrant_untouched _)

theorem failUnit_untouched (s : State) (c : ChannelId) (d : DescId) (atPort : Bool) (k : NoticeKind) (a : Addr) :
    Untouched s (s.failUnit c d atPort k a) := by
  have hfaulted := setDesc_untouched s d { s.desc d with active := false, faulted := true }
  unfold State.failUnit
  refine Untouched.trans ?_ (failRun_untouched ..)
  cases atPort with
  | false => exact hfaulted
  | true => exact (hfaulted.trans (setChannel_untouched ..)).trans (freePort_untouched _)

theorem boundary_untouched (s : State) (c : ChannelId) (d : DescId) : Untouched s (s.boundary c d) := by
  have hleft := (setDesc_untouched s d { s.desc d with active := false }).trans (setChannel_untouched _ c
    { s.channel c with completed := (s.channel c).completed + 1, units := 0, phase := .idle })
  unfold State.boundary
  simp only
  split
  · exact stopForCut_untouched s c
  · split
    · exact setChannel_untouched ..
    · cases (s.desc d).link with
      | none => exact hleft.trans (reportRun_untouched ..)
      | some next =>
        simp only
        split
        · exact hleft.trans (failRun_untouched ..)
        · exact hleft.trans (setChannel_untouched ..)

theorem endUnit_untouched (s : State) (c : ChannelId) (d : DescId) : Untouched s (s.endUnit c d) := by
  unfold State.endUnit
  refine Untouched.trans ?_ (boundary_untouched _ c d)
  refine Untouched.trans ?_ (freePort_untouched _)
  exact .of_eq rfl rfl

theorem cutChannel_untouched (s : State) (c : ChannelId) : Untouched s (s.cutChannel c) := by
  have hmarked : Untouched s (s.setChannel c { s.channel c with cutMark := true }) := .of_eq rfl rfl
  unfold State.cutChannel
  simp only
  split
  · exact .refl s
  · split
    · exact hmarked
    · exact hmarked
    · exact hmarked
    · exact hmarked.trans (stopForCut_untouched _ c)

/-- An entry that waited for a channel is QUEUED, and as RUNNING it is still in no host's sets (R9). -/
theorem Settled.grantChannel (hs : Settled p s) (hb : ∀ e, s.bestQueued = some e → (s.prog e).state ≠ .delivering ∧ (s.prog e).Bare) :
    Settled p (s.grantChannel c) := by
  unfold State.grantChannel
  split
  next => exact hs
  next e hbest =>
    obtain ⟨hn, hbare⟩ := hb e hbest
    simp only
    set u : State := { (s.setChannel c _) with du := { (s.setChannel c _).du with
      list := (s.setChannel c _).du.list.filter (fun x => x != e), lastGrant := c } } with hu
    have hgranted : Settled p u := hs.untouched (.of_eq rfl rfl)
    have hpart : EventPart e True u (u.setProg e { u.prog e with state := .running }, false) :=
      .of_not_delivering (.setProg u e _) (by simp)
    have hfresh : ((u.setProg e { u.prog e with state := .running }).prog e).Fresh := by
      rw [State.setProg_prog_self]
      exact Progress.Bare.fresh hbare
    have hreshaped := hgranted.reshape (.of_fresh (hgranted.standing e) hpart trivial (.inl hn) hfresh)
    exact hreshaped.mono fun k f hp => ⟨hp, fun hnews => by cases hnews⟩

end

end Sys2Proof.Machine
end

section
/-! The claims of the Host Context Unit and the Offer Unit on one host, on a state that rests (R44, R46, R48, R73, R77, R86). -/

open Sys2Proof Sys2Proof.Machine

namespace Sys2Proof.Machine

/-! ### The port of a host that waits for no TAKE -/

theorem HostRecord.Ok.stack_of_detached {r : HostRecord} (hr : r.Ok) (hd : r.ctx.session = .detached) : r.ctx.stack = [] :=
  List.sublist_nil.mp (hr.gone hd ▸ hr.stack)

section
variable {counts : Source → Prop} {copy : Source → Offer} {x : HostSide}

/-- What waits at the port of a DETACHED host is no part of a TAKE any more (R46, R59). -/
theorem HostSide.Ok.withWaiting_of_detached (hx : x.Ok counts copy) (hhost : x.host.Ok) (hd : x.host.ctx.session = .detached)
    (w : Option BusWait) : HostSide.Ok counts copy { x with waiting := w } := by
  have hempty := hhost.stack_of_detached hd
  refine { hx with awaited := fun t ht hended => ?_, holds := fun e c hy => ?_, undone := fun e he => ?_ }
  · exact absurd (((hhost.matched t ht).2 hended).1.symm.trans hd) (by decide)
  · obtain ⟨hundo, hplaced⟩ := hx.holds e c hy
    refine ⟨hundo, .inr (hplaced.resolve_left fun hp => ?_)⟩
    obtain ⟨-, r, hr, -⟩ := hp
    rw [hempty] at hr
    cases hr
  · have hrecord := (hx.undone e he).2
    rw [holdsRecord, hempty] at hrecord
    cases hrecord

end

section
variable {s t : State} {h : HostId} {e : Source} {y : Handed} {p : Handed → Bool}

/-- A write to the port of a host that waits for no TAKE, or is DETACHED, is seen by no choice. -/
theorem Settled.setPort {q : HostId → Source → Prop} (hs : Settled q s)
    (hw : (s.port h).waiting ≠ some .take ∨ (s.ctx h).session = .detached) (p : Port) : Settled q (s.setPort h p) :=
  hs.unseen (hs.sound.hosts.of_host rfl) rfl (setPort_side s h p) rfl fun hhost hx =>
    hw.elim (fun hw => hx.withWaiting hw p.waiting) fun hd => hx.withWaiting_of_detached hhost hd p.waiting

theorem Settled.answer {q : HostId → Source → Prop} (hs : Settled q s) (h : HostId) (code : Operand) (r : ResultCode) :
    Settled q (s.answer h code r) := hs.untouched (.answer s h code r)

/-! ### Sessions -/

/-- The session opens with nothing left to be given back, and the choice of the host follows (R44). -/
theorem Settled.attachNow (hs : OpenAt h s) (hg : s.givingBack h = false) : Resting (s.attachNow h) := by
  have hhosts : HostLaw (s.opened h) :=
    hs.sound.hosts.update (setCtx_host s h _) fun hx => hx.withCtx (.inr rfl) rfl rfl hx.limit
  exact (hs.update hhosts rfl (setCtx_side s h _) (.inl rfl) fun _ hx => hx.withCtx (.inr (.inl hg)) rfl).choose

/-- A session's end empties the slot and hands back what the host had (R46, R91). -/
theorem Settled.giveBack (hs : Resting s) (hd : (s.ctx h).session ≠ .detached) : Resting (s.giveBack h) := by
  obtain ⟨-, -, -, ⟨hstopped, -⟩, -⟩ := hs.sound.hosts h
  have hhosts := hs.sound.hosts.giveBack h
  rw [giveBack_eq hstopped] at hhosts ⊢
  have hhost : (s.gaveBack h (s.owedBy h)).host h = _ := congrFun (gaveBack_host s h (s.owedBy h)) h
  rw [Function.update_self] at hhost
  have hside := gaveBack_side s h (s.owedBy h)
  rw [hhost] at hside
  have hgave : OpenAt h (s.gaveBack h (s.owedBy h)) :=
    (hs.openAt h).update hhosts rfl hside (.inr rfl) fun hok hx => hx.gaveBack hok hd
  exact hgave.of_empty (by simp [State.gaveBack, State.slot])

theorem giveBack_session (hl : HostLaw s) (h : HostId) : ((s.giveBack h).ctx h).session = .detached := by
  obtain ⟨-, -, -, ⟨hstopped, -⟩, -⟩ := hl h
  rw [giveBack_eq hstopped]
  simp [State.gaveBack, State.ctx]

/-! ### Claims handed on and taken -/

/-- More claims handed on, none of them a hold (R46, R73, R86). -/
theorem Settled.hand {q : HostId → Source → Prop} (hs : Settled q s) {m : List Handed} (hm : ∀ y ∈ m, y.isHold = false)
    (hreturn : ∀ y ∈ m, y.isReturn = true → (s.ctx h).session ≠ .attached)
    (hwithdraw : ∀ e, Handed.withdraw e ∈ m → ¬(s.side h).Relies e) : Settled q (s.hand h m) :=
  hs.unseen (hs.sound.hosts.hand h m) rfl (setHanded_side s h _) rfl fun _ hx => hx.handMore hm hreturn hwithdraw

theorem takeHanded_next (ht : s.takeHanded h p = some (y, t)) :
    ∃ l, NextOf y (s.handedOf h) l ∧ t = s.setHanded h l := by
  obtain ⟨l, ⟨-, before, after, hall, hl, hbefore⟩, ht⟩ := takeHanded_some.mp ht
  exact ⟨l, ⟨before, after, hall, hl, fun z hz => (hbefore z hz).2⟩, ht⟩

/-- The next claim is taken (log 2). -/
theorem Settled.takeHanded (hs : Resting s) (ht : s.takeHanded h p = some (y, t)) (hhosts : HostLaw t) : Resting t := by
  obtain ⟨l, hnext, rfl⟩ := takeHanded_next ht
  exact hs.unseen hhosts rfl (setHanded_side s h l) rfl fun _ hx => hx.next hnext

/-- The host of a release or a departure that is taken goes by no entry (R45, R46, R54). -/
theorem takeHanded_not_relies (hs : Resting s) (ht : s.takeHanded h p = some (y, t)) (hy : y.isReturn = true) (e : Source) :
    ¬(t.side h).Relies e := by
  obtain ⟨l, hnext, rfl⟩ := takeHanded_next ht
  rw [setHanded_side, Function.update_self]
  exact (hs.sound.linked h).next_not_relies (hs.sound.host h) hnext hy e

/-- The host of a withdrawal that is taken does not go by its entry (log 6). -/
theorem takeHanded_withdraw_not_relies (hs : Resting s) (ht : s.takeHanded h p = some (.withdraw e, t)) : ¬(t.side h).Relies e := by
  obtain ⟨l, hnext, rfl⟩ := takeHanded_next ht
  rw [setHanded_side, Function.update_self]
  intro hr
  exact ((hs.sound.linked h).counted e (hr.imp_right (Or.imp_right (hnext.sublist.subset ·)))).2 hnext.mem

/-! ### The threshold -/

/-- A threshold that leaves the effective level of the stack leaves that of the view, whose top is no lower (R43, R63). -/
theorem thresholdAt_viewLevel (hl : HostLaw s) {v : Level} (hv : (s.thresholdAt h v).level h = s.level h) :
    (s.thresholdAt h v).viewLevel h = s.viewLevel h := by
  have hok := hostLaw_iff.mp hl h
  have hlevel : levelOver v (s.ctx h).stack = levelOver (s.ctx h).threshold (s.ctx h).stack := by
    simpa [State.level, State.thresholdAt, effectiveLevel] using hv
  have hview : (s.thresholdAt h v).viewLevel h = levelOver v (s.viewOf h) := by
    simp [State.viewLevel, State.thresholdAt]
  rw [hview, State.viewLevel]
  cases hstack : (s.ctx h).stack.getLast? with
  | none =>
    rw [levelOver, levelOver, hstack] at hlevel
    have hlevel : v = (s.ctx h).threshold := hlevel
    rw [hlevel]
  | some r =>
    have hr : r ∈ s.viewOf h := hok.stack.subset (List.mem_of_getLast? hstack)
    obtain ⟨top, htop⟩ : ∃ top, (s.viewOf h).getLast? = some top :=
      ⟨_, List.getLast?_eq_some_getLast (List.ne_nil_of_mem hr)⟩
    have hle : r.level ≤ top.level := by
      have hle := level_le_levelOver (v := 0) hok.sorted hr
      rw [levelOver, show (s.host h).view.getLast? = some top from htop] at hle
      exact hle.trans (max_eq_right (Fin.zero_le _)).le
    rw [levelOver, levelOver, hstack] at hlevel
    rw [levelOver, levelOver, htop]
    have hlevel : max v r.level = max (s.ctx h).threshold r.level := hlevel
    calc max v top.level = max (max v r.level) top.level := by rw [max_assoc, max_eq_right hle]
      _ = max (max (s.ctx h).threshold r.level) top.level := by rw [hlevel]
      _ = max (s.ctx h).threshold top.level := by rw [max_assoc, max_eq_right hle]

theorem Settled.writeThreshold (hs : Resting s) (h : HostId) (v : Level) : Resting (s.writeThreshold h v) := by
  by_cases hv : ∀ o ∈ (s.slot h).offer, (s.thresholdAt h v).viewLevel h < o.level
  · have hhosts := hs.sound.hosts.thresholdAt hv
    rw [writeThreshold_eq hv]
    split
    next hlevel =>
      refine hs.unseen hhosts rfl (setCtx_side s h _) ?_ fun _ hx => hx.withCtx (.inl rfl) rfl
      have hview := thresholdAt_viewLevel hs.sound.hosts hlevel
      rw [State.viewLevel, State.viewLevel, State.thresholdAt, State.setCtx_ctx_self] at hview
      exact congrArg (·, _) hview
    next => exact ((hs.openAt h).update hhosts rfl (setCtx_side s h _) (.inl rfl) fun _ hx => hx.withCtx (.inl rfl) rfl).choose
  · simp only [not_forall, not_lt] at hv
    obtain ⟨o, ho, hle⟩ := hv
    have hside : ((s.thresholdAt h v).withdrawn h o.source).side = Function.update s.side h { s.side h with host :=
        { s.host h with
          ctx := { s.ctx h with threshold := v }
          slot := { offer := none, timer := none }
          handed := s.handedOf h ++ [.withdraw o.source] } } := by
      refine side_eq_of_host s h ?_ (fun _ => rfl) fun _ => rfl
      simp [State.withdrawn, State.thresholdAt, setHanded_host, setSlot_host, setCtx_host, State.host]
    rw [writeThreshold_withdraws ho hle]
    refine ((hs.openAt h).update (hs.sound.hosts.thresholdAt_withdrawn h v o.source) rfl hside (.inr rfl) fun hhost hx => ?_).choose
    have hempty := hx.emptied.handMore (m := [.withdraw o.source]) (by simp [Handed.isHold]) (by simp [Handed.isReturn]) fun e he => by
      rw [Handed.withdraw.inj (List.mem_singleton.mp he)]
      exact hx.emptied_not_relies hhost ho
    exact hempty.withCtx (.inl rfl) rfl

/-! ### TAKE, FINISH and RELEASE -/

theorem Settled.matchTake (hs : Resting s) (hw : (s.port h).waiting ≠ some .take) (e : Source) : Resting (s.matchTake h e) := by
  by_cases ho : ∀ o ∈ (s.slot h).offer, o.source ≠ e
  · rw [matchTake_stale ho]
    exact hs.answer h 4 .stale
  · simp only [not_forall, not_not] at ho
    obtain ⟨o, ho, he⟩ := ho
    have hhosts := hs.sound.hosts.matchTake h e
    rw [matchTake_offered ho he] at hhosts ⊢
    have htaken : OpenAt h _ := (hs.openAt h).update (x := { s.side h with
        host := { s.host h with slot := { offer := none, timer := none }, take := some { offer := o, cleared := false, ended := false } }
        waiting := some .take }) hhosts rfl
      (side_eq_update
        (by simp [State.side, State.host, State.ctx, State.viewOf, State.slot, State.takeOf, State.lapseOf, State.handedOf, State.port,
              State.undoOf])
        fun k hk => by
          simp [State.side, State.host, State.ctx, State.viewOf, State.slot, State.takeOf, State.lapseOf, State.handedOf, State.port,
            State.undoOf, look_put_ne _ _ hk])
      (.inr rfl) fun hhost hx => hx.matchTake hhost ho hw
    exact htaken.of_empty (by simp [State.slot])

theorem Settled.endService (hs : Resting s) (hw : (s.port h).waiting ≠ some .take) (code : Operand)
    (hy : ∀ r : StackRecord, r.source = e → removalIn [y] r = true) (hhold : y.isHold = false) (hreturn : y.isReturn = false)
    (hwithdraw : ∀ f, y ≠ .withdraw f) : Resting (s.endService h code e y) := by
  unfold State.endService
  split
  next =>
    have hhost : ((s.setCtx h (dropRecord (s.ctx h) e)).hand h [y]).host = Function.update s.host h
        { s.host h with ctx := dropRecord (s.ctx h) e, handed := s.handedOf h ++ [y] } := by
      simp [State.hand, setHanded_host, setCtx_host, State.host]
    have hhosts : HostLaw ((s.setCtx h (dropRecord (s.ctx h) e)).hand h [y]) :=
      hs.sound.hosts.update hhost fun hx => hx.endService hy
    exact (hs.unseen hhosts rfl (side_eq_of_host s h hhost (fun _ => rfl) fun _ => rfl) rfl fun _ hx =>
      hx.endService hw hhold hreturn hwithdraw).answer h code .ok
  next => exact hs.answer h code .state

/-! ### The contexts -/

/-- A context written in its limits and rights is seen by no choice. -/
theorem Settled.setContext (hs : Resting s) {c : HostContext} (hsession : c.session = (s.ctx h).session)
    (hthreshold : c.threshold = (s.ctx h).threshold) (hstack : c.stack = (s.ctx h).stack)
    (hlimit : (s.ctx h).lapseLimit ≠ 0 → c.lapseLimit ≠ 0) : Resting (s.setCtx h c) := by
  refine hs.unseen (hs.sound.hosts.setContext hsession hthreshold hstack hlimit) rfl (setCtx_side s h c) ?_ fun _ hx =>
    hx.withCtx (.inl hsession) hstack
  simp only [HostRecord.sees, hsession, hthreshold]
  rfl

end

end Sys2Proof.Machine
end

section
/-! The claims between the blocks, each on a state that rests (R46, R54, R75, R84, R85, R87, R89, R91, R111). -/

open Sys2Proof Sys2Proof.Machine

namespace Sys2Proof.Machine

section
variable {counts : Source → Prop} {copy : Source → Offer} {x : HostSide}

/-- The laws of a side speak of neither the lapse report nor the Offer Unit's view. -/
theorem HostSide.Ok.withLapse (hx : x.Ok counts copy) (l : LapseClaim) :
    HostSide.Ok counts copy { x with host := { x.host with lapse := l } } := { hx with }

theorem HostSide.Ok.withView (hx : x.Ok counts copy) (v : List StackRecord) :
    HostSide.Ok counts copy { x with host := { x.host with view := v } } := { hx with }

/-- The hold that is taken is all that is on its way of a TAKE (R84). -/
theorem HostSide.Ok.hold_alone (hx : x.Ok counts copy) {e : Source} {c : Bool} {l : List Handed}
    (hn : NextOf (.hold e c) x.host.handed l) : x.host.take = none ∧ ∀ y ∈ l, y.isHold = false := by
  refine ⟨?_, hx.next_no_hold hn (.inr rfl)⟩
  by_contra hne
  obtain ⟨t, ht⟩ := Option.ne_none_iff_exists'.mp hne
  exact absurd ((hx.alone t ht).2 _ hn.mem) (by simp [Handed.isHold])

/-- With its hold taken the host goes by the entry no more. -/
theorem HostSide.Ok.hold_not_relies (hx : x.Ok counts copy) (hhost : x.host.Ok) {e : Source} {l : List Handed}
    (hn : NextOf (.hold e false) x.host.handed l) : ¬HostSide.Relies { x with host := { x.host with handed := l } } e := by
  obtain ⟨htake, hnohold⟩ := hx.hold_alone hn
  rintro (⟨o, ho, rfl⟩ | ⟨t, ht, -⟩ | hy)
  · exact hx.no_hold_of_offer hhost ho hn.mem
  · have ht : x.host.take = some t := ht
    rw [htake] at ht
    cases ht
  · exact absurd (hnohold _ hy) (by simp [Handed.isHold])

/-- The TAKE waits at the port while the record of its hold is on the stack (R84). -/
theorem HostSide.Ok.waits_of_record (hx : x.Ok counts copy) (hhost : x.host.Ok) {e : Source} {c : Bool}
    (hy : Handed.hold e c ∈ x.host.handed) (hrecord : holdsRecord x.host.ctx e = true) : x.waiting = some .take := by
  refine (hx.waits_of_hold (fun hd => ?_) hy).1
  rw [holdsRecord, hhost.stack_of_detached hd] at hrecord
  cases hrecord

end

/-! ### Expiries and lapses -/

section
variable {s : State} {h : HostId}

theorem Settled.expired (hs : Resting s) {o : Offer} (ho : (s.slot h).offer = some o) (due : Nat) :
    Resting (s.expired h due) ∧ (s.expired h due).counts h o.source ∧ ¬((s.expired h due).side h).Relies o.source := by
  have hhost : (s.expired h due).host = Function.update s.host h
      { s.host h with slot := { offer := none, timer := none }, lapse := .reported } := by
    have htime : ∀ n, State.host { s with tb := { s.tb with micros := n } } = s.host := fun _ => rfl
    simp [State.expired, setLapse_host, setSlot_host, htime]
  have hside := side_eq_of_host s h hhost (fun _ => rfl) fun _ => rfl
  have hhosts : HostLaw (s.expired h due) := hs.sound.hosts.update hhost fun hx =>
    hx.emptied.withLapse fun _ => ⟨rfl, (hx.filled (by simp [State.host, ho])).1⟩
  have hempty : OpenAt h (s.expired h due) :=
    (hs.openAt h).update hhosts rfl hside (.inr rfl) fun _ hx => hx.emptied.withLapse .reported
  refine ⟨hempty.of_empty (by simp [State.expired]), ((hs.sound.linked h).counted o.source (.inl ⟨o, ho, rfl⟩)).1, ?_⟩
  rw [hside, Function.update_self]
  exact (hs.sound.linked h).emptied_not_relies (hs.sound.host h) ho

theorem exec_offerExpiry_resting (hs : Resting s) (h : HostId) : Answers Resting (exec (.offerExpiry h) s) := by
  change Answers Resting (execOfferExpiry h s)
  unfold execOfferExpiry
  split
  next o due ho _ =>
    obtain ⟨hexpired, hcounts, hself⟩ := hs.expired ho due
    simp only
    split_ifs
    next hpol =>
      have hany : ((s.expired h due).cfg o.source).policy = .any := hpol
      exact answers_next (hexpired.declineBy (by simp [hany]) hcounts hself)
    next => exact answers_next (hexpired.leaveOffered hself)
    next => exact answers_next hexpired
  next => exact answers_next hs

/-- While a lapse report is outstanding the slot is empty, so that its answer opens no choice yet (R75). -/
theorem Settled.setLapse (hs : OpenAt h s) (hslot : (s.slot h).offer = none) (htake : s.takeOf h = none) (c : LapseClaim) :
    Resting (s.setLapse h c) :=
  (hs.update (hs.sound.hosts.setLapse fun _ => ⟨hslot, htake⟩) rfl (setLapse_side s h c) (.inl rfl) fun _ hx =>
    hx.withLapse c).of_empty hslot

/-- A host that becomes LAPSED departs from what it owes and does not hold (R54). -/
theorem Settled.becomeLapsed (hs : Resting s) (hr : s.lapseOf h = .reported) (ha : (s.ctx h).session = .attached) (n : Fin 16) :
    Resting ((s.lapsedTimes h n).becomeLapsed h) := by
  obtain ⟨hslot, -⟩ := hs.sound.hosts.lapsing (h := h) (by simp [hr])
  rw [lapsedTimes_becomeLapsed hslot]
  have hlapsed : OpenAt h (s.setCtx h { s.ctx h with session := .lapsed, lapseCount := n }) := by
    refine (hs.openAt h).update ?_ rfl (setCtx_side s h _) (.inl rfl) fun _ hx => hx.withCtx (.inr (.inr ⟨by simp, ?_⟩)) rfl
    · exact hs.sound.hosts.update (setCtx_host s h _) fun hx => hx.lapsed (by simp [State.host, hr]) n
    · change (s.ctx h).session ≠ .detached
      rw [ha]
      decide
  have hnoted : Resting ((s.setCtx h { s.ctx h with session := .lapsed, lapseCount := n }).handNotice (.host h)
      (deliveryNotice .lapsed none (some h))) := (hlapsed.of_empty hslot).untouched (.of_eq rfl rfl)
  refine hnoted.hand (fun y hy => ?_) (fun y hy _ => ?_) fun e he => ?_
  · obtain ⟨e, -, rfl⟩ := List.mem_map.mp hy
    rfl
  · simp
  · simp at he

theorem Settled.countLapse (hs : Resting s) (hr : s.lapseOf h = .reported) : Resting (s.countLapse h) := by
  by_cases ha : (s.ctx h).session = .attached
  case neg => rw [countLapse_other ha]; exact hs
  have hcount : s.countLapse h =
      let n := lapseCountUp (s.ctx h).lapseCount
      if ((s.lapsedTimes h n).ctx h).lapseLimit ≤ n then (s.lapsedTimes h n).becomeLapsed h else s.lapsedTimes h n := if_pos ha
  rw [hcount]
  simp only
  split
  · exact hs.becomeLapsed hr ha _
  · exact hs.setContext rfl rfl rfl id

theorem exec_lapseReport_resting (hs : Resting s) (h : HostId) : Answers Resting (exec (.lapseReport h) s) := by
  cases hr : s.lapseOf h with
  | reported =>
    rw [exec_lapseReport_reported hr]
    have hcounted := hs.countLapse hr
    obtain ⟨-, hlapse⟩ := hs.sound.hosts.countLapse h hr
    obtain ⟨hslot, htake⟩ := hcounted.sound.hosts.lapsing (h := h) (by simp [hlapse])
    exact answers_next ((hcounted.openAt h).setLapse hslot htake _)
  | overtaken =>
    rw [exec_lapseReport_overtaken hr]
    obtain ⟨hslot, htake⟩ := hs.sound.hosts.lapsing (h := h) (by simp [hr])
    exact answers_next ((hs.openAt h).setLapse hslot htake _)
  | _ =>
    rw [exec_lapseReport_other (by simp [hr]) (by simp [hr])]
    exact answers_next hs

theorem exec_lapseAnswer_resting (hs : Resting s) (h : HostId) : Answers Resting (exec (.lapseAnswer h) s) := by
  have hnone : (∃ a, s.lapseOf h = .answered a) → Resting (s.setLapse h .none) := fun ⟨a, hr⟩ => by
    obtain ⟨hslot, htake⟩ := hs.sound.hosts.lapsing (h := h) (by simp [hr])
    exact (hs.openAt h).setLapse hslot htake .none
  change Answers Resting (execLapseAnswer h s)
  unfold execLapseAnswer
  split
  next hr => exact answers_next ((hnone ⟨_, hr⟩).openAt h).choose
  next hr => exact answers_next (hnone ⟨_, hr⟩)
  next => exact answers_next hs

end

/-! ### The take on its way -/

section
variable {s t : State} {h : HostId} {e : Source}

theorem exec_takePush_resting (hs : Resting s) (h : HostId) : Answers Resting (exec (.takePush h) s) := by
  cases ht : s.takeOf h with
  | none =>
    rw [exec_takePush_none ht]
    exact answers_next hs
  | some u =>
    by_cases hpush : (s.ctx h).session = .attached ∧ u.ended = false
    · obtain ⟨ha, hended⟩ := hpush
      have hhost : (s.pushed h u).host = Function.update s.host h
          { s.host h with
            ctx := { s.ctx h with stack := (s.ctx h).stack ++ [u.offer], lapseCount := 0 }
            view := s.viewOf h ++ [u.offer]
            take := none
            handed := s.handedOf h ++ [.hold u.offer.source u.cleared] } := by
        simp [State.pushed, setHanded_host, setView_host, setCtx_host, setTake_host, State.host]
      have hhosts : HostLaw (s.pushed h u) := hs.sound.hosts.update hhost fun hx => hx.pushed ht hended _
      rw [exec_takePush_pushes ht ha hended]
      exact answers_next ((hs.openAt h).update hhosts rfl (side_eq_of_host s h hhost (fun _ => rfl) fun _ => rfl) (.inl rfl)
        fun hok hx => hx.pushed hok ht hended).choose
    · have hhost : ((s.setTake h none).setHanded h (s.handedOf h ++ [.withdraw u.offer.source])).host = Function.update s.host h
          { s.host h with take := none, handed := s.handedOf h ++ [.withdraw u.offer.source] } := by
        simp [setHanded_host, setTake_host, State.host]
      have hhosts : HostLaw ((s.setTake h none).setHanded h (s.handedOf h ++ [.withdraw u.offer.source])) :=
        hs.sound.hosts.update hhost fun hx => hx.untaken.handMore _
      have hn : (s.ctx h).session ≠ .attached ∨ u.ended = true := by simpa [Decidable.imp_iff_not_or] using hpush
      rw [exec_takePush_withdraws ht hn]
      exact answers_next ((hs.openAt h).update hhosts rfl (side_eq_of_host s h hhost (fun _ => rfl) fun _ => rfl) (.inl rfl)
        fun hok hx => hx.untaken hok ht).choose

/-- The TAKE is answered with no part of it left on its way (R84). -/
theorem Settled.answerTake (hs : Resting s) (htake : s.takeOf h = none) (hhold : ∀ y ∈ s.handedOf h, y.isHold = false)
    (hundo : s.undoOf h = none) (r : ResultCode) : Resting (s.answerTake h r) := by
  by_cases hw : (s.port h).waiting = some .take
  case neg => rw [answerTake_other hw]; exact hs
  rw [answerTake_waiting hw]
  refine hs.unseen (hs.sound.hosts.of_host rfl) rfl (setPort_side s h _) rfl fun _ hx => ?_
  have hanswered := hx.answered htake hhold (c := s.ctx h) rfl none
  rw [← hundo] at hanswered
  exact hanswered

/-- A host that moves from the offered to the held set of an entry (R84 step 3) keeps the entry's law. -/
theorem PartsLaw.moved {c : EntryConfig} {p : Progress} (hp : PartsLaw c p) (hh : hasHost p.offered h = true) :
    PartsLaw c { p with offered := dropHost p.offered h, held := addHost p.held h } := by
  obtain ⟨hdisjoint, hone, hall⟩ := partsLaw_iff.mp hp
  have hheld : ∀ k, hasHost (addHost p.held h) k = true ↔ k = h ∨ hasHost p.held k = true := fun k => by
    rw [hasHost_addHost, Bool.or_eq_true, beq_iff_eq]
  have hshares : ∀ k, Progress.shares { p with offered := dropHost p.offered h, held := addHost p.held h } k → p.shares k :=
    fun k hk => hk.elim (fun hk => .inl (hasHost_of_dropHost hk).2) fun hk => ((hheld k).mp hk).elim (fun hk => hk ▸ .inl hh) .inr
  refine partsLaw_iff.mpr ⟨fun k hk => ?_, fun hpol k hk => ?_, fun hpol k hk => hall hpol k (hshares k hk)⟩
  · obtain ⟨hne, hk⟩ := hasHost_of_dropHost hk
    rw [Bool.eq_false_iff, ne_eq, hheld]
    exact fun h => h.elim hne fun h => by simp [hdisjoint k hk] at h
  · obtain ⟨htarget, hunique⟩ := hone hpol k (hshares k hk)
    exact ⟨htarget, fun j hj => hunique j (hshares j hj)⟩

/-- A held entry is eligible for no further host but, under ALL, those that owe it and do not hold it (R64). -/
theorem policyAllows_of_held {x : HostSet} {k : HostId}
    (hk : PolicyAllows (s.setProg e { s.prog e with offered := x, held := addHost (s.prog e).held h }) e k) : PolicyAllows s e k := by
  obtain ⟨hdirected, hany, hall⟩ := hk
  have hne : addHost (s.prog e).held h ≠ 0 := fun hzero => by
    have hself := hostSet_eq_zero.mp hzero h
    simp [hasHost_addHost] at hself
  simp only [State.setProg_cfg, State.setProg_prog_self] at hdirected hany hall
  refine ⟨fun hp => absurd (hdirected hp).2 hne, fun hp => absurd (hany hp).2.2.1 hne, fun hp => ⟨(hall hp).1, ?_⟩⟩
  have hnot := (hall hp).2
  rw [hasHost_addHost, Bool.or_eq_false_iff] at hnot
  exact hnot.2

/-- A host that goes by e no more moves to the held set of e (R5, R84 step 3). -/
theorem Settled.held (hs : Resting s) (hself : ¬(s.side h).Relies e) (hoffered : hasHost (s.prog e).offered h = true) :
    Resting (s.setProg e { s.prog e with
      offered := dropHost (s.prog e).offered h, held := addHost (s.prog e).held h }) := by
  have hmoved := hs.reshape (.of_sets (b := false) (hs.standing e)
    (q := { s.prog e with offered := dropHost (s.prog e).offered h, held := addHost (s.prog e).held h }) rfl rfl rfl
    (fun k hk => hasHost_drop_of_ne ((hs.standing e).counted k hk).2 fun hkh => hself (hkh ▸ hk))
    ((hs.sound.parts e).moved hoffered) fun _ k => policyAllows_of_held)
  exact hmoved.mono fun _ _ _ => ⟨trivial, fun hb => by cases hb⟩

theorem exec_takeHold_resting (hs : Resting s) (h : HostId) : Answers Resting (exec (.takeHold h) s) := by
  cases ht : s.takeHanded h Handed.isHold with
  | none =>
    rw [exec_takeHold_none ht]
    exact answers_next hs
  | some x =>
    obtain ⟨y, t⟩ := x
    obtain ⟨e, c, rfl⟩ := isHold_iff.mp (takeHanded_passes ht)
    have htaken : Resting t := hs.takeHanded ht (hs.sound.hosts.takeHanded ht (removalIn_hold e c))
    have hlinked := hs.sound.linked h
    have hhost := hs.sound.host h
    rw [exec_takeHold ht]
    obtain ⟨l, hnext, rfl⟩ := takeHanded_next ht
    obtain ⟨hundo, -⟩ := hlinked.holds e c hnext.mem
    obtain ⟨htake, hnohold⟩ := hlinked.hold_alone hnext
    have hnohold : ∀ y ∈ (s.setHanded h l).handedOf h, y.isHold = false := by rwa [State.setHanded_handedOf_self]
    split
    next hopen =>
      obtain ⟨⟨rfl, -⟩, hoffered⟩ : (c = false ∧ (s.prog e).state = .delivering) ∧ hasHost (s.prog e).offered h = true := by
        simpa using hopen
      have hself : ¬((s.setHanded h l).side h).Relies e := by
        rw [setHanded_side, Function.update_self]
        exact hlinked.hold_not_relies hhost hnext
      exact answers_next ((htaken.held hself hoffered).answerTake htake hnohold hundo .ok)
    next =>
      split
      next hrecord =>
        refine answers_next (htaken.unseen (htaken.sound.hosts.of_host rfl) rfl (setUndo_side _ h _) rfl fun _ hx => ?_)
        exact hx.toUndo htake hnohold (hlinked.waits_of_record hhost hnext.mem hrecord) hrecord
      next => exact answers_next (htaken.answerTake htake hnohold hundo .stale)

theorem exec_takeUndo_resting (hs : Resting s) (h : HostId) : Answers Resting (exec (.takeUndo h) s) := by
  cases hu : s.undoOf h with
  | none =>
    rw [exec_takeUndo_none hu]
    exact answers_next hs
  | some e =>
    have hlinked := hs.sound.linked h
    have hwaits : ((s.undone h e).port h).waiting = some .take := (hlinked.undone e hu).1
    have htake : s.takeOf h = none := by
      by_contra hne
      obtain ⟨t, ht⟩ := Option.ne_none_iff_exists'.mp hne
      exact absurd ((hlinked.alone t ht).1.symm.trans hu) (by simp)
    have hhold : ∀ y ∈ s.handedOf h, y.isHold = false := fun y hy => by
      rw [Bool.eq_false_iff]
      intro hhold
      obtain ⟨f, c, rfl⟩ := isHold_iff.mp hhold
      exact absurd ((hlinked.holds f c hy).1.symm.trans hu) (by simp)
    have hhost : (s.undone h e).host = Function.update s.host h
        { s.host h with ctx := dropRecord (s.ctx h) e, view := (s.viewOf h).filter fun r => r.source != e } := by
      simp [State.undone, setView_host, setCtx_host, State.host]
    have hhosts : HostLaw (s.undone h e) := by
      rw [← tellRemoval_undone]
      refine hs.sound.hosts.update (h := h) ?_ fun hx => hx.undo e
      simp [State.tellRemoval, setView_host, setCtx_host, State.host]
    have hside : ((s.undone h e).answerTake h .stale).side = Function.update s.side h
        { host := { s.host h with ctx := dropRecord (s.ctx h) e, view := (s.viewOf h).filter fun r => r.source != e }
          undo := none
          waiting := none } := by
      rw [answerTake_waiting hwaits, setPort_side]
      refine Function.eq_update_iff.mpr ⟨?_, fun k hk => ?_⟩
      · rw [Function.update_self, State.side, hhost, Function.update_self]
        simp [State.undone]
      · rw [Function.update_of_ne hk, State.side, hhost, Function.update_of_ne hk]
        simp [State.undone, State.setUndo_undoOf, hk, State.side]
    have het : ((s.undone h e).answerTake h .stale).et = s.et := by
      rw [answerTake_waiting hwaits]
      rfl
    rw [exec_takeUndo hu, PortBlind.answerTake (choose_portBlind h)]
    refine answers_next ((hs.openAt h).update ?_ het hside (.inl rfl) fun _ hx => ?_).choose
    · exact hhosts.of_host (answerTake_host _ h .stale)
    · exact (hx.answered htake hhold (c := dropRecord (s.ctx h) e) rfl none).withView _

end

end Sys2Proof.Machine
end

section
/-! The reports that the Event Table takes of a host, and the requests that rewrite an entry, each on a state that rests (R18, R20, R46,
R73, R87, R89, R91, R107, R111). -/

open Sys2Proof Sys2Proof.Machine

namespace Sys2Proof.Machine

/-! ### FINISH and RELEASE -/

section
variable {s t : State} {h : HostId} {e : Source} {y : Handed} {p : Handed → Bool} {relies : HostId → Prop} {x : State × Bool}

theorem Standing.of_et (hs : Standing relies s e) (het : t.et = s.et) : Standing relies t e := by
  have hentry : t.entry e = s.entry e := by rw [State.entry, het]; rfl
  have hcfg : t.cfg e = s.cfg e := congrArg Entry.cfg hentry
  have hprog : t.prog e = s.prog e := congrArg Entry.prog hentry
  exact ⟨hcfg ▸ hs.config, by rw [hcfg, hprog]; exact hs.parts, by rw [hcfg, hprog]; exact hs.declines,
    fun k hk => (counts_congr hprog k).mpr (hs.counted k hk), by rw [hprog, het]; exact hs.listed⟩

/-- What a claim makes of an entry it makes of it as well where the Offer Unit has another view of a stack (R87). -/
theorem Reshapes.setView (hx : Reshapes relies e s x) (h : HostId) (v : List StackRecord) :
    Reshapes relies e (s.setView h v) (x.1.setView h v, x.2) where
  event := by
    refine ⟨?_, hx.event.cfg, hx.event.entry, hx.event.order⟩
    have hrest := congrArg (fun u : State => u.setView h v) hx.event.rest
    exact hrest
  kept := hx.kept
  parts := hx.parts
  declines := hx.declines
  listed := hx.listed
  told := hx.told

theorem EventOf.tellRemoval_eq (g : EventOf e s t) (h : HostId) (f : Source) :
    t.tellRemoval h f = t.setView h ((s.viewOf h).filter fun r => r.source != f || (s.ctx h).stack.contains r) := by
  rw [State.tellRemoval, g.viewOf, g.ctx]

/-- The report of e is taken as the view gives up the record of e; what the Event Table does at e comes between (R87, R89). -/
theorem Settled.tellStack (hs : Resting s) (ht : s.takeHanded h p = some (y, t))
    (hy : ∀ r : StackRecord, r.source ≠ e → removalIn [y] r = false)
    (hx : ∀ relies, Standing relies t e → Reshapes relies e t x) : Resting (tellStack h e x) := by
  obtain ⟨rest, hhost, hrest⟩ := takeHanded_host ht
  obtain ⟨l, hnext, rfl⟩ := takeHanded_next ht
  obtain rfl : l = rest := by
    have hhanded := congrArg HostRecord.handed (congrFun hhost h)
    rw [Function.update_self] at hhanded
    exact (State.setHanded_handedOf_self s h l).symm.trans hhanded
  set v := (s.viewOf h).filter fun r => r.source != e || (s.ctx h).stack.contains r with hv
  have htold : ((s.setHanded h l).setView h v).host = Function.update s.host h { s.host h with view := v, handed := l } := by
    rw [setView_host, hhost, Function.update_self, Function.update_idem]
  have hhosts : HostLaw ((s.setHanded h l).setView h v) :=
    hs.sound.hosts.update htold fun hok => hok.tellRemoval fun r hr => hrest r (hy r hr)
  have hopen : OpenAt h ((s.setHanded h l).setView h v) :=
    (hs.openAt h).update hhosts rfl (side_eq_of_host s h htold (fun _ => rfl) fun _ => rfl) (.inl rfl) fun _ hok =>
      (hok.next hnext).withView v
  have hreshapes := hx _ ((hopen.standing e).of_et rfl)
  have hview : x.1.tellRemoval h e = x.1.setView h v := hreshapes.event.tellRemoval_eq h e
  unfold Machine.tellStack
  rw [hview]
  exact Settled.choose (Settled.tell (x := (x.1.setView h v, x.2)) (hopen.reshape (hreshapes.setView h v)))

theorem exec_finishReport_resting (hs : Resting s) (h : HostId) (e : Source) : Answers Resting (exec (.finishReport h e) s) := by
  change Answers Resting (execFinishReport h e s)
  unfold execFinishReport
  split
  next => exact answers_next hs
  next y t ht =>
    have hy : y = .finish e := by simpa using takeHanded_passes ht
    refine answers_next (hs.tellStack ht (fun r hr => ?_) fun _ hstand => finishPart_reshapes hstand)
    simp [hy, removalIn, Ne.symm hr]

theorem exec_releaseReport_resting (hs : Resting s) (h : HostId) (e : Source) : Answers Resting (exec (.releaseReport h e) s) := by
  change Answers Resting (execReleaseReport h e s)
  unfold execReleaseReport
  split
  next f lapsed t ht =>
    have hf : f = e := by
      have hpass := takeHanded_passes ht
      simp only [Bool.or_eq_true, beq_iff_eq, Handed.release.injEq] at hpass
      exact hpass.elim And.left And.left
    refine answers_next (hs.tellStack ht (fun r hr => ?_) fun _ hstand => releasePart_reshapes hstand lapsed)
    simp [hf, removalIn, Ne.symm hr]
  next => exact answers_next hs

/-! ### What a host leaves behind -/

/-- An ATTACH that waited opens the session with the last of the host's releases and departures taken (R46). -/
theorem Settled.resumeAttach (hs : Resting s) (h : HostId) : Resting (s.resumeAttach h) := by
  unfold State.resumeAttach
  split
  next hresumes =>
    obtain ⟨hw, hg⟩ : (s.port h).waiting = some .attach ∧ s.givingBack h = false := by simpa using hresumes
    have hport := (hs.setPort (h := h) (.inl (by simp [hw])) { s.port h with waiting := none }).openAt h
    exact (hport.attachNow hg).answer h 1 .ok
  next => exact hs

theorem exec_stackRelease_resting (hs : Resting s) (h : HostId) : Answers Resting (exec (.stackRelease h) s) := by
  change Answers Resting (execStackRelease h s)
  unfold execStackRelease
  split
  next => exact answers_next hs
  next y t ht =>
    have htaken : Resting t :=
      hs.takeHanded ht (hs.sound.hosts.takeHanded_giveBack ht fun y => by cases y <;> simp [Handed.isGiveBack])
    exact answers_next ((htaken.releaseAt y.source h).resumeAttach h)

theorem exec_owedDeparture_resting (hs : Resting s) (hl : EntryLaw s) (h : HostId) : Answers Resting (exec (.owedDeparture h) s) := by
  change Answers Resting (execOwedDeparture h s)
  unfold execOwedDeparture
  split
  next => exact answers_next hs
  next y t ht =>
    have htaken : Resting t :=
      hs.takeHanded ht (hs.sound.hosts.takeHanded_giveBack ht fun y => by cases y <;> simp [Handed.isGiveBack])
    have hreturn : y.isReturn = true := by
      have hpass := takeHanded_passes ht
      cases y with
      | depart => rfl
      | _ => cases hpass
    have hself := takeHanded_not_relies hs ht hreturn y.source
    obtain ⟨l, -, rfl⟩ := takeHanded_next ht
    exact answers_next ((htaken.departAt hl hself).resumeAttach h)

theorem exec_withdrawalReport_resting (hs : Resting s) (h : HostId) : Answers Resting (exec (.withdrawalReport h) s) := by
  change Answers Resting (execWithdrawalReport h s)
  unfold execWithdrawalReport
  split
  next => exact answers_next hs
  next y t ht =>
    have htaken : Resting t :=
      hs.takeHanded ht (hs.sound.hosts.takeHanded_giveBack ht fun y => by cases y <;> simp [Handed.isGiveBack])
    obtain ⟨e, rfl⟩ : ∃ e, y = .withdraw e := by
      have hpass := takeHanded_passes ht
      cases y with
      | withdraw e => exact ⟨e, rfl⟩
      | _ => cases hpass
    exact answers_next (htaken.withdrawAt (takeHanded_withdraw_not_relies hs ht))

end

/-! ### CLEAR_ENTRY -/

section
variable {s : State} {e : Source}

theorem abandoned_side (s : State) (e : Source) (k : HostId) : (s.abandoned e).side k = (s.side k).marked e := by
  rw [State.side, abandoned_host]
  rfl

/-- The abandoned event leaves no choice open but at the slots that it emptied (R20, R73, R84). -/
theorem Settled.abandoned (hs : Resting s) (hc : Clearable s e) : Resting (s.abandoned e) := by
  have hfresh : (s.prog e).abandoned.Fresh := ⟨rfl, rfl, .inl rfl⟩
  have hprog : ∀ f, f ≠ e → (s.abandoned e).prog f = s.prog f := fun f hf => abandoned_prog_ne s hf
  refine ⟨⟨hs.sound.hosts.abandoned e, fun f => ?_, fun k => ?_, fun f => ?_, fun f => ?_⟩, hc.inOrder, hc.met⟩
  · rw [abandoned_cfg]
    exact hs.sound.config f
  · rw [abandoned_side]
    refine (hs.sound.linked k).marked e (fun f hf hk => (counts_congr (hprog f hf) k).mpr hk) fun f hf => ?_
    exact offerOf_congr (abandoned_cfg s e f) (by rw [hprog f hf])
  · rw [abandoned_cfg]
    by_cases hf : f = e
    · subst hf
      rw [abandoned_prog_self]
      exact (hfresh.laws (hs.sound.config f)).1
    · rw [hprog f hf]
      exact hs.sound.parts f
  · rw [abandoned_cfg]
    by_cases hf : f = e
    · subst hf
      rw [abandoned_prog_self]
      exact (hfresh.laws (hs.sound.config f)).2
    · rw [hprog f hf]
      exact hs.sound.declines f

theorem Settled.chooseAll (hs : List HostId) : ∀ s : State, Resting s → Resting (hs.foldl State.choose s) := by
  induction hs with
  | nil => exact fun _ h => h
  | cons h rest ih => exact fun s h' => ih _ (h'.openAt h).choose

theorem Settled.clearNow (hs : Resting s) (hc : Clearable s e) : Resting (s.clearNow e) := by
  obtain ⟨-, ⟨hprog, -⟩, -⟩ := hc.choices
  obtain ⟨l, n, hchosen, -⟩ := chooseEach_eq (s.abandoned e) (s.offeredHosts e)
  have hrests : Resting ((s.abandoned e).chooseEach (s.offeredHosts e)) := by
    rw [hchosen]
    exact Settled.chooseAll l _ ((hs.abandoned hc).untouched (.of_eq rfl rfl))
  rw [clearNow_eq]
  simp only
  split
  · refine hrests.latchAndGo ?_ ?_ <;> rw [hprog]
    · simp [Progress.abandoned, Progress.toIdle]
    · exact ⟨rfl, rfl, rfl⟩
  · exact hrests

end

/-! ### WRITE_ENTRY, ENABLE and RETRY -/

section
variable {s : State} {e : Source}

/-- Another configuration of an IDLE entry is seen by no host (R18). -/
theorem Settled.configured (hs : Resting s) (hl : EntryLaw s) (hi : (s.prog e).state = .idle) {c : EntryConfig}
    (hc : ConfigLaw e c) : Resting (s.configured e c) := by
  have hcfg : (s.configured e c).cfg e = c := by simp [State.configured]
  have hprog : (s.configured e c).prog e = { s.prog e with merged := 0, saturated := false } := by simp [State.configured]
  have hother : ∀ f, f ≠ e → (s.configured e c).entry f = s.entry f := fun f hf => by
    rw [State.configured, State.setEntry_entry, if_neg hf]
  have hfresh : ((s.configured e c).prog e).Fresh := by
    rw [hprog]
    exact Progress.Bare.fresh (hl.bare (e := e) (by simp [hi]) (by simp [hi]))
  have hidle : ((s.configured e c).prog e).state = .idle := by rw [hprog]; exact hi
  have hnobody := (hs.standing e).nobody (.inl (by simp [hi]))
  have hsound : Sound (s.configured e c) := by
    refine hs.sound.rewrite rfl (fun f hf => ⟨congrArg Entry.cfg (hother f hf), congrArg Entry.prog (hother f hf)⟩)
      (by rw [hcfg]; exact hc) (fun k hk => absurd hk (hnobody k)) ?_ ?_ <;> rw [hcfg]
    · exact (hfresh.laws hc).1
    · exact (hfresh.laws hc).2
  have hne : ∀ f, ((s.configured e c).prog f).state = .delivering → f ≠ e := fun f hf hfe => by
    rw [hfe, hidle] at hf
    cases hf
  refine ⟨hsound, fun f hf => hs.order f ?_, fun k hk f _ he => ?_⟩
  · rw [← hf]
    exact congrArg (fun x : Entry => x.prog.state) (hother f (hne f hf)).symm
  · have hfe := hne f (eligible_delivering he)
    have hmet := hs.met k hk f trivial ((eligible_congr (hother f hfe) rfl rfl) ▸ he)
    have hlevel : (s.configured e c).cfg f = s.cfg f := congrArg Entry.cfg (hother f hfe)
    unfold Met Covers at hmet ⊢
    rw [hlevel]
    exact hmet

theorem Settled.writeConfig (hs : Resting s) (hl : EntryLaw s) (hi : (s.prog e).state = .idle) {c : EntryConfig}
    (hc : ConfigLaw e c) : Resting (s.writeConfig e c) := by
  have hwritten := hs.configured hl hi hc
  have hprog : (s.configured e c).prog e = { s.prog e with merged := 0, saturated := false } := by simp [State.configured]
  rw [writeConfig_eq]
  split
  · refine hwritten.latchAndGo ?_ ?_ <;> rw [hprog]
    · change (s.prog e).state ≠ _
      simp [hi]
    · exact hl.bare (e := e) (by simp [hi]) (by simp [hi])
  · exact hwritten

theorem Settled.enableEntry (hs : Resting s) (hl : EntryLaw s) (e : Source) : Resting (s.enableEntry e) := by
  have hwritten : Resting (s.enabledAs e true) := hs.untouched (.setEntry rfl)
  have hprog : (s.enabledAs e true).prog e = s.prog e := by simp [State.enabledAs]
  rw [enableEntry_eq]
  split
  next hlatched =>
    obtain ⟨hlatched, -⟩ := hlatched
    refine hwritten.leaveLatched ?_ (hl.listed (e := e) (by simp [hlatched])) ?_ <;> rw [hprog]
    · simp [hlatched]
    · exact hl.bare (by simp [hlatched]) (by simp [hlatched])
  next => exact hwritten

/-- A PARKED entry is offered to no host, so that it may be reopened to every target (R13, R107). -/
theorem Settled.reopened (hs : Resting s) (hl : EntryLaw s) (hp : (s.prog e).state = .parked) :
    Resting ((s.reopened e).offerNews e) := by
  obtain ⟨-, hsets, -⟩ := hl.progressLaw e
  obtain ⟨hoffered, hheld⟩ := hsets (by simp [hp])
  have hm : e ∈ s.et.order := hl.listed (by simp [hp])
  have hpart : EventPart e (e ∈ s.et.order) s (s.reopened e, true) := ⟨.setProg s e _, fun _ => ⟨rfl, id⟩⟩
  have hfresh : ((s.reopened e).prog e).Fresh := by
    rw [State.reopened, State.setProg_prog_self]
    exact ⟨hoffered, hheld, .inr ⟨rfl, rfl⟩⟩
  exact Settled.tell (x := (s.reopened e, true)) (hs.reshape (.of_fresh (hs.standing e) hpart hm (.inl (by simp [hp])) hfresh))

end

/-! ### Host reset -/

section
variable {s : State} {h : HostId}

/-- A host that host reset has detached starts over (R58, R59). -/
theorem Settled.resetHost (hs : Resting s) (hd : (s.ctx h).session = .detached) :
    Resting ((s.setCtx h { s.ctx h with threshold := 0, lapseCount := 0 }).setPort h resetPort) := by
  have hslot : (s.slot h).offer = none := by
    by_contra hne
    obtain ⟨o, ho⟩ := Option.ne_none_iff_exists'.mp hne
    obtain ⟨-, -, hslot, -⟩ := hs.sound.hosts h
    exact absurd ((hslot o ho).1.symm.trans hd) (by decide)
  have hcleared : OpenAt h (s.setCtx h { s.ctx h with threshold := 0, lapseCount := 0 }) :=
    (hs.openAt h).update (hs.sound.hosts.resetCtx h) rfl (setCtx_side s h _) (.inl rfl) fun _ hx => hx.withCtx (.inl rfl) rfl
  refine (hcleared.of_empty hslot).setPort (.inr ?_) resetPort
  rw [State.setCtx_ctx_self]
  exact hd

theorem exec_hostReset_resting (hs : Resting s) (h : HostId) : Answers Resting (exec (.hostReset h) s) := by
  have hback : Resting (if (s.ctx h).session = .detached then s else s.giveBack h) ∧
      ((if (s.ctx h).session = .detached then s else s.giveBack h).ctx h).session = .detached := by
    split
    next hd => exact ⟨hs, hd⟩
    next hd => exact ⟨hs.giveBack hd, giveBack_session hs.sound.hosts h⟩
  exact answers_next ((hback.1.resetHost hback.2).untouched (.of_eq rfl rfl))

end

end Sys2Proof.Machine
end

section
/-! No command breaks the laws of deliveries. -/

open Sys2Proof Sys2Proof.Machine

namespace Sys2Proof.Machine

/-! ### The requests -/

section
variable {s : State} {h : HostId}

/-- A request that is taken finds no bus write waiting at its port (R170, log 10). -/
theorem Settled.request (hs : Resting s) {code : Operand} {right : Right} {ns : Bool} {body : State → State}
    (hbody : (s.port h).waiting = none → Resting (s.taken h) → Resting (body (s.taken h))) :
    Answers Resting (Machine.request h code right ns body s) := by
  have htaken : Resting (s.taken h) := hs.untouched (.setPort rfl)
  unfold Machine.request
  split_ifs
  · exact answers_next hs
  · exact answers_next (hs.untouched (.setPort rfl))
  · exact answers_refused _
  next hfree =>
    refine answers_next ?_
    change Resting (if (!(s.taken h).holdsRight h right) = true then (s.taken h).answer h code .rights
      else if (ns && ((s.taken h).ctx h).session == .detached) = true then (s.taken h).answer h code .detached
      else body (s.taken h))
    split_ifs
    · exact htaken.answer h code .rights
    · exact htaken.answer h code .detached
    · exact hbody (by simpa using hfree) htaken

theorem Settled.withIndex (hs : Resting s) {n : Nat} {code x : Operand} {body : Fin n → State → State}
    (hbody : ∀ i, Resting (body i s)) : Resting (Machine.withIndex n h code x body s) :=
  withIndex_cases (P := Resting) (hs.answer h code .range) hbody

/-- A request whose body writes nothing that the laws of deliveries see. -/
theorem Settled.request_untouched (hs : Resting s) {code : Operand} {right : Right} {ns : Bool} {body : State → State}
    (hbody : Untouched (s.taken h) (body (s.taken h))) : Answers Resting (Machine.request h code right ns body s) :=
  hs.request fun _ ht => ht.untouched hbody

theorem answerRecord_untouched (s : State) (h : HostId) (code : Operand) (w : Table Word 8) :
    Untouched s (s.answerRecord h code w) := .setPort rfl

theorem askCut_untouched (s : State) (h : HostId) (e : Source) : Untouched s (s.askCut h e) := by
  unfold State.askCut
  simp only
  split
  · exact .setPort rfl
  · refine Untouched.trans ?_ (.setPort rfl)
    exact (Untouched.setEntry (x := { s.entry e with prog := { s.prog e with disarmPending := true } }) rfl).trans (.of_eq rfl rfl)

/-- The state with e DISARMed before its run: its binding is not armed, and it waits for no channel (R119). -/
theorem unqueued_untouched (s : State) (e : Source) (b : Binding) : Untouched s ((s.setBind e b).unqueue e) :=
  (Untouched.setEntry (x := { s.entry e with bind := b }) rfl).trans (.of_eq rfl rfl)

theorem unqueued_prog (s : State) (e f : Source) (b : Binding) : ((s.setBind e b).unqueue e).prog f = s.prog f :=
  State.setBind_prog s e b f

/-- A session is ended by the supervisor, with a TAKE that waits for the removal of its record (R56, log 7). -/
theorem Settled.evicted (hs : Resting s) {k : HostId} (hd : (s.ctx k).session ≠ .detached) (b : Bool) :
    Resting (if b then (s.giveBack k).answerTake k .stale else s.giveBack k) := by
  have hgave := hs.giveBack hd
  split
  · unfold State.answerTake
    split
    · exact (hgave.setPort (.inr (giveBack_session hs.sound.hosts k)) _).answer k 4 .stale
    · exact hgave
  · exact hgave

theorem Lawful.entries (hl : Lawful s) : EntryLaw s := by
  obtain ⟨-, hentries, -⟩ := hl
  exact hentries

theorem Lawful.clearable (hl : Lawful s) {e : Source} (hn : (s.prog e).state ≠ .running) : Clearable s e := by
  obtain ⟨hhosts, hentries, ⟨hcopies, -, hsettled, -⟩, -, -⟩ := hl
  refine ⟨hentries, fun k => (hcopies k).1, fun k => ?_, hsettled, hn⟩
  obtain ⟨-, -, -, hclaims, -⟩ := hhosts k
  exact hclaims

end

/-- No request breaks the laws of deliveries. -/
theorem exec_request_resting {c : Instr} {s : State} {h : HostId} (hc : c.port = some h) (hl : Lawful s) :
    Answers Resting (exec c s) := by
  have hs := hl.resting
  have hentries := hl.entries
  cases c with
  | attach k =>
    refine hs.request fun hw ht => ?_
    unfold attachBody
    split_ifs
    next => exact ht.answer k 1 .ok
    next => exact ht.setPort (.inl (by simp [hw])) _
    next hg => exact ((ht.openAt k).attachNow (by simpa using hg)).answer k 1 .ok
  | detach k =>
    refine hs.request fun _ ht => ?_
    unfold detachBody
    split
    next => exact ht.answer k 2 .ok
    next hd => exact (ht.giveBack hd).answer k 2 .ok
  | setThreshold k v => exact hs.request fun _ ht => ht.withIndex fun v => (ht.writeThreshold k v).answer k 3 .ok
  | take k x => exact hs.request fun hw ht => ht.withIndex fun e => ht.matchTake (by simp [hw]) e
  | finish k x =>
    exact hs.request fun hw ht => ht.withIndex fun e =>
      ht.endService (by simp [hw]) 5 (fun r hr => by simp [removalIn, hr]) rfl rfl fun _ => by simp
  | release k x =>
    exact hs.request fun hw ht => ht.withIndex fun e =>
      ht.endService (by simp [hw]) 6 (fun r hr => by simp [removalIn, hr]) rfl rfl fun _ => by simp
  | post k x =>
    refine hs.request fun _ ht => ht.withIndex fun e => ?_
    split_ifs
    · exact ht.answer k 7 .range
    · exact ht.answer k 7 .state
    · exact (Settled.arrive ht hentries e).answer k 7 .ok
  | readEntry k x => exact hs.request fun _ ht => ht.withIndex fun e => ht.untouched (.setPort rfl)
  | readDesc k x => exact hs.request fun _ ht => ht.withIndex fun e => ht.untouched (.setPort rfl)
  | readWindow k x y => exact hs.request fun _ ht => ht.withIndex fun i => ht.withIndex fun j => ht.untouched (.setPort rfl)
  | readHost k x => exact hs.request fun _ ht => ht.withIndex fun i => ht.untouched (.setPort rfl)
  | popNotice k =>
    refine hs.request_untouched ?_
    unfold popNoticeBody
    split
    · exact .answer ..
    · simp only
      refine Untouched.trans ?_ (answerRecord_untouched ..)
      split <;> exact .of_eq rfl rfl
  | readNoticeStatus k =>
    refine hs.request_untouched (Untouched.trans ?_ (answerRecord_untouched ..))
    exact .of_eq rfl rfl
  | writeEntry k x =>
    refine hs.request fun _ ht => ht.withIndex fun e => ?_
    split
    · exact ht.answer k 14 .range
    next c hc =>
      split
      next hi => exact (ht.writeConfig hentries hi (configLaw_of_staged hc).1).answer k 14 .ok
      next => exact ht.answer k 14 .busy
  | enable k x v =>
    change Answers Resting (execEnable k x v s)
    unfold execEnable
    split
    · exact answers_refused _
    · refine hs.request fun _ ht => ht.withIndex fun e => ?_
      split
      · exact (ht.enableEntry hentries e).answer k 15 .ok
      · exact ht.answer k 15 .range
  | disable k x =>
    refine hs.request fun _ ht => ht.withIndex fun e => ?_
    have hwritten : Resting ((s.taken k).enabledAs e false) := ht.untouched (.setEntry rfl)
    exact hwritten.answer k 15 .ok
  | clearEntry k x =>
    refine hs.request fun _ ht => ht.withIndex fun e => ?_
    have hclears : (s.prog e).state ≠ .running → Resting (((s.taken k).clearNow e).answer k 16 .ok) := fun hn => by
      obtain ⟨hentry, hcopies, hclaims, hsettled, hn⟩ := hl.clearable hn
      have hclearable : Clearable (s.taken k) e := ⟨hentry, hcopies, hclaims, hsettled, hn⟩
      exact (ht.clearNow hclearable).answer k 16 .ok
    split
    next => exact ht.answer k 16 .ok
    next hstate => exact hclears (by rw [show (s.prog e).state = _ from hstate]; decide)
    next hstate => exact hclears (by rw [show (s.prog e).state = _ from hstate]; decide)
    next hstate =>
      split
      · exact hclears (by rw [show (s.prog e).state = _ from hstate]; decide)
      · exact ht.answer k 16 .busy
    next => exact ht.answer k 16 .busy
    next => exact ht.answer k 16 .busy
  | retry k x =>
    refine hs.request fun _ ht => ht.withIndex fun e => ?_
    split
    next hp => exact (ht.reopened hentries hp).answer k 17 .ok
    next => exact ht.answer k 17 .state
  | writeBinding k x =>
    refine hs.request fun _ ht => ht.withIndex fun e => ?_
    split
    · exact ht.answer k 18 .range
    · split
      · exact ht.answer k 18 .range
      next b _ =>
        have hbound : Resting ((s.taken k).setBind e b) := ht.untouched (.setEntry rfl)
        split
        · exact ht.answer k 18 .busy
        · exact hbound.answer k 18 .ok
  | arm k x =>
    refine hs.request fun _ ht => ht.withIndex fun e => ?_
    have harmed : Resting ((s.taken k).setBind e { (s.taken k).bind e with armed := true }) := ht.untouched (.setEntry rfl)
    split_ifs
    · exact ht.answer k 19 .range
    · exact ht.answer k 19 .ok
    · exact ht.answer k 19 .range
    · exact harmed.answer k 19 .ok
  | disarm k x =>
    refine hs.request fun _ ht => ht.withIndex fun e => ?_
    split
    next => exact ht.untouched (askCut_untouched _ k e)
    next hq =>
      have hqueued : (s.prog e).state = .queued := hq
      have hunqueued := ht.untouched (unqueued_untouched (s.taken k) e { (s.taken k).bind e with armed := false })
      refine Settled.answer (Settled.enterDelivering hunqueued ?_ (hentries.listed (e := e) (by simp [hqueued])) .plain) k 20 .ok
      rw [unqueued_prog, State.taken_prog, hqueued]
      decide
    next =>
      have hdisarmed : Resting ((s.taken k).setBind e { (s.taken k).bind e with armed := false }) := ht.untouched (.setEntry rfl)
      exact hdisarmed.answer k 20 .ok
  | writeDesc k x =>
    refine hs.request fun _ ht => ht.withIndex fun d => ?_
    split
    · exact ht.answer k 21 .range
    · split
      · exact ht.answer k 21 .busy
      · refine Settled.answer ?_ k 21 .ok
        exact ht.untouched (.of_eq rfl rfl)
  | writeWindow k x y =>
    refine hs.request fun _ ht => ht.withIndex fun i => ht.withIndex fun j => ?_
    split
    · exact ht.answer k 22 .range
    · refine Settled.answer ?_ k 22 .ok
      exact ht.untouched (.of_eq rfl rfl)
  | setHostLimits k x y z =>
    refine hs.request fun _ ht => ht.withIndex fun i => ht.withIndex fun limit => ?_
    split
    next => exact ht.answer k 23 .range
    next hlimit =>
      refine Settled.answer ?_ k 23 .ok
      exact ht.setContext rfl rfl rfl fun _ => hlimit
  | setRights k x v =>
    refine hs.request fun _ ht => ht.withIndex fun i => ?_
    split
    · refine Settled.answer ?_ k 24 .ok
      exact ht.setContext rfl rfl rfl id
    · exact ht.answer k 24 .range
  | handOver k x =>
    refine hs.request fun _ ht => ht.withIndex fun i => ?_
    split_ifs
    · exact ht.answer k 25 .ok
    · refine Settled.answer ?_ k 25 .ok
      exact ht.untouched (.of_eq rfl rfl)
    · exact ht.answer k 25 .state
  | evict k x =>
    refine hs.request fun _ ht => ht.withIndex fun i => ?_
    split
    next hlapsed =>
      have hnoted : Resting ((s.taken k).evictNoted i) := ht.untouched (.of_eq rfl rfl)
      have hsession : (((s.taken k).evictNoted i).ctx i).session ≠ .detached := by
        change ((s.taken k).ctx i).session ≠ _
        rw [hlapsed.2]
        decide
      exact (hnoted.evicted hsession _).answer k 26 .ok
    next => exact ht.answer k 26 .state
  | _ => cases hc

/-! ### The transfers -/

section
variable {s : State} {e : Source} {c : ChannelId}

theorem bestQueued_listed (hb : s.bestQueued = some e) : e ∈ s.du.list := by
  obtain ⟨-, hcontains, -⟩ := bestOf_some hb
  simpa using hcontains

/-- An entry that waits for a channel is QUEUED, and so in no host's sets (R134). -/
theorem EntryLaw.bare_of_waiting (hl : EntryLaw s) (hw : e ∈ s.waitingForChannel) :
    (s.prog e).state ≠ .delivering ∧ (s.prog e).Bare := by
  have ⟨_, _, _, hqueued⟩ := hl
  have hstate := (hqueued e).mp hw
  exact ⟨by simp [hstate], hl.bare (by simp [hstate]) (by simp [hstate])⟩

theorem mem_waiting_of_reinserted (he : e ∈ s.reinserted c) : e ∈ s.waitingForChannel := by
  simp only [State.waitingForChannel, List.mem_append]
  rcases channel_eq_or 0 c with rfl | rfl
  · exact .inr (.inr (.inl he))
  · exact .inr (.inr (.inr he))

theorem exec_delegationInsert_resting (hl : Lawful s) (e : Source) : Answers Resting (exec (.delegationInsert e) s) := by
  have hs := hl.resting
  have hentries := hl.entries
  change Answers Resting (execDelegationInsert e s)
  unfold execDelegationInsert
  simp only
  split
  next hinserts =>
    set t : State := { s with
      du := { s.du with list := s.du.list ++ [e] }
      claims := { s.claims with inserts := s.claims.inserts.filter fun x => x != e } } with ht
    have htaken : Resting t := hs.untouched (.of_eq rfl rfl)
    have hbest : ∀ f, t.bestQueued = some f → (t.prog f).state ≠ .delivering ∧ (t.prog f).Bare := fun f hf => by
      obtain ⟨hmem, -⟩ : e ∈ s.claims.inserts ∧ s.carried e = false := by simpa using hinserts
      refine hentries.bare_of_waiting ?_
      have hlisted : f ∈ s.du.list ++ [e] := bestQueued_listed hf
      rcases List.mem_append.mp hlisted with h | h
      · exact List.mem_append_left _ h
      · obtain rfl := List.mem_singleton.mp h
        exact List.mem_append_right _ (List.mem_append_left _ hmem)
    split_ifs
    · exact answers_next (htaken.grantChannel hbest)
    · exact answers_next (htaken.grantChannel hbest)
    · exact answers_next htaken
  next => exact answers_next hs

theorem exec_channelRelease_resting (hl : Lawful s) (c : ChannelId) : Answers Resting (exec (.channelRelease c) s) := by
  have hs := hl.resting
  have hentries := hl.entries
  change Answers Resting (execChannelRelease c s)
  unfold execChannelRelease
  split
  next => exact answers_next hs
  next reinsert hrelease =>
    refine answers_next (Settled.grantChannel (hs.untouched (.of_eq rfl rfl)) fun f hf => hentries.bare_of_waiting ?_)
    have hlisted := bestQueued_listed hf
    have hmem : f ∈ s.du.list ∨ f ∈ s.reinserted c := by
      cases reinsert with
      | false => exact .inl hlisted
      | true =>
        rw [State.reinserted, if_pos hrelease]
        exact List.mem_append.mp hlisted
    exact hmem.elim (fun h => List.mem_append_left _ h) mem_waiting_of_reinserted

theorem exec_descriptorArrival_resting (hs : Resting s) (c : ChannelId) : Answers Resting (exec (.descriptorArrival c) s) := by
  change Answers Resting (execDescriptorArrival c s)
  unfold execDescriptorArrival
  split
  · exact answers_next (hs.untouched (arriveAt_untouched s c _))
  · exact answers_next (hs.untouched (arriveAt_untouched s c _))
  · exact answers_next hs

theorem exec_unitCheck_resting (hs : Resting s) (c : ChannelId) : Answers Resting (exec (.unitCheck c) s) := by
  change Answers Resting (execUnitCheck c s)
  unfold execUnitCheck
  simp only
  split
  · split_ifs
    · exact answers_next (hs.untouched (failUnit_untouched ..))
    · exact answers_next (hs.untouched (failUnit_untouched ..))
    · exact answers_next (hs.untouched (stopForCut_untouched s c))
    · exact answers_next (hs.untouched (.of_eq rfl rfl))
  · exact answers_next hs

theorem exec_memoryResponse_resting (hs : Resting s) (tag : BitVec 4) (error : Bool) (data : Word) :
    Answers Resting (exec (.memoryResponse tag error data) s) := by
  change Answers Resting (execMemoryResponse tag error data s)
  unfold execMemoryResponse
  split
  · split
    · exact answers_next hs
    · simp only
      split_ifs
      · exact answers_next hs
      · exact answers_next (hs.untouched (failUnit_untouched ..))
      · exact answers_next (hs.untouched (endUnit_untouched ..))
      · exact answers_next (hs.untouched (.of_eq rfl rfl))
  · exact answers_next hs

theorem exec_memoryTimeout_resting (hs : Resting s) : Answers Resting (exec .memoryTimeout s) := by
  change Answers Resting (execMemoryTimeout s)
  unfold execMemoryTimeout
  split
  · split
    · exact answers_next hs
    · refine answers_next (Settled.untouched ?_ (failUnit_untouched ..))
      exact hs.untouched (.of_eq rfl rfl)
  · exact answers_next hs

theorem exec_writeRecord_resting (hs : Resting s) (c : ChannelId) : Answers Resting (exec (.writeRecord c) s) := by
  change Answers Resting (execWriteRecord c s)
  unfold execWriteRecord
  split
  · exact answers_next hs
  · simp only
    split <;> exact answers_next (hs.untouched (.of_eq rfl rfl))

theorem exec_cutRequest_resting (hs : Resting s) (e : Source) : Answers Resting (exec (.cutRequest e) s) := by
  change Answers Resting (execCutRequest e s)
  unfold execCutRequest
  split
  · exact answers_next hs
  next x _ =>
    have htaken : Resting { s with claims := { s.claims with cuts := s.claims.cuts.erase x } } := hs.untouched (.of_eq rfl rfl)
    simp only
    split_ifs
    · exact answers_next htaken
    · exact answers_next (htaken.untouched (cutChannel_untouched _ 0))
    · exact answers_next (htaken.untouched (cutChannel_untouched _ 1))
    · exact answers_next htaken

theorem exec_runSuccess_resting (hs : Resting s) (hl : EntryLaw s) (c : ChannelId) : Answers Resting (exec (.runSuccess c) s) := by
  change Answers Resting (execRunSuccess c s)
  unfold execRunSuccess
  split
  · exact answers_next (Settled.takeResult hs hl c fun t e ht hr hm => ht.succeedAt hr hm)
  · exact answers_next hs

theorem exec_runFailure_resting (hs : Resting s) (hl : EntryLaw s) (c : ChannelId) : Answers Resting (exec (.runFailure c) s) := by
  change Answers Resting (execRunFailure c s)
  unfold execRunFailure
  split
  · exact answers_next (Settled.takeResult hs hl c fun t e ht hr hm => ht.endRunAt hr hm .failed)
  · exact answers_next hs

theorem exec_runCut_resting (hs : Resting s) (hl : EntryLaw s) (c : ChannelId) : Answers Resting (exec (.runCut c) s) := by
  change Answers Resting (execRunCut c s)
  unfold execRunCut
  split
  · exact answers_next (Settled.takeResult hs hl c fun t e ht hr hm => ht.endRunAt hr hm .cut)
  · exact answers_next hs

end

/-! ### The board and the notices -/

section
variable {s : State}

theorem exec_fullResetRelease_resting (hs : Resting s) (evt : BitVec 48) (clksel supsel : BitVec 2) :
    Answers Resting (exec (.fullResetRelease evt clksel supsel) s) := by
  change Answers Resting (execFullResetRelease evt clksel supsel s)
  unfold execFullResetRelease
  split
  · exact answers_next (hs.untouched (.of_eq rfl rfl))
  · exact answers_next hs

theorem exec_unknownRequest_resting (hs : Resting s) (h : HostId) (code : Operand) :
    Answers Resting (exec (.unknownRequest h code) s) := by
  change Answers Resting (execUnknownRequest h code s)
  unfold execUnknownRequest
  split
  · exact answers_refused _
  · exact hs.request_untouched (.answer ..)

theorem exec_lostRequest_resting (hs : Resting s) (h : HostId) : Answers Resting (exec (.lostRequest h) s) := by
  change Answers Resting (execLostRequest h s)
  unfold execLostRequest
  split_ifs
  · exact answers_next hs
  · exact answers_next (hs.untouched (.setPort rfl))
  · exact answers_refused _

theorem exec_registerWrite_resting (hs : Resting s) (h : HostId) (offset : Fin 16) (word : Word) :
    Answers Resting (exec (.registerWrite h offset word) s) := by
  change Answers Resting (execRegisterWrite h offset word s)
  unfold execRegisterWrite
  split_ifs
  · exact answers_refused _
  · exact answers_next hs
  · exact answers_next (hs.untouched (.setPort rfl))
  · exact answers_next hs

theorem exec_lineChange_resting (hs : Resting s) (hl : EntryLaw s) (line : LineId) (high : Bool) :
    Answers Resting (exec (.lineChange line high) s) := by
  change Answers Resting (execLineChange line high s)
  unfold execLineChange
  split
  · exact answers_next hs
  · refine answers_next (Settled.judgeLine ?_ ?_ _ high)
    · exact hs.untouched (.of_eq rfl rfl)
    · exact hl

theorem exec_noticeAppend_resting (hs : Resting s) (o : Origin) : Answers Resting (exec (.noticeAppend o) s) := by
  change Answers Resting (execNoticeAppend o s)
  unfold execNoticeAppend
  split
  · exact answers_next hs
  · refine answers_next (hs.untouched (.of_eq ?_ rfl))
    exact (takeAppend_eventOf 0 _ _).side

theorem exec_noticeLevelChange_resting (hs : Resting s) (hl : EntryLaw s) : Answers Resting (exec .noticeLevelChange s) := by
  change Answers Resting (execNoticeLevelChange s)
  unfold execNoticeLevelChange
  split
  · exact answers_next hs
  next rest _ =>
    have htaken : Resting { s with claims := { s.claims with levels := rest } } := hs.untouched (.of_eq rfl rfl)
    simp only
    split
    · exact answers_next (htaken.assertLevel hl 63)
    · exact answers_next (htaken.deassertLevel hl 63)

end

end Sys2Proof.Machine
end

section
/-! O55: the laws of deliveries after every step. -/

open Sys2Proof Sys2Proof.Machine

namespace Sys2Proof.Machine

theorem Answers.mono {P Q : State → Prop} {r : Result} (hr : Answers P r) (hPQ : ∀ t, P t → Q t) : Answers Q r :=
  fun t ht => hPQ t (hr t ht)

/-- No command breaks the laws of deliveries: full reset starts them over, and any other leaves a state that rests at rest. -/
theorem exec_deliveryLaw (c : Instr) {s : State} (hl : Lawful s) : Answers DeliveryLaw (exec c s) := by
  have hs := hl.resting
  have hentries := hl.entries
  by_cases hreset : c = .fullReset
  · rw [hreset]
    exact answers_next (reset_deliveryLaw ..)
  refine Answers.mono (P := Resting) ?_ fun _ ht => ht.deliveryLaw
  cases hport : c.port with
  | some k => exact exec_request_resting hport hl
  | none =>
    cases c with
    | unknownRequest k code => exact exec_unknownRequest_resting hs k code
    | lostRequest k => exact exec_lostRequest_resting hs k
    | registerWrite k offset word => exact exec_registerWrite_resting hs k offset word
    | lineChange line high => exact exec_lineChange_resting hs hentries line high
    | hostReset k => exact exec_hostReset_resting hs k
    | hostResetRelease k => exact answers_next (hs.untouched (.of_eq rfl rfl))
    | fullReset => exact absurd rfl hreset
    | fullResetRelease evt clksel supsel => exact exec_fullResetRelease_resting hs evt clksel supsel
    | offerExpiry k => exact exec_offerExpiry_resting hs k
    | lapseReport k => exact exec_lapseReport_resting hs k
    | lapseAnswer k => exact exec_lapseAnswer_resting hs k
    | takePush k => exact exec_takePush_resting hs k
    | takeHold k => exact exec_takeHold_resting hs k
    | takeUndo k => exact exec_takeUndo_resting hs k
    | finishReport k e => exact exec_finishReport_resting hs k e
    | releaseReport k e => exact exec_releaseReport_resting hs k e
    | stackRelease k => exact exec_stackRelease_resting hs k
    | owedDeparture k => exact exec_owedDeparture_resting hs hentries k
    | withdrawalReport k => exact exec_withdrawalReport_resting hs k
    | delegationInsert e => exact exec_delegationInsert_resting hl e
    | channelRelease c => exact exec_channelRelease_resting hl c
    | descriptorArrival c => exact exec_descriptorArrival_resting hs c
    | unitCheck c => exact exec_unitCheck_resting hs c
    | memoryGrant => exact answers_next (hs.untouched (nextGrant_untouched s))
    | memoryResponse tag error data => exact exec_memoryResponse_resting hs tag error data
    | memoryTimeout => exact exec_memoryTimeout_resting hs
    | writeRecord c => exact exec_writeRecord_resting hs c
    | cutRequest e => exact exec_cutRequest_resting hs e
    | runSuccess c => exact exec_runSuccess_resting hs hentries c
    | runFailure c => exact exec_runFailure_resting hs hentries c
    | runCut c => exact exec_runCut_resting hs hentries c
    | noticeAppend o => exact exec_noticeAppend_resting hs o
    | noticeLevelChange => exact exec_noticeLevelChange_resting hs hentries
    | _ => cases hport

end Sys2Proof.Machine

/-- Settles O55: a lawful state rests, with no offer choice open, and every command leaves it at rest. -/
theorem everyStepKeepsTheDeliveryLaw : Obligations.EveryStepKeepsTheDeliveryLaw := by
  intro s t hl hstep
  unfold step at hstep
  split at hstep
  next =>
    cases hstep
    exact (hl.resting.untouched (.of_eq rfl rfl)).deliveryLaw
  next c rest _ =>
    have hrest : Lawful { s with pending := rest } := hl
    exact exec_deliveryLaw c hrest t hstep
end

section
/-! The records staged for WRITE_BINDING, WRITE_DESC and WRITE_WINDOW, and the layouts that READ_DESC and READ_WINDOW return (R117, R118,
R123, R124, R155, R156, R179, R180). -/

open Sys2Proof Sys2Proof.Machine

namespace Sys2Proof.Machine

/-! ### Codes (R177, R180) -/

theorem Deliver.ofCode_some {n : Nat} {d : Deliver} : Deliver.ofCode n = some d ↔ n = d.code := by
  constructor
  · intro h
    unfold Deliver.ofCode at h
    split at h <;> cases h <;> rfl
  · rintro rfl
    cases d <;> rfl

/-- A staged step is never the encoding 0 that full reset leaves (R122, R123). -/
theorem AddrStep.ofCode_some {n : Nat} {x : AddrStep} : AddrStep.ofCode n = some x ↔ n = x.code ∧ x ≠ .unset := by
  constructor
  · intro h
    unfold AddrStep.ofCode at h
    split at h <;> cases h <;> exact ⟨rfl, by decide⟩
  · rintro ⟨rfl, hx⟩
    cases x with
    | unset => exact absurd rfl hx
    | inc => rfl
    | dec => rfl
    | fixed => rfl

theorem WindowAccess.ofCode_some {n : Nat} {a : WindowAccess} : WindowAccess.ofCode n = some a ↔ n = a.code := by
  constructor
  · intro h
    unfold WindowAccess.ofCode at h
    split at h <;> cases h <;> rfl
  · rintro rfl
    cases a <;> rfl

theorem AddrStep.code_lt (x : AddrStep) : x.code < 4 := by cases x <;> decide
theorem WindowAccess.code_lt (a : WindowAccess) : a.code < 4 := by cases a <;> decide

/-! ### Staged fields -/

/-- A 16-bit field is the number that it holds. -/
theorem ofNat_field16_eq (w : Word) (lo : Nat) (x : Fin 65536) : Fin.ofNat 65536 (field w lo 16) = x ↔ field w lo 16 = x.val := by
  rw [Fin.ext_iff, Fin.val_ofNat, Nat.mod_eq_of_lt (show field w lo 16 < 65536 from field_lt w lo 16)]

/-- A head or link is staged as its present bit and, where that is set, its number (R117, R123). -/
theorem stagedIndex_some {w : Word} {l : Option DescId} :
    stagedIndex w = some l ↔ flag w 8 = l.isSome ∧ ∀ d ∈ l, field w 0 8 = d.val := by
  have hd := fun d : DescId => d.isLt
  unfold stagedIndex
  split
  next hf =>
    split
    next hx => cases l with
      | none => simp [hf]
      | some d =>
        simp only [hf, Option.some.injEq, Option.isSome_some, Option.mem_some_iff, forall_eq', true_and]
        exact Fin.ext_iff
    next hx => cases l with
      | none => simp [hf]
      | some d =>
        simp only [reduceCtorEq, Option.mem_some_iff, forall_eq', false_iff, not_and]
        exact fun _ hv => hx (hv ▸ hd d)
  next hf => cases l with
    | none => simp [hf]
    | some d => simp [hf]

/-! ### The binding staged for WRITE_BINDING (R117, R179) -/

/-- The words hold the fields of a binding at their bits, its reload not 0; the armed field is not staged. -/
abbrev HoldsBinding (w1 w2 : Word) (b : Binding) : Prop :=
  b.armed = false ∧ field w1 0 16 = b.runsLeft.val ∧
  (flag w2 8 = b.head.isSome ∧ ∀ d ∈ b.head, field w2 0 8 = d.val) ∧
  (flag w2 9 = b.reload.isSome ∧ ∀ r ∈ b.reload, r ≠ 0 ∧ field w1 16 16 = r.val) ∧ field w2 12 2 = b.deliver.code

theorem holdsBinding_of_staged {st : Table Word 8} {b : Binding} (h : stagedBinding st = some b) :
    HoldsBinding (look st 1) (look st 2) b := by
  unfold stagedBinding stageWord at h
  dsimp only at h
  split at h
  next head d hhead hd =>
    split_ifs at h with hzero hreload
    · cases h
      have hne : Fin.ofNat 65536 (field (look st 1) 16 16) ≠ 0 := by simpa [hreload] using hzero
      refine ⟨rfl, (ofNat_field16_eq _ _ _).mp rfl, stagedIndex_some.mp hhead, ⟨hreload, fun r hr => ?_⟩,
        Deliver.ofCode_some.mp hd⟩
      obtain rfl := Option.mem_some_iff.mp hr
      exact ⟨hne, (ofNat_field16_eq _ _ _).mp rfl⟩
    · cases h
      exact ⟨rfl, (ofNat_field16_eq _ _ _).mp rfl, stagedIndex_some.mp hhead, ⟨by simpa using hreload, by simp⟩,
        Deliver.ofCode_some.mp hd⟩
  next => cases h

theorem staged_of_holdsBinding {st : Table Word 8} {b : Binding} (hb : HoldsBinding (look st 1) (look st 2) b) :
    stagedBinding st = some b := by
  obtain ⟨harmed, hruns, hhead, ⟨hflag, hreload⟩, hdeliver⟩ := hb
  unfold stagedBinding stageWord
  dsimp only
  rw [stagedIndex_some.mpr hhead, Deliver.ofCode_some.mpr hdeliver, (ofNat_field16_eq _ _ _).mpr hruns, hflag]
  dsimp only
  obtain ⟨head, runsLeft, reload, deliver, armed⟩ := b
  cases harmed
  cases reload with
  | none => rfl
  | some r =>
    obtain ⟨hne, hval⟩ := hreload r rfl
    rw [(ofNat_field16_eq _ _ _).mpr hval, if_neg (by simpa using hne)]
    rfl

/-! ### The descriptor staged for WRITE_DESC (R123, R180) -/

/-- The words hold the fields of a descriptor at their bits, which host h writes: valid, owned by h, neither active nor faulted. -/
abbrev HoldsDescriptor (h : HostId) (w0 w1 w2 w3 : Word) (x : Descriptor) : Prop :=
  x.valid = true ∧ x.owner = some h ∧ x.active = false ∧ x.faulted = false ∧ DescriptorLaw x ∧ w0 = x.src ∧ w1 = x.dst ∧
  field w2 0 3 = x.unitSize ∧ field w2 4 2 = x.srcStep.code ∧ field w2 6 2 = x.dstStep.code ∧ field w2 16 13 = x.runLength ∧
  flag w3 8 = x.link.isSome ∧ ∀ d ∈ x.link, field w3 0 8 = d.val

theorem holdsDescriptor_of_staged {h : HostId} {st : Table Word 8} {x : Descriptor} (hx : stagedDescriptor h st = some x) :
    HoldsDescriptor h (look st 0) (look st 1) (look st 2) (look st 3) x := by
  unfold stagedDescriptor stageWord at hx
  dsimp only at hx
  split at hx
  next ss ds link hss hds hlink =>
    split_ifs at hx with hsize hlen haligned
    cases hx
    obtain ⟨hsscode, hssset⟩ := AddrStep.ofCode_some.mp hss
    obtain ⟨hdscode, hdsset⟩ := AddrStep.ofCode_some.mp hds
    obtain ⟨hflag, hval⟩ := stagedIndex_some.mp hlink
    have hsizes : field (look st 2) 0 3 = 1 ∨ field (look st 2) 0 3 = 2 ∨ field (look st 2) 0 3 = 4 := by grind
    obtain ⟨hpos, hmax⟩ : field (look st 2) 16 13 ≠ 0 ∧ field (look st 2) 16 13 ≤ Config.maxRunLength := by simpa using hlen
    obtain ⟨hsrc, hdst⟩ : aligned (look st 0) (field (look st 2) 0 3) = true ∧
        aligned (look st 1) (field (look st 2) 0 3) = true := by simpa using haligned
    have hlaw := And.intro hsrc (And.intro hdst (And.intro hssset (And.intro hdsset (And.intro (Nat.pos_of_ne_zero hpos) hmax))))
    exact ⟨rfl, rfl, rfl, rfl, ⟨by simp, fun _ => ⟨by simp, hsizes, hlaw⟩⟩, rfl, rfl, rfl, hsscode, hdscode, rfl, hflag, hval⟩
  next => cases hx

theorem staged_of_holdsDescriptor {h : HostId} {st : Table Word 8} {x : Descriptor}
    (hx : HoldsDescriptor h (look st 0) (look st 1) (look st 2) (look st 3) x) : stagedDescriptor h st = some x := by
  obtain ⟨hvalid, howner, hactive, hfaulted, ⟨-, hlaw⟩, hsrc, hdst, hsize, hss, hds, hlen, hlink⟩ := hx
  obtain ⟨-, hsizes, hsrcAligned, hdstAligned, hssSet, hdsSet, hpos, hmax⟩ := hlaw hvalid
  unfold stagedDescriptor stageWord
  dsimp only
  rw [stagedIndex_some.mpr hlink, AddrStep.ofCode_some.mpr ⟨hss, hssSet⟩, AddrStep.ofCode_some.mpr ⟨hds, hdsSet⟩, hsize, hlen,
    hsrc, hdst]
  dsimp only
  have hsizeOk : ¬(!(x.unitSize == 1 || x.unitSize == 2 || x.unitSize == 4)) = true := by grind
  have hlenOk : ¬(x.runLength == 0 || decide (Config.maxRunLength < x.runLength)) = true := by grind
  rw [if_neg hsizeOk, if_neg hlenOk, if_neg (by simp [hsrcAligned, hdstAligned])]
  obtain ⟨valid, owner, src, dst, unitSize, srcStep, dstStep, runLength, link, active, faulted⟩ := x
  cases hvalid
  cases howner
  cases hactive
  cases hfaulted
  rfl

/-! ### The window staged for WRITE_WINDOW (R155, R180) -/

/-- The words hold the fields of a window at their bits, its written indicator clear. -/
abbrev HoldsWindow (w0 w1 w2 : Word) (x : Window) : Prop :=
  x.written = false ∧ WindowLaw x ∧ field w0 0 21 = x.base ∧ field w1 0 17 = x.count ∧ field w2 0 2 = x.access.code

theorem holdsWindow_of_staged {st : Table Word 8} {x : Window} (hx : stagedWindow st = some x) :
    HoldsWindow (look st 0) (look st 1) (look st 2) x := by
  unfold stagedWindow stageWord at hx
  dsimp only at hx
  split at hx
  next => cases hx
  next a ha =>
    split_ifs at hx with hbase hcount hspace
    cases hx
    obtain ⟨hpos, hmax⟩ : field (look st 1) 0 17 ≠ 0 ∧ field (look st 1) 0 17 ≤ Config.maxPageCount := by simpa using hcount
    exact ⟨rfl, ⟨Nat.pos_of_ne_zero hpos, hmax, by simpa using hspace⟩, rfl, rfl, WindowAccess.ofCode_some.mp ha⟩

theorem staged_of_holdsWindow {st : Table Word 8} {x : Window} (hx : HoldsWindow (look st 0) (look st 1) (look st 2) x) :
    stagedWindow st = some x := by
  obtain ⟨hwritten, ⟨hpos, hmax, hspace⟩, hbase, hcount, haccess⟩ := hx
  unfold stagedWindow stageWord
  dsimp only
  rw [WindowAccess.ofCode_some.mpr haccess, hbase, hcount]
  dsimp only
  rw [if_neg (by omega), if_neg (by simp [hmax]; omega), if_neg (by omega), ← hwritten]

/-! ### The layouts of a descriptor and of a window record (R180) -/

/-- The two bounds that the fields of a descriptor record rest on. -/
theorem DescriptorLaw.fits {x : Descriptor} (hx : DescriptorLaw x) : x.unitSize < 8 ∧ x.runLength < 8192 := by
  obtain ⟨hreset, hvalid⟩ := hx
  cases hv : x.valid with
  | false =>
    rw [hreset hv]
    decide
  | true =>
    obtain ⟨-, hsize, -, -, -, -, -, hmax⟩ := hvalid hv
    exact ⟨by omega, hmax.trans_lt (by decide)⟩

/-- STAGE2 of a descriptor record: the unit, the steps and the run length. -/
theorem descShape_fields {x : Descriptor} (hx : DescriptorLaw x) :
    ∀ f ∈ [(0, 3, x.unitSize), (4, 2, x.srcStep.code), (6, 2, x.dstStep.code), (16, 13, x.runLength), (29, 3, 0)],
      field (look (descRecord x) 2) f.1 f.2.1 = f.2.2 := by
  obtain ⟨hsize, hlen⟩ := hx.fits
  rw [descRecord, look_stageRecord]
  refine Layout.fields ?_ rfl
  simp [Layout, hsize, hlen, x.srcStep.code_lt, x.dstStep.code_lt]

/-- STAGE3 of a descriptor record: the link, the owner and the three marks. -/
theorem descMarks_fields (x : Descriptor) :
    ∀ f ∈ [(0, 8, (x.link.getD 0).val), (8, 1, bit x.link.isSome), (16, 2, (x.owner.getD 0).val), (18, 1, bit x.owner.isSome),
        (24, 1, bit x.valid), (25, 1, bit x.active), (26, 1, bit x.faulted)],
      field (look (descRecord x) 3) f.1 f.2.1 = f.2.2 := by
  rw [descRecord, look_stageRecord]
  refine Layout.fields ?_ rfl
  have hlink : (x.link.getD 0).val < 256 := by omega
  simp [Layout, hlink, bit_le]

theorem packWord_single {n : Nat} (hn : n < 2 ^ 32) : (packWord [(0, n)]).toNat = n := by
  rw [packWord_eq, BitVec.toNat_ofNat]
  simpa [packNat] using hn

/-- STAGE2 of a window record: the access and the written indicator. -/
theorem windowMarks_fields (x : Window) :
    ∀ f ∈ [(0, 2, x.access.code), (2, 6, 0), (8, 1, bit x.written), (9, 23, 0)],
      field (look (windowRecord x) 2) f.1 f.2.1 = f.2.2 := by
  rw [windowRecord, look_stageRecord]
  refine Layout.fields ?_ (by simp [packNat, placedFields])
  simp [Layout, x.access.code_lt, bit_le]

/-! ### The requests -/

section
variable {s : State} {h : HostId} {object sub : Operand}

theorem exec_readDesc {d : DescId} (hp : PortTakes s h) (hx : object.toNat = d.val) :
    exec (.readDesc h object) s = .next (s.answeredWith h 9 (descRecord (s.desc d))) := by
  change request h 9 .none false (readDescBody h object) s = _
  rw [request_runs hp (holdsRight_none s h) (by simp), readDescBody, withIndex_val hx, State.taken_desc, State.taken_answerRecord]

theorem exec_readWindow {k : HostId} {i : Fin 8} (hp : PortTakes s h) (hx : object.toNat = k.val) (hy : sub.toNat = i.val) :
    exec (.readWindow h object sub) s = .next (s.answeredWith h 10 (windowRecord (look (s.windows k) i))) := by
  change request h 10 .none false (readWindowBody h object sub) s = _
  rw [request_runs hp (holdsRight_none s h) (by simp), readWindowBody, withIndex_val hx, withIndex_val hy, State.taken_windows,
    State.taken_answerRecord]

theorem exec_writeBinding_range {e : Source} (hp : PortTakes s h) (hr : s.holdsRight h .config = true) (hx : object.toNat = e.val)
    (he : e ≠ 63) (hb : stagedBinding (s.port h).stage = none) :
    exec (.writeBinding h object) s = .next (s.answered h 18 .range) := by
  change request h 18 .config false (writeBindingBody h object) s = _
  rw [request_runs hp hr (by simp), writeBindingBody, withIndex_val hx, if_neg he, State.taken_stage, hb, State.taken_answer]

/-- WRITE_BINDING of a valid binding at an entry but S63 is judged by the armed field (R117). -/
theorem exec_writeBinding {e : Source} {b : Binding} (hp : PortTakes s h) (hr : s.holdsRight h .config = true)
    (hx : object.toNat = e.val) (he : e ≠ 63) (hb : stagedBinding (s.port h).stage = some b) :
    exec (.writeBinding h object) s =
      .next (if (s.bind e).armed then s.answered h 18 .busy else (s.setBind e b).answered h 18 .ok) := by
  change request h 18 .config false (writeBindingBody h object) s = _
  rw [request_runs hp hr (by simp), writeBindingBody, withIndex_val hx, if_neg he, State.taken_stage, hb, State.taken_bind]
  dsimp only
  rw [State.taken_answer]
  have hwritten := State.taken_answer (s.setBind e b) h 18 .ok
  exact congrArg (fun t => Host.Outcome.next (if (s.bind e).armed then s.answered h 18 .busy else t)) hwritten

/-- ARM at an entry but S63 is judged by the armed field, and then by the runs left and the head (R118). -/
theorem exec_arm {e : Source} (hp : PortTakes s h) (hr : s.holdsRight h .config = true) (hx : object.toNat = e.val)
    (he : e ≠ 63) :
    exec (.arm h object) s = .next (if (s.bind e).armed then s.answered h 19 .ok
      else if (s.bind e).runsLeft = 0 || (s.bind e).head.isNone then s.answered h 19 .range
      else (s.setBind e { s.bind e with armed := true }).answered h 19 .ok) := by
  change request h 19 .config false (armBody h object) s = _
  rw [request_runs hp hr (by simp), armBody, withIndex_val hx, if_neg he, State.taken_bind, State.taken_answer, State.taken_answer]
  have hwritten := State.taken_answer (s.setBind e { s.bind e with armed := true }) h 19 .ok
  exact congrArg (fun t => Host.Outcome.next (if (s.bind e).armed then s.answered h 19 .ok
    else if (s.bind e).runsLeft = 0 || (s.bind e).head.isNone then s.answered h 19 .range else t)) hwritten

theorem exec_writeDesc_range {d : DescId} (hp : PortTakes s h) (hr : s.holdsRight h .desc = true) (hx : object.toNat = d.val)
    (hd : stagedDescriptor h (s.port h).stage = none) : exec (.writeDesc h object) s = .next (s.answered h 21 .range) := by
  change request h 21 .desc false (writeDescBody h object) s = _
  rw [request_runs hp hr (by simp), writeDescBody, withIndex_val hx, State.taken_stage, hd, State.taken_answer]

/-- WRITE_DESC of a valid descriptor is judged by the active field of the one that it would replace (R123). -/
theorem exec_writeDesc {d : DescId} {x : Descriptor} (hp : PortTakes s h) (hr : s.holdsRight h .desc = true)
    (hx : object.toNat = d.val) (hd : stagedDescriptor h (s.port h).stage = some x) :
    exec (.writeDesc h object) s =
      .next (if (s.desc d).active then s.answered h 21 .busy else (s.setDesc d x).answered h 21 .ok) := by
  change request h 21 .desc false (writeDescBody h object) s = _
  rw [request_runs hp hr (by simp), writeDescBody, withIndex_val hx, State.taken_stage, hd, State.taken_desc]
  dsimp only
  rw [State.taken_answer]
  have hwritten := State.taken_answer (s.setDesc d x) h 21 .ok
  exact congrArg (fun t => Host.Outcome.next (if (s.desc d).active then s.answered h 21 .busy else t)) hwritten

theorem exec_writeWindow_range {k : HostId} {i : Fin 8} (hp : PortTakes s h) (hs : s.hcu.supervisor = h)
    (hx : object.toNat = k.val) (hy : sub.toNat = i.val) (hw : stagedWindow (s.port h).stage = none) :
    exec (.writeWindow h object sub) s = .next (s.answered h 22 .range) := by
  change request h 22 .supervisor false (writeWindowBody h object sub) s = _
  rw [request_runs hp (holdsRight_supervisor hs _) (by simp), writeWindowBody, withIndex_val hx, withIndex_val hy,
    State.taken_stage, hw, State.taken_answer]

/-- WRITE_WINDOW is judged by the staged window alone (R155). -/
theorem exec_writeWindow {k : HostId} {i : Fin 8} {x : Window} (hp : PortTakes s h) (hs : s.hcu.supervisor = h)
    (hx : object.toNat = k.val) (hy : sub.toNat = i.val) (hw : stagedWindow (s.port h).stage = some x) :
    exec (.writeWindow h object sub) s = .next ((s.setWindows k (put (s.windows k) i x)).answered h 22 .ok) := by
  change request h 22 .supervisor false (writeWindowBody h object sub) s = _
  rw [request_runs hp (holdsRight_supervisor hs _) (by simp), writeWindowBody, withIndex_val hx, withIndex_val hy,
    State.taken_stage, hw]
  exact congrArg Host.Outcome.next (State.taken_answer (s.setWindows k (put (s.windows k) i x)) h 22 .ok)

end

end Sys2Proof.Machine

/-- Settles O16: each word of the two records is a layout of fields, which the record's own law keeps within their bits. -/
theorem descriptorAndWindowReadsReturnTheRecord : Obligations.DescriptorAndWindowReadsReturnTheRecord := by
  intro s h object hp
  refine ⟨fun d hx hlaw => ⟨_, exec_readDesc hp hx, rfl, rfl, descShape_fields hlaw, descMarks_fields _, rfl, rfl, rfl, rfl⟩,
    fun k i sub hx hy hlaw => ?_⟩
  obtain ⟨-, hcount, hspace⟩ := hlaw
  have hbaseFits : (look (s.windows k) i).base < 2 ^ 32 := by unfold Config.pageLimit at hspace; omega
  have hcountFits : (look (s.windows k) i).count < 2 ^ 32 := by unfold Config.maxPageCount at hcount; omega
  exact ⟨_, exec_readWindow hp hx hy, packWord_single hbaseFits, packWord_single hcountFits, windowMarks_fields _,
    rfl, rfl, rfl, rfl, rfl⟩

/-- Settles O24: the staged binding is the one that the words hold, and each request is judged by the binding as it stands. -/
theorem bindingsAreWrittenAndArmed : Obligations.BindingsAreWrittenAndArmed := by
  intro s h e object hp hr hx he w1 w2 staged
  refine ⟨fun b hb => ⟨fun hfree => ?_, fun harmed => ?_⟩, fun hnone => ?_, fun harmed => ?_, fun hfree hbad => ?_,
    fun hfree hruns hhead => ?_⟩
  · rw [exec_writeBinding hp hr hx he (staged_of_holdsBinding hb)]
    simp [hfree]
  · rw [exec_writeBinding hp hr hx he (staged_of_holdsBinding hb)]
    simp [harmed]
  · cases hb : stagedBinding (s.port h).stage with
    | none => exact exec_writeBinding_range hp hr hx he hb
    | some b => exact absurd (holdsBinding_of_staged hb) (hnone b)
  · rw [exec_arm hp hr hx he, if_pos harmed]
  · rw [exec_arm hp hr hx he, if_neg (by simp [hfree]), if_pos (by simpa using hbad)]
  · rw [exec_arm hp hr hx he, if_neg (by simp [hfree]), if_neg (by simp [hruns, hhead])]

/-- Settles O26: the staged record is the one that the words hold, and only an active descriptor stands in its way. -/
theorem descriptorsAndWindowsAreWritten : Obligations.DescriptorsAndWindowsAreWritten := by
  intro s h object hp w0 w1 w2 w3 stagedDesc stagedWin
  refine ⟨fun hr d hx => ⟨fun x hd => ⟨fun hfree => ?_, fun hactive => ?_⟩, fun hnone => ?_⟩,
    fun hs k i sub hx hy => ⟨fun x hw => ?_, fun hnone => ?_⟩⟩
  · rw [exec_writeDesc hp hr hx (staged_of_holdsDescriptor hd)]
    simp [hfree]
  · rw [exec_writeDesc hp hr hx (staged_of_holdsDescriptor hd)]
    simp [hactive]
  · cases hd : stagedDescriptor h (s.port h).stage with
    | none => exact exec_writeDesc_range hp hr hx hd
    | some x => exact absurd (holdsDescriptor_of_staged hd) (hnone x)
  · exact exec_writeWindow hp hs hx hy (staged_of_holdsWindow hw)
  · cases hw : stagedWindow (s.port h).stage with
    | none => exact exec_writeWindow_range hp hs hx hy hw
    | some x => exact absurd (holdsWindow_of_staged hw) (hnone x)
end

section
/-! The arrival of a channel at a descriptor (R125, R128, R140). -/

open Sys2Proof Sys2Proof.Machine

namespace Sys2Proof.Machine

section
variable {s : State} {c : ChannelId} {d : DescId}

/-- A channel that arrives at a descriptor, or waits at one, executes none (R135). -/
theorem executing_of_going (hp : (s.channel c).position = .arriving d ∨ (s.channel c).position = .waiting d) :
    s.executing c = none := by
  unfold State.executing
  rcases hp with hp | hp <;> rw [hp]

theorem exec_descriptorArrival (hp : (s.channel c).position = .arriving d ∨ (s.channel c).position = .waiting d) :
    exec (.descriptorArrival c) s = .next (s.arriveAt c d) := by
  change execDescriptorArrival c s = _
  unfold execDescriptorArrival
  rcases hp with hp | hp <;> rw [hp]

/-- A channel that executes no descriptor has none to clear as it stops (R141). -/
theorem stopForCut_idle (he : s.executing c = none) : s.stopForCut c = s.reporting c .cut := by
  rw [State.stopForCut, he, reportRun_eq]

end

end Sys2Proof.Machine

/-- Settles O42: the arrival is judged by the cut mark and then by the descriptor, in the order of R125. -/
theorem anArrivalAtADescriptorIsJudged : Obligations.AnArrivalAtADescriptorIsJudged := by
  intro s c
  refine ⟨fun d hp => ?_, fun hp => ?_⟩
  · intro x
    rw [exec_descriptorArrival hp, State.arriveAt]
    refine ⟨fun hcut => ?_, fun hcut => ⟨fun hbad => ?_, fun hvalid hfaulted hactive => ?_, fun hvalid hfaulted hactive => ?_⟩⟩
    · rw [if_pos hcut, stopForCut_idle (executing_of_going hp)]
    · rw [if_neg (by simp [hcut]), if_pos (by simpa using hbad), failRun_eq]
    · rw [if_neg (by simp [hcut]), if_neg (show ¬(!x.valid || x.faulted) = true by simp [hvalid, hfaulted]), if_pos hactive]
    · rw [if_neg (by simp [hcut]), if_neg (show ¬(!x.valid || x.faulted) = true by simp [hvalid, hfaulted]), if_neg (by simpa using hactive)]
  · change execDescriptorArrival c s = _
    unfold execDescriptorArrival
    split
    next d hd => exact absurd hd (hp d).1
    next d hd => exact absurd hd (hp d).2
    next => rfl
end

section
/-! The laws of the Event Table, entry by entry: an entry's record with its places in the arrival order list and among the entries that wait
for a channel (R1 to R4, R7, R13, R16, R28, R116, R134, R135). -/

open Sys2Proof Sys2Proof.Machine

namespace Sys2Proof.Machine

/-! ### The law of one entry -/

/-- A list holds exactly the sources that pass a test, each once: it counts each of them once and no other. -/
theorem nodup_mem_iff_count {l : List Source} {p : Source → Prop} [DecidablePred p] :
    (l.Nodup ∧ ∀ e, e ∈ l ↔ p e) ↔ ∀ e, l.count e = if p e then 1 else 0 := by
  constructor
  · rintro ⟨hnodup, hmem⟩ e
    rw [hnodup.count, if_congr (hmem e) rfl rfl]
  · intro hcount
    refine ⟨List.nodup_iff_count_le_one.mpr fun e => ?_, fun e => ?_⟩
    · rw [hcount]
      split <;> omega
    · rw [← List.count_pos_iff, hcount]
      split <;> simp [*]

/-- What the laws of the Event Table say of entry e. -/
structure LawAt (s : State) (e : Source) : Prop where
  config : ConfigLaw e (s.cfg e)
  binding : BindingLaw e (s.bind e) (s.prog e).state
  progress : ProgressLaw (s.cfg e) (s.prog e)
  listed : s.et.order.count e = if (s.prog e).state ≠ .idle then 1 else 0
  waiting : s.waitingForChannel.count e = if (s.prog e).state = .queued then 1 else 0

theorem entryLaw_iff {s : State} : EntryLaw s ↔ ∀ e, LawAt s e := by
  constructor
  · rintro ⟨hentries, horder, hqueued⟩ e
    obtain ⟨hconfig, hbinding, hprogress⟩ := hentries e
    exact ⟨hconfig, hbinding, hprogress, nodup_mem_iff_count.mp horder e, nodup_mem_iff_count.mp hqueued e⟩
  · intro h
    exact ⟨fun e => ⟨(h e).config, (h e).binding, (h e).progress⟩, nodup_mem_iff_count.mpr fun e => (h e).listed,
      nodup_mem_iff_count.mpr fun e => (h e).waiting⟩

section
variable {s t : State} {e f : Source} {n : Nat} {q : Progress} {x : Entry}

theorem EntryLaw.lawAt (hl : EntryLaw s) (e : Source) : LawAt s e := entryLaw_iff.mp hl e

theorem LawAt.congr (hl : LawAt s f) (hentry : t.entry f = s.entry f) (horder : t.et.order.count f = s.et.order.count f)
    (hwaiting : t.waitingForChannel.count f = s.waitingForChannel.count f) : LawAt t f := by
  have hcfg : t.cfg f = s.cfg f := congrArg Entry.cfg hentry
  have hbind : t.bind f = s.bind f := congrArg Entry.bind hentry
  have hprog : t.prog f = s.prog f := congrArg Entry.prog hentry
  obtain ⟨hconfig, hbinding, hprogress, hlisted, hwaits⟩ := hl
  exact ⟨hcfg ▸ hconfig, by rw [hbind, hprog]; exact hbinding, by rw [hcfg, hprog]; exact hprogress,
    by rw [horder, hprog]; exact hlisted, by rw [hwaiting, hprog]; exact hwaits⟩

/-- A change of what the Event Table's laws do not speak of keeps them. -/
theorem EntryLaw.of_same (hl : EntryLaw s) (het : t.et = s.et) (hwaiting : t.waitingForChannel = s.waitingForChannel) :
    EntryLaw t :=
  entryLaw_iff.mpr fun f => (hl.lawAt f).congr (congrArg (fun u : EventTable => look u.entries f) het) (by rw [het]) (by rw [hwaiting])

/-- An entry is rewritten by a lawful one that is IDLE, or QUEUED, exactly where it was. -/
theorem EntryLaw.setEntry (hl : EntryLaw s) (hconfig : ConfigLaw e x.cfg) (hbinding : BindingLaw e x.bind x.prog.state)
    (hprogress : ProgressLaw x.cfg x.prog) (hidle : x.prog.state = .idle ↔ (s.prog e).state = .idle)
    (hqueued : x.prog.state = .queued ↔ (s.prog e).state = .queued) : EntryLaw (s.setEntry e x) :=
  entryLaw_iff.mpr fun f => by
    by_cases hf : f = e
    · subst hf
      refine ⟨?_, ?_, ?_, ?_, ?_⟩
      · simpa using hconfig
      · simpa using hbinding
      · simpa using hprogress
      · simpa [hidle] using (hl.lawAt f).listed
      · simpa [hqueued] using (show (s.setEntry f x).waitingForChannel.count f = _ from (hl.lawAt f).waiting)
    · exact (hl.lawAt f).congr (by rw [State.setEntry_entry, if_neg hf]) rfl rfl

/-- The state part of an entry is rewritten in the same state. -/
theorem EntryLaw.setProg (hl : EntryLaw s) (hprogress : ProgressLaw (s.cfg e) q) (hstate : q.state = (s.prog e).state) :
    EntryLaw (s.setProg e q) :=
  EntryLaw.setEntry (x := { s.entry e with prog := q }) hl (hl.lawAt e).config
    (by rw [hstate]; exact (hl.lawAt e).binding) hprogress (by rw [hstate]) (by rw [hstate])

/-! ### Offers -/

/-- An entry's offered set changes with its law kept, where the entry is DELIVERING or the set stays empty. -/
theorem LawAt.offered {y : HostSet} (hl : LawAt s f) (hentry : t.entry f = { s.entry f with prog := { s.prog f with offered := y } })
    (hy : (s.prog f).state ≠ .delivering → y = 0) (horder : t.et.order.count f = s.et.order.count f)
    (hwaiting : t.waitingForChannel.count f = s.waitingForChannel.count f) : LawAt t f := by
  have hcfg : t.cfg f = s.cfg f := (congrArg Entry.cfg hentry :)
  have hbind : t.bind f = s.bind f := (congrArg Entry.bind hentry :)
  have hprog : t.prog f = { s.prog f with offered := y } := congrArg Entry.prog hentry
  obtain ⟨hconfig, hbinding, ⟨houtcome, hsets, howed, hdecline, hrest⟩, hlisted, hwaits⟩ := hl
  refine ⟨hcfg ▸ hconfig, by rw [hbind, hprog]; exact hbinding, ?_, by rw [horder, hprog]; exact hlisted,
    by rw [hwaiting, hprog]; exact hwaits⟩
  rw [hcfg, hprog]
  exact ⟨houtcome, fun hn => ⟨hy hn, (hsets hn).2⟩, howed, hdecline, hrest⟩

theorem OffersOnly.waitingForChannel (g : OffersOnly s t) : t.waitingForChannel = s.waitingForChannel := by
  rw [g.1]
  rfl

/-- No offer is of an entry that is not DELIVERING (R64), and one withdrawn from such an entry leaves its offered set empty. -/
theorem entryLaw_keptByOffers : KeptByOffers EntryLaw := fun s d b w hwant hw hl => by
  obtain ⟨-, helig, -, hlo, -⟩ := wanted_some hwant
  have honly := OffersOnly.placeOffer hw hlo
  refine entryLaw_iff.mpr fun f => ?_
  refine (hl.lawAt f).offered (honly.2.1 f) (fun hn => ?_) (by rw [honly.order]) (by rw [honly.waitingForChannel])
  obtain ⟨-, hsets, -⟩ := (hl.lawAt f).progress
  have hf : f ≠ b := fun hfb => hn (hfb ▸ eligible_delivering helig)
  rw [placeOffer_offered, if_neg hf, (hsets hn).1]
  simp [dropHost]

theorem EntryLaw.choose (hl : EntryLaw s) (h : HostId) : EntryLaw (s.choose h) := entryLaw_keptByOffers.choose s h hl

theorem EntryLaw.offerNews (hl : EntryLaw s) (e : Source) : EntryLaw (s.offerNews e) := by
  rw [offerNews_eq]
  exact entryLaw_keptByOffers.newsLoop _ _ s hl

theorem EntryLaw.chooseEach (hl : EntryLaw s) (hs : List HostId) : EntryLaw (s.chooseEach hs) := by
  obtain ⟨l, n, heq, -⟩ := chooseEach_eq s hs
  rw [heq]
  exact entryLaw_keptByOffers.chooseAll l _ (hl.of_same rfl rfl)

theorem EntryLaw.tell {x : State × Bool} (hx : EntryLaw x.1) (e : Source) : EntryLaw (tell e x) := by
  unfold Machine.tell
  split
  · exact hx.offerNews e
  · exact hx

end

/-! ### An entry between two states -/

/-- Every other entry keeps the laws, and entry e keeps those that hold in each of its states but QUEUED, with n places in the arrival
order list: a claim that takes e from one state to another leaves it so on the way. -/
structure Poised (n : Nat) (s : State) (e : Source) : Prop where
  others : ∀ f, f ≠ e → LawAt s f
  config : ConfigLaw e (s.cfg e)
  binding : BindingLaw e (s.bind e) .idle
  settled : (s.prog e).disarmPending = false
  unheld : (s.prog e).hold = false
  again : (s.prog e).again = true → (s.cfg e).kind.isLevel = false
  listed : s.et.order.count e = n
  waiting : s.waitingForChannel.count e = 0

/-- The state part has no field of a delivery (R4). -/
def Progress.Blank (p : Progress) : Prop :=
  p.outcome = none ∧ p.offered = 0 ∧ p.held = 0 ∧ p.owed = none ∧ p.decline = none

section
variable {s t : State} {e f : Source} {n : Nat} {q : Progress}

/-- An entry of a lawful state that is not QUEUED, with its level hold mark and its pending DISARM clear, may go on to any state. -/
theorem EntryLaw.poised (hl : EntryLaw s) (hq : (s.prog e).state ≠ .queued) (hh : (s.prog e).hold = false)
    (hd : (s.prog e).disarmPending = false) : Poised (if (s.prog e).state ≠ .idle then 1 else 0) s e where
  others f _ := hl.lawAt f
  config := (hl.lawAt e).config
  binding := by
    obtain ⟨harmed, -, hrest⟩ := (hl.lawAt e).binding
    exact ⟨harmed, by simp, hrest⟩
  settled := hd
  unheld := hh
  again := hl.again_isLevel
  listed := (hl.lawAt e).listed
  waiting := (hl.lawAt e).waiting.trans (if_neg hq)

/-- In a state that has no use for a channel, an entry on the way there is lawful when it stands there as R4 and R16 say. -/
theorem Poised.entryLaw (hp : Poised n s e) (hprogress : ProgressLaw (s.cfg e) (s.prog e))
    (hq : (s.prog e).state ≠ .queued) (hr : (s.prog e).state ≠ .running) (hn : n = if (s.prog e).state ≠ .idle then 1 else 0) :
    EntryLaw s :=
  entryLaw_iff.mpr fun f => by
    by_cases hf : f = e
    · subst hf
      obtain ⟨harmed, -, hrest⟩ := hp.binding
      exact ⟨hp.config, ⟨harmed, fun h => absurd h (by simp [hq, hr]), hrest⟩, hprogress, hp.listed.trans hn,
        hp.waiting.trans (if_neg hq).symm⟩
    · exact hp.others f hf

theorem Poised.setProg (hp : Poised n s e) (hd : q.disarmPending = false) (hh : q.hold = false)
    (ha : q.again = true → (s.cfg e).kind.isLevel = false) : Poised n (s.setProg e q) e where
  others f hf := (hp.others f hf).congr (by rw [State.setProg_entry, if_neg hf]) rfl rfl
  config := by simpa using hp.config
  binding := by simpa using hp.binding
  settled := by simpa using hd
  unheld := by simpa using hh
  again := by simpa using ha
  listed := hp.listed
  waiting := hp.waiting

theorem takeAppends_waitingForChannel (l : List Notice) :
    ∀ s : State, (l.foldl State.takeAppend s).waitingForChannel = s.waitingForChannel := by
  induction l with
  | nil => exact fun _ => rfl
  | cons m l ih =>
    intro s
    refine (ih _).trans ?_
    unfold State.takeAppend
    split <;> rfl

theorem noteOn_waitingForChannel (s : State) (e : Source) (o : Origin) (m : Notice) :
    (s.noteOn e o m).waitingForChannel = s.waitingForChannel := by
  unfold State.noteOn
  split
  · exact takeAppends_waitingForChannel _ { s with claims := { s.claims with notices := s.claims.notices.filter fun x => x.1 != o } }
  · rfl

/-- The again flag is cleared. -/
theorem Poised.unagain (hp : Poised n s e) : Poised n (s.setProg e { s.prog e with again := false }) e :=
  hp.setProg hp.settled hp.unheld (by simp)

/-- A claim's notices leave the entry where it stands. -/
theorem Poised.noteOn (hp : Poised n s e) (o : Origin) (m : Notice) : Poised n (s.noteOn e o m) e where
  others f hf := (hp.others f hf).congr (noteOn_entry s e o m f) (by rw [noteOn_et]) (by rw [noteOn_waitingForChannel])
  config := by simpa using hp.config
  binding := by simpa using hp.binding
  settled := by simpa using hp.settled
  unheld := by simpa using hp.unheld
  again := by simpa using hp.again
  listed := by rw [noteOn_et]; exact hp.listed
  waiting := by rw [noteOn_waitingForChannel]; exact hp.waiting

theorem Progress.toIdle_blank (p : Progress) : p.toIdle.Blank := ⟨rfl, rfl, rfl, rfl, rfl⟩

theorem Poised.toIdle (hp : Poised 1 s e) : Poised 0 (s.toIdle e) e := by
  have hset : Poised 1 (s.setProg e (s.prog e).toIdle) e := hp.setProg hp.settled hp.unheld hp.again
  exact { hset with
    others := fun f hf => (hset.others f hf).congr rfl (List.count_erase_of_ne hf) rfl
    listed := List.count_erase_self.trans (by rw [show List.count e s.et.order = 1 from hp.listed]) }

theorem Poised.latch (hp : Poised 0 s e) : Poised 1 (s.latch e) e := by
  have hset : Poised 0 (s.setProg e { s.prog e with state := .latched }) e := hp.setProg hp.settled hp.unheld hp.again
  have hcount : ∀ f, (s.latch e).et.order.count f = s.et.order.count f + [e].count f := fun f => List.count_append
  exact { hset with
    others := fun f hf => (hset.others f hf).congr rfl (by rw [hcount, List.count_singleton, if_neg (by simpa using Ne.symm hf)]; rfl) rfl
    listed := by rw [hcount, hp.listed]; simp }

/-! ### Where it may stand -/

/-- At rest an entry's again flag is clear (R7, R15). -/
theorem Poised.idles (hp : Poised 0 s e) (hb : (s.prog e).Blank) (hi : (s.prog e).state = .idle) (ha : (s.prog e).again = false) :
    EntryLaw s := by
  obtain ⟨houtcome, hoffered, hheld, howed, hdecline⟩ := hb
  refine hp.entryLaw ?_ (by simp [hi]) (by simp [hi]) (by simp [hi])
  simp [ProgressLaw, inDelivery, houtcome, hoffered, hheld, howed, hdecline, hi, ha, hp.settled, hp.unheld]

theorem Poised.latches (hp : Poised 1 s e) (hb : (s.prog e).Blank) (hs : (s.prog e).state = .latched) : EntryLaw s := by
  obtain ⟨houtcome, hoffered, hheld, howed, hdecline⟩ := hb
  have hagain := hp.again
  refine hp.entryLaw ?_ (by simp [hs]) (by simp [hs]) (by simp [hs])
  simpa [ProgressLaw, inDelivery, houtcome, hoffered, hheld, howed, hdecline, hs, hp.settled] using hagain

/-- An armed entry that is QUEUED is handed on to the delegation list (R8, R134). -/
theorem Poised.enqueues (hp : Poised 1 s e) (hb : (s.prog e).Blank) (harmed : (s.bind e).armed = true) : EntryLaw (s.enqueue e) := by
  obtain ⟨houtcome, hoffered, hheld, howed, hdecline⟩ := hb
  have hset : Poised 1 (s.setProg e { s.prog e with state := .queued }) e := hp.setProg hp.settled hp.unheld hp.again
  have hagain := hp.again
  have hwaiting : ∀ f, (s.enqueue e).waitingForChannel.count f = s.waitingForChannel.count f + [e].count f := fun f => by
    have hreinserted : ∀ c, (s.enqueue e).reinserted c = s.reinserted c := fun _ => rfl
    have hinserts : (s.enqueue e).claims.inserts = s.claims.inserts ++ [e] := rfl
    have hlist : (s.enqueue e).du.list = s.du.list := rfl
    simp only [State.waitingForChannel, hreinserted, hinserts, hlist, List.count_append]
    omega
  refine entryLaw_iff.mpr fun f => ?_
  by_cases hf : f = e
  · subst hf
    have hprog := enqueue_prog s f
    have hcfg : (s.enqueue f).cfg f = s.cfg f := State.setProg_cfg s f _ f
    have hbind : (s.enqueue f).bind f = s.bind f := State.setProg_bind s f _ f
    obtain ⟨hruns, -, hrest⟩ := hp.binding
    refine ⟨hcfg ▸ hp.config, ?_, ?_, ?_, ?_⟩
    · rw [hbind]
      exact ⟨hruns, fun _ => harmed, hrest⟩
    · rw [hcfg, hprog]
      simpa [ProgressLaw, inDelivery, houtcome, hoffered, hheld, howed, hdecline, hp.settled, hp.unheld] using hagain
    · rw [hprog]
      exact hp.listed
    · rw [hprog, hwaiting, hp.waiting]
      simp
  · exact (hset.others f hf).congr rfl rfl (by
      rw [hwaiting, List.count_singleton, if_neg (by simpa using Ne.symm hf)]
      rfl)

/-- An entry in delivery has the sets of its policy (R4, R11). -/
theorem Poised.delivers (hp : Poised 1 s e) (hs : (s.prog e).state = .delivering) (houtcome : (s.prog e).outcome ≠ none)
    (howed : (s.prog e).owed ≠ none ↔ (s.cfg e).policy = .all) (hdecline : (s.prog e).decline ≠ none ↔ (s.cfg e).policy = .any) :
    EntryLaw s := by
  have hagain := hp.again
  refine hp.entryLaw ?_ (by simp [hs]) (by simp [hs]) (by simp [hs])
  refine ⟨by simp [inDelivery, hs, houtcome], by simp [hs], by simp [hs, howed], by simp [inDelivery, hs, hdecline], by simp [hs],
    by simp [hp.settled], by simp [hp.unheld], by simpa [hs] using hagain⟩

end

/-! ### The life of an entry -/

section
variable {s : State} {e : Source} {n : Nat}

/-- The level hold mark is set on a LATCHED entry (R28). -/
theorem ProgressLaw.marked {c : EntryConfig} {p : Progress} (hp : ProgressLaw c p) (hs : p.state = .latched) :
    ProgressLaw c { p with hold := true } := by
  obtain ⟨houtcome, hsets, howed, hdecline, hparked, hdisarm, -, hagain⟩ := hp
  exact ⟨houtcome, hsets, howed, hdecline, hparked, hdisarm, fun _ => hs, hagain⟩

/-- An immediate completion leaves the entry at rest, latched or QUEUED, or goes on as `next` does from LATCHED (R11, R15, R28). -/
theorem Poised.completesOnce {next : State → State × Bool}
    (hnext : ∀ u : State, Poised 1 u e → (u.prog e).Blank → (u.prog e).state = .latched → EntryLaw (next u).1)
    (hp : Poised 1 s e) : EntryLaw (completesOnce next e s).1 := by
  have hidle := hp.toIdle
  have hblank : ((s.toIdle e).prog e).Blank := by rw [toIdle_prog]; exact (s.prog e).toIdle_blank
  have hfresh := hidle.unagain.latch
  have hfreshBlank : ((((s.toIdle e).setProg e { (s.toIdle e).prog e with again := false }).latch e).prog e).Blank := by
    rw [latch_prog, State.setProg_prog_self]
    exact hblank
  have hlatched : EntryLaw ((s.toIdle e).latch e) := hidle.latch.latches (by rw [latch_prog]; exact hblank) (by rw [latch_prog])
  unfold Machine.completesOnce
  simp only
  split_ifs with hagain hgo harmed hlevel
  · exact hfresh.enqueues hfreshBlank harmed
  · exact hnext _ hfresh hfreshBlank (by rw [latch_prog])
  · exact hfresh.latches hfreshBlank (by rw [latch_prog])
  · exact hlatched.setProg ((hlatched.lawAt e).progress.marked (by rw [latch_prog])) rfl
  · exact hidle.idles hblank (by rw [toIdle_prog]; rfl) (by simpa using hagain)

/-- The entry stands in delivery with the sets of its policy, or completes at once (R11). -/
theorem Poised.deliverRound {next : State → State × Bool}
    (hnext : ∀ u : State, Poised 1 u e → (u.prog e).Blank → (u.prog e).state = .latched → EntryLaw (next u).1)
    (hp : Poised 1 s e) (o : Outcome) : EntryLaw (deliverRound next o e s).1 := by
  have hstart : Poised 1 (s.startDelivery e o) e := hp.setProg hp.settled hp.unheld hp.again
  have hprog : (s.startDelivery e o).prog e = (s.prog e).delivering o := State.setProg_prog_self s e _
  have hsets : ∀ q : Progress, q.state = .delivering → q.outcome = some o → q.disarmPending = (s.prog e).disarmPending →
      q.hold = (s.prog e).hold → q.again = (s.prog e).again → (q.owed ≠ none ↔ (s.cfg e).policy = .all) →
      (q.decline ≠ none ↔ (s.cfg e).policy = .any) → EntryLaw ((s.startDelivery e o).setProg e q) :=
    fun q hstate hout h1 h2 h3 howed hdecline =>
      (hstart.setProg (h1.trans hp.settled) (h2.trans hp.unheld) (by simpa [h3] using hp.again)).delivers
        (by simpa using hstate) (by simp [hout]) (by simpa using howed) (by simpa using hdecline)
  unfold Machine.deliverRound
  simp only [startDelivery_cfg, hprog]
  split
  · exact hstart.completesOnce hnext
  · split
    next hpol =>
      exact hstart.delivers (by rw [hprog]; rfl) (by simp [hprog, Progress.delivering]) (by simp [hprog, Progress.delivering, hpol])
        (by simp [hprog, Progress.delivering, hpol])
    next hpol => exact hsets _ rfl rfl rfl rfl rfl (by simp [Progress.delivering, hpol]) (by simp [hpol])
    next hpol =>
      split
      · exact (hstart.noteOn _ _).completesOnce hnext
      · exact hsets _ rfl rfl rfl rfl rfl (by simp [hpol]) (by simp [Progress.delivering, hpol])

theorem Poised.deliver (n : Nat) : ∀ (o : Outcome) {s : State}, Poised 1 s e → EntryLaw (deliver n o e s).1 := by
  induction n with
  | zero =>
    intro o s hp
    rw [deliver_zero]
    exact hp.deliverRound (fun u hu hb hs => hu.latches hb hs) o
  | succ n ih =>
    intro o s hp
    rw [deliver_succ]
    exact hp.deliverRound (fun u hu _ _ => ih .plain hu) o

theorem Poised.leaveLatchedPart (hp : Poised 1 s e) (hb : (s.prog e).Blank) : EntryLaw (s.leaveLatchedPart e).1 := by
  unfold State.leaveLatchedPart
  split
  next harmed => exact hp.enqueues hb harmed
  next => exact hp.deliver 1 .plain

theorem Poised.latchAndGoPart (hp : Poised 0 s e) (hb : (s.prog e).Blank) : EntryLaw (s.latchAndGoPart e).1 := by
  have hblank : ((s.latch e).prog e).Blank := by rw [latch_prog]; exact hb
  unfold State.latchAndGoPart
  simp only
  split
  · exact hp.latch.leaveLatchedPart hblank
  · exact hp.latch.latches hblank (by rw [latch_prog])

theorem Poised.completePart (hp : Poised 1 s e) : EntryLaw (s.completePart e).1 := by
  have hidle := hp.toIdle
  have hblank : ((s.toIdle e).prog e).Blank := by rw [toIdle_prog]; exact (s.prog e).toIdle_blank
  unfold State.completePart
  simp only
  split_ifs with hagain hlevel
  · exact hidle.unagain.latchAndGoPart (by rw [State.setProg_prog_self]; exact hblank)
  · exact hidle.latchAndGoPart hblank
  · exact hidle.idles hblank (by rw [toIdle_prog]; rfl) (by simpa using hagain)

theorem Poised.enterDelivering (hp : Poised 1 s e) (o : Outcome) : EntryLaw (s.enterDelivering e o) := (hp.deliver 1 o).tell e

theorem Poised.complete (hp : Poised 1 s e) : EntryLaw (s.complete e) := hp.completePart.tell e

end

/-! ### Arrivals and changes of level -/

section
variable {s : State} {e : Source}

/-- An entry that is neither in delivery nor parked has no field of a delivery (R4). -/
theorem EntryLaw.blank (hl : EntryLaw s) (hn : ¬inDelivery (s.prog e)) : (s.prog e).Blank := by
  obtain ⟨houtcome, hsets, howed, hdecline, -⟩ := (hl.lawAt e).progress
  have hnd : (s.prog e).state ≠ .delivering := fun h => hn (.inl h)
  obtain ⟨hoffered, hheld⟩ := hsets hnd
  refine ⟨?_, hoffered, hheld, ?_, ?_⟩
  · simpa [hn] using houtcome
  · simpa [hnd] using howed
  · simpa [hn] using hdecline

theorem EntryLaw.unmarked (hl : EntryLaw s) (hn : (s.prog e).state ≠ .latched) : (s.prog e).hold = false :=
  Bool.eq_false_iff.mpr fun hh => hn (hl.latched_of_hold hh)

theorem EntryLaw.undisarmed (hl : EntryLaw s) (hn : (s.prog e).state ≠ .running) : (s.prog e).disarmPending = false := by
  obtain ⟨-, -, -, -, -, hdisarm, -⟩ := (hl.lawAt e).progress
  exact Bool.eq_false_iff.mpr fun hd => hn (hdisarm hd)

/-- An IDLE entry is about to latch. -/
theorem EntryLaw.poised_idle (hl : EntryLaw s) (hi : (s.prog e).state = .idle) : Poised 0 s e := by
  have hp := hl.poised (e := e) (by simp [hi]) (hl.unmarked (by simp [hi])) (hl.undisarmed (by simp [hi]))
  rwa [if_neg (by simp [hi])] at hp

theorem EntryLaw.poised_delivering (hl : EntryLaw s) (hd : (s.prog e).state = .delivering) : Poised 1 s e := by
  have hp := hl.poised (e := e) (by simp [hd]) (hl.unmarked (by simp [hd])) (hl.undisarmed (by simp [hd]))
  rwa [if_pos (by simp [hd])] at hp

theorem EntryLaw.poised_latched (hl : EntryLaw s) (hs : (s.prog e).state = .latched) (hh : (s.prog e).hold = false) :
    Poised 1 s e := by
  have hp := hl.poised (e := e) (by simp [hs]) hh (hl.undisarmed (by simp [hs]))
  rwa [if_pos (by simp [hs])] at hp

theorem EntryLaw.latchAndGo (hl : EntryLaw s) (hi : (s.prog e).state = .idle) : EntryLaw (s.latchAndGo e) :=
  ((hl.poised_idle hi).latchAndGoPart (hl.blank (by simp [inDelivery, hi]))).tell e

theorem EntryLaw.leaveLatched (hl : EntryLaw s) (hs : (s.prog e).state = .latched) (hh : (s.prog e).hold = false) :
    EntryLaw (s.leaveLatched e) :=
  ((hl.poised_latched hs hh).leaveLatchedPart (hl.blank (by simp [inDelivery, hs]))).tell e

theorem EntryLaw.noteOn (hl : EntryLaw s) (e : Source) (o : Origin) (m : Notice) : EntryLaw (s.noteOn e o m) :=
  hl.of_same (noteOn_et s e o m) (noteOn_waitingForChannel s e o m)

/-- An arrival at an entry that is not IDLE is remembered, and a level kind has none (R33, R34). -/
theorem EntryLaw.merge (hl : EntryLaw s) (hn : (s.prog e).state ≠ .idle) (hk : (s.cfg e).kind.isLevel = false) :
    EntryLaw (s.merge e) := by
  obtain ⟨houtcome, hsets, howed, hdecline, hparked, hdisarm, hhold, hagain⟩ := (hl.lawAt e).progress
  have hcounted : ∀ (m : Fin 256) (b : Bool), EntryLaw (s.setProg e { s.prog e with merged := m, saturated := b }) := fun m b =>
    hl.setProg ⟨houtcome, hsets, howed, hdecline, hparked, hdisarm, hhold, hagain⟩ rfl
  unfold State.merge
  simp only
  split_ifs
  · exact hl.setProg ⟨houtcome, hsets, howed, hdecline, hparked, hdisarm, hhold, fun _ => ⟨hn, hk⟩⟩ rfl
  · exact hl
  · exact (hcounted _ _).noteOn e _ _
  · exact hcounted _ _

theorem EntryLaw.arrive (hl : EntryLaw s) (hk : (s.cfg e).kind.isLevel = false) : EntryLaw (s.arrive e) := by
  unfold State.arrive
  split
  next hi => exact hl.latchAndGo hi
  next hn => exact hl.merge hn hk

theorem EntryLaw.assertLevel (hl : EntryLaw s) (e : Source) : EntryLaw (s.assertLevel e) := by
  unfold State.assertLevel
  split
  next hi => exact hl.latchAndGo hi
  next => exact hl

theorem EntryLaw.deassertLevel (hl : EntryLaw s) (e : Source) : EntryLaw (s.deassertLevel e) := by
  cases hh : (s.prog e).hold with
  | false => rwa [deassertLevel_unmarked hh]
  | true =>
    have hs := hl.latched_of_hold hh
    obtain ⟨houtcome, hsets, howed, hdecline, hparked, hdisarm, -, hagain⟩ := (hl.lawAt e).progress
    have hunheld : EntryLaw (s.unheld e) :=
      hl.setProg ⟨houtcome, hsets, howed, hdecline, hparked, hdisarm, by simp, hagain⟩ rfl
    rw [deassertLevel_marked hl hh]
    split
    · exact hunheld.leaveLatched (by simpa [State.unheld] using hs) (by simp [State.unheld])
    · exact hunheld

/-- A kind that an arrival is judged by is no level kind (R24, R25). -/
theorem EntryLaw.judgeLine (hl : EntryLaw s) (e : Source) (high : Bool) : EntryLaw (s.judgeLine e high) := by
  unfold State.judgeLine
  cases hk : (s.cfg e).kind with
  | rising => cases high <;> [exact hl; exact hl.arrive (by rw [hk]; rfl)]
  | falling => cases high <;> [exact hl.arrive (by rw [hk]; rfl); exact hl]
  | both => exact hl.arrive (by rw [hk]; rfl)
  | levelHigh => cases high <;> [exact hl.deassertLevel e; exact hl.assertLevel e]
  | levelLow => cases high <;> [exact hl.assertLevel e; exact hl.deassertLevel e]
  | posted => exact hl
  | notice => exact hl

end

/-! ### Hosts that leave a delivery -/

section
variable {s : State} {e : Source} {h : HostId}

/-- The offered and held sets of an entry in delivery are rewritten, and an ALL entry's owed set by another. -/
theorem EntryLaw.setParts (hl : EntryLaw s) (hd : (s.prog e).state = .delivering) {q : Progress}
    (hq : q = { s.prog e with offered := q.offered, held := q.held, owed := q.owed, decline := q.decline })
    (howed : q.owed ≠ none ↔ (s.prog e).owed ≠ none) (hdecline : q.decline ≠ none ↔ (s.prog e).decline ≠ none) :
    EntryLaw (s.setProg e q) := by
  obtain ⟨houtcome, hsets, howedOld, hdeclineOld, hrest⟩ := (hl.lawAt e).progress
  have hstate : q.state = (s.prog e).state := by rw [hq]
  refine hl.setProg ?_ hstate
  have hlaw : ProgressLaw (s.cfg e) { s.prog e with offered := q.offered, held := q.held, owed := q.owed, decline := q.decline } :=
    ⟨houtcome, fun hn => absurd hd hn, howed.trans howedOld, hdecline.trans hdeclineOld, hrest⟩
  rwa [← hq] at hlaw

/-- An ALL entry in delivery owes, and an ANY entry in delivery has a decline set (R4). -/
theorem EntryLaw.owed_of_all (hl : EntryLaw s) (hd : (s.prog e).state = .delivering) (hpol : (s.cfg e).policy = .all) :
    (s.prog e).owed ≠ none := by
  obtain ⟨-, -, howed, -⟩ := (hl.lawAt e).progress
  exact howed.mpr ⟨hd, hpol⟩

theorem EntryLaw.decline_of_any (hl : EntryLaw s) (hd : (s.prog e).state = .delivering) (hpol : (s.cfg e).policy = .any) :
    (s.prog e).decline ≠ none := by
  obtain ⟨-, -, -, hdecline, -⟩ := (hl.lawAt e).progress
  exact hdecline.mpr ⟨.inl hd, hpol⟩

/-- A decline leaves an ANY entry in delivery, or PARKED with its decline set whole (R102, R106). -/
theorem EntryLaw.declinePart (hl : EntryLaw s) (hd : (s.prog e).state = .delivering) (hpol : (s.cfg e).policy = .any) (h : HostId) :
    EntryLaw (s.declinePart e h).1 := by
  have hdecline := hl.decline_of_any hd hpol
  have ⟨houtcome, _, howed, _, _, hdisarm, _, hagain⟩ := (hl.lawAt e).progress
  unfold State.declinePart
  simp only
  split
  · refine EntryLaw.noteOn ?_ e _ _
    have hnone : (s.prog e).owed = none := by simpa [hpol] using howed
    have hmark := hl.unmarked (e := e) (by simp [hd])
    refine EntryLaw.setEntry hl (hl.lawAt e).config ?_ ?_ ?_ ?_
    · obtain ⟨harmed, -, hrest⟩ := (hl.lawAt e).binding
      exact ⟨harmed, by simp, hrest⟩
    · have hpending := hl.undisarmed (e := e) (by simp [hd])
      have hout : (s.prog e).outcome ≠ none := houtcome.mpr (.inl hd)
      refine ⟨by simp [inDelivery, hout], by simp, by simp [hnone], ?_, fun _ => hpol, by simp [hpending], by simp [hmark], fun ha => ?_⟩
      · exact ⟨fun _ => ⟨.inr rfl, hpol⟩, fun _ => by simp⟩
      · exact ⟨by simp, (hagain ha).2⟩
    · simp [hd]
    · simp [hd]
  · exact hl.setParts hd rfl Iff.rfl (by simp [hdecline])

theorem EntryLaw.skipped (hl : EntryLaw s) (hd : (s.prog e).state = .delivering) (hpol : (s.cfg e).policy = .all) (h : HostId) :
    EntryLaw (s.skipped e h) := by
  unfold State.skipped
  refine EntryLaw.noteOn ?_ e _ _
  exact hl.setParts hd rfl (by simp [hl.owed_of_all hd hpol]) Iff.rfl

theorem EntryLaw.skipPart (hl : EntryLaw s) (hd : (s.prog e).state = .delivering) (hpol : (s.cfg e).policy = .all) (h : HostId) :
    EntryLaw (s.skipPart e h).1 := by
  have hskipped := hl.skipped hd hpol h
  rw [skipPart_eq]
  split
  · refine (hskipped.poised_delivering ?_).completePart
    rw [skipped_prog]
    exact hd
  · exact hskipped

theorem EntryLaw.finishPart (hl : EntryLaw s) (e : Source) (h : HostId) : EntryLaw (s.finishPart e h).1 := by
  by_cases hh : Holds s e h
  · have hd := hh.1
    have hpoised := hl.poised_delivering hd
    have hdone : ∀ q : Progress, q.disarmPending = (s.prog e).disarmPending → q.hold = (s.prog e).hold → q.again = (s.prog e).again →
        EntryLaw ((s.setProg e q).completePart e).1 := fun q h1 h2 h3 =>
      (hpoised.setProg (h1.trans hpoised.settled) (h2.trans hpoised.unheld) (h3 ▸ hpoised.again)).completePart
    rw [finishPart_holds hh]
    split_ifs with hpol hlast
    · exact hdone _ rfl rfl rfl
    · exact hl.setParts hd rfl (by simp [hl.owed_of_all hd hpol]) Iff.rfl
    · exact hdone _ rfl rfl rfl
  · rwa [finishPart_other hh]

theorem EntryLaw.releasePart (hl : EntryLaw s) (e : Source) (h : HostId) (skips : Bool) : EntryLaw (s.releasePart e h skips).1 := by
  by_cases hh : Holds s e h
  · have hd := hh.1
    have hreturned : EntryLaw (s.setProg e (s.unheldBy e h)) := hl.setParts hd rfl Iff.rfl Iff.rfl
    unfold State.releasePart
    simp only
    split
    · split
      · exact hreturned
      next hpol => exact hl.declinePart hd hpol h
      next hpol =>
        split
        · exact hl.skipPart hd hpol h
        · exact hreturned
    · exact hl
  · rwa [releasePart_other hh]

theorem EntryLaw.departAt (hl : EntryLaw s) (e : Source) (h : HostId) : EntryLaw (s.departAt e h) := by
  by_cases hn : (s.prog e).state = .delivering ∧ hasHost ((s.prog e).owed.getD 0) h = true
  · obtain ⟨hd, ho⟩ := hn
    rw [departAt_owes hd ho]
    exact (hl.skipPart hd (hl.policy_of_owes ho) h).tell e
  · rwa [departAt_other hn]

theorem EntryLaw.leaveOffered (hl : EntryLaw s) (hd : (s.prog e).state = .delivering) (h : HostId) : EntryLaw (s.leaveOffered e h) :=
  hl.setParts hd rfl Iff.rfl Iff.rfl

theorem EntryLaw.withdrawAt (hl : EntryLaw s) (e : Source) (h : HostId) : EntryLaw (s.withdrawAt e h) := by
  by_cases hn : (s.prog e).state = .delivering ∧ hasHost (s.prog e).offered h = true
  · rw [withdrawAt_offered hn.1 hn.2]
    exact (hl.leaveOffered hn.1 h).offerNews e
  · rwa [withdrawAt_other hn]

end

end Sys2Proof.Machine
end

section
/-! DISARM (R119, R120, R174). -/

open Sys2Proof Sys2Proof.Machine

namespace Sys2Proof.Machine

/-- Entry e out of the Delegation Unit's reach, its binding not armed (R119). -/
def State.disarmed (s : State) (e : Source) : State := (s.setBind e { s.bind e with armed := false }).unqueue e

section
variable {s : State} {h : HostId} {e : Source} {object : Operand}

@[simp] theorem disarmed_prog (f : Source) : (s.disarmed e).prog f = s.prog f := State.setBind_prog s e _ f
@[simp] theorem disarmed_cfg (f : Source) : (s.disarmed e).cfg f = s.cfg f := State.setBind_cfg s e _ f

theorem exec_disarm_body (hp : PortTakes s h) (hr : s.holdsRight h .config = true) :
    exec (.disarm h object) s = .next (disarmBody h object (s.taken h)) := by
  change request h 20 .config false (disarmBody h object) s = _
  rw [request_runs hp hr (by simp)]

/-- Away from a transfer the binding is all that changes. -/
theorem exec_disarm_idle (hp : PortTakes s h) (hr : s.holdsRight h .config = true) (hx : object.toNat = e.val)
    (hq : (s.prog e).state ≠ .queued) (hrun : (s.prog e).state ≠ .running) :
    exec (.disarm h object) s = .next ((s.setBind e { s.bind e with armed := false }).answered h 20 .ok) := by
  rw [exec_disarm_body hp hr, disarmBody, withIndex_val hx]
  split
  next hstate => exact absurd hstate hrun
  next hstate => exact absurd hstate hq
  next => exact congrArg Host.Outcome.next (State.taken_answer (s.setBind e { s.bind e with armed := false }) h 20 .ok)

/-- A QUEUED entry enters DELIVERING out of the Delegation Unit's reach, the port answered first or last. -/
theorem exec_disarm_queued (hp : PortTakes s h) (hr : s.holdsRight h .config = true) (hx : object.toNat = e.val)
    (hq : (s.prog e).state = .queued) :
    exec (.disarm h object) s = .next (((s.disarmed e).answered h 20 .ok).enterDelivering e .plain) := by
  rw [exec_disarm_body hp hr, disarmBody, withIndex_val hx]
  have hstate : ((s.taken h).prog e).state = .queued := hq
  rw [hstate]
  exact congrArg Host.Outcome.next ((enterDelivering_portBlind e .plain).answer (s.disarmed e) h 20 .ok)

/-- An entry's state part may be written over by itself. -/
theorem setProg_prog_eq {q : Progress} (hq : q = s.prog e) : s.setProg e q = s := by
  have hput : put s.et.entries e { s.entry e with prog := q } = s.et.entries := by
    rw [hq]
    exact put_look s.et.entries e
  change { s with et := { s.et with entries := put s.et.entries e { s.entry e with prog := q } } } = s
  rw [hput]

theorem askCut_taken (s : State) (h : HostId) (e : Source) : (s.taken h).askCut h e = { s with
    et := (s.setProg e { s.prog e with disarmPending := true }).et
    claims := { s.claims with
      cuts := if (s.prog e).disarmPending then s.claims.cuts else s.claims.cuts ++ [{ source := e, stale := false }] }
    ports := put s.ports h { s.port h with lost := false, working := true, echo := 20, pendingDisarm := some e } } := by
  have hport : ∀ u : State, u.ports = (s.taken h).ports →
      u.setPort h { u.port h with working := true, echo := 20, pendingDisarm := some e } = { u with
        ports := put s.ports h { s.port h with lost := false, working := true, echo := 20, pendingDisarm := some e } } :=
    fun u hu => by simp [State.setPort, State.port, hu]
  unfold State.askCut
  rw [State.taken_prog]
  cases hd : (s.prog e).disarmPending with
  | false => exact hport _ rfl
  | true =>
    have hset : s.setProg e { s.prog e with disarmPending := true } = s := setProg_prog_eq (by rw [← hd])
    rw [hset]
    exact hport (s.taken h) rfl

theorem exec_disarm_running (hp : PortTakes s h) (hr : s.holdsRight h .config = true) (hx : object.toNat = e.val)
    (hrun : (s.prog e).state = .running) : exec (.disarm h object) s = .next ((s.taken h).askCut h e) := by
  rw [exec_disarm_body hp hr, disarmBody, withIndex_val hx]
  have hstate : ((s.taken h).prog e).state = .running := hrun
  rw [hstate]

end

end Sys2Proof.Machine

/-- Settles O25: by the entry's state, and of a RUNNING one by whether a DISARM is pending already. -/
theorem disarmTakesTheEventBack : Obligations.DisarmTakesTheEventBack := by
  intro s h e object hp hr hx u
  refine ⟨exec_disarm_idle hp hr hx, fun hq hl => ⟨_, exec_disarm_queued hp hr hx hq, ?_⟩, fun hrun => ?_⟩
  · refine enterDelivering_delivers (s := (s.disarmed e).answered h 20 .ok) .plain ?_ fun ha => ?_
    · exact (congrArg Progress.hold (disarmed_prog e)).trans (hl.unmarked (by simp [hq]))
    · have hkind := hl.again_isLevel ((congrArg Progress.again (disarmed_prog e)).symm.trans ha)
      exact (congrArg (fun c : EntryConfig => c.kind.isLevel) (disarmed_cfg e)).trans hkind
  · rw [exec_disarm_running hp hr hx hrun, askCut_taken]
end

section
/-! What the laws of delegated transfers speak of, and the operations that leave it as it is: all but those of the Delegation Unit, the
Memory Port and the requests on descriptors and bindings. -/

open Sys2Proof Sys2Proof.Machine

namespace Sys2Proof.Machine

/-- The Delegation Unit, the Memory Port, and the claims between the Delegation Unit and the Event Table on run results. -/
structure Transfers where
  du : DelegationUnit
  mp : MemoryPort
  reports : Table (Option RunResult) 2
  releases : Table (Option Bool) 2

def State.transfers (s : State) : Transfers :=
  { du := s.du, mp := s.mp, reports := s.claims.reports, releases := s.claims.releases }

section
variable {s t : State} {e : Source}

theorem Transfers.fields (h : t.transfers = s.transfers) :
    t.du = s.du ∧ t.mp = s.mp ∧ t.claims.reports = s.claims.reports ∧ t.claims.releases = s.claims.releases :=
  ⟨congrArg Transfers.du h, congrArg Transfers.mp h, congrArg Transfers.reports h, congrArg Transfers.releases h⟩

theorem DelegationLaw.of_transfers (hl : DelegationLaw s) (h : t.transfers = s.transfers) : DelegationLaw t := by
  obtain ⟨hdu, hmp, hreports, hreleases⟩ := Transfers.fields h
  have ht : t = { t with
      du := s.du
      mp := s.mp
      claims := { t.claims with reports := s.claims.reports, releases := s.claims.releases } } := by
    rw [← hdu, ← hmp, ← hreports, ← hreleases]
  rw [ht]
  exact hl

theorem EventOf.transfers (h : EventOf e s t) : t.transfers = s.transfers := by
  rw [h.rest]
  rfl

theorem OffersOnly.transfers (h : OffersOnly s t) : t.transfers = s.transfers := by
  rw [h.1]
  rfl

end

/-! ### Offers and the life of an entry -/

section
variable (s : State) (e : Source) (h : HostId)

@[simp] theorem offerNews_transfers : (s.offerNews e).transfers = s.transfers := (offerNews_offersOnly s e).transfers
@[simp] theorem choose_transfers : (s.choose h).transfers = s.transfers := (choose_offersOnly s h).transfers
@[simp] theorem tell_transfers (x : State × Bool) : (tell e x).transfers = x.1.transfers := (tell_offersOnly e x).transfers
@[simp] theorem setEntry_transfers (x : Entry) : (s.setEntry e x).transfers = s.transfers := rfl
@[simp] theorem setProg_transfers (q : Progress) : (s.setProg e q).transfers = s.transfers := rfl
@[simp] theorem latchAndGo_transfers : (s.latchAndGo e).transfers = s.transfers :=
  (tell_transfers e _).trans (latchAndGoPart_part True s e).1.transfers
@[simp] theorem leaveLatched_transfers : (s.leaveLatched e).transfers = s.transfers :=
  (tell_transfers e _).trans (leaveLatchedPart_part s e).1.transfers
@[simp] theorem complete_transfers : (s.complete e).transfers = s.transfers :=
  (tell_transfers e _).trans (completePart_part s e).1.transfers
@[simp] theorem enterDelivering_transfers (o : Outcome) : (s.enterDelivering e o).transfers = s.transfers :=
  (tell_transfers e _).trans (deliver_part 1 o s).1.transfers
@[simp] theorem arrive_transfers : (s.arrive e).transfers = s.transfers := by
  unfold State.arrive
  split
  · exact latchAndGo_transfers s e
  · exact (merge_eventOf s e).transfers
@[simp] theorem assertLevel_transfers : (s.assertLevel e).transfers = s.transfers := by
  unfold State.assertLevel
  split
  · exact latchAndGo_transfers s e
  · rfl
@[simp] theorem deassertLevel_transfers : (s.deassertLevel e).transfers = s.transfers := by
  unfold State.deassertLevel
  simp only
  split_ifs <;> simp
@[simp] theorem judgeLine_transfers (high : Bool) : (s.judgeLine e high).transfers = s.transfers := by
  cases hk : (s.cfg e).kind <;> cases high <;> simp [State.judgeLine, hk]
@[simp] theorem departAt_transfers : (s.departAt e h).transfers = s.transfers := by
  obtain ⟨w, hevent, honly⟩ := departAt_event s e h
  exact honly.transfers.trans hevent.transfers
@[simp] theorem withdrawAt_transfers : (s.withdrawAt e h).transfers = s.transfers := by
  unfold State.withdrawAt
  split
  · exact offerNews_transfers _ e
  · rfl
@[simp] theorem succeedAt_transfers : (s.succeedAt e).transfers = s.transfers := by
  unfold State.succeedAt
  simp only
  split <;> simp
@[simp] theorem endRunAt_transfers (o : Outcome) : (s.endRunAt e o).transfers = s.transfers := by
  unfold State.endRunAt
  simp

/-! ### Requests on entries -/

@[simp] theorem writeConfig_transfers (x : EntryConfig) : (s.writeConfig e x).transfers = s.transfers := by
  unfold State.writeConfig
  simp only
  split <;> simp
@[simp] theorem enableEntry_transfers : (s.enableEntry e).transfers = s.transfers := by
  unfold State.enableEntry
  simp only
  split
  · exact leaveLatched_transfers _ e
  · rfl
@[simp] theorem chooseEach_transfers (hs : List HostId) : (s.chooseEach hs).transfers = s.transfers := by
  obtain ⟨l, n, heq, -⟩ := chooseEach_eq s hs
  rw [heq]
  exact (chooseAll_offersOnly l (s.drawn n)).transfers
@[simp] theorem clearNow_transfers : (s.clearNow e).transfers = s.transfers := by
  have hcleared : ((s.abandoned e).chooseEach (s.offeredHosts e)).transfers = s.transfers := chooseEach_transfers ..
  rw [clearNow_eq]
  simp only
  split
  · rw [latchAndGo_transfers, hcleared]
  · exact hcleared
@[simp] theorem askCut_transfers : (s.askCut h e).transfers = s.transfers := by
  unfold State.askCut
  simp only
  split <;> rfl

end

end Sys2Proof.Machine
end

section
/-! The laws of the Event Table: the requests on entries and bindings, and the entries that wait for a channel. -/

open Sys2Proof Sys2Proof.Machine

namespace Sys2Proof.Machine

/-! ### Requests on entries and bindings -/

section
variable {s t : State} {e : Source} {b : Binding} {h : HostId}

theorem EntryLaw.setBind (hl : EntryLaw s) (hb : BindingLaw e b (s.prog e).state) : EntryLaw (s.setBind e b) :=
  EntryLaw.setEntry (x := { s.entry e with bind := b }) hl (hl.lawAt e).config hb (hl.lawAt e).progress Iff.rfl Iff.rfl

/-- A binding may always be disarmed, and S63's is disarmed as it stands (R3, R119). -/
theorem bindingLaw_disarmed {st : EntryState} (hb : BindingLaw e b st) : BindingLaw e { b with armed := false } .idle := by
  obtain ⟨-, -, hreload, hfixed⟩ := hb
  refine ⟨by simp, by simp, hreload, fun he => ?_⟩
  rw [hfixed he]
  rfl

theorem bindingLaw_of_idle {st : EntryState} (hb : BindingLaw e b .idle) (hq : st ≠ .queued) (hr : st ≠ .running) :
    BindingLaw e b st := by
  obtain ⟨harmed, -, hrest⟩ := hb
  exact ⟨harmed, fun h => absurd h (by simp [hq, hr]), hrest⟩

/-- An entry that is neither QUEUED nor RUNNING is disarmed (R119). -/
theorem EntryLaw.disarm (hl : EntryLaw s) (hq : (s.prog e).state ≠ .queued) (hr : (s.prog e).state ≠ .running) :
    EntryLaw (s.setBind e { s.bind e with armed := false }) :=
  hl.setBind (bindingLaw_of_idle (bindingLaw_disarmed (hl.lawAt e).binding) hq hr)

/-- A binding with runs left and a head is armed (R118). -/
theorem EntryLaw.arm (hl : EntryLaw s) (he : e ≠ 63) (hruns : (s.bind e).runsLeft ≠ 0) (hhead : (s.bind e).head ≠ none) :
    EntryLaw (s.setBind e { s.bind e with armed := true }) := by
  obtain ⟨-, -, hreload, -⟩ := (hl.lawAt e).binding
  exact hl.setBind ⟨fun _ => ⟨hruns, hhead⟩, fun _ => rfl, hreload, fun h => absurd h he⟩

/-- A binding that is not armed is that of an entry that is neither QUEUED nor RUNNING, and is written over (R117). -/
theorem EntryLaw.bindStaged (hl : EntryLaw s) (he : e ≠ 63) (hfree : (s.bind e).armed = false) {st : Table Word 8}
    (hb : stagedBinding st = some b) : EntryLaw (s.setBind e b) := by
  obtain ⟨-, huse, -⟩ := (hl.lawAt e).binding
  obtain ⟨harmed, -, -, ⟨-, hreload⟩, -⟩ := holdsBinding_of_staged hb
  refine hl.setBind ⟨by simp [harmed], fun h => absurd (huse h) (by simp [hfree]), fun h => ?_, fun h => absurd h he⟩
  exact (hreload 0 h).1 rfl

/-- A first DISARM of a RUNNING entry is pending from now on (R120). -/
theorem EntryLaw.askCut (hl : EntryLaw s) (hr : (s.prog e).state = .running) (h : HostId) : EntryLaw (s.askCut h e) := by
  obtain ⟨houtcome, hsets, howed, hdecline, hparked, -, hhold, hagain⟩ := (hl.lawAt e).progress
  have hmarked : EntryLaw (s.setProg e { s.prog e with disarmPending := true }) :=
    hl.setProg ⟨houtcome, hsets, howed, hdecline, hparked, fun _ => hr, hhold, hagain⟩ rfl
  unfold State.askCut
  simp only
  split
  · exact hl.of_same rfl rfl
  · exact hmarked.of_same rfl rfl

theorem EntryLaw.enabledAs (hl : EntryLaw s) (e : Source) (on : Bool) : EntryLaw (s.enabledAs e on) :=
  EntryLaw.setEntry (x := { s.entry e with cfg := { s.cfg e with enable := on } }) hl (hl.lawAt e).config (hl.lawAt e).binding
    (hl.lawAt e).progress Iff.rfl Iff.rfl

theorem EntryLaw.enableEntry (hl : EntryLaw s) (e : Source) : EntryLaw (s.enableEntry e) := by
  have hset := hl.enabledAs e true
  rw [enableEntry_eq]
  split
  next hwaits => exact hset.leaveLatched (by simpa [State.enabledAs] using hwaits.1) (by simpa [State.enabledAs] using hwaits.2)
  next => exact hset

theorem EntryLaw.configured (hl : EntryLaw s) (hi : (s.prog e).state = .idle) {c : EntryConfig} (hc : ConfigLaw e c) :
    EntryLaw (s.configured e c) := by
  obtain ⟨houtcome, hoffered, hheld, howed, hdecline⟩ := hl.blank (e := e) (by simp [inDelivery, hi])
  obtain ⟨-, -, -, -, -, -, -, hagain⟩ := (hl.lawAt e).progress
  have hmark := hl.unmarked (e := e) (by simp [hi])
  have hpending := hl.undisarmed (e := e) (by simp [hi])
  refine EntryLaw.setEntry hl hc (hl.lawAt e).binding ?_ Iff.rfl Iff.rfl
  refine ⟨by simp [inDelivery, houtcome, hi], by simp [hoffered, hheld], by simp [howed, hi], by simp [inDelivery, hdecline, hi],
    by simp [hi], by simp [hpending], by simp [hmark], fun ha => absurd hi (hagain ha).1⟩

theorem EntryLaw.writeConfig (hl : EntryLaw s) (hi : (s.prog e).state = .idle) {c : EntryConfig} (hc : ConfigLaw e c) :
    EntryLaw (s.writeConfig e c) := by
  have hset := hl.configured hi hc
  rw [writeConfig_eq]
  split
  · exact hset.latchAndGo (by simpa [State.configured] using hi)
  · exact hset

/-- A PARKED entry is an ANY entry, and stands unoffered in delivery again (R107). -/
theorem EntryLaw.reopened (hl : EntryLaw s) (hp : (s.prog e).state = .parked) : EntryLaw (s.reopened e) := by
  obtain ⟨houtcome, hsets, howed, -, hparked, -, -, hagain⟩ := (hl.lawAt e).progress
  have hpol : (s.entry e).cfg.policy = .any := hparked hp
  have hmark := hl.unmarked (e := e) (by simp [hp])
  have hpending := hl.undisarmed (e := e) (by simp [hp])
  have hout : (s.prog e).outcome ≠ none := houtcome.mpr (.inr hp)
  have hnone : (s.prog e).owed = none := by simpa [hp] using howed
  refine EntryLaw.setEntry hl (hl.lawAt e).config (bindingLaw_of_idle ?_ (by simp) (by simp)) ?_ (by simp [hp]) (by simp [hp])
  · obtain ⟨harmed, -, hrest⟩ := (hl.lawAt e).binding
    exact ⟨harmed, by simp, hrest⟩
  · refine ⟨by simp [inDelivery, hout], by simp, by simp [hnone, hpol], by simp [inDelivery, hpol], by simp, by simp [hpending],
      by simp [hmark], fun ha => ⟨by simp, (hagain ha).2⟩⟩

/-- A hold moves its host from the offered to the held set (R5). -/
theorem EntryLaw.held (hl : EntryLaw s) (hd : (s.prog e).state = .delivering) (x y : HostSet) :
    EntryLaw (s.setProg e { s.prog e with offered := x, held := y }) := hl.setParts hd rfl Iff.rfl Iff.rfl

/-- CLEAR_ENTRY leaves the entry at rest, out of the arrival order list (R20). -/
theorem Clearable.entryLaw_abandoned (hc : Clearable s e) (hq : (s.prog e).state ≠ .queued) (hn : (s.prog e).state ≠ .idle) :
    EntryLaw (s.abandoned e) := by
  have hl := hc.entries
  have horder : ∀ f, (s.abandoned e).et.order.count f = (s.et.order.erase e).count f := fun _ => rfl
  refine entryLaw_iff.mpr fun f => ?_
  by_cases hf : f = e
  · subst hf
    obtain ⟨harmed, -, hrest⟩ := (hl.lawAt f).binding
    have hbind : (s.abandoned f).bind f = s.bind f := by rw [State.bind, abandoned_entry, if_pos rfl]; rfl
    have hprog := abandoned_prog_self s f
    refine ⟨by simpa using (hl.lawAt f).config, ?_, ?_, ?_, ?_⟩
    · rw [hbind, hprog]
      exact ⟨harmed, by simp [Progress.abandoned, Progress.toIdle], hrest⟩
    · rw [abandoned_cfg, hprog]
      exact hc.progressLaw
    · rw [horder, List.count_erase_self, (hl.lawAt f).listed, hprog]
      simp [Progress.abandoned, Progress.toIdle, hn]
    · rw [hprog]
      exact (hl.lawAt f).waiting.trans (by simp [Progress.abandoned, Progress.toIdle, hq])
  · exact (hl.lawAt f).congr ((abandoned_entry s e f).trans (if_neg hf)) (List.count_erase_of_ne hf) rfl

theorem Clearable.entryLaw_clearNow (hc : Clearable s e) (hq : (s.prog e).state ≠ .queued) (hn : (s.prog e).state ≠ .idle) :
    EntryLaw (s.clearNow e) := by
  have hchosen := (hc.entryLaw_abandoned hq hn).chooseEach (s.offeredHosts e)
  obtain ⟨-, ⟨hprog, -⟩, -⟩ := hc.choices
  rw [clearNow_eq]
  simp only
  split
  · exact hchosen.latchAndGo (by rw [hprog]; rfl)
  · exact hchosen

end

/-! ### The entries that wait for a channel -/

section
variable {s t : State} {e f : Source}

theorem waiting_count (s : State) (f : Source) (c : ChannelId) : s.waitingForChannel.count f =
    s.du.list.count f + s.claims.inserts.count f + (s.reinserted c).count f + (s.reinserted (c + 1)).count f := by
  have hboth : ∀ n m : Nat, n + m + (s.reinserted 0).count f + (s.reinserted 1).count f =
      n + m + (s.reinserted c).count f + (s.reinserted (c + 1)).count f := fun n m => by
    rcases channel_eq_or 0 c with rfl | rfl
    · rfl
    · rw [channel_other_other]
      exact Nat.add_right_comm ..
  simp only [State.waitingForChannel, List.count_append, ← Nat.add_assoc]
  exact hboth _ _

theorem count_without (l : List Source) (e f : Source) : (l.filter fun x => x != e).count f = if f = e then 0 else l.count f := by
  split
  next hf => simp [hf, List.count_eq_zero]
  next hf => exact List.count_filter (by simpa using hf)

/-- A channel's release inserts the entry that the channel carries, or none. -/
theorem reinserted_count_other {c : ChannelId} (hf : (s.channel c).entry ≠ some f) : (s.reinserted c).count f = 0 := by
  unfold State.reinserted
  split
  · simpa [List.count_eq_zero] using hf
  · rfl

theorem unqueue_reinserted_count (s : State) (e f : Source) (c : ChannelId) :
    ((s.unqueue e).reinserted c).count f = if f = e then 0 else (s.reinserted c).count f := by
  have hreleases : look (s.unqueue e).claims.releases c =
      if (s.channel c).entry = some e then (look s.claims.releases c).map fun _ => false else look s.claims.releases c := look_ofFn _ c
  by_cases hcarries : (s.channel c).entry = some e
  · have hnone : (s.unqueue e).reinserted c = [] :=
      if_neg (by rw [hreleases, if_pos hcarries]; cases look s.claims.releases c <;> simp)
    rw [hnone]
    split
    next => rfl
    next hf => exact (reinserted_count_other (by rw [hcarries]; exact fun h => hf (Option.some.inj h).symm)).symm
  · have hsame : (s.unqueue e).reinserted c = s.reinserted c := by
      unfold State.reinserted
      rw [hreleases, if_neg hcarries]
      rfl
    rw [hsame]
    split
    next hf => exact reinserted_count_other (hf ▸ hcarries)
    next => rfl

/-- An entry taken off the delegation list, or off its way there, waits for no channel (R119). -/
theorem unqueue_waiting_count (s : State) (e f : Source) :
    (s.unqueue e).waitingForChannel.count f = if f = e then 0 else s.waitingForChannel.count f := by
  rw [waiting_count _ f 0, waiting_count _ f 0, unqueue_reinserted_count, unqueue_reinserted_count]
  have hlist : (s.unqueue e).du.list.count f = _ := count_without s.du.list e f
  have hinserts : (s.unqueue e).claims.inserts.count f = _ := count_without s.claims.inserts e f
  rw [hlist, hinserts]
  split <;> rfl

/-- A QUEUED entry, DISARMED, may go on to delivery (R119). -/
theorem EntryLaw.poised_disarmed (hl : EntryLaw s) (hq : (s.prog e).state = .queued) : Poised 1 (s.disarmed e) e := by
  have hentry : ∀ f, f ≠ e → (s.disarmed e).entry f = s.entry f := fun f hf => by
    rw [State.disarmed, State.setBind]
    exact (State.setEntry_entry s e _ f).trans (if_neg hf)
  have hbind : (s.disarmed e).bind e = { s.bind e with armed := false } := State.setBind_bind_self s e _
  have hcount : ∀ f, (s.disarmed e).waitingForChannel.count f = if f = e then 0 else s.waitingForChannel.count f :=
    fun f => unqueue_waiting_count (s.setBind e { s.bind e with armed := false }) e f
  exact {
    others := fun f hf => (hl.lawAt f).congr (hentry f hf) rfl ((hcount f).trans (if_neg hf))
    config := by rw [disarmed_cfg]; exact (hl.lawAt e).config
    binding := hbind ▸ bindingLaw_disarmed (hl.lawAt e).binding
    settled := by rw [disarmed_prog]; exact hl.undisarmed (by simp [hq])
    unheld := by rw [disarmed_prog]; exact hl.unmarked (by simp [hq])
    again := by rw [disarmed_prog, disarmed_cfg]; exact hl.again_isLevel
    listed := (hl.lawAt e).listed.trans (by simp [hq])
    waiting := (hcount e).trans (if_pos rfl) }

end

end Sys2Proof.Machine
end

section
/-! The run results at the Event Table (R120, R121, R130, R131, R137). -/

open Sys2Proof Sys2Proof.Machine

namespace Sys2Proof.Machine

/-! ### The count of a run -/

/-- The binding of an entry whose run has ended in success, with `left` runs left (R130). -/
def Binding.counted (b : Binding) (disarmPending : Bool) (left : Fin 65536) : Binding :=
  { b with
    runsLeft := if left = 0 then b.reload.getD 0 else left
    armed := !disarmPending && (decide (left ≠ 0) || b.reload.isSome) }

/-- Entry e with its run ended: a new binding, and no DISARM pending. -/
def State.ran (s : State) (e : Source) (b : Binding) : State :=
  s.setEntry e { s.entry e with bind := b, prog := { s.prog e with disarmPending := false } }

section
variable {s : State} {e : Source} {b : Binding} {p : Bool}

@[simp] theorem ran_cfg (s : State) (e : Source) (b : Binding) : (s.ran e b).cfg e = s.cfg e := by
  rw [State.ran, State.setEntry_cfg, if_pos rfl]
  rfl

@[simp] theorem ran_bind (s : State) (e : Source) (b : Binding) : (s.ran e b).bind e = b :=
  congrArg Entry.bind ((State.setEntry_entry s e _ e).trans (if_pos rfl))

@[simp] theorem ran_prog (s : State) (e : Source) (b : Binding) : (s.ran e b).prog e = { s.prog e with disarmPending := false } :=
  congrArg Entry.prog ((State.setEntry_entry s e _ e).trans (if_pos rfl))

theorem countRun_eq (harmed : b.armed = true) (hruns : b.runsLeft ≠ 0) : countRun b p = b.counted p (b.runsLeft - 1) := by
  obtain ⟨head, runsLeft, reload, deliver, armed⟩ := b
  have hn : runsLeft ≠ 0 := hruns
  have ha : armed = true := harmed
  unfold countRun Binding.counted
  simp only [if_neg hn, ha]
  by_cases hleft : runsLeft - 1 = 0
  · cases reload <;> cases p <;> simp [hleft]
  · cases p <;> simp [hleft]

/-- The last run of a binding that has runs left is the one that leaves none. -/
theorem isTerminal_iff (hruns : b.runsLeft ≠ 0) : isTerminal b = true ↔ b.runsLeft - 1 = 0 := by
  have hne : b.runsLeft.val ≠ 0 := fun h => hruns (Fin.ext h)
  rw [isTerminal, decide_eq_true_iff, sub_eq_zero, Fin.ext_iff]
  have hone : (1 : Fin 65536).val = 1 := rfl
  omega

/-- A RUNNING entry has an armed binding, with runs left and a head, and is not S63 (R3, R116). -/
theorem EntryLaw.running_armed (hl : EntryLaw s) (hr : (s.prog e).state = .running) :
    (s.bind e).armed = true ∧ (s.bind e).runsLeft ≠ 0 ∧ (s.bind e).head ≠ none ∧ e ≠ 63 := by
  obtain ⟨hready, huse, -, hfixed⟩ := (hl.lawAt e).binding
  have harmed := huse (.inr hr)
  obtain ⟨hruns, hhead⟩ := hready harmed
  refine ⟨harmed, hruns, hhead, fun he => ?_⟩
  rw [hfixed he] at harmed
  cases harmed

/-- A binding that is still armed after the run has runs left: those of before, or its reload (R130). -/
theorem EntryLaw.bindingLaw_counted (hl : EntryLaw s) (hr : (s.prog e).state = .running) :
    BindingLaw e (countRun (s.bind e) (s.prog e).disarmPending) .idle := by
  obtain ⟨harmed, hruns, hhead, he⟩ := hl.running_armed hr
  obtain ⟨-, -, hreload, -⟩ := (hl.lawAt e).binding
  rw [countRun_eq harmed hruns]
  refine ⟨fun hstill => ⟨?_, hhead⟩, by simp, hreload, fun h => absurd h he⟩
  obtain ⟨-, hmore⟩ : (s.prog e).disarmPending = false ∧ ((s.bind e).runsLeft - 1 ≠ 0 ∨ (s.bind e).reload.isSome = true) := by
    simpa [Binding.counted] using hstill
  unfold Binding.counted
  simp only
  split
  next hzero =>
    obtain ⟨r, hsome⟩ := Option.isSome_iff_exists.mp (hmore.resolve_left fun h => h hzero)
    rw [hsome] at hreload ⊢
    simpa using hreload
  next hleft => exact hleft

theorem EntryLaw.poised_ran (hl : EntryLaw s) (hr : (s.prog e).state = .running) (hb : BindingLaw e b .idle) :
    Poised 1 (s.ran e b) e where
  others f hf := (hl.lawAt f).congr ((State.setEntry_entry s e _ f).trans (if_neg hf)) rfl rfl
  config := by simpa using (hl.lawAt e).config
  binding := by simpa using hb
  settled := by simp
  unheld := by simpa using hl.unmarked (e := e) (by simp [hr])
  again := by simpa using hl.again_isLevel (e := e)
  listed := (hl.lawAt e).listed.trans (by simp [hr])
  waiting := (hl.lawAt e).waiting.trans (by simp [hr])

theorem endRunAt_eq (s : State) (e : Source) (o : Outcome) :
    s.endRunAt e o = (s.ran e { s.bind e with armed := false }).enterDelivering e o := rfl

/-- The state in which a success has counted the run of e. -/
def State.succeeded (s : State) (e : Source) : State := s.ran e (countRun (s.bind e) (s.prog e).disarmPending)

theorem succeedAt_each (hd : (s.bind e).deliver = .eachRun) (ht : isTerminal (s.bind e) = false) :
    s.succeedAt e = (s.succeeded e).enterDelivering e .ran := by
  have hdeliver : (s.entry e).bind.deliver = .eachRun := hd
  have hterminal : isTerminal (s.entry e).bind = false := ht
  unfold State.succeedAt
  simp only [hdeliver, hterminal]
  rfl

theorem succeedAt_last (hd : (s.bind e).deliver ≠ .quiet) (ht : isTerminal (s.bind e) = true) :
    s.succeedAt e = (s.succeeded e).enterDelivering e .ranLast := by
  have hterminal : isTerminal (s.entry e).bind = true := ht
  unfold State.succeedAt
  cases hdeliver : (s.entry e).bind.deliver with
  | quiet => exact absurd hdeliver hd
  | atLast =>
    simp only [hdeliver, hterminal]
    rfl
  | eachRun =>
    simp only [hdeliver, hterminal]
    rfl

theorem succeedAt_silent (hs : ((s.bind e).deliver = .atLast ∧ isTerminal (s.bind e) = false) ∨ (s.bind e).deliver = .quiet) :
    s.succeedAt e = (s.succeeded e).complete e := by
  unfold State.succeedAt
  rcases hs with ⟨hd, ht⟩ | hd
  · have hdeliver : (s.entry e).bind.deliver = .atLast := hd
    have hterminal : isTerminal (s.entry e).bind = false := ht
    simp only [hdeliver, hterminal]
    rfl
  · have hdeliver : (s.entry e).bind.deliver = .quiet := hd
    simp only [hdeliver]
    rfl

theorem EntryLaw.endRunAt (hl : EntryLaw s) (hr : (s.prog e).state = .running) (o : Outcome) : EntryLaw (s.endRunAt e o) := by
  rw [endRunAt_eq]
  exact (hl.poised_ran hr (bindingLaw_disarmed (hl.lawAt e).binding)).enterDelivering o

theorem EntryLaw.succeedAt (hl : EntryLaw s) (hr : (s.prog e).state = .running) : EntryLaw (s.succeedAt e) := by
  have hpoised : Poised 1 (s.succeeded e) e := hl.poised_ran hr (hl.bindingLaw_counted hr)
  by_cases hquiet : (s.bind e).deliver = .quiet
  · rw [succeedAt_silent (.inr hquiet)]
    exact hpoised.complete
  cases ht : isTerminal (s.bind e) with
  | true =>
    rw [succeedAt_last hquiet ht]
    exact hpoised.enterDelivering .ranLast
  | false =>
    by_cases hlast : (s.bind e).deliver = .atLast
    · rw [succeedAt_silent (.inl ⟨hlast, ht⟩)]
      exact hpoised.complete
    · have heach : (s.bind e).deliver = .eachRun := by
        cases hd : (s.bind e).deliver with
        | atLast => exact absurd hd hlast
        | eachRun => rfl
        | quiet => exact absurd hd hquiet
      rw [succeedAt_each heach ht]
      exact hpoised.enterDelivering .ran

end

/-! ### A run result -/

/-- Channel c's run result is taken (R137). -/
def State.unreported (s : State) (c : ChannelId) : State :=
  { s with claims := { s.claims with reports := put s.claims.reports c none } }

/-- Channel c's release is handed on, with entry e if it waits to be inserted (R137). -/
def State.releasing (s : State) (c : ChannelId) (e : Source) : State :=
  { s with claims := { s.claims with
    inserts := s.claims.inserts.filter fun x => x != e
    releases := put s.claims.releases c (some (s.claims.inserts.contains e)) } }

section
variable {s v : State} {e : Source} {c : ChannelId} {apply : State → Source → State}

theorem takeResult_carried (he : (s.channel c).entry = some e) :
    s.takeResult c apply = State.releasing
      (if (s.prog e).state = .running then (apply (s.unreported c) e).answerDisarms e else s.unreported c) c e := by
  unfold State.takeResult
  rw [he]
  rfl

theorem inserts_count_le (hl : EntryLaw s) (e : Source) : s.claims.inserts.count e ≤ 1 := by
  have hwaiting := (hl.lawAt e).waiting
  rw [waiting_count s e 0] at hwaiting
  split at hwaiting <;> omega

/-- Of a state in which entry e was carried by a channel and the Event Table has taken its run result, e is on its way to the
Delegation Unit exactly if it is QUEUED again (R137). -/
theorem queued_iff_inserted (hl : EntryLaw s) (hv : EntryLaw v) (hr : (s.prog e).state = .running)
    (htransfers : v.transfers = (s.unreported c).transfers) : v.claims.inserts.contains e = true ↔ (v.prog e).state = .queued := by
  obtain ⟨hdu, -, -, hreleases⟩ := Transfers.fields htransfers
  have hreinserted : ∀ k, v.reinserted k = s.reinserted k := fun k => by
    unfold State.reinserted State.channel
    rw [hdu, hreleases]
    rfl
  have hbefore := (hl.lawAt e).waiting
  have hafter := (hv.lawAt e).waiting
  rw [waiting_count s e 0, if_neg (by simp [hr])] at hbefore
  rw [waiting_count v e 0, hreinserted, hreinserted, hdu] at hafter
  have hlist : (s.unreported c).du.list = s.du.list := rfl
  rw [hlist] at hafter
  rw [List.contains_iff_mem, ← List.count_pos_iff]
  by_cases hq : (v.prog e).state = .queued
  · rw [if_pos hq] at hafter
    exact ⟨fun _ => hq, fun _ => by omega⟩
  · rw [if_neg hq] at hafter
    exact ⟨fun h => by omega, fun h => absurd h hq⟩

/-- The DISARMs that wait on e are answered, and the release of the channel is handed on, with e if it is QUEUED again (R120, R137). -/
theorem takeResult_running (hl : EntryLaw s) (he : (s.channel c).entry = some e) (hr : (s.prog e).state = .running)
    (hv : EntryLaw (apply (s.unreported c) e)) (htransfers : (apply (s.unreported c) e).transfers = (s.unreported c).transfers) :
    ∃ again : Bool, s.takeResult c apply = { apply (s.unreported c) e with
      ports := mapTable
        (fun p : Port => if p.pendingDisarm = some e then { p with result := .ok, working := false, pendingDisarm := none } else p)
        (apply (s.unreported c) e).ports
      claims := { (apply (s.unreported c) e).claims with
        inserts := (apply (s.unreported c) e).claims.inserts.filter fun x => x != e
        releases := put (apply (s.unreported c) e).claims.releases c (some again) } } ∧
      (again = true ↔ ((s.takeResult c apply).prog e).state = .queued) := by
  rw [takeResult_carried he, if_pos hr]
  exact ⟨_, rfl, queued_iff_inserted hl hv hr htransfers⟩

theorem exec_runSuccess (hs : look s.claims.reports c = some .success) :
    exec (.runSuccess c) s = .next (s.takeResult c State.succeedAt) := if_pos hs

theorem exec_runFailure (hs : look s.claims.reports c = some .failure) (hn : ∀ x ∈ s.claims.notices, x.1 ≠ .channel c) :
    exec (.runFailure c) s = .next (s.takeResult c fun t e => t.endRunAt e .failed) := if_pos (by simpa [hs] using hn)

theorem exec_runCut (hs : look s.claims.reports c = some .cut) :
    exec (.runCut c) s = .next (s.takeResult c fun t e => t.endRunAt e .cut) := if_pos hs

/-- A failure waits for its notice to be taken (log 13). -/
theorem exec_runFailure_other (hs : look s.claims.reports c ≠ some .failure ∨ ∃ x ∈ s.claims.notices, x.1 = .channel c) :
    exec (.runFailure c) s = .next s := if_neg (by
  rcases hs with hs | ⟨x, hx, hc⟩
  · simp [hs]
  · simp only [Bool.and_eq_true, Bool.not_eq_true', List.any_eq_false, decide_eq_true_iff]
    exact fun h => h.2 x hx (by simpa using hc))

/-- A success at a RUNNING entry delivers each run, or the last one, or completes (R130). -/
theorem EntryLaw.succeedAt_delivers (hl : EntryLaw s) (hr : (s.prog e).state = .running) :
    ((s.bind e).deliver = .eachRun → isTerminal (s.bind e) = false → Delivers (s.succeeded e) e .ran (s.succeedAt e)) ∧
    ((s.bind e).deliver ≠ .quiet → isTerminal (s.bind e) = true → Delivers (s.succeeded e) e .ranLast (s.succeedAt e)) ∧
    (((s.bind e).deliver = .atLast ∧ isTerminal (s.bind e) = false) ∨ (s.bind e).deliver = .quiet →
      Completes (s.succeeded e) e (s.succeedAt e)) := by
  have hmark : ((s.succeeded e).prog e).hold = false := by simpa [State.succeeded] using hl.unmarked (e := e) (by simp [hr])
  have hkind : ((s.succeeded e).prog e).again = true → ((s.succeeded e).cfg e).kind.isLevel = false := by
    simpa [State.succeeded] using hl.again_isLevel (e := e)
  refine ⟨fun hd ht => ?_, fun hd ht => ?_, fun hs => ?_⟩
  · rw [succeedAt_each hd ht]
    exact enterDelivering_delivers .ran hmark hkind
  · rw [succeedAt_last hd ht]
    exact enterDelivering_delivers .ranLast hmark hkind
  · rw [succeedAt_silent hs]
    exact complete_completes hmark

/-- The end of the run of a RUNNING entry, by a failure or a cut, enters delivery. -/
theorem EntryLaw.endRunAt_delivers (hl : EntryLaw s) (hr : (s.prog e).state = .running) (o : Outcome) :
    Delivers (s.ran e { s.bind e with armed := false }) e o (s.endRunAt e o) := by
  rw [endRunAt_eq]
  exact enterDelivering_delivers o (by simpa using hl.unmarked (e := e) (by simp [hr])) (by simpa using hl.again_isLevel (e := e))

end

end Sys2Proof.Machine

/-- Settles O39: a RUNNING entry has an armed binding with runs left, so that the count of the run is the one the statement makes, and
the entry is on its way to the Delegation Unit exactly if it is QUEUED again. -/
theorem aRunResultIsTakenByTheEntry : Obligations.ARunResultIsTakenByTheEntry := by
  intro s c e hl he hr b left counted r taken settled follows
  have hlr : EntryLaw (s.unreported c) := hl.of_same rfl rfl
  have hrr : ((s.unreported c).prog e).state = .running := hr
  obtain ⟨harmed, hruns, -⟩ := hl.running_armed hr
  have hsucceeded : (s.unreported c).succeeded e = taken counted := by
    have hcount : countRun (s.bind e) (s.prog e).disarmPending = counted := countRun_eq harmed hruns
    exact congrArg taken hcount
  have hterminal : isTerminal ((s.unreported c).bind e) = true ↔ left = 0 := isTerminal_iff hruns
  obtain ⟨heach, hlast, hsilent⟩ := hlr.succeedAt_delivers hrr
  rw [hsucceeded] at heach hlast hsilent
  have hended := fun o : Outcome => takeResult_running (apply := fun t e => t.endRunAt e o) hl he hr (hlr.endRunAt hrr o) (endRunAt_transfers ..)
  refine ⟨fun hs => ⟨_, _, exec_runSuccess hs, takeResult_running hl he hr (hlr.succeedAt hrr) (succeedAt_transfers ..),
      fun hd hn => heach hd (by simpa using mt hterminal.mp hn), fun hd hz => hlast hd (hterminal.mpr hz),
      fun hd => hsilent (hd.imp_left fun h => ⟨h.1, by simpa using mt hterminal.mp h.2⟩)⟩,
    fun hs hn => ⟨_, _, exec_runFailure hs hn, hended .failed, hlr.endRunAt_delivers hrr .failed⟩,
    fun hs => ⟨_, _, exec_runCut hs, hended .cut, hlr.endRunAt_delivers hrr .cut⟩,
    fun hs => if_neg hs, exec_runFailure_other, fun hs => if_neg hs⟩
end

section
/-! The laws of delegated transfers while one channel's record is between two claims (R125, R127, R135, R137, R143, R144). -/

open Sys2Proof Sys2Proof.Machine

namespace Sys2Proof.Machine

/-- The laws of the Event Table and of delegated transfers. -/
structure Coherent (s : State) : Prop where
  entries : EntryLaw s
  transfers : DelegationLaw s

/-- Channel c has no unit in flight at the Memory Port. -/
def State.OffPort (s : State) (c : ChannelId) : Prop := (s.channel c).phase ≠ .reading ∧ (s.channel c).phase ≠ .writing

/-! ### Laws that a change does not touch -/

section
variable {s t : State} {c k : ChannelId} {d : DescId} {y : Channel} {x : Descriptor}

theorem executing_iff : s.executing c = some d ↔ (s.channel c).position = .executing d := by
  unfold State.executing
  split
  next f hf => simp [hf]
  next hn => simpa using hn d

theorem executing_congr (hp : (t.channel k).position = (s.channel k).position) : t.executing k = s.executing k := by
  unfold State.executing
  rw [hp]

theorem setChannel_executing_other (s : State) (c : ChannelId) (y : Channel) : (s.setChannel c y).executing (c + 1) = s.executing (c + 1) :=
  executing_congr (by rw [State.setChannel_channel, if_neg (channel_ne_other c)])

theorem setChannel_executing (s : State) (c : ChannelId) (y : Channel) :
    (s.setChannel c y).executing c = some d ↔ y.position = .executing d := by
  rw [executing_iff, State.setChannel_channel_self]

theorem ChannelLaw.congr (hl : ChannelLaw s k) (hchannel : t.channel k = s.channel k)
    (hreport : look t.claims.reports k = look s.claims.reports k)
    (hrelease : look t.claims.releases k = none ↔ look s.claims.releases k = none)
    (hdesc : ∀ d ∈ s.executing k, t.desc d = s.desc d) : ChannelLaw t k := by
  obtain ⟨hcarries, hreported, honce, hstill, hgoing, hphase, hunit⟩ := hl
  have hexec : t.executing k = s.executing k := executing_congr (by rw [hchannel])
  refine ⟨by rw [hchannel]; exact hcarries, ?_, ?_, by rw [hchannel]; exact hstill, by rw [hchannel]; exact hgoing,
    by rw [hchannel, hexec]; exact hphase, fun d hd => ?_⟩
  · rw [hchannel, hreport, Ne, Ne, hrelease]
    exact hreported
  · rw [hreport, hrelease]
    exact honce
  · rw [hexec] at hd
    rw [hdesc d hd, hchannel]
    exact hunit d hd

theorem MemoryLaw.congr (hl : MemoryLaw s) (hmp : t.mp = s.mp)
    (hreading : ∀ k, (t.channel k).phase = .reading ↔ (s.channel k).phase = .reading)
    (hwriting : ∀ k, (t.channel k).phase = .writing ↔ (s.channel k).phase = .writing)
    (hat : ∀ k ∈ s.mp.grant, t.executing k = s.executing k ∧ ∀ d ∈ s.executing k, t.desc d = s.desc d) : MemoryLaw t := by
  obtain ⟨hgrant, haccess, hheld, hunit⟩ := hl
  refine ⟨fun k => ?_, by rw [hmp]; exact haccess, by rw [hmp]; exact hheld, fun k hk a ha d hd => ?_⟩
  · rw [hmp, hreading, hwriting]
    exact hgrant k
  · rw [hmp] at hk ha
    obtain ⟨hexec, hdesc⟩ := hat k hk
    rw [hexec] at hd
    rw [hmp, hwriting, hdesc d hd]
    exact hunit k hk a ha d hd

theorem activeLaw_iff (s : State) (c : ChannelId) : ActiveLaw s ↔
    (∀ d, (s.desc d).active = true → s.executing (c + 1) = some d ∨ s.executing c = some d) ∧
    ∀ d ∈ s.executing c, s.executing (c + 1) ≠ some d := by
  have happart : (s.executing 0 ≠ none → s.executing 0 ≠ s.executing 1) ↔ ∀ d, s.executing 0 = some d → s.executing 1 ≠ some d := by
    cases s.executing 0 with
    | none => simp
    | some d => simp [eq_comm]
  rcases channel_eq_or 0 c with rfl | rfl
  · exact and_congr (forall₂_congr fun d _ => or_comm) happart
  · refine and_congr Iff.rfl (happart.trans ?_)
    exact ⟨fun h d hd hx => h d hx hd, fun h d hd hx => h d hx hd⟩

/-- No entry waits in the release of a channel that has none handed on. -/
theorem reinserted_of_release (hr : look s.claims.releases c = none) : s.reinserted c = [] := if_neg (by simp [hr])

theorem setChannel_waitingForChannel (hr : look s.claims.releases c = none) (y : Channel) :
    (s.setChannel c y).waitingForChannel = s.waitingForChannel := by
  have hreinserted : ∀ k, (s.setChannel c y).reinserted k = s.reinserted k := fun k => by
    rcases channel_eq_or c k with rfl | rfl
    · rw [reinserted_of_release hr, reinserted_of_release (s := s.setChannel k y) hr]
    · unfold State.reinserted
      rw [State.setChannel_channel, if_neg (channel_ne_other c)]
      rfl
  unfold State.waitingForChannel
  rw [hreinserted, hreinserted]
  rfl

end

/-! ### A channel between two claims -/

/-- Every law holds but those of channel c's own record, which has neither a result nor a release handed on and no unit in flight: it may
execute an inactive descriptor, and stand in any phase away from the Memory Port. -/
structure Loose (s : State) (c : ChannelId) : Prop where
  entries : EntryLaw s
  descs : ∀ d, DescriptorLaw (s.desc d)
  other : ChannelLaw s (c + 1)
  noReport : look s.claims.reports c = none
  noRelease : look s.claims.releases c = none
  offPort : s.OffPort c
  active : ∀ d, (s.desc d).active = true → s.executing (c + 1) = some d ∨ s.executing c = some d
  apart : ∀ d ∈ s.executing c, s.executing (c + 1) ≠ some d
  memory : MemoryLaw s

section
variable {s t : State} {c k : ChannelId} {d : DescId} {y : Channel} {x : Descriptor} {r : RunResult}

theorem Loose.coherent (hl : Loose s c) (hc : ChannelLaw s c) : Coherent s where
  entries := hl.entries
  transfers := by
    refine ⟨hl.descs, fun k => ?_, (activeLaw_iff s c).mpr ⟨hl.active, hl.apart⟩, hl.memory⟩
    rcases channel_eq_or c k with rfl | rfl
    · exact hc
    · exact hl.other

theorem Coherent.channelLaw (hs : Coherent s) (c : ChannelId) : ChannelLaw s c := by
  obtain ⟨-, hchannels, -⟩ := hs.transfers
  exact hchannels c

/-- A channel that has not reported, with no unit in flight, is ready for its next claim. -/
theorem Coherent.loose (hs : Coherent s) (hr : (s.channel c).reported = false) (hp : s.OffPort c) : Loose s c := by
  obtain ⟨hdescs, hchannels, hactive, hmemory⟩ := hs.transfers
  obtain ⟨hcover, hapart⟩ := (activeLaw_iff s c).mp hactive
  obtain ⟨-, hreported, -⟩ := hchannels c
  obtain ⟨hreport, hrelease⟩ : look s.claims.reports c = none ∧ look s.claims.releases c = none := by simpa [hr] using hreported
  exact ⟨hs.entries, hdescs, hchannels (c + 1), hreport, hrelease, hp, hcover, hapart, hmemory⟩

/-- A change of what these laws do not speak of keeps them. -/
theorem Coherent.of_engine (hs : Coherent s) (het : t.et = s.et) (hinserts : t.claims.inserts = s.claims.inserts)
    (htransfers : t.transfers = s.transfers) : Coherent t := by
  obtain ⟨hdu, -, -, hreleases⟩ := Transfers.fields htransfers
  have hreinserted : ∀ k, t.reinserted k = s.reinserted k := fun k => by
    unfold State.reinserted State.channel
    rw [hdu, hreleases]
  refine ⟨hs.entries.of_same het ?_, hs.transfers.of_transfers htransfers⟩
  rw [State.waitingForChannel, hdu, hinserts, hreinserted, hreinserted]
  rfl

/-- A claim that the laws do not speak of is handed on. -/
theorem Loose.of_transfers (hl : Loose s c) (het : t.et = s.et) (hinserts : t.claims.inserts = s.claims.inserts)
    (htransfers : t.transfers = s.transfers) : Loose t c := by
  obtain ⟨hdu, hmp, hreports, hreleases⟩ := Transfers.fields htransfers
  have ht : t = { t with
      et := s.et
      du := s.du
      mp := s.mp
      claims := { t.claims with
        inserts := s.claims.inserts, reports := s.claims.reports, releases := s.claims.releases } } := by
    rw [← het, ← hinserts, ← hdu, ← hmp, ← hreports, ← hreleases]
  rw [ht]
  exact ⟨hl.entries.of_same rfl rfl, hl.descs, hl.other, hl.noReport, hl.noRelease, hl.offPort, hl.active, hl.apart, hl.memory⟩

/-- The channel's record is rewritten: it leaves no active descriptor, and goes to none that the other channel executes. -/
theorem Loose.setChannel (hl : Loose s c) (hphase : y.phase ≠ .reading ∧ y.phase ≠ .writing)
    (hkept : ∀ d ∈ s.executing c, (s.desc d).active = true → y.position = .executing d)
    (hfree : ∀ d, y.position = .executing d → s.executing (c + 1) ≠ some d) : Loose (s.setChannel c y) c where
  entries := hl.entries.of_same rfl (setChannel_waitingForChannel hl.noRelease y)
  descs := hl.descs
  other := hl.other.congr (by rw [State.setChannel_channel, if_neg (channel_ne_other c)]) rfl Iff.rfl fun _ _ => rfl
  noReport := hl.noReport
  noRelease := hl.noRelease
  offPort := by rw [State.OffPort, State.setChannel_channel_self]; exact hphase
  active := fun d hd => by
    rw [setChannel_executing_other, setChannel_executing]
    exact (hl.active d hd).imp_right fun hx => hkept d hx hd
  apart := fun d hd => by
    rw [setChannel_executing_other]
    exact hfree d ((setChannel_executing s c y).mp hd)
  memory := by
    have hboth : ∀ (p : Phase), p = .reading ∨ p = .writing → ∀ k, ((s.setChannel c y).channel k).phase = p ↔ (s.channel k).phase = p :=
      fun p hp k => by
        rw [State.setChannel_channel]
        split
        next hk =>
          subst hk
          rcases hp with rfl | rfl
          · simp [hphase.1, hl.offPort.1]
          · simp [hphase.2, hl.offPort.2]
        next => exact Iff.rfl
    refine hl.memory.congr rfl (hboth _ (.inl rfl)) (hboth _ (.inr rfl)) fun k hk => ⟨?_, fun _ _ => rfl⟩
    obtain ⟨hgrant, -⟩ := hl.memory
    have hne : k ≠ c := fun h => ((hgrant k).mp hk).elim (h ▸ hl.offPort.1) (h ▸ hl.offPort.2)
    exact executing_congr (by rw [State.setChannel_channel, if_neg hne])

/-- The descriptor that the channel executes is rewritten. -/
theorem Loose.setDesc (hl : Loose s c) (hd : s.executing c = some d) (hx : DescriptorLaw x) : Loose (s.setDesc d x) c := by
  have hother : ∀ f ∈ s.executing (c + 1), (s.setDesc d x).desc f = s.desc f := fun f hf => by
    rw [State.setDesc_desc, if_neg fun h : f = d => hl.apart d hd (h ▸ hf)]
  refine ⟨hl.entries.of_same rfl rfl, fun f => ?_, hl.other.congr rfl rfl Iff.rfl hother, hl.noReport, hl.noRelease, hl.offPort,
    fun f hf => ?_, hl.apart, hl.memory.congr rfl (fun _ => Iff.rfl) (fun _ => Iff.rfl) fun k hk => ⟨rfl, ?_⟩⟩
  · rw [State.setDesc_desc]
    split
    · exact hx
    · exact hl.descs f
  · by_cases hfd : f = d
    · exact .inr (hfd ▸ hd)
    · rw [State.setDesc_desc, if_neg hfd] at hf
      exact hl.active f hf
  · obtain ⟨hgrant, -⟩ := hl.memory
    rcases channel_eq_or c k with rfl | rfl
    · exact absurd ((hgrant k).mp hk) (by simp [hl.offPort.1, hl.offPort.2])
    · exact hother

/-- The channel reports, standing nowhere from then on (R137, log 37). -/
theorem Loose.reports (hl : Loose s c) (hrun : (s.channel c).running = true) (hentry : (s.channel c).entry ≠ none)
    (hleft : ∀ d ∈ s.executing c, (s.desc d).active = false) (r : RunResult) : Coherent (s.reportRun c r) := by
  have hloose : Loose (s.setChannel c { s.channel c with position := .nowhere, phase := .idle, reported := true }) c :=
    hl.setChannel (by simp) (fun d hd hactive => by simp [hleft d hd] at hactive) (by simp)
  have hother : ChannelLaw (s.reportRun c r) (c + 1) :=
    hloose.other.congr rfl (look_put_ne _ _ (channel_ne_other c)) Iff.rfl fun _ _ => rfl
  have hself : (s.reportRun c r).channel c = { s.channel c with position := .nowhere, phase := .idle, reported := true } :=
    look_put_self ..
  have hreport : look (s.reportRun c r).claims.reports c = some r := look_put_self ..
  have hrelease : look (s.reportRun c r).claims.releases c = none := hl.noRelease
  have hstands : (s.reportRun c r).executing c = none := by rw [State.executing, hself]
  refine ⟨hloose.entries.of_same rfl rfl, hloose.descs, fun k => ?_, (activeLaw_iff _ c).mpr ⟨hloose.active, hloose.apart⟩, hloose.memory⟩
  rcases channel_eq_or c k with rfl | rfl
  · simp [ChannelLaw, hself, hreport, hrelease, hstands, hrun, hentry]
  · exact hother

/-- The run fails, its notice handed on (R128, R146). -/
theorem Loose.fails (hl : Loose s c) (hrun : (s.channel c).running = true) (hentry : (s.channel c).entry ≠ none)
    (hleft : ∀ d ∈ s.executing c, (s.desc d).active = false) (kind : NoticeKind) (host : Option HostId) (d : DescId)
    (addr : Option Addr) : Coherent (s.failRun c kind host d addr) := by
  have hnoted : Loose (s.handNotice (.channel c)
      { kind := kind, source := (s.channel c).entry, host := host, desc := some d, addr := addr }) c := hl.of_transfers rfl rfl rfl
  exact hnoted.reports hrun hentry hleft .failure

theorem descriptorLaw_inactive (hx : DescriptorLaw x) : DescriptorLaw { x with active := false } :=
  ⟨fun hv => by rw [hx.1 hv]; rfl, hx.2⟩

theorem descriptorLaw_valid (hx : DescriptorLaw x) (ha : x.active = true) : x.valid = true := by
  by_contra hv
  rw [hx.1 (by simpa using hv)] at ha
  cases ha

/-- The channel stops for a cut, wherever it stands (R141). -/
theorem Loose.stops (hl : Loose s c) (hrun : (s.channel c).running = true) (hentry : (s.channel c).entry ≠ none) :
    Coherent (s.stopForCut c) := by
  unfold State.stopForCut
  cases hd : s.executing c with
  | none => exact hl.reports hrun hentry (by simp [hd]) .cut
  | some d =>
    have hleft : Loose (s.deactivate d) c := hl.setDesc hd (descriptorLaw_inactive (hl.descs d))
    refine hleft.reports hrun hentry (fun f hf => ?_) .cut
    have hfd : f = d := (Option.some.inj (hd.symm.trans hf)).symm
    rw [State.deactivate, State.setDesc_desc, if_pos hfd]

end

/-! ### The Memory Port -/

/-- Channel c's unit is in the phase `p`, and the Memory Port's record is `m`. -/
def State.phased (s : State) (c : ChannelId) (p : Phase) (m : MemoryPort) : State :=
  State.setChannel { s with mp := m } c { s.channel c with phase := p }

section
variable {s t : State} {c k : ChannelId} {d : DescId} {a : Access} {p : Phase} {m : MemoryPort}

theorem phased_channel_self (s : State) (c : ChannelId) (p : Phase) (m : MemoryPort) :
    (s.phased c p m).channel c = { s.channel c with phase := p } := look_put_self ..

theorem phased_channel_ne (s : State) {c k : ChannelId} (p : Phase) (m : MemoryPort) (hk : k ≠ c) :
    (s.phased c p m).channel k = s.channel k := look_put_ne _ _ hk

theorem phased_channel_phase (s : State) (c : ChannelId) (p : Phase) (m : MemoryPort) (k : ChannelId) :
    (s.phased c p m).channel k = { s.channel k with phase := if k = c then p else (s.channel k).phase } := by
  split
  next hk => rw [hk, phased_channel_self]
  next hk => rw [phased_channel_ne s p m hk]

theorem phased_executing (s : State) (c : ChannelId) (p : Phase) (m : MemoryPort) (k : ChannelId) :
    (s.phased c p m).executing k = s.executing k := executing_congr (by rw [phased_channel_phase])

theorem phased_waitingForChannel (s : State) (c : ChannelId) (p : Phase) (m : MemoryPort) :
    (s.phased c p m).waitingForChannel = s.waitingForChannel := by
  have hreinserted : ∀ k, (s.phased c p m).reinserted k = s.reinserted k := fun k => by
    unfold State.reinserted
    rw [phased_channel_phase]
    rfl
  unfold State.waitingForChannel
  rw [hreinserted, hreinserted]
  rfl

/-- A channel that executes a descriptor goes from one phase of the unit to another (R135). -/
theorem ChannelLaw.phased (hl : ChannelLaw s k) (hp : p ≠ .idle) (hexec : s.executing c ≠ none) : ChannelLaw (s.phased c p m) k := by
  obtain ⟨hcarries, hreported, honce, hstill, hgoing, hphase, hunit⟩ := hl
  refine ⟨by rw [phased_channel_phase]; exact hcarries, by rw [phased_channel_phase]; exact hreported, honce,
    by rw [phased_channel_phase]; exact hstill, by rw [phased_channel_phase]; exact hgoing, ?_,
    by rw [phased_channel_phase, phased_executing]; exact hunit⟩
  rw [phased_channel_phase, phased_executing]
  by_cases hk : k = c
  · simp [hk, hp, hexec]
  · simpa [hk] using hphase

theorem Coherent.phased (hs : Coherent s) (hp : p ≠ .idle) (hexec : s.executing c ≠ none) (hm : MemoryLaw (s.phased c p m)) :
    Coherent (s.phased c p m) := by
  obtain ⟨hdescs, hchannels, hactive, -⟩ := hs.transfers
  refine ⟨hs.entries.of_same rfl (phased_waitingForChannel ..), hdescs, fun k => (hchannels k).phased hp hexec, ?_, hm⟩
  rw [activeLaw_iff _ c, phased_executing, phased_executing]
  exact (activeLaw_iff s c).mp hactive

/-- The other channel's unit goes on. -/
theorem Loose.phased (hl : Loose s c) (hp : p ≠ .idle) (hexec : s.executing (c + 1) ≠ none)
    (hm : MemoryLaw (s.phased (c + 1) p m)) : Loose (s.phased (c + 1) p m) c where
  entries := hl.entries.of_same rfl (phased_waitingForChannel ..)
  descs := hl.descs
  other := hl.other.phased hp hexec
  noReport := hl.noReport
  noRelease := hl.noRelease
  offPort := by rw [State.OffPort, phased_channel_ne s p m (channel_ne_other c).symm]; exact hl.offPort
  active := by rw [phased_executing, phased_executing]; exact hl.active
  apart := by rw [phased_executing, phased_executing]; exact hl.apart
  memory := hm

/-- With the grant free no unit is in flight. -/
theorem memoryLaw_free (hgrant : s.mp.grant = none) (haccess : s.mp.access = none) (hheld : s.mp.heldData = none)
    (hoff : ∀ k, s.OffPort k) : MemoryLaw s := by
  refine ⟨fun k => ?_, by simp [hgrant, haccess], fun _ => hheld, by simp [hgrant]⟩
  have ⟨hreading, hwriting⟩ := hoff k
  simp [hgrant, hreading, hwriting]

/-- The unit in flight is the one of the channel that holds the grant, and the access is its own (R143, R144). -/
theorem memoryLaw_inFlight (hgrant : s.mp.grant = some c) (halternation : s.mp.alternation = c) (haccess : s.mp.access = some a)
    (hoff : s.OffPort (c + 1)) (hphase : (s.channel c).phase = if a.isWrite then .writing else .reading)
    (hheld : s.mp.heldData ≠ none ↔ a.isWrite = true)
    (hat : ∀ d ∈ s.executing c, a.size = (s.desc d).unitSize ∧ a.addr = if a.isWrite then (s.desc d).dst else (s.desc d).src) :
    MemoryLaw s := by
  refine ⟨fun k => ?_, by simp [hgrant, haccess], by simp [haccess], fun k hk b hb d hd => ?_⟩
  · rw [hgrant]
    rcases channel_eq_or c k with rfl | rfl
    · rw [hphase]
      cases a.isWrite <;> simp
    · simp [hoff.1, hoff.2, (channel_ne_other c).symm]
  · obtain rfl : c = k := Option.some.inj (hgrant.symm.trans hk)
    obtain rfl : a = b := Option.some.inj (haccess.symm.trans hb)
    refine ⟨halternation, ?_, hheld, hat d hd⟩
    rw [hphase]
    cases a.isWrite <;> simp

/-- With the grant free, every channel is away from the port. -/
theorem MemoryLaw.offPort (hl : MemoryLaw s) (hg : s.mp.grant ≠ some c) : s.OffPort c := by
  obtain ⟨hgrant, -⟩ := hl
  exact not_or.mp (mt (hgrant c).mpr hg)

/-- The grant of the port to a channel that executes d (R143). -/
theorem reads_eq_phased (s : State) (c : ChannelId) (d : DescId) : s.reads c d = s.phased c .reading (s.reads c d).mp := rfl

theorem memoryLaw_reads (hl : MemoryLaw s) (hg : s.mp.grant = none) (hd : s.executing c = some d) : MemoryLaw (s.reads c d) := by
  have ⟨_, haccess, hheld, _⟩ := hl
  have hnone : s.mp.heldData = none := hheld (haccess.mp hg)
  have hexec : (s.reads c d).executing c = some d := by rw [reads_eq_phased, phased_executing, hd]
  refine memoryLaw_inFlight (c := c) rfl rfl rfl ?_ ?_ ?_ fun f hf => ?_
  · rw [reads_eq_phased, State.OffPort, phased_channel_ne s _ _ (channel_ne_other c)]
    exact hl.offPort (by simp [hg])
  · rw [reads_eq_phased, phased_channel_self]
    rfl
  · simpa using show (s.reads c d).mp.heldData = none from hnone
  · obtain rfl : d = f := Option.some.inj (hexec.symm.trans hf)
    exact ⟨rfl, rfl⟩

/-- A free port grants a channel whose request waits, or leaves everything as it is (R143). -/
theorem nextGrant_cases (s : State) : s.nextGrant = s ∨
    ∃ k d, s.mp.grant = none ∧ (s.channel k).phase = .waitingPort ∧ s.executing k = some d ∧ s.nextGrant = s.reads k d := by
  have hgrants : ∀ k, s.mp.grant = none → s.portAsked k = true → s.nextGrant = s.grantPort k → s.nextGrant = s ∨
      ∃ k d, s.mp.grant = none ∧ (s.channel k).phase = .waitingPort ∧ s.executing k = some d ∧ s.nextGrant = s.reads k d :=
    fun k hg hasked heq => by
      cases hd : s.executing k with
      | none => exact .inl (heq.trans (by rw [State.grantPort, hd]))
      | some d => exact .inr ⟨k, d, hg, by simpa [State.portAsked] using hasked, hd, heq.trans (grantPort_eq hd)⟩
  by_cases hg : s.mp.grant = none
  · have hsome : s.mp.grant.isSome = false := by simp [hg]
    cases hother : s.portAsked (otherChannel s.mp.alternation) with
    | true => exact hgrants _ hg hother (by simp [State.nextGrant, hsome, hother])
    | false =>
      cases hsame : s.portAsked s.mp.alternation with
      | true => exact hgrants _ hg hsame (by simp [State.nextGrant, hsome, hother, hsame])
      | false => exact .inl (by simp [State.nextGrant, hsome, hother, hsame])
  · exact .inl (nextGrant_held hg)

theorem Coherent.nextGrant (hs : Coherent s) : Coherent s.nextGrant := by
  obtain heq | ⟨k, d, hg, -, hd, heq⟩ := nextGrant_cases s
  · rwa [heq]
  · obtain ⟨-, -, -, hmemory⟩ := hs.transfers
    have hm := memoryLaw_reads hmemory hg hd
    rw [heq]
    rw [reads_eq_phased] at hm ⊢
    exact hs.phased (by simp) (by simp [hd]) hm

/-- The grant goes to the other channel, or to none, while the channel's own request does not wait. -/
theorem nextGrant_channel (hw : (s.channel c).phase ≠ .waitingPort) : s.nextGrant.channel c = s.channel c := by
  obtain heq | ⟨k, d, -, hk, -, heq⟩ := nextGrant_cases s
  · rw [heq]
  · rw [heq, reads_eq_phased]
    exact phased_channel_ne s _ _ fun h => hw (h ▸ hk)

theorem nextGrant_desc (s : State) (f : DescId) : s.nextGrant.desc f = s.desc f := by
  obtain heq | ⟨k, d, -, -, -, heq⟩ := nextGrant_cases s
  · rw [heq]
  · rw [heq]
    rfl

theorem Loose.nextGrant (hl : Loose s c) (hw : (s.channel c).phase ≠ .waitingPort) : Loose s.nextGrant c := by
  obtain heq | ⟨k, d, hg, hk, hd, heq⟩ := nextGrant_cases s
  · rwa [heq]
  · obtain rfl : k = c + 1 := (channel_eq_or c k).resolve_left fun h => hw (h ▸ hk)
    have hm := memoryLaw_reads hl.memory hg hd
    rw [heq]
    rw [reads_eq_phased] at hm ⊢
    exact hl.phased (by simp) (by simp [hd]) hm

/-- The unit in flight has ended: its channel is in no phase, and the grant, the access and the held data are gone (R143). -/
def State.landed (s : State) (c : ChannelId) : State :=
  s.phased c .idle { s.mp with grant := none, access := none, heldData := none }

/-- A channel whose unit was in flight is ready for the rest of the claim that ends it. -/
theorem Coherent.landed (hs : Coherent s) (hg : s.mp.grant = some c) (hd : s.executing c = some d) : Loose (s.landed c) c := by
  obtain ⟨hdescs, hchannels, hactive, hmemory⟩ := hs.transfers
  obtain ⟨hcover, hapart⟩ := (activeLaw_iff s c).mp hactive
  have hother : ((s.landed c).channel (c + 1)) = s.channel (c + 1) := phased_channel_ne s _ _ (channel_ne_other c)
  have hoffOther : s.OffPort (c + 1) := hmemory.offPort (by simp [hg, (channel_ne_other c).symm])
  have hoff : (s.landed c).OffPort c := by rw [State.OffPort, State.landed, phased_channel_self]; simp
  obtain ⟨-, hreported, -, hstill, -⟩ := hchannels c
  have hmark : (s.channel c).reported = false := by
    by_contra hr
    have hnowhere := (hstill (by simpa using hr)).2
    rw [executing_iff.mp hd] at hnowhere
    cases hnowhere
  obtain ⟨hreport, hrelease⟩ : look s.claims.reports c = none ∧ look s.claims.releases c = none := by simpa [hmark] using hreported
  refine ⟨hs.entries.of_same rfl (phased_waitingForChannel ..), hdescs, (hchannels (c + 1)).congr hother rfl Iff.rfl fun _ _ => rfl,
    hreport, hrelease, hoff, ?_, ?_, memoryLaw_free rfl rfl rfl fun k => ?_⟩
  · rw [State.landed, phased_executing, phased_executing]
    exact hcover
  · rw [State.landed, phased_executing, phased_executing]
    exact hapart
  · rcases channel_eq_or c k with rfl | rfl
    · exact hoff
    · rw [State.OffPort, hother]
      exact hoffOther

end

end Sys2Proof.Machine
end

section
/-! The laws over the claims of the Delegation Unit and the Memory Port (chapters 7 to 9). -/

open Sys2Proof Sys2Proof.Machine

namespace Sys2Proof.Machine

/-- The channel is on a run: it carries an entry, has not reported, and may go on along its chain (R127, R135). -/
structure Channel.OnRun (y : Channel) : Prop where
  running : y.running = true
  entry : y.entry ≠ none
  unreported : y.reported = false
  chain : y.completed < Config.chainLimit

section
variable {s : State} {c : ChannelId} {d f : DescId} {x : Descriptor} {y : Channel}

/-! ### Where a channel on a run stands -/

/-- A channel that stands somewhere is on a run. -/
theorem Coherent.onRun (hs : Coherent s) (hp : (s.channel c).position ≠ .nowhere) : (s.channel c).OnRun := by
  obtain ⟨hcarries, -, -, hstill, hgoing, -⟩ := hs.channelLaw c
  obtain ⟨hrun, hchain⟩ := hgoing hp
  exact ⟨hrun, hcarries.mp hrun, Bool.eq_false_iff.mpr fun hr => hp (hstill hr).2, hchain⟩

theorem Coherent.onRun_executing (hs : Coherent s) (hd : s.executing c = some d) : (s.channel c).OnRun :=
  hs.onRun (by rw [executing_iff.mp hd]; simp)

/-- A channel that executes no descriptor is in no phase (R135). -/
theorem Coherent.phase_idle (hs : Coherent s) (he : s.executing c = none) : (s.channel c).phase = .idle := by
  obtain ⟨-, -, -, -, -, hphase, -⟩ := hs.channelLaw c
  by_contra hn
  exact hphase.mp hn he

/-- A descriptor that a channel executes is active, with units of it left, and so it is valid (R122, R126). -/
theorem Coherent.unit (hs : Coherent s) (hd : s.executing c = some d) :
    (s.desc d).active = true ∧ (s.channel c).units < (s.desc d).runLength := by
  obtain ⟨-, -, -, -, -, -, hunit⟩ := hs.channelLaw c
  exact hunit d hd

/-- The channel is between two descriptors (R125). -/
theorem Loose.stands (hl : Loose s c) (hrun : (s.channel c).OnRun) (hnone : s.executing c = none)
    (hphase : (s.channel c).phase = .idle) : Coherent s := by
  refine hl.coherent ?_
  simp [ChannelLaw, hnone, hphase, hl.noReport, hl.noRelease, hrun.running, hrun.entry, hrun.unreported, hrun.chain]

/-- The channel executes an active descriptor, with units of it left (R125, R139). -/
theorem Loose.executes (hl : Loose s c) (hrun : (s.channel c).OnRun) (hd : s.executing c = some d) (hactive : (s.desc d).active = true)
    (hphase : (s.channel c).phase ≠ .idle) (hunits : (s.channel c).units < (s.desc d).runLength) : Coherent s := by
  refine hl.coherent ?_
  simp [ChannelLaw, hd, hphase, hactive, hunits, hl.noReport, hl.noRelease, hrun.running, hrun.entry, hrun.unreported, hrun.chain]

/-- The channel goes where it executes no descriptor, and leaves none active. -/
theorem Loose.goes (hl : Loose s c) (hy : y.OnRun) (hleft : ∀ f ∈ s.executing c, (s.desc f).active = false)
    (hphase : y.phase = .idle) (hp : ∀ f, y.position ≠ .executing f) : Coherent (s.setChannel c y) := by
  have hself : (s.setChannel c y).channel c = y := State.setChannel_channel_self ..
  have hloose : Loose (s.setChannel c y) c := hl.setChannel (by simp [hphase]) (fun f hf ha => by simp [hleft f hf] at ha)
    fun f hf => absurd hf (hp f)
  refine hloose.stands (by rw [hself]; exact hy) (Option.eq_none_iff_forall_ne_some.mpr fun f hf => ?_) (by rw [hself, hphase])
  exact hp f ((setChannel_executing s c y).mp hf)

/-- The channel goes on with the descriptor it executes. -/
theorem Loose.goesOn (hl : Loose s c) (hy : y.OnRun) (hd : s.executing c = some d) (hactive : (s.desc d).active = true)
    (hp : y.position = (s.channel c).position) (hphase : y.phase = .checking ∨ y.phase = .waitingPort)
    (hunits : y.units < (s.desc d).runLength) : Coherent (s.setChannel c y) := by
  have hself : (s.setChannel c y).channel c = y := State.setChannel_channel_self ..
  have hposition : y.position = .executing d := hp.trans (executing_iff.mp hd)
  have hloose : Loose (s.setChannel c y) c := by
    refine hl.setChannel (by rcases hphase with h | h <;> simp [h]) (fun f hf _ => hp.trans (executing_iff.mp hf)) fun f hf => ?_
    exact hl.apart f (executing_iff.mpr (hp.symm.trans hf))
  refine hloose.executes (by rw [hself]; exact hy) ((setChannel_executing s c y).mpr hposition) hactive ?_ (by rw [hself]; exact hunits)
  rw [hself]
  rcases hphase with h | h <;> simp [h]

/-! ### The walk -/

theorem Coherent.arriveAt (hs : Coherent s) (hp : (s.channel c).position = .arriving d ∨ (s.channel c).position = .waiting d) :
    Coherent (s.arriveAt c d) := by
  have hrun : (s.channel c).OnRun := hs.onRun (by rcases hp with hp | hp <;> simp [hp])
  have hnone := executing_of_going hp
  have hloose : Loose s c := hs.loose hrun.unreported (by simp [State.OffPort, hs.phase_idle hnone])
  unfold State.arriveAt
  simp only
  split_ifs with hcut hbad hbusy
  · exact hloose.stops hrun.running hrun.entry
  · exact hloose.fails hrun.running hrun.entry (by simp [hnone]) ..
  · exact hloose.goes ⟨hrun.running, hrun.entry, hrun.unreported, hrun.chain⟩ (by simp [hnone]) (hs.phase_idle hnone) (by simp)
  · set y : Channel := { s.channel c with position := .executing d, units := 0, phase := .checking } with hy
    have hother : s.executing (c + 1) ≠ some d := fun h => hbusy (hs.unit h).1
    have hmoved : Loose (s.setChannel c y) c :=
      hloose.setChannel (by simp [hy]) (by simp [hnone]) fun f hf => by
        cases hf
        exact hother
    have hself : ((s.setChannel c y).setDesc d { s.desc d with active := true }).channel c = y := State.setChannel_channel_self ..
    have hdesc : ((s.setChannel c y).setDesc d { s.desc d with active := true }).desc d = { s.desc d with active := true } :=
      State.setDesc_desc_self ..
    have hvalid : (s.desc d).valid = true := by
      by_contra hv
      exact hbad (by simp [hv])
    have hexec : (s.setChannel c y).executing c = some d := (setChannel_executing s c y).mpr rfl
    obtain ⟨-, hprogrammed⟩ := hloose.descs d
    have hset : Loose ((s.setChannel c y).setDesc d { s.desc d with active := true }) c :=
      hmoved.setDesc hexec ⟨fun h => by simp [hvalid] at h, hprogrammed⟩
    obtain ⟨-, -, -, -, -, -, hlength, -⟩ := hprogrammed hvalid
    refine hset.executes ?_ hexec (by rw [hdesc]) (by rw [hself]; simp [hy]) (by rw [hself, hdesc]; exact hlength)
    rw [hself]
    exact ⟨hrun.running, hrun.entry, hrun.unreported, hrun.chain⟩

theorem exec_descriptorArrival_coherent (hs : Coherent s) (c : ChannelId) : Answers Coherent (exec (.descriptorArrival c) s) := by
  change Answers Coherent (execDescriptorArrival c s)
  unfold execDescriptorArrival
  split
  next d hd => exact answers_next (hs.arriveAt (.inl hd))
  next d hd => exact answers_next (hs.arriveAt (.inr hd))
  next => exact answers_next hs

/-! ### Transfer faults and the cut -/

/-- A descriptor that is marked faulted is valid (R146). -/
theorem descriptorLaw_faulted (hx : DescriptorLaw x) (ha : x.active = true) :
    DescriptorLaw { x with active := false, faulted := true } :=
  ⟨fun hv => by simp [descriptorLaw_valid hx ha] at hv, hx.2⟩

/-- The unit fails before its read is asked for (R146). -/
theorem Loose.failUnit (hl : Loose s c) (hrun : (s.channel c).OnRun) (hd : s.executing c = some d) (hactive : (s.desc d).active = true)
    (kind : NoticeKind) (addr : Addr) : Coherent (s.failUnit c d false kind addr) := by
  have hfaulted : Loose (s.setDesc d { s.desc d with active := false, faulted := true }) c :=
    hl.setDesc hd (descriptorLaw_faulted (hl.descs d) hactive)
  refine hfaulted.fails hrun.running hrun.entry (fun f hf => ?_) ..
  obtain rfl : d = f := Option.some.inj (hd.symm.trans hf)
  rw [State.setDesc_desc_self]

/-- The unit in flight fails, and the port is freed (R143, R146). -/
theorem Coherent.failUnit (hs : Coherent s) (hg : s.mp.grant = some c) (hd : s.executing c = some d) (kind : NoticeKind) (addr : Addr) :
    Coherent (s.failUnit c d true kind addr) := by
  have hrun := hs.onRun_executing hd
  have hlanded := hs.landed hg hd
  have hexec : (s.landed c).executing c = some d := (phased_executing ..).trans hd
  set u : State := (s.landed c).setDesc d { s.desc d with active := false, faulted := true } with hu
  have hself : u.channel c = { s.channel c with phase := .idle } := phased_channel_self ..
  have hfaulted : Loose u c := hlanded.setDesc hexec (descriptorLaw_faulted (hlanded.descs d) (hs.unit hd).1)
  have hwaits : (u.channel c).phase ≠ .waitingPort := by simp [hself]
  have hchannel : u.nextGrant.channel c = { s.channel c with phase := .idle } := (nextGrant_channel hwaits).trans hself
  have hfailed : s.failUnit c d true kind addr = u.nextGrant.failRun c kind (s.desc d).owner d (some addr) := rfl
  rw [hfailed]
  refine (hfaulted.nextGrant hwaits).fails (by rw [hchannel]; exact hrun.running) (by rw [hchannel]; exact hrun.entry) (fun f hf => ?_) ..
  have hfd : f = d := by
    have hstill : u.nextGrant.executing c = some d :=
      executing_iff.mpr (by rw [hchannel]; exact executing_iff.mp hd)
    exact Option.some.inj (hf.symm.trans hstill)
  rw [nextGrant_desc, hu, State.setDesc_desc, if_pos hfd]

/-- A cut mark is set on a channel that has not reported (R141). -/
theorem Coherent.marked (hs : Coherent s) (hr : (s.channel c).reported = false) :
    Coherent (s.setChannel c { s.channel c with cutMark := true }) := by
  obtain ⟨hdescs, hchannels, hactive, hmemory⟩ := hs.transfers
  obtain ⟨-, hreported, -⟩ := hchannels c
  obtain ⟨-, hrelease⟩ : look s.claims.reports c = none ∧ look s.claims.releases c = none := by simpa [hr] using hreported
  have hexec : ∀ k, (s.setChannel c { s.channel c with cutMark := true }).executing k = s.executing k := fun k =>
    executing_congr (by rw [State.setChannel_channel]; split <;> simp [*])
  have hphase : ∀ k, ((s.setChannel c { s.channel c with cutMark := true }).channel k).phase = (s.channel k).phase := fun k => by
    rw [State.setChannel_channel]
    split <;> simp [*]
  refine ⟨hs.entries.of_same rfl (setChannel_waitingForChannel hrelease _), hdescs, fun k => ?_, ?_,
    hmemory.congr rfl (fun k => by rw [hphase]) (fun k => by rw [hphase]) fun k _ => ⟨hexec k, fun _ _ => rfl⟩⟩
  · rcases channel_eq_or c k with rfl | rfl
    · have hself := hchannels k
      unfold ChannelLaw
      rw [hexec, State.setChannel_channel_self]
      exact hself
    · exact (hchannels (c + 1)).congr (by rw [State.setChannel_channel, if_neg (channel_ne_other c)]) rfl Iff.rfl fun _ _ => rfl
  · rw [activeLaw_iff _ c, hexec, hexec]
    exact (activeLaw_iff s c).mp hactive

/-- A cut request stops a channel that has no check asked and no unit in flight, and marks any other (R141). -/
theorem Coherent.cutChannel (hs : Coherent s) (hentry : (s.channel c).entry ≠ none) : Coherent (s.cutChannel c) := by
  unfold State.cutChannel
  simp only
  split
  next => exact hs
  next hr =>
    have hmark : (s.channel c).reported = false := by simpa using hr
    have hmarked := hs.marked hmark
    split
    next => exact hmarked
    next => exact hmarked
    next => exact hmarked
    next _ hreading hwriting =>
      have hself : (s.setChannel c { s.channel c with cutMark := true }).channel c = { s.channel c with cutMark := true } :=
        State.setChannel_channel_self ..
      obtain ⟨hcarries, -⟩ := hs.channelLaw c
      have hloose := hmarked.loose (c := c) (by rw [hself]; exact hmark) (by rw [State.OffPort, hself]; exact ⟨hreading, hwriting⟩)
      exact hloose.stops (by rw [hself]; exact hcarries.mpr hentry) (by rw [hself]; exact hentry)

theorem exec_cutRequest_coherent (hs : Coherent s) (e : Source) : Answers Coherent (exec (.cutRequest e) s) := by
  change Answers Coherent (execCutRequest e s)
  unfold execCutRequest
  split
  · exact answers_next hs
  next x _ =>
    have htaken : Coherent { s with claims := { s.claims with cuts := s.claims.cuts.erase x } } :=
      hs.of_engine rfl rfl rfl
    simp only
    split_ifs with _ hfirst hsecond
    · exact answers_next htaken
    · exact answers_next (htaken.cutChannel (by rw [hfirst]; simp))
    · exact answers_next (htaken.cutChannel (by rw [hsecond]; simp))
    · exact answers_next htaken

/-! ### The unit -/

theorem exec_unitCheck_coherent (hs : Coherent s) (c : ChannelId) : Answers Coherent (exec (.unitCheck c) s) := by
  change Answers Coherent (execUnitCheck c s)
  unfold execUnitCheck
  simp only
  split
  next d hphase hd =>
    have hrun := hs.onRun_executing hd
    obtain ⟨hactive, hunits⟩ := hs.unit hd
    have hloose : Loose s c := hs.loose hrun.unreported (by simp [State.OffPort, hphase])
    have hreported := fun kind addr => hloose.failUnit hrun hd hactive kind addr
    split_ifs
    · exact answers_next (hreported ..)
    · exact answers_next (hreported ..)
    · exact answers_next (hloose.stops hrun.running hrun.entry)
    · exact answers_next (hloose.goesOn ⟨hrun.running, hrun.entry, hrun.unreported, hrun.chain⟩ hd hactive rfl (.inr rfl) hunits)
  next => exact answers_next hs

/-- A step moves an aligned address by the unit size, so that it stays aligned (R122, R126). -/
theorem stepAddr_aligned {size : Nat} {a : Addr} (st : AddrStep) (hsize : size = 1 ∨ size = 2 ∨ size = 4)
    (ha : aligned a size = true) : aligned (stepAddr st size a) size = true := by
  have hmod : a.toNat % size = 0 := by simpa [aligned] using ha
  have hinc : (a + BitVec.ofNat 32 size).toNat % size = 0 := by
    rcases hsize with rfl | rfl | rfl <;> rw [BitVec.toNat_add, BitVec.toNat_ofNat] <;> omega
  have hdec : (a - BitVec.ofNat 32 size).toNat % size = 0 := by
    rcases hsize with rfl | rfl | rfl <;> rw [BitVec.toNat_sub, BitVec.toNat_ofNat] <;> omega
  unfold aligned
  cases st with
  | inc => simpa [stepAddr] using hinc
  | dec => simpa [stepAddr] using hdec
  | fixed => simpa [stepAddr] using hmod
  | unset => simpa [stepAddr] using hmod

theorem descriptorLaw_advanced (hx : DescriptorLaw x) (ha : x.active = true) :
    DescriptorLaw { x with src := stepAddr x.srcStep x.unitSize x.src, dst := stepAddr x.dstStep x.unitSize x.dst } := by
  have hvalid := descriptorLaw_valid hx ha
  obtain ⟨howner, hsize, hsrc, hdst, hrest⟩ := hx.2 hvalid
  exact ⟨fun hv => by simp [hvalid] at hv, fun _ => ⟨howner, hsize, stepAddr_aligned _ hsize hsrc, stepAddr_aligned _ hsize hdst, hrest⟩⟩

/-- The unit boundary (R126, R127, R140): a stop, the next unit, or the end of the descriptor. -/
theorem Loose.boundary (hl : Loose s c) (hrun : (s.channel c).OnRun) (hd : s.executing c = some d) (hactive : (s.desc d).active = true) :
    Coherent (s.boundary c d) := by
  unfold State.boundary
  simp only
  split
  next => exact hl.stops hrun.running hrun.entry
  next =>
    split
    next hunits => exact hl.goesOn ⟨hrun.running, hrun.entry, hrun.unreported, hrun.chain⟩ hd hactive rfl (.inl rfl) hunits
    next =>
      set y : Channel := { s.channel c with completed := (s.channel c).completed + 1, units := 0, phase := .idle } with hy
      set u : State := (s.deactivate d).setChannel c y with hu
      have hself : u.channel c = y := State.setChannel_channel_self ..
      have hexec : u.executing c = some d := (setChannel_executing _ c y).mpr (executing_iff.mp hd)
      have hleft : ∀ f ∈ u.executing c, (u.desc f).active = false := fun f hf => by
        obtain rfl : d = f := Option.some.inj (hexec.symm.trans hf)
        exact congrArg Descriptor.active (State.setDesc_desc_self s d _)
      have hdone : Loose u c := by
        refine (hl.setDesc hd (descriptorLaw_inactive (hl.descs d))).setChannel (by simp [hy]) (fun f hf _ => executing_iff.mp hf) fun f hf => ?_
        exact hl.apart f (executing_iff.mpr hf)
      have hrunning : (u.channel c).running = true := by rw [hself]; exact hrun.running
      have hentry : (u.channel c).entry ≠ none := by rw [hself]; exact hrun.entry
      cases (s.desc d).link with
      | none => exact hdone.reports hrunning hentry hleft .success
      | some next =>
        simp only
        split
        next => exact hdone.fails hrunning hentry hleft ..
        next hchain =>
          refine hdone.goes ⟨hrunning, hentry, ?_, ?_⟩ hleft (by rw [hself]) (by simp)
          · rw [hself]
            exact hrun.unreported
          · rw [hself]
            exact Nat.lt_of_not_le hchain

/-- A write's OK ends the unit (R139 step 5). -/
theorem Coherent.endUnit (hs : Coherent s) (hg : s.mp.grant = some c) (hd : s.executing c = some d) : Coherent (s.endUnit c d) := by
  have hrun := hs.onRun_executing hd
  obtain ⟨hactive, -⟩ := hs.unit hd
  have hlanded := hs.landed hg hd
  have hexec : (s.landed c).executing c = some d := (phased_executing ..).trans hd
  set x : Descriptor := { s.desc d with
    src := stepAddr (s.desc d).srcStep (s.desc d).unitSize (s.desc d).src
    dst := stepAddr (s.desc d).dstStep (s.desc d).unitSize (s.desc d).dst } with hx
  set y : Channel := { s.channel c with units := (s.channel c).units + 1, phase := .idle } with hy
  have hadvanced : Loose (((s.landed c).setDesc d x).setChannel c y) c := by
    refine (hlanded.setDesc hexec (descriptorLaw_advanced (hlanded.descs d) hactive)).setChannel (by simp [hy]) (fun f hf _ => ?_) fun f hf => ?_
    · exact (executing_iff.mp ((phased_executing s c _ _ c).symm.trans hf) :)
    · exact hlanded.apart f ((phased_executing s c _ _ c).trans (executing_iff.mpr hf))
  obtain ⟨writes, hended⟩ : ∃ writes, s.endUnit c d = (State.nextGrant { (s.setDesc d x).setChannel c y with
      mp := { s.mp with grant := none, access := none, heldData := none }
      claims := { s.claims with writes := writes } }).boundary c d := ⟨_, rfl⟩
  set u : State := { (s.setDesc d x).setChannel c y with
    mp := { s.mp with grant := none, access := none, heldData := none }
    claims := { s.claims with writes := writes } } with hu
  have hself : u.channel c = y := look_put_self ..
  have htransfers : u.transfers = (((s.landed c).setDesc d x).setChannel c y).transfers := by
    simp [State.transfers, State.landed, State.phased, hu, put_put]
  have hloose : Loose u c := hadvanced.of_transfers rfl rfl htransfers
  have hwaits : (u.channel c).phase ≠ .waitingPort := by simp [hself, hy]
  have hchannel : u.nextGrant.channel c = y := (nextGrant_channel hwaits).trans hself
  rw [hended]
  refine (hloose.nextGrant hwaits).boundary ?_ ?_ ?_
  · rw [hchannel]
    exact ⟨hrun.running, hrun.entry, hrun.unreported, hrun.chain⟩
  · exact executing_iff.mpr (by rw [hchannel]; exact executing_iff.mp hd)
  · rw [nextGrant_desc]
    exact (congrArg Descriptor.active (State.setDesc_desc_self s d x)).trans hactive

/-- The read's OK holds the data and issues the write (R139, R144). -/
theorem Coherent.writes (hs : Coherent s) (hg : s.mp.grant = some c) (hd : s.executing c = some d) (data : Word) :
    Coherent (State.setChannel
      (State.issueAccess { s with mp := { s.mp with heldData := some data } } true (s.desc d).dst (s.desc d).unitSize)
      c { s.channel c with phase := .writing }) := by
  obtain ⟨-, -, -, hmemory⟩ := hs.transfers
  have ⟨_, hheld, _, hunit⟩ := hmemory
  have haccess : s.mp.access ≠ none := fun h => by simp [hheld.mpr h] at hg
  obtain ⟨a, ha⟩ := Option.ne_none_iff_exists'.mp haccess
  obtain ⟨halternation, -⟩ := hunit c hg a ha d hd
  set m : MemoryPort := (State.issueAccess { s with mp := { s.mp with heldData := some data } } true (s.desc d).dst (s.desc d).unitSize).mp with hm
  change Coherent (s.phased c .writing m)
  refine hs.phased (by simp) (by simp [hd]) (memoryLaw_inFlight (c := c) hg halternation rfl ?_ ?_ ?_ fun f hf => ?_)
  · rw [State.OffPort, phased_channel_ne s _ _ (channel_ne_other c)]
    exact hmemory.offPort (by simp [hg, (channel_ne_other c).symm])
  · rw [phased_channel_self]
    rfl
  · exact ⟨fun _ => rfl, fun _ => Option.some_ne_none data⟩
  · obtain rfl : d = f := Option.some.inj (hd.symm.trans ((phased_executing s c _ _ c).symm.trans hf))
    exact ⟨rfl, rfl⟩

theorem exec_memoryResponse_coherent (hs : Coherent s) (tag : BitVec 4) (error : Bool) (data : Word) :
    Answers Coherent (exec (.memoryResponse tag error data) s) := by
  change Answers Coherent (execMemoryResponse tag error data s)
  unfold execMemoryResponse
  split
  next a c ha hg =>
    split
    next => exact answers_next hs
    next d hd =>
      simp only
      split_ifs
      · exact answers_next hs
      · exact answers_next (hs.failUnit hg hd ..)
      · exact answers_next (hs.endUnit hg hd)
      · exact answers_next (hs.writes hg hd data)
  next => exact answers_next hs

theorem exec_memoryTimeout_coherent (hs : Coherent s) : Answers Coherent (exec .memoryTimeout s) := by
  change Answers Coherent (execMemoryTimeout s)
  unfold execMemoryTimeout
  split
  next a c _ hg =>
    split
    next => exact answers_next hs
    next d hd =>
      have hlate : Coherent { s with tb := { s.tb with micros := max s.tb.micros a.deadline } } :=
        hs.of_engine rfl rfl rfl
      exact answers_next (hlate.failUnit hg hd ..)
  next => exact answers_next hs

theorem exec_writeRecord_coherent (hs : Coherent s) (c : ChannelId) : Answers Coherent (exec (.writeRecord c) s) := by
  change Answers Coherent (execWriteRecord c s)
  unfold execWriteRecord
  split
  next => exact answers_next hs
  next o a rest _ =>
    simp only
    split <;> exact answers_next (hs.of_engine rfl rfl rfl)

end

end Sys2Proof.Machine
end

section
/-! The laws over the grants, the releases and the run results of the channels, and over DISARM and WRITE_DESC (R9, R119, R123, R134 to
R137). -/

open Sys2Proof Sys2Proof.Machine

namespace Sys2Proof.Machine

/-! ### The grant of a channel -/

section
variable {s t : State} {c : ChannelId} {e f : Source} {d : DescId} {x : Descriptor}

/-- Channel c takes entry e off the delegation list, which is RUNNING from then on (R9, R136). -/
def State.dequeued (s : State) (c : ChannelId) (e : Source) : State :=
  State.setProg { s with du := { s.du with list := s.du.list.filter fun x => x != e, lastGrant := c } } e
    { s.prog e with state := .running }

/-- An entry of the delegation list is QUEUED, and stands on no other way to a channel. -/
theorem EntryLaw.queued_of_listed (hl : EntryLaw s) (he : e ∈ s.du.list) :
    (s.prog e).state = .queued ∧ s.claims.inserts.count e + (s.reinserted 0).count e + (s.reinserted 1).count e = 0 := by
  have hpos := List.count_pos_iff.mpr he
  have hwaiting := (hl.lawAt e).waiting
  rw [waiting_count s e 0] at hwaiting
  have hother : (0 : ChannelId) + 1 = 1 := rfl
  rw [hother] at hwaiting
  split at hwaiting
  next hq => exact ⟨hq, by omega⟩
  next => omega

theorem EntryLaw.dequeued (hl : EntryLaw s) (he : e ∈ s.du.list) (c : ChannelId) : EntryLaw (s.dequeued c e) := by
  obtain ⟨hq, hone⟩ := hl.queued_of_listed he
  have hcount : ∀ f, (s.dequeued c e).waitingForChannel.count f =
      (if f = e then 0 else s.du.list.count f) + s.claims.inserts.count f + (s.reinserted 0).count f + (s.reinserted 1).count f :=
    fun f => (waiting_count _ f 0).trans (by rw [← count_without]; rfl)
  refine entryLaw_iff.mpr fun f => ?_
  by_cases hf : f = e
  · subst hf
    obtain ⟨houtcome, hoffered, hheld, howed, hdecline⟩ := hl.blank (e := f) (by simp [inDelivery, hq])
    obtain ⟨hready, huse, hrest⟩ := (hl.lawAt f).binding
    have hmark := hl.unmarked (e := f) (by simp [hq])
    have hprog : (s.dequeued c f).prog f = { s.prog f with state := .running } := State.setProg_prog_self _ f _
    have hcfg : (s.dequeued c f).cfg f = s.cfg f := State.setProg_cfg _ f _ f
    have hbind : (s.dequeued c f).bind f = s.bind f := State.setProg_bind _ f _ f
    refine ⟨hcfg ▸ (hl.lawAt f).config, ?_, ?_, ?_, ?_⟩
    · rw [hbind]
      exact ⟨hready, fun _ => huse (.inl hq), hrest⟩
    · rw [hcfg, hprog]
      have hagain := hl.again_isLevel (e := f)
      simpa [ProgressLaw, inDelivery, houtcome, hoffered, hheld, howed, hdecline, hmark] using hagain
    · rw [hprog]
      exact (hl.lawAt f).listed.trans (by simp [hq])
    · rw [hprog, hcount, if_pos rfl]
      simpa using hone
  · refine (hl.lawAt f).congr ((State.setProg_entry _ e _ f).trans (if_neg hf)) rfl ?_
    rw [hcount, if_neg hf, waiting_count s f 0]
    rfl

/-- A free channel takes the best entry of the list, and goes to its head, or stays free (R125, R136). -/
theorem Loose.grantChannel (hl : Loose s c) (hfree : ChannelLaw s c) (hnone : s.executing c = none) : Coherent (s.grantChannel c) := by
  cases hb : s.bestQueued with
  | none =>
    have hsame : s.grantChannel c = s := by rw [State.grantChannel, hb]
    rw [hsame]
    exact hl.coherent hfree
  | some e =>
    obtain ⟨p, hp, hgranted⟩ : ∃ p, (∀ f, p ≠ .executing f) ∧ s.grantChannel c = (s.dequeued c e).setChannel c
        { running := true, entry := some e, position := p, completed := 0, units := 0, phase := .idle, cutMark := false,
          reported := false } := by
      unfold State.grantChannel
      rw [hb]
      cases hhead : (s.bind e).head with
      | none => exact ⟨.nowhere, by simp, by simp only [hhead]; rfl⟩
      | some d => exact ⟨.arriving d, by simp, by simp only [hhead]; rfl⟩
    have hloose : Loose (s.dequeued c e) c :=
      ⟨hl.entries.dequeued (bestQueued_listed hb) c, hl.descs, hl.other, hl.noReport, hl.noRelease, hl.offPort, hl.active, hl.apart,
        hl.memory⟩
    rw [hgranted]
    exact hloose.goes ⟨rfl, by simp, rfl, by simp [Config.chainLimit]⟩ (by simp [show (s.dequeued c e).executing c = none from hnone]) rfl hp

/-- A free channel executes nothing and has reported nothing. -/
theorem Coherent.loose_free (hs : Coherent s) (hr : (s.channel c).running = false) : Loose s c ∧ s.executing c = none := by
  obtain ⟨-, -, -, hstill, hgoing, -⟩ := hs.channelLaw c
  have hnone : s.executing c = none := Option.eq_none_iff_forall_ne_some.mpr fun d hd => by
    have hrun := (hgoing (by rw [executing_iff.mp hd]; simp)).1
    simp [hr] at hrun
  refine ⟨hs.loose (Bool.eq_false_iff.mpr fun hx => ?_) (by simp [State.OffPort, hs.phase_idle hnone]), hnone⟩
  simpa [hr] using (hstill hx).1

theorem Coherent.grantChannel (hs : Coherent s) (hr : (s.channel c).running = false) : Coherent (s.grantChannel c) := by
  obtain ⟨hloose, hnone⟩ := hs.loose_free hr
  exact hloose.grantChannel (hs.channelLaw c) hnone

/-- A QUEUED entry on its way joins the delegation list (R134). -/
theorem EntryLaw.joins (hl : EntryLaw s) (he : e ∈ s.claims.inserts) : EntryLaw { s with
    du := { s.du with list := s.du.list ++ [e] }
    claims := { s.claims with inserts := s.claims.inserts.filter fun x => x != e } } := by
  refine entryLaw_iff.mpr fun f => (hl.lawAt f).congr rfl rfl ?_
  have hreinserted : ∀ k, State.reinserted { s with
    du := { s.du with list := s.du.list ++ [e] }
    claims := { s.claims with inserts := s.claims.inserts.filter fun x => x != e } } k = s.reinserted k := fun _ => rfl
  rw [waiting_count _ f 0, waiting_count s f 0, hreinserted, hreinserted, count_without, List.count_append, List.count_singleton]
  by_cases hf : f = e
  · have hle := inserts_count_le hl e
    have hpos := List.count_pos_iff.mpr he
    simp only [hf, beq_self_eq_true, if_true]
    omega
  · simp [hf, Ne.symm hf]

theorem exec_delegationInsert_coherent (hs : Coherent s) (e : Source) : Answers Coherent (exec (.delegationInsert e) s) := by
  change Answers Coherent (execDelegationInsert e s)
  unfold execDelegationInsert
  simp only
  split
  next hinserts =>
    obtain ⟨hmem, -⟩ : e ∈ s.claims.inserts ∧ s.carried e = false := by simpa using hinserts
    have hjoined : Coherent { s with
        du := { s.du with list := s.du.list ++ [e] }
        claims := { s.claims with inserts := s.claims.inserts.filter fun x => x != e } } := ⟨hs.entries.joins hmem, hs.transfers⟩
    split_ifs with hother hlast
    · exact answers_next (hjoined.grantChannel (by simpa using hother))
    · exact answers_next (hjoined.grantChannel (by simpa using hlast))
    · exact answers_next hjoined
  next => exact answers_next hs

/-! ### The release of a channel -/

/-- Channel c at rest after its release, with an entry that waited for it in the delegation list (R121, R137). -/
def State.released (s : State) (c : ChannelId) (again : Bool) : State :=
  { s.setChannel c resetChannel with
    du := { (s.setChannel c resetChannel).du with
      list := if again then s.du.list ++ (s.channel c).entry.toList else s.du.list }
    claims := { s.claims with
      releases := put s.claims.releases c none
      cuts := s.claims.cuts.map fun (x : CutClaim) => if some x.source = (s.channel c).entry then { x with stale := true } else x } }

theorem exec_channelRelease_some {again : Bool} (hr : look s.claims.releases c = some again) :
    exec (.channelRelease c) s = .next ((s.released c again).grantChannel c) := by
  change execChannelRelease c s = _
  unfold execChannelRelease
  rw [hr]
  rfl

theorem released_channel (s : State) (c k : ChannelId) (again : Bool) :
    (s.released c again).channel k = if k = c then resetChannel else s.channel k := State.setChannel_channel s c resetChannel k

theorem released_release (s : State) (c k : ChannelId) (again : Bool) :
    look (s.released c again).claims.releases k = if k = c then none else look s.claims.releases k := look_put ..

/-- The entry that the release inserts moves into the list. -/
theorem released_waiting_count {again : Bool} (hr : look s.claims.releases c = some again) (f : Source) :
    (s.released c again).waitingForChannel.count f = s.waitingForChannel.count f := by
  have hself : (s.released c again).reinserted c = [] := reinserted_of_release (by rw [released_release, if_pos rfl])
  have hother : (s.released c again).reinserted (c + 1) = s.reinserted (c + 1) := by
    unfold State.reinserted
    rw [released_release, released_channel, if_neg (channel_ne_other c), if_neg (channel_ne_other c)]
  have hbefore : s.reinserted c = if again then (s.channel c).entry.toList else [] := by
    unfold State.reinserted
    rw [hr]
    cases again <;> simp
  have hlist : (s.released c again).du.list = s.du.list ++ s.reinserted c := by
    rw [hbefore]
    cases again
    · exact (List.append_nil _).symm
    · rfl
  have hinserts : (s.released c again).claims.inserts = s.claims.inserts := rfl
  rw [waiting_count _ f c, waiting_count s f c, hself, hother, hlist, hinserts, List.count_append, List.count_nil]
  omega

/-- A channel with a release handed on has reported and stands nowhere (R137, log 37). -/
theorem Coherent.released (hs : Coherent s) {again : Bool} (hr : look s.claims.releases c = some again) :
    Loose (s.released c again) c ∧ ChannelLaw (s.released c again) c ∧ (s.released c again).executing c = none := by
  obtain ⟨hdescs, hchannels, hactive, hmemory⟩ := hs.transfers
  obtain ⟨hcover, -⟩ := (activeLaw_iff s c).mp hactive
  obtain ⟨-, hreported, honce, hstill, -⟩ := hchannels c
  obtain ⟨-, hnowhere⟩ := hstill (hreported.mpr (.inr (by simp [hr])))
  have hbefore : s.executing c = none := by rw [State.executing, hnowhere]
  have hidle := hs.phase_idle hbefore
  have hself : (s.released c again).channel c = resetChannel := (released_channel ..).trans (if_pos rfl)
  have hother : (s.released c again).channel (c + 1) = s.channel (c + 1) := (released_channel ..).trans (if_neg (channel_ne_other c))
  have hnone : (s.released c again).executing c = none := by
    rw [State.executing, hself]
    rfl
  have hexec : ∀ k, (s.released c again).executing k = s.executing k := fun k => by
    rcases channel_eq_or c k with rfl | rfl
    · rw [hnone, hbefore]
    · exact executing_congr (by rw [hother])
  have hphase : ∀ k, ((s.released c again).channel k).phase = (s.channel k).phase := fun k => by
    rcases channel_eq_or c k with rfl | rfl
    · rw [hself, hidle]
      rfl
    · rw [hother]
  have hreport : look (s.released c again).claims.reports c = none := honce.resolve_right (by simp [hr])
  have hrelease : look (s.released c again).claims.releases c = none := (released_release ..).trans (if_pos rfl)
  refine ⟨⟨entryLaw_iff.mpr fun f => (hs.entries.lawAt f).congr rfl rfl (released_waiting_count hr f), hdescs,
      (hchannels (c + 1)).congr hother rfl (by rw [released_release, if_neg (channel_ne_other c)]) fun _ _ => rfl, hreport, hrelease,
      by rw [State.OffPort, hphase, hidle]; simp, ?_, by simp [hnone],
      hmemory.congr rfl (fun k => by rw [hphase]) (fun k => by rw [hphase]) fun k _ => ⟨hexec k, fun _ _ => rfl⟩⟩, ?_, hnone⟩
  · rw [hexec, hexec]
    exact hcover
  · simp [ChannelLaw, hself, hreport, hrelease, hnone, resetChannel]

theorem exec_channelRelease_coherent (hs : Coherent s) (c : ChannelId) : Answers Coherent (exec (.channelRelease c) s) := by
  cases hr : look s.claims.releases c with
  | none =>
    have hstays : exec (.channelRelease c) s = .next s := by
      change execChannelRelease c s = _
      rw [execChannelRelease, hr]
    rw [hstays]
    exact answers_next hs
  | some again =>
    obtain ⟨hloose, hfree, hnone⟩ := hs.released hr
    rw [exec_channelRelease_some hr]
    exact answers_next (hloose.grantChannel hfree hnone)

/-! ### Run results -/

/-- The run result of a channel is taken and its release handed on: its record stays as it is (R137). -/
theorem DelegationLaw.handsOn (hl : DelegationLaw s) {again : Bool} (hr : look s.claims.reports c ≠ none) (hdu : t.du = s.du)
    (hmp : t.mp = s.mp) (hreports : t.claims.reports = put s.claims.reports c none)
    (hreleases : t.claims.releases = put s.claims.releases c (some again)) : DelegationLaw t := by
  obtain ⟨hdescs, hchannels, hactive, hmemory⟩ := hl
  have hchannel : ∀ k, t.channel k = s.channel k := fun k => by rw [State.channel, hdu]; rfl
  have hdesc : ∀ f, t.desc f = s.desc f := fun f => by rw [State.desc, hdu]; rfl
  have hexec : ∀ k, t.executing k = s.executing k := fun k => executing_congr (by rw [hchannel])
  refine ⟨fun f => by rw [hdesc]; exact hdescs f, fun k => ?_, ?_,
    hmemory.congr hmp (fun k => by rw [hchannel]) (fun k => by rw [hchannel]) fun k _ => ⟨hexec k, fun f _ => hdesc f⟩⟩
  · rcases channel_eq_or c k with rfl | rfl
    · obtain ⟨hcarries, hreported, -, hrest⟩ := hchannels k
      have hreport : look t.claims.reports k = none := by rw [hreports, look_put_self]
      have hrelease : look t.claims.releases k = some again := by rw [hreleases, look_put_self]
      have hmark := hreported.mpr (.inl hr)
      refine ⟨by rw [hchannel]; exact hcarries, by simp [hchannel, hmark, hrelease], .inl hreport, ?_⟩
      simpa only [hchannel, hexec, hdesc] using hrest
    · refine (hchannels (c + 1)).congr (hchannel _) ?_ ?_ fun f _ => hdesc f
      · rw [hreports, look_put_ne _ _ (channel_ne_other c)]
      · rw [hreleases, look_put_ne _ _ (channel_ne_other c)]
  · rw [activeLaw_iff t c, hexec, hexec]
    simpa only [hdesc] using (activeLaw_iff s c).mp hactive

/-- The insertion of the entry that the channel carries waits for the channel's release (R137). -/
theorem releasing_waiting_count (hl : EntryLaw s) (he : (s.channel c).entry = some e) (hr : look s.claims.releases c = none)
    (f : Source) : (s.releasing c e).waitingForChannel.count f = s.waitingForChannel.count f := by
  have hbefore := reinserted_of_release hr
  have hother : (s.releasing c e).reinserted (c + 1) = s.reinserted (c + 1) := by
    have hrelease : look (s.releasing c e).claims.releases (c + 1) = look s.claims.releases (c + 1) :=
      look_put_ne _ _ (channel_ne_other c)
    unfold State.reinserted
    rw [hrelease]
    rfl
  have hrelease : look (s.releasing c e).claims.releases c = some (s.claims.inserts.contains e) := look_put_self ..
  have hcarries : ((s.releasing c e).channel c).entry = some e := he
  have hafter : ((s.releasing c e).reinserted c).count f = if f = e then s.claims.inserts.count e else 0 := by
    have hle := inserts_count_le hl e
    unfold State.reinserted
    rw [hrelease, hcarries]
    by_cases hmem : e ∈ s.claims.inserts
    · have hpos := List.count_pos_iff.mpr hmem
      have hone : s.claims.inserts.count e = 1 := by omega
      by_cases hf : f = e
      · simp [hmem, hone, hf]
      · simp [hmem, hf, Ne.symm hf]
    · simp [hmem, List.count_eq_zero_of_not_mem hmem]
  have hinserts : (s.releasing c e).claims.inserts.count f = _ := count_without s.claims.inserts e f
  have hlist : (s.releasing c e).du.list = s.du.list := rfl
  rw [waiting_count _ f c, waiting_count s f c, hbefore, hother, hafter, hinserts, hlist, List.count_nil]
  by_cases hf : f = e
  · rw [if_pos hf, if_pos hf, hf]
    omega
  · rw [if_neg hf, if_neg hf]

/-- A run result that the Event Table takes leaves the entry as `apply` leaves it (R130, R131, R137). -/
theorem Coherent.takeResult (hs : Coherent s) (hr : look s.claims.reports c ≠ none) {apply : State → Source → State}
    (happly : ∀ e, (s.prog e).state = .running →
      EntryLaw (apply (s.unreported c) e) ∧ (apply (s.unreported c) e).transfers = (s.unreported c).transfers) :
    Coherent (s.takeResult c apply) := by
  obtain ⟨hcarries, hreported, honce, hstill, -⟩ := hs.channelLaw c
  obtain ⟨hrun, -⟩ := hstill (hreported.mpr (.inl hr))
  obtain ⟨e, he⟩ := Option.ne_none_iff_exists'.mp (hcarries.mp hrun)
  have hrelease : look s.claims.releases c = none := honce.resolve_left hr
  rw [takeResult_carried he]
  obtain ⟨u, hu, hentries, htransfers⟩ : ∃ u, (if (s.prog e).state = .running then (apply (s.unreported c) e).answerDisarms e
      else s.unreported c) = u ∧ EntryLaw u ∧ u.transfers = (s.unreported c).transfers := by
    refine ⟨_, rfl, ?_⟩
    split
    next hstate =>
      obtain ⟨hentries, htransfers⟩ := happly e hstate
      exact ⟨hentries.of_same rfl rfl, htransfers⟩
    next => exact ⟨hs.entries.of_same rfl rfl, rfl⟩
  obtain ⟨hdu, hmp, hreports, hreleases⟩ := Transfers.fields htransfers
  have hcarried : (u.channel c).entry = some e := by rw [State.channel, hdu]; exact he
  have hnone : look u.claims.releases c = none := by rw [hreleases]; exact hrelease
  rw [hu]
  refine ⟨entryLaw_iff.mpr fun f => (hentries.lawAt f).congr rfl rfl (releasing_waiting_count hentries hcarried hnone f), ?_⟩
  exact hs.transfers.handsOn hr hdu hmp hreports (congrArg (fun x => put x c _) hreleases)

theorem exec_runSuccess_coherent (hs : Coherent s) (c : ChannelId) : Answers Coherent (exec (.runSuccess c) s) := by
  have hl : EntryLaw (s.unreported c) := hs.entries.of_same rfl rfl
  change Answers Coherent (execRunSuccess c s)
  unfold execRunSuccess
  split
  next hr => exact answers_next (hs.takeResult (by simp [hr]) fun e he => ⟨hl.succeedAt he, succeedAt_transfers ..⟩)
  next => exact answers_next hs

theorem exec_runFailure_coherent (hs : Coherent s) (c : ChannelId) : Answers Coherent (exec (.runFailure c) s) := by
  have hl : EntryLaw (s.unreported c) := hs.entries.of_same rfl rfl
  change Answers Coherent (execRunFailure c s)
  unfold execRunFailure
  split
  next hr =>
    obtain ⟨hfailure, -⟩ : look s.claims.reports c = some .failure ∧ _ := by simpa using hr
    exact answers_next (hs.takeResult (by simp [hfailure]) fun e he => ⟨hl.endRunAt he .failed, endRunAt_transfers ..⟩)
  next => exact answers_next hs

theorem exec_runCut_coherent (hs : Coherent s) (c : ChannelId) : Answers Coherent (exec (.runCut c) s) := by
  have hl : EntryLaw (s.unreported c) := hs.entries.of_same rfl rfl
  change Answers Coherent (execRunCut c s)
  unfold execRunCut
  split
  next hr => exact answers_next (hs.takeResult (by simp [hr]) fun e he => ⟨hl.endRunAt he .cut, endRunAt_transfers ..⟩)
  next => exact answers_next hs

/-! ### DISARM and WRITE_DESC -/

/-- A DISARM takes an insertion off a release, and leaves the release where it is (R119). -/
theorem DelegationLaw.disarmed (hl : DelegationLaw s) (e : Source) : DelegationLaw (s.disarmed e) := by
  obtain ⟨hdescs, hchannels, hactive, hmemory⟩ := hl
  refine ⟨hdescs, fun k => (hchannels k).congr rfl rfl ?_ fun _ _ => rfl, hactive, hmemory⟩
  have hrelease : look (s.disarmed e).claims.releases k =
      if (s.channel k).entry = some e then (look s.claims.releases k).map fun _ => false else look s.claims.releases k := look_ofFn _ k
  rw [hrelease]
  split <;> simp

/-- A QUEUED entry is DISARMED, and enters DELIVERING (R119). -/
theorem Coherent.disarm (hs : Coherent s) (hq : (s.prog e).state = .queued) (o : Outcome) :
    Coherent ((s.disarmed e).enterDelivering e o) :=
  ⟨(hs.entries.poised_disarmed hq).enterDelivering o, (hs.transfers.disarmed e).of_transfers (enterDelivering_transfers ..)⟩

/-- A descriptor that is not active is written by another that is not (R123). -/
theorem DelegationLaw.setDesc (hl : DelegationLaw s) (hd : (s.desc d).active = false) (hx : DescriptorLaw x) (ha : x.active = false) :
    DelegationLaw (s.setDesc d x) := by
  obtain ⟨hdescs, hchannels, hactive, hmemory⟩ := hl
  have hother : ∀ k, ∀ f ∈ s.executing k, (s.setDesc d x).desc f = s.desc f := fun k f hf => by
    obtain ⟨-, -, -, -, -, -, hunit⟩ := hchannels k
    have hne : f ≠ d := fun h => by simpa [h, hd] using (hunit f hf).1
    rw [State.setDesc_desc, if_neg hne]
  refine ⟨fun f => ?_, fun k => (hchannels k).congr rfl rfl Iff.rfl (hother k), ⟨fun f hf => ?_, hactive.2⟩,
    hmemory.congr rfl (fun _ => Iff.rfl) (fun _ => Iff.rfl) fun k _ => ⟨rfl, hother k⟩⟩
  · rw [State.setDesc_desc]
    split
    · exact hx
    · exact hdescs f
  · rw [State.setDesc_desc] at hf
    split at hf
    · simp [ha] at hf
    · exact hactive.1 f hf

end

end Sys2Proof.Machine
end

section
/-! O54 and O56: the laws of the Event Table and of delegated transfers after every step. -/

open Sys2Proof Sys2Proof.Machine

namespace Sys2Proof.Machine

/-! ### Beside the Event Table and the transfers -/

/-- The state t is s but for what the laws of the Event Table and of delegated transfers do not speak of. -/
structure Aside (s t : State) : Prop where
  et : t.et = s.et
  inserts : t.claims.inserts = s.claims.inserts
  transfers : t.transfers = s.transfers

section
variable {s t u : State} {h : HostId}

theorem Aside.trans (hst : Aside s t) (htu : Aside t u) : Aside s u :=
  ⟨htu.et.trans hst.et, htu.inserts.trans hst.inserts, htu.transfers.trans hst.transfers⟩

theorem Coherent.aside (hs : Coherent s) (ha : Aside s t) : Coherent t := hs.of_engine ha.et ha.inserts ha.transfers

theorem setPort_aside (s : State) (h : HostId) (p : Port) : Aside s (s.setPort h p) := ⟨rfl, rfl, rfl⟩
theorem setCtx_aside (s : State) (h : HostId) (c : HostContext) : Aside s (s.setCtx h c) := ⟨rfl, rfl, rfl⟩
theorem setView_aside (s : State) (h : HostId) (l : List StackRecord) : Aside s (s.setView h l) := ⟨rfl, rfl, rfl⟩
theorem hand_aside (s : State) (h : HostId) (l : List Handed) : Aside s (s.hand h l) := ⟨rfl, rfl, rfl⟩
theorem setTake_aside (s : State) (h : HostId) (x : Option TakeClaim) : Aside s (s.setTake h x) := ⟨rfl, rfl, rfl⟩
theorem setLapse_aside (s : State) (h : HostId) (x : LapseClaim) : Aside s (s.setLapse h x) := ⟨rfl, rfl, rfl⟩
theorem setUndo_aside (s : State) (h : HostId) (x : Option Source) : Aside s (s.setUndo h x) := ⟨rfl, rfl, rfl⟩
theorem handNotice_aside (s : State) (o : Origin) (m : Notice) : Aside s (s.handNotice o m) := ⟨rfl, rfl, rfl⟩

theorem withdrawOffer_aside (s : State) (h : HostId) : Aside s (s.withdrawOffer h) := by
  unfold State.withdrawOffer
  split <;> exact ⟨rfl, rfl, rfl⟩

theorem giveBack_aside (s : State) (h : HostId) : Aside s (s.giveBack h) :=
  (setCtx_aside ..).trans <| (setView_aside ..).trans <| (withdrawOffer_aside ..).trans <| (hand_aside ..).trans <|
    (setTake_aside ..).trans <| (setLapse_aside ..).trans <| setUndo_aside ..

theorem answerTake_aside (s : State) (h : HostId) (r : ResultCode) : Aside s (s.answerTake h r) := by
  unfold State.answerTake
  split <;> exact ⟨rfl, rfl, rfl⟩

theorem matchTake_aside (s : State) (h : HostId) (e : Source) : Aside s (s.matchTake h e) := by
  unfold State.matchTake
  split
  · exact ⟨rfl, rfl, rfl⟩
  · simp only
    split_ifs <;> exact ⟨rfl, rfl, rfl⟩

theorem endService_aside (s : State) (h : HostId) (code : Operand) (e : Source) (x : Handed) : Aside s (s.endService h code e x) := by
  unfold State.endService
  split <;> exact ⟨rfl, rfl, rfl⟩

theorem becomeLapsed_aside (s : State) (h : HostId) : Aside s (s.becomeLapsed h) :=
  (setCtx_aside ..).trans <| (handNotice_aside ..).trans <| (withdrawOffer_aside ..).trans <| hand_aside ..

theorem countLapse_aside (s : State) (h : HostId) : Aside s (s.countLapse h) := by
  unfold State.countLapse
  simp only
  split_ifs
  · exact (setCtx_aside ..).trans (becomeLapsed_aside ..)
  · exact setCtx_aside ..
  · exact ⟨rfl, rfl, rfl⟩

theorem takeHanded_aside {p : Handed → Bool} {x : Handed} (ht : s.takeHanded h p = some (x, t)) : Aside s t := by
  obtain ⟨rest, -, rfl⟩ := takeHanded_some.mp ht
  exact ⟨rfl, rfl, rfl⟩

theorem takeAppend_aside (s : State) (m : Notice) : Aside s (s.takeAppend m) := by
  unfold State.takeAppend
  split <;> exact ⟨rfl, rfl, rfl⟩

end

/-! ### Operations on entries and on offers -/

section
variable {s t : State} {h : HostId} {e : Source} {p : Handed → Bool} {y : Handed}

theorem Coherent.choose (hs : Coherent s) (h : HostId) : Coherent (s.choose h) :=
  ⟨hs.entries.choose h, hs.transfers.of_transfers (choose_transfers s h)⟩

theorem Coherent.answer (hs : Coherent s) (h : HostId) (code : Operand) (r : ResultCode) : Coherent (s.answer h code r) :=
  hs.aside (setPort_aside ..)

/-- What the Event Table does at an entry, which the transfers do not see. -/
theorem Coherent.entriesTo (hs : Coherent s) (hentries : EntryLaw t) (htransfers : t.transfers = s.transfers) : Coherent t :=
  ⟨hentries, hs.transfers.of_transfers htransfers⟩

theorem Coherent.judgeLine (hs : Coherent s) (e : Source) (high : Bool) : Coherent (s.judgeLine e high) :=
  hs.entriesTo (hs.entries.judgeLine e high) (judgeLine_transfers ..)

theorem Coherent.attachNow (hs : Coherent s) (h : HostId) : Coherent (s.attachNow h) := (hs.aside (setCtx_aside ..)).choose h

theorem Coherent.resumeAttach (hs : Coherent s) (h : HostId) : Coherent (s.resumeAttach h) := by
  unfold State.resumeAttach
  split
  · exact ((hs.aside (setPort_aside ..)).attachNow h).answer h 1 .ok
  · exact hs

theorem Coherent.writeThreshold (hs : Coherent s) (h : HostId) (v : Level) : Coherent (s.writeThreshold h v) := by
  have hset : Coherent (s.setCtx h { s.ctx h with threshold := v }) := hs.aside (setCtx_aside ..)
  have hwithdrawn : ∀ b : Bool, Coherent (if b then (s.setCtx h { s.ctx h with threshold := v }).withdrawOffer h
      else s.setCtx h { s.ctx h with threshold := v }) := fun b => by
    split
    · exact hset.aside (withdrawOffer_aside ..)
    · exact hset
  have hjudged : ∀ b moved : Bool, Coherent
      (if b || moved then (if b then (s.setCtx h { s.ctx h with threshold := v }).withdrawOffer h
        else s.setCtx h { s.ctx h with threshold := v }).choose h
      else if b then (s.setCtx h { s.ctx h with threshold := v }).withdrawOffer h
        else s.setCtx h { s.ctx h with threshold := v }) := fun b moved => by
    cases b || moved with
    | true => exact (hwithdrawn b).choose h
    | false => exact hwithdrawn b
  exact hjudged _ _

/-- The Event Table takes h's report of entry e, and the Offer Unit the change of h's stack (R87). -/
theorem Coherent.tellStack (hs : Coherent s) {x : State × Bool} (hentries : EntryLaw x.1) (htransfers : x.1.transfers = s.transfers) :
    Coherent (tellStack h e x) := by
  have htold : EntryLaw (x.1.tellRemoval h e) := hentries.of_same rfl rfl
  refine (hs.entriesTo (htold.tell (x := (x.1.tellRemoval h e, x.2)) e) ?_).choose h
  rw [tell_transfers]
  exact htransfers

theorem Coherent.takeHanded (hs : Coherent s) (ht : s.takeHanded h p = some (y, t)) : Coherent t := hs.aside (takeHanded_aside ht)

end

/-- A source that a POST may name has a kind without a level (R1, R29). -/
theorem EntryLaw.posted_isLevel {s : State} {e : Source} (hl : EntryLaw s) (he : ¬(e.val < 48 ∨ 62 < e.val)) :
    (s.cfg e).kind.isLevel = false := by
  obtain ⟨hallowed, -⟩ := (hl.lawAt e).config
  have hkind : (s.cfg e).kind = .posted := by simpa [kindAllowed, show ¬e.val < 48 by omega, show e.val < 63 by omega] using hallowed
  rw [hkind]
  rfl

/-! ### The requests -/

section
variable {s : State} {h : HostId} (hs : Coherent s)
include hs

theorem Coherent.request {code : Operand} {right : Right} {ns : Bool} {body : State → State}
    (hbody : Coherent (s.taken h) → Coherent (body (s.taken h))) : Answers Coherent (Machine.request h code right ns body s) :=
  request_answers (fun _ => hs.aside (setPort_aside ..)) hs (hbody (hs.aside (setPort_aside ..)))

/-- A request whose body does nothing that the laws speak of. -/
theorem Coherent.request_aside {code : Operand} {right : Right} {ns : Bool} {body : State → State}
    (hbody : Aside (s.taken h) (body (s.taken h))) : Answers Coherent (Machine.request h code right ns body s) :=
  hs.request fun ht => ht.aside hbody

theorem Coherent.withIndex {n : Nat} {code x : Operand} {body : Fin n → State → State} (hbody : ∀ i, Coherent (body i s)) :
    Coherent (Machine.withIndex n h code x body s) :=
  withIndex_cases (P := Coherent) (hs.answer h code .range) hbody

end

theorem Lawful.coherent {s : State} (hl : Lawful s) : Coherent s := by
  obtain ⟨-, hentries, -, htransfers, -⟩ := hl
  exact ⟨hentries, htransfers⟩

/-- No request breaks these laws. -/
theorem exec_request_coherent {c : Instr} {s : State} {h : HostId} (hc : c.port = some h) (hl : Lawful s) :
    Answers Coherent (exec c s) := by
  have hs := hl.coherent
  cases c with
  | attach k =>
    refine hs.request fun ht => ?_
    unfold attachBody
    split_ifs
    · exact ht.answer k 1 .ok
    · exact ht.aside (setPort_aside ..)
    · exact (ht.attachNow k).answer k 1 .ok
  | detach k =>
    refine hs.request fun ht => ?_
    unfold detachBody
    split
    · exact ht.answer k 2 .ok
    · exact (ht.aside (giveBack_aside ..)).answer k 2 .ok
  | setThreshold k v => exact hs.request fun ht => ht.withIndex fun v => (ht.writeThreshold k v).answer k 3 .ok
  | take k x => exact hs.request fun ht => ht.withIndex fun e => ht.aside (matchTake_aside ..)
  | finish k x => exact hs.request fun ht => ht.withIndex fun e => ht.aside (endService_aside ..)
  | release k x => exact hs.request fun ht => ht.withIndex fun e => ht.aside (endService_aside ..)
  | post k x =>
    refine hs.request fun ht => ht.withIndex fun e => ?_
    split_ifs with hclass
    · exact ht.answer k 7 .range
    · exact ht.answer k 7 .state
    · exact Coherent.answer (ht.entriesTo (ht.entries.arrive (ht.entries.posted_isLevel hclass)) (arrive_transfers ..)) k 7 .ok
  | readEntry k x => exact hs.request fun ht => ht.withIndex fun e => ht.aside (setPort_aside ..)
  | readDesc k x => exact hs.request fun ht => ht.withIndex fun e => ht.aside (setPort_aside ..)
  | readWindow k x y => exact hs.request fun ht => ht.withIndex fun i => ht.withIndex fun j => ht.aside (setPort_aside ..)
  | readHost k x => exact hs.request fun ht => ht.withIndex fun i => ht.aside (setPort_aside ..)
  | popNotice k =>
    refine hs.request_aside ?_
    unfold popNoticeBody
    split
    · exact setPort_aside ..
    · simp only
      split <;> exact ⟨rfl, rfl, rfl⟩
  | readNoticeStatus k => exact hs.request_aside ⟨rfl, rfl, rfl⟩
  | writeEntry k x =>
    refine hs.request fun ht => ht.withIndex fun e => ?_
    split
    · exact ht.answer k 14 .range
    next c hc =>
      split
      next hi =>
        exact Coherent.answer (ht.entriesTo (ht.entries.writeConfig hi (configLaw_of_staged hc).1) (writeConfig_transfers ..)) k 14 .ok
      next => exact ht.answer k 14 .busy
  | enable k x v =>
    change Answers Coherent (execEnable k x v s)
    unfold execEnable
    split
    · exact answers_refused _
    · refine hs.request fun ht => ht.withIndex fun e => ?_
      split
      · exact Coherent.answer (ht.entriesTo (ht.entries.enableEntry e) (enableEntry_transfers ..)) k 15 .ok
      · exact ht.answer k 15 .range
  | disable k x =>
    exact hs.request fun ht => ht.withIndex fun e => Coherent.answer (ht.entriesTo (ht.entries.enabledAs e false) rfl) k 15 .ok
  | clearEntry k x =>
    refine hs.request fun ht => ht.withIndex fun e => ?_
    have hclears : (s.prog e).state ≠ .queued → (s.prog e).state ≠ .idle → (s.prog e).state ≠ .running →
        Coherent (((s.taken k).clearNow e).answer k 16 .ok) := fun hq hi hr => by
      obtain ⟨_, hcopies, hclaims, hsettled, hn⟩ := hl.clearable hr
      have hclearable : Clearable (s.taken k) e := ⟨ht.entries, hcopies, hclaims, hsettled, hn⟩
      exact Coherent.answer (ht.entriesTo (hclearable.entryLaw_clearNow hq hi) (clearNow_transfers ..)) k 16 .ok
    split
    next => exact ht.answer k 16 .ok
    next hstate => apply hclears <;> simp [show (s.prog e).state = .latched from hstate]
    next hstate => apply hclears <;> simp [show (s.prog e).state = .parked from hstate]
    next hstate =>
      split
      · apply hclears <;> simp [show (s.prog e).state = .delivering from hstate]
      · exact ht.answer k 16 .busy
    next => exact ht.answer k 16 .busy
    next => exact ht.answer k 16 .busy
  | retry k x =>
    refine hs.request fun ht => ht.withIndex fun e => ?_
    split
    next hp => exact Coherent.answer (ht.entriesTo ((ht.entries.reopened hp).offerNews e) (offerNews_transfers ..)) k 17 .ok
    next => exact ht.answer k 17 .state
  | writeBinding k x =>
    refine hs.request fun ht => ht.withIndex fun e => ?_
    split
    next => exact ht.answer k 18 .range
    next he =>
      split
      next => exact ht.answer k 18 .range
      next b hb =>
        split
        next => exact ht.answer k 18 .busy
        next hfree => exact Coherent.answer (ht.entriesTo (ht.entries.bindStaged he (by simpa using hfree) hb) rfl) k 18 .ok
  | arm k x =>
    refine hs.request fun ht => ht.withIndex fun e => ?_
    split_ifs with he _ hbad
    · exact ht.answer k 19 .range
    · exact ht.answer k 19 .ok
    · exact ht.answer k 19 .range
    · have hruns : ((s.taken k).bind e).runsLeft ≠ 0 := fun hx => hbad (by rw [hx]; rfl)
      have hhead : ((s.taken k).bind e).head ≠ none := fun hx => hbad (by rw [hx]; exact Bool.or_true _)
      exact Coherent.answer (ht.entriesTo (ht.entries.arm he hruns hhead) rfl) k 19 .ok
  | disarm k x =>
    refine hs.request fun ht => ht.withIndex fun e => ?_
    split
    next hr => exact ht.entriesTo (ht.entries.askCut hr k) (askCut_transfers ..)
    next hq => exact Coherent.answer (ht.disarm hq .plain) k 20 .ok
    next hr hq => exact Coherent.answer (ht.entriesTo (ht.entries.disarm hq hr) rfl) k 20 .ok
  | writeDesc k x =>
    refine hs.request fun ht => ht.withIndex fun d => ?_
    split
    next => exact ht.answer k 21 .range
    next y hy =>
      split
      next => exact ht.answer k 21 .busy
      next hfree =>
        obtain ⟨-, -, hinactive, -, hlaw, -⟩ := holdsDescriptor_of_staged hy
        have hwritten : Coherent ((s.taken k).setDesc d y) :=
          ⟨ht.entries.of_same rfl rfl, ht.transfers.setDesc (by simpa using hfree) hlaw hinactive⟩
        exact hwritten.answer k 21 .ok
  | writeWindow k x y =>
    refine hs.request fun ht => ht.withIndex fun i => ht.withIndex fun j => ?_
    split <;> exact ht.aside ⟨rfl, rfl, rfl⟩
  | setHostLimits k x y z =>
    refine hs.request fun ht => ht.withIndex fun i => ht.withIndex fun limit => ?_
    split <;> exact ht.aside ⟨rfl, rfl, rfl⟩
  | setRights k x v =>
    refine hs.request fun ht => ht.withIndex fun i => ?_
    split <;> exact ht.aside ⟨rfl, rfl, rfl⟩
  | handOver k x =>
    refine hs.request fun ht => ht.withIndex fun i => ?_
    split_ifs <;> exact ht.aside ⟨rfl, rfl, rfl⟩
  | evict k x =>
    refine hs.request fun ht => ht.withIndex fun i => ?_
    have hback : Coherent (((s.taken k).evictNoted i).giveBack i) := ht.aside ((handNotice_aside ..).trans (giveBack_aside ..))
    split
    · simp only
      split
      · exact (hback.aside (answerTake_aside ..)).answer k 26 .ok
      · exact hback.answer k 26 .ok
    · exact ht.answer k 26 .state
  | _ => cases hc

/-! ### The claims between hosts and entries -/

section
variable {s : State} (hs : Coherent s) (h : HostId)
include hs

theorem exec_offerExpiry_coherent : Answers Coherent (exec (.offerExpiry h) s) := by
  change Answers Coherent (execOfferExpiry h s)
  unfold execOfferExpiry
  split
  next o due _ _ =>
    have hexpired : Coherent (s.expired h due) := hs.aside ⟨rfl, rfl, rfl⟩
    simp only
    split_ifs with hoffered hpol
    · have hd : ((s.expired h due).prog o.source).state = .delivering := of_decide_eq_true (Bool.and_eq_true_iff.mp hoffered).1
      have hdeclined := (hexpired.entries.declinePart hd hpol h).tell o.source
      exact answers_next (hexpired.entriesTo hdeclined ((tell_transfers ..).trans (declinePart_eventOf ..).transfers))
    · have hd : ((s.expired h due).prog o.source).state = .delivering := of_decide_eq_true (Bool.and_eq_true_iff.mp hoffered).1
      exact answers_next (hexpired.entriesTo ((hexpired.entries.leaveOffered hd h).offerNews o.source) (offerNews_transfers ..))
    · exact answers_next hexpired
  next => exact answers_next hs

theorem exec_lapseReport_coherent : Answers Coherent (exec (.lapseReport h) s) := by
  change Answers Coherent (execLapseReport h s)
  unfold execLapseReport
  simp only
  split
  · exact answers_next (hs.aside ((countLapse_aside ..).trans (setLapse_aside ..)))
  · exact answers_next (hs.aside (setLapse_aside ..))
  · exact answers_next hs

theorem exec_lapseAnswer_coherent : Answers Coherent (exec (.lapseAnswer h) s) := by
  have hnone : Coherent (s.setLapse h .none) := hs.aside (setLapse_aside ..)
  change Answers Coherent (execLapseAnswer h s)
  unfold execLapseAnswer
  split
  · exact answers_next (hnone.choose h)
  · exact answers_next hnone
  · exact answers_next hs

theorem exec_takePush_coherent : Answers Coherent (exec (.takePush h) s) := by
  change Answers Coherent (execTakePush h s)
  unfold execTakePush
  split
  · exact answers_next hs
  · simp only
    split
    · refine answers_next (Coherent.choose ?_ h)
      exact hs.aside ((setTake_aside ..).trans ((setCtx_aside ..).trans ((setView_aside ..).trans (hand_aside ..))))
    · refine answers_next (Coherent.choose ?_ h)
      exact hs.aside ((setTake_aside ..).trans (hand_aside ..))

theorem exec_takeHold_coherent : Answers Coherent (exec (.takeHold h) s) := by
  change Answers Coherent (execTakeHold h s)
  unfold execTakeHold
  split
  next e c t ht =>
    have htaken := hs.takeHanded ht
    simp only
    split_ifs with hcounts
    · obtain ⟨⟨-, hd⟩, -⟩ : (c = false ∧ (t.prog e).state = .delivering) ∧ _ := by simpa using hcounts
      exact answers_next (Coherent.aside (htaken.entriesTo (htaken.entries.held hd _ _) rfl) (answerTake_aside ..))
    · exact answers_next (htaken.aside (setUndo_aside ..))
    · exact answers_next (htaken.aside (answerTake_aside ..))
  next => exact answers_next hs

theorem exec_takeUndo_coherent : Answers Coherent (exec (.takeUndo h) s) := by
  change Answers Coherent (execTakeUndo h s)
  unfold execTakeUndo
  split
  · exact answers_next hs
  next e _ =>
    have hremoved : Coherent (((s.setUndo h none).setCtx h (dropRecord (s.ctx h) e)).tellRemoval h e) :=
      hs.aside ((setUndo_aside ..).trans ((setCtx_aside ..).trans (setView_aside ..)))
    exact answers_next ((hremoved.choose h).aside (answerTake_aside ..))

theorem exec_finishReport_coherent (e : Source) : Answers Coherent (exec (.finishReport h e) s) := by
  change Answers Coherent (execFinishReport h e s)
  unfold execFinishReport
  split
  next => exact answers_next hs
  next y t ht =>
    have htaken := hs.takeHanded ht
    exact answers_next (htaken.tellStack (htaken.entries.finishPart e h) (finishPart_eventOf t e h).transfers)

theorem exec_releaseReport_coherent (e : Source) : Answers Coherent (exec (.releaseReport h e) s) := by
  change Answers Coherent (execReleaseReport h e s)
  unfold execReleaseReport
  split
  next f lapsed t ht =>
    have htaken := hs.takeHanded ht
    exact answers_next (htaken.tellStack (htaken.entries.releasePart e h lapsed) (releasePart_eventOf t e h lapsed).transfers)
  next => exact answers_next hs

theorem exec_stackRelease_coherent : Answers Coherent (exec (.stackRelease h) s) := by
  change Answers Coherent (execStackRelease h s)
  unfold execStackRelease
  split
  next => exact answers_next hs
  next y t ht =>
    have htaken := hs.takeHanded ht
    refine answers_next (Coherent.resumeAttach (htaken.entriesTo ((htaken.entries.releasePart y.source h false).tell y.source) ?_) h)
    exact (tell_transfers ..).trans (releasePart_eventOf ..).transfers

theorem exec_owedDeparture_coherent : Answers Coherent (exec (.owedDeparture h) s) := by
  change Answers Coherent (execOwedDeparture h s)
  unfold execOwedDeparture
  split
  next => exact answers_next hs
  next y t ht =>
    have htaken := hs.takeHanded ht
    exact answers_next (Coherent.resumeAttach (htaken.entriesTo (htaken.entries.departAt y.source h) (departAt_transfers ..)) h)

theorem exec_withdrawalReport_coherent : Answers Coherent (exec (.withdrawalReport h) s) := by
  change Answers Coherent (execWithdrawalReport h s)
  unfold execWithdrawalReport
  split
  next => exact answers_next hs
  next y t ht =>
    have htaken := hs.takeHanded ht
    exact answers_next (htaken.entriesTo (htaken.entries.withdrawAt y.source h) (withdrawAt_transfers ..))

/-! ### The board and the notices -/

theorem exec_hostReset_coherent : Answers Coherent (exec (.hostReset h) s) := by
  have hback : Coherent (if (s.ctx h).session = .detached then s else s.giveBack h) := by
    split
    · exact hs
    · exact hs.aside (giveBack_aside ..)
  exact answers_next (hback.aside ⟨rfl, rfl, rfl⟩)

theorem exec_fullResetRelease_coherent (evt : BitVec 48) (clksel supsel : BitVec 2) :
    Answers Coherent (exec (.fullResetRelease evt clksel supsel) s) := by
  change Answers Coherent (execFullResetRelease evt clksel supsel s)
  unfold execFullResetRelease
  split
  · exact answers_next (hs.aside ⟨rfl, rfl, rfl⟩)
  · exact answers_next hs

theorem exec_unknownRequest_coherent (code : Operand) : Answers Coherent (exec (.unknownRequest h code) s) := by
  change Answers Coherent (execUnknownRequest h code s)
  unfold execUnknownRequest
  split
  · exact answers_refused _
  · exact hs.request_aside (setPort_aside ..)

theorem exec_lostRequest_coherent : Answers Coherent (exec (.lostRequest h) s) := by
  change Answers Coherent (execLostRequest h s)
  unfold execLostRequest
  split_ifs
  · exact answers_next hs
  · exact answers_next (hs.aside (setPort_aside ..))
  · exact answers_refused _

theorem exec_registerWrite_coherent (offset : Fin 16) (word : Word) : Answers Coherent (exec (.registerWrite h offset word) s) := by
  change Answers Coherent (execRegisterWrite h offset word s)
  unfold execRegisterWrite
  split_ifs
  · exact answers_refused _
  · exact answers_next hs
  · exact answers_next (hs.aside (setPort_aside ..))
  · exact answers_next hs

theorem exec_lineChange_coherent (line : LineId) (high : Bool) : Answers Coherent (exec (.lineChange line high) s) := by
  change Answers Coherent (execLineChange line high s)
  unfold execLineChange
  split
  · exact answers_next hs
  · refine answers_next (Coherent.judgeLine ?_ _ high)
    exact hs.aside ⟨rfl, rfl, rfl⟩

theorem exec_noticeAppend_coherent (o : Origin) : Answers Coherent (exec (.noticeAppend o) s) := by
  change Answers Coherent (execNoticeAppend o s)
  unfold execNoticeAppend
  split
  · exact answers_next hs
  next x _ =>
    have htaken : Coherent { s with claims := { s.claims with notices := s.claims.notices.erase x } } := hs.aside ⟨rfl, rfl, rfl⟩
    exact answers_next (htaken.aside (takeAppend_aside ..))

theorem exec_noticeLevelChange_coherent : Answers Coherent (exec .noticeLevelChange s) := by
  change Answers Coherent (execNoticeLevelChange s)
  unfold execNoticeLevelChange
  split
  · exact answers_next hs
  next rest _ =>
    have htaken : Coherent { s with claims := { s.claims with levels := rest } } := hs.aside ⟨rfl, rfl, rfl⟩
    simp only
    split
    · exact answers_next (htaken.entriesTo (htaken.entries.assertLevel 63) (assertLevel_transfers ..))
    · exact answers_next (htaken.entriesTo (htaken.entries.deassertLevel 63) (deassertLevel_transfers ..))

end

/-- No command breaks the laws of the Event Table and of delegated transfers. -/
theorem exec_coherent (c : Instr) {s : State} (hl : Lawful s) : Answers Coherent (exec c s) := by
  have hs := hl.coherent
  cases hport : c.port with
  | some k => exact exec_request_coherent hport hl
  | none =>
    cases c with
    | unknownRequest k code => exact exec_unknownRequest_coherent hs k code
    | lostRequest k => exact exec_lostRequest_coherent hs k
    | registerWrite k offset word => exact exec_registerWrite_coherent hs k offset word
    | lineChange line high => exact exec_lineChange_coherent hs line high
    | hostReset k => exact exec_hostReset_coherent hs k
    | hostResetRelease k => exact answers_next (hs.aside ⟨rfl, rfl, rfl⟩)
    | fullReset => exact answers_next ⟨reset_entryLaw, reset_delegationLaw⟩
    | fullResetRelease evt clksel supsel => exact exec_fullResetRelease_coherent hs evt clksel supsel
    | offerExpiry k => exact exec_offerExpiry_coherent hs k
    | lapseReport k => exact exec_lapseReport_coherent hs k
    | lapseAnswer k => exact exec_lapseAnswer_coherent hs k
    | takePush k => exact exec_takePush_coherent hs k
    | takeHold k => exact exec_takeHold_coherent hs k
    | takeUndo k => exact exec_takeUndo_coherent hs k
    | finishReport k e => exact exec_finishReport_coherent hs k e
    | releaseReport k e => exact exec_releaseReport_coherent hs k e
    | stackRelease k => exact exec_stackRelease_coherent hs k
    | owedDeparture k => exact exec_owedDeparture_coherent hs k
    | withdrawalReport k => exact exec_withdrawalReport_coherent hs k
    | delegationInsert e => exact exec_delegationInsert_coherent hs e
    | channelRelease c => exact exec_channelRelease_coherent hs c
    | descriptorArrival c => exact exec_descriptorArrival_coherent hs c
    | unitCheck c => exact exec_unitCheck_coherent hs c
    | memoryGrant => exact answers_next hs.nextGrant
    | memoryResponse tag error data => exact exec_memoryResponse_coherent hs tag error data
    | memoryTimeout => exact exec_memoryTimeout_coherent hs
    | writeRecord c => exact exec_writeRecord_coherent hs c
    | cutRequest e => exact exec_cutRequest_coherent hs e
    | runSuccess c => exact exec_runSuccess_coherent hs c
    | runFailure c => exact exec_runFailure_coherent hs c
    | runCut c => exact exec_runCut_coherent hs c
    | noticeAppend o => exact exec_noticeAppend_coherent hs o
    | noticeLevelChange => exact exec_noticeLevelChange_coherent hs
    | _ => cases hport

/-- A step is a command on the state without it, or a microsecond that these laws do not see. -/
theorem step_coherent {s t : State} (hl : Lawful s) (hstep : step s = .next t) : Coherent t := by
  unfold step at hstep
  split at hstep
  next =>
    cases hstep
    exact hl.coherent.aside ⟨rfl, rfl, rfl⟩
  next c rest _ =>
    have hrest : Lawful { s with pending := rest } := hl
    exact exec_coherent c hrest t hstep

end Sys2Proof.Machine

/-- Settles O54: an entry on its way between two states keeps the laws of both, and it waits for a channel in one place while it is
QUEUED. -/
theorem everyStepKeepsTheEntryLaw : Obligations.EveryStepKeepsTheEntryLaw := fun _ _ hl hstep => (step_coherent hl hstep).entries

/-- Settles O56: a claim works on one channel, whose record alone is loose meanwhile, and the other's unit keeps its access. -/
theorem everyStepKeepsTheDelegationLaw : Obligations.EveryStepKeepsTheDelegationLaw := fun _ _ hl hstep =>
  (step_coherent hl hstep).transfers
end

section
/-! The delegation list and the grants of the channels: the insertion of an entry and the release of a channel (R9, R125, R134, R136,
R137). -/

open Sys2Proof Sys2Proof.Machine

namespace Sys2Proof.Machine

/-! ### The best entry of the delegation list -/

section
variable {s : State} {c : ChannelId} {d : DescId} {e : Source}

/-- The best of the entries on the delegation list is the one that a channel takes (R136). -/
theorem bestQueued_eq (hbest : IsBestOf s s.du.list e) : s.bestQueued = some e := by
  obtain ⟨hlisted, horder, habove⟩ := hbest
  cases hb : s.bestQueued with
  | none =>
    have hunlisted := bestOf_none.mp hb e horder
    simp [hlisted] at hunlisted
  | some b =>
    obtain ⟨hbOrder, -, hbAbove⟩ := bestOf_some hb
    exact congrArg some (best_unique hbOrder (hbAbove e horder (by simpa using hlisted)) (habove b (bestQueued_listed hb) hbOrder))

/-- The channel's grant takes the best entry of the list to its binding's head (R125, R136). -/
theorem grantChannel_best (hbest : IsBestOf s s.du.list e) (hhead : (s.bind e).head = some d) (c : ChannelId) :
    s.grantChannel c = s.granted c e d s.du.list := by
  unfold State.grantChannel
  rw [bestQueued_eq hbest]
  simp only [hhead]
  rfl

/-- With the list empty the channel stays free. -/
theorem grantChannel_empty (hempty : s.du.list = []) (c : ChannelId) : s.grantChannel c = s := by
  have hnone : s.bestQueued = none := bestOf_none.mpr (by simp [hempty])
  rw [State.grantChannel, hnone]

/-! ### The insertion of an entry -/

/-- Entry e has joined the delegation list (R134). -/
def State.joined (s : State) (e : Source) : State :=
  { s with
    du := { s.du with list := s.du.list ++ [e] }
    claims := { s.claims with inserts := s.claims.inserts.filter fun x => x != e } }

theorem exec_delegationInsert_waits (hwaits : e ∉ s.claims.inserts ∨ s.carried e = true) :
    exec (.delegationInsert e) s = .next s := by
  have hfails : ¬(s.claims.inserts.contains e && !s.carried e) = true := by
    rcases hwaits with hmem | hcarried <;> simp [*]
  exact if_neg hfails

/-- An insertion that is taken is followed by the grant of a free channel, of two the one that the last-grant mark does not name (R136). -/
theorem exec_delegationInsert_taken (hmem : e ∈ s.claims.inserts) (hcarried : s.carried e = false) :
    exec (.delegationInsert e) s = .next (
      if (s.channel (s.du.lastGrant + 1)).running = false then (s.joined e).grantChannel (s.du.lastGrant + 1)
      else if (s.channel s.du.lastGrant).running = false then (s.joined e).grantChannel s.du.lastGrant
      else s.joined e) := by
  have htaken : (s.claims.inserts.contains e && !s.carried e) = true := by simp [hmem, hcarried]
  refine (if_pos htaken).trans ?_
  simp only [apply_ite Host.Outcome.next, Bool.not_eq_true']
  rfl

/-- The free channel that the last-grant mark does not pass over is granted (R136). -/
theorem exec_delegationInsert_grants (hmem : e ∈ s.claims.inserts) (hcarried : s.carried e = false)
    (hfree : (s.channel c).running = false) (hturn : (s.channel (c + 1)).running = false → s.du.lastGrant = c + 1) :
    exec (.delegationInsert e) s = .next ((s.joined e).grantChannel c) := by
  rw [exec_delegationInsert_taken hmem hcarried]
  rcases channel_eq_or c s.du.lastGrant with hlast | hlast
  · have hbusy : ¬(s.channel (c + 1)).running = false := fun h => channel_ne_other c ((hturn h).symm.trans hlast)
    rw [hlast, if_neg hbusy, if_pos hfree]
  · rw [hlast, channel_other_other, if_pos hfree]

end

end Sys2Proof.Machine

/-- Settles O40: of the channels only a free one takes the entry, which is the whole list and so its best. -/
theorem anInsertionJoinsTheListOrAChannel : Obligations.AnInsertionJoinsTheListOrAChannel := by
  intro s e u free
  refine ⟨exec_delegationInsert_waits, fun hmem hcarried hbusy0 hbusy1 => ?_,
    fun c d hmem hcarried hempty horder hhead hfree hturn => ?_⟩
  · have hbusy : ∀ k : ChannelId, ¬free k := fun k => by
      rcases channel_eq_or 0 k with rfl | rfl
      · exact hbusy0
      · exact hbusy1
    rw [exec_delegationInsert_taken hmem hcarried, if_neg (hbusy _), if_neg (hbusy _)]
    rfl
  · have hlist : (s.joined e).du.list = [e] := by simp [State.joined, hempty]
    have hbest : IsBestOf (s.joined e) (s.joined e).du.list e := by
      rw [hlist]
      exact ⟨List.mem_singleton_self e, horder, fun f hf _ => .inr (by rw [List.mem_singleton.mp hf]; exact ⟨rfl, le_refl _⟩)⟩
    have hleft : [e].filter (fun x => x != e) = ([] : List Source).filter (fun x => x != e) := by simp
    rw [exec_delegationInsert_grants hmem hcarried hfree hturn, grantChannel_best hbest hhead, hlist, State.granted, hleft]
    rfl

/-- Settles O41: the released channel is granted from the list that its own entry may have joined. -/
theorem aReleasedChannelTakesTheBest : Obligations.AReleasedChannelTakesTheBest := by
  intro s c
  refine ⟨fun hnone => ?_, ?_⟩
  · change execChannelRelease c s = _
    rw [execChannelRelease, hnone]
  · intro again hreleased l u
    have hu : s.released c again = u := by
      have hl : (if again then s.du.list ++ (s.channel c).entry.toList else s.du.list) = l := by
        cases again <;> simp [l]
      rw [State.released, hl]
      rfl
    rw [exec_channelRelease_some hreleased, hu]
    exact ⟨fun hempty => by rw [grantChannel_empty hempty],
      fun e d hbest hhead => by rw [grantChannel_best (s := u) hbest hhead]⟩
end

section
/-! The Memory Port: its grant, and what a response and a timeout find outstanding (R143 to R145). -/

open Sys2Proof Sys2Proof.Machine

namespace Sys2Proof.Machine

section
variable {s : State} {c : ChannelId} {d : DescId} {a : Access}

/-! ### Responses -/

/-- A response that answers no access outstanding, or answers it after its deadline (R144, R145, log 18). -/
theorem exec_memoryResponse_ignored {tag : BitVec 4} (hstray : ∀ a ∈ s.mp.access, a.tag ≠ tag ∨ a.deadline < s.tb.micros)
    (error : Bool) (data : Word) : exec (.memoryResponse tag error data) s = .next s := by
  change execMemoryResponse tag error data s = _
  unfold execMemoryResponse
  split
  next a c ha hg =>
    split
    next => rfl
    next => exact if_pos (by simpa using hstray a ha)
  next => rfl

/-- A response in time fails the unit, ends it, or has its write issued (R144). -/
theorem exec_memoryResponse_inTime (ha : s.mp.access = some a) (hg : s.mp.grant = some c) (hd : s.executing c = some d)
    (htime : s.tb.micros ≤ a.deadline) (error : Bool) (data : Word) :
    exec (.memoryResponse a.tag error data) s = .next (
      if error then s.failUnit c d true .memError a.addr
      else if a.isWrite then s.endUnit c d
      else (State.accessed { s with mp := { s.mp with heldData := some data } } true (s.desc d).dst
        (s.desc d).unitSize).setChannel c { s.channel c with phase := .writing }) := by
  change execMemoryResponse a.tag error data s = _
  unfold execMemoryResponse
  simp only [ha, hg, hd]
  rw [if_neg (by simpa using htime)]
  simp only [apply_ite Host.Outcome.next]
  rfl

/-! ### The timeout -/

theorem exec_memoryTimeout_none (ha : s.mp.access = none) : exec .memoryTimeout s = .next s := by
  change execMemoryTimeout s = _
  rw [execMemoryTimeout, ha]

/-- The access outstanding reaches its deadline (R145). -/
theorem exec_memoryTimeout_some (ha : s.mp.access = some a) (hg : s.mp.grant = some c) (hd : s.executing c = some d) :
    exec .memoryTimeout s = .next
      (State.failUnit { s with tb := { s.tb with micros := max s.tb.micros a.deadline } } c d true .memTimeout a.addr) := by
  change execMemoryTimeout s = _
  unfold execMemoryTimeout
  simp only [ha, hg, hd]

end

end Sys2Proof.Machine

/-- Settles O44: a claim at the port is its grant. -/
theorem theMemoryPortAlternates : Obligations.TheMemoryPortAlternates := by
  intro s
  have hgrant : exec .memoryGrant s = .next s.nextGrant := rfl
  rw [hgrant]
  exact ⟨fun hheld => congrArg _ (nextGrant_held hheld), fun hnone => congrArg _ (nextGrant_none hnone),
    fun c d hfree hwaits hat hturn => congrArg _ (nextGrant_grants hfree hwaits (executing_iff.mpr hat) hturn)⟩

/-- Settles O45: only the response to the access outstanding, in time, has an effect. -/
theorem aReadResponseIssuesTheWrite : Obligations.AReadResponseIssuesTheWrite := by
  intro s tag error data
  refine ⟨fun hnone => exec_memoryResponse_ignored (by simp [hnone]) error data, fun a ha hstray => ?_,
    fun a c d ha hg hat htag htime hread => ?_⟩
  · refine exec_memoryResponse_ignored (fun b hb => ?_) error data
    obtain rfl : a = b := Option.some.inj (ha.symm.trans hb)
    exact hstray
  · subst htag
    rw [exec_memoryResponse_inTime ha hg (executing_iff.mpr hat) htime, if_neg (by simp), if_neg (by simp [hread])]
end

section
/-! The unit's end: the port freed under it, the failed unit, and the boundary after a write's OK (R126, R127, R139, R140, R143, R146). -/

open Sys2Proof Sys2Proof.Machine

namespace Sys2Proof.Machine

section
variable {s w : State} {c : ChannelId} {d : DescId} {o : HostId} {y : Channel}

/-! ### One channel's record -/

@[simp] theorem setChannel_setChannel (s : State) (c : ChannelId) (x y : Channel) :
    (s.setChannel c x).setChannel c y = s.setChannel c y := by
  simp [State.setChannel]

@[simp] theorem setChannel_channel_same (s : State) (c : ChannelId) : s.setChannel c (s.channel c) = s := by
  simp [State.setChannel, State.channel]

/-- A report takes the channel out of its phase, whichever it was in (R137, log 37). -/
theorem reporting_phase (s : State) (c : ChannelId) (y : Channel) (p : Phase) (r : RunResult) :
    (s.setChannel c { y with phase := p }).reporting c r = (s.setChannel c y).reporting c r := by
  simp [State.reporting]

theorem setChannel_comm (s : State) {c k : ChannelId} (x y : Channel) (hne : c ≠ k) :
    (s.setChannel c x).setChannel k y = (s.setChannel k y).setChannel c x := by
  simp only [State.setChannel, put_comm _ _ _ hne]

/-! ### The port freed -/

/-- The grant to one channel does not touch the other's record (R143). -/
theorem reads_setChannel (s : State) (c : ChannelId) (y : Channel) (d : DescId) :
    (s.setChannel c y).reads (c + 1) d = (s.reads (c + 1) d).setChannel c y := by
  have hrest : (s.setChannel c y).channel (c + 1) = s.channel (c + 1) := by rw [State.setChannel_channel, if_neg (channel_ne_other c)]
  unfold State.reads
  rw [hrest]
  exact setChannel_comm { s with mp := (s.reads (c + 1) d).mp } y _ (channel_ne_other c).symm

/-- The end of c's unit rewrites c's record and frees the port; the grant that may follow is the other channel's, so that it does not
matter which comes first (R143). -/
theorem freePort_setChannel (hy : y.phase ≠ .waitingPort)
    (hother : (w.channel (c + 1)).phase = .waitingPort → w.executing (c + 1) ≠ none) :
    ∃ v : State, PortFreed w c v ∧ v.channel c = w.channel c ∧ (∀ f, v.desc f = w.desc f) ∧
      (w.setChannel c y).freePort = v.setChannel c y := by
  have hne : c + 1 ≠ c := channel_ne_other c
  have hself : ((w.setChannel c y).channel c).phase ≠ .waitingPort := by rwa [State.setChannel_channel_self]
  have hrest : (w.setChannel c y).channel (c + 1) = w.channel (c + 1) := by rw [State.setChannel_channel, if_neg hne]
  have hexec : (w.setChannel c y).executing (c + 1) = w.executing (c + 1) := setChannel_executing_other w c y
  obtain ⟨hfrees, hgrants⟩ := freePort_freed hself (by rwa [hrest, hexec])
  rw [hrest] at hfrees hgrants
  by_cases hwaits : (w.channel (c + 1)).phase = .waitingPort
  · obtain ⟨d, hd⟩ := Option.ne_none_iff_exists'.mp (hother hwaits)
    let u : State := { w with mp := { w.mp with grant := none, access := none, heldData := none } }
    refine ⟨u.reads (c + 1) d, ⟨fun h => absurd hwaits h, fun _ f hf => ?_⟩, phased_channel_ne u _ _ hne.symm, fun _ => rfl, ?_⟩
    · rw [Option.some.inj (hd.symm.trans hf)]
    · rw [hgrants hwaits d (hexec.trans hd)]
      exact reads_setChannel u c y d
  · exact ⟨_, ⟨fun _ => rfl, fun h => absurd h hwaits⟩, rfl, fun _ => rfl, hfrees hwaits⟩

/-! ### The failed unit -/

/-- A unit that fails at the port frees it before the failure is reported (R146, R147). -/
theorem failUnit_freed (hother : (s.channel (c + 1)).phase = .waitingPort → s.executing (c + 1) ≠ none) (kind : NoticeKind) (addr : Addr) :
    ∃ v : State, PortFreed (s.setDesc d { s.desc d with active := false, faulted := true }) c v ∧
      s.failUnit c d true kind addr = (v.handNotice (.channel c)
        { kind := kind, source := (s.channel c).entry, host := (s.desc d).owner, desc := some d, addr := some addr }).reporting
          c .failure := by
  let w := s.setDesc d { s.desc d with active := false, faulted := true }
  let y : Channel := { s.channel c with phase := .idle }
  obtain ⟨v, hfreed, hchannel, -, hswap⟩ := freePort_setChannel (w := w) (c := c) (y := y) (by simp [y]) hother
  refine ⟨v, hfreed, ?_⟩
  let n : Notice := { kind := kind, source := (s.channel c).entry, host := (s.desc d).owner, desc := some d, addr := some addr }
  have hentry : ((v.setChannel c y).channel c).entry = (s.channel c).entry := by rw [State.setChannel_channel_self]
  calc s.failUnit c d true kind addr
      = (w.setChannel c y).freePort.failRun c kind (s.desc d).owner d (some addr) := rfl
    _ = ((v.setChannel c y).handNotice (.channel c) n).reporting c .failure := by rw [hswap, failRun_eq, hentry]
    _ = ((v.handNotice (.channel c) n).setChannel c { v.channel c with phase := .idle }).reporting c .failure := by rw [hchannel]; rfl
    _ = (v.handNotice (.channel c) n).reporting c .failure := by
      rw [reporting_phase, ← State.handNotice_channel v (.channel c) n, setChannel_channel_same]

/-! ### The boundary -/

/-- The channel that stops clears the descriptor it holds active (R141). -/
theorem stopForCut_executing (hd : s.executing c = some d) : s.stopForCut c = (s.deactivate d).reporting c .cut := by
  rw [State.stopForCut, hd, reportRun_eq]

/-- A cut asked for stops the channel, but where the run has just ended in success (R140, log 16). -/
theorem boundary_cut (hd : s.executing c = some d) (hcut : (s.channel c).cutMark = true)
    (hleft : (s.channel c).units < (s.desc d).runLength ∨ (s.desc d).link ≠ none) :
    s.boundary c d = (s.deactivate d).reporting c .cut := by
  have hstops : ((s.channel c).cutMark && (decide ((s.channel c).units < (s.desc d).runLength) || (s.desc d).link.isSome)) = true := by
    simpa [hcut, Option.isSome_iff_ne_none] using hleft
  exact (if_pos hstops).trans (stopForCut_executing hd)

/-- With units left the next check is asked (R126). -/
theorem boundary_unitsLeft (hcut : (s.channel c).cutMark = false) (hleft : (s.channel c).units < (s.desc d).runLength) :
    s.boundary c d = s.setChannel c { s.channel c with phase := .checking } := by
  unfold State.boundary
  simp only
  rw [if_neg (by simp [hcut]), if_pos hleft]

/-- Channel c has left descriptor d, whose run length is complete (R126, R127). -/
def State.leaves (s : State) (c : ChannelId) (d : DescId) : State :=
  (s.deactivate d).setChannel c { s.channel c with completed := (s.channel c).completed + 1, units := 0, phase := .idle }

/-- Without a link the run ends in success, also where a cut has been asked for (R127, R140, log 16). -/
theorem boundary_unlinked (hover : (s.desc d).runLength ≤ (s.channel c).units) (hlink : (s.desc d).link = none) :
    s.boundary c d = (s.leaves c d).reporting c .success := by
  have hdone : ¬(s.channel c).units < (s.desc d).runLength := not_lt.mpr hover
  unfold State.boundary
  simp only
  rw [if_neg (by simp [hdone, hlink]), if_neg hdone, hlink]
  rfl

/-- With a link the channel goes to the linked descriptor, or fails after the sixteenth (R127, R128). -/
theorem boundary_linked {n : DescId} (hcut : (s.channel c).cutMark = false) (hover : (s.desc d).runLength ≤ (s.channel c).units)
    (hlink : (s.desc d).link = some n) :
    s.boundary c d =
      if 16 ≤ (s.channel c).completed + 1 then (s.leaves c d).failRun c .chainLong (s.desc d).owner n none
      else (s.leaves c d).setChannel c { (s.leaves c d).channel c with position := .arriving n } := by
  have hdone : ¬(s.channel c).units < (s.desc d).runLength := not_lt.mpr hover
  unfold State.boundary
  simp only
  rw [if_neg (by simp [hcut]), if_neg hdone, hlink]
  rfl

/-! ### The end of a unit -/

/-- A write's OK moves the addresses, tells the Window Table, counts the unit, frees the port, and the boundary follows (R139 step 5). -/
theorem endUnit_eq (howner : (s.desc d).owner = some o) :
    s.endUnit c d = (State.freePort (State.setChannel
      { s.setDesc d { s.desc d with
          src := stepAddr (s.desc d).srcStep (s.desc d).unitSize (s.desc d).src
          dst := stepAddr (s.desc d).dstStep (s.desc d).unitSize (s.desc d).dst } with
        claims := { s.claims with writes := put s.claims.writes c (look s.claims.writes c ++ [(o, (s.desc d).dst)]) } }
      c { s.channel c with units := (s.channel c).units + 1, phase := .idle })).boundary c d := by
  unfold State.endUnit
  simp only [howner]
  rfl

end

end Sys2Proof.Machine

/-- Settles O46: the port is freed under the channel's new record, which the boundary then judges. -/
theorem aWriteResponseEndsTheUnit : Obligations.AWriteResponseEndsTheUnit := by
  intro s tag data a c d o ha hg hat htag htime hwrite howner _ hother x ch moved advanced u
  subst htag
  have hmoved : ∀ st y, moved st y = stepAddr st x.unitSize y := fun st y => by cases st <;> rfl
  let y : Channel := { ch with units := ch.units + 1, phase := .idle }
  obtain ⟨v, hfreed, -, hdesc, hswap⟩ := freePort_setChannel (w := u) (c := c) (y := y) (by simp [y]) hother
  let z := v.setChannel c y
  have hz : z.channel c = y := State.setChannel_channel_self ..
  have hx : z.desc d = advanced := (hdesc d).trans (State.setDesc_desc_self s d advanced)
  have hd : z.executing c = some d := (setChannel_executing v c y).mpr hat
  have hleaves : z.leaves c d = (v.setDesc d { advanced with active := false }).setChannel c
      { ch with units := 0, completed := ch.completed + 1, phase := .idle } := by
    rw [State.leaves, State.deactivate, hx, hz]
    exact setChannel_setChannel (v.setDesc d { advanced with active := false }) c y _
  have hunit : s.endUnit c d = z.boundary c d := by
    rw [endUnit_eq howner, ← hmoved, ← hmoved]
    exact congrArg (State.boundary · c d) hswap
  refine ⟨z.boundary c d, v, ?_, hfreed, fun hcut hleft => ?_, fun hcut hleft => ?_, fun hover => ?_⟩
  · rw [exec_memoryResponse_inTime ha hg (executing_iff.mpr hat) htime, if_neg (by simp), if_pos hwrite, hunit]
  · rw [boundary_cut hd (by rw [hz]; exact hcut) (by rw [hz, hx]; exact hleft), State.deactivate, hx]
    exact reporting_phase (v.setDesc d { advanced with active := false }) c { ch with units := ch.units + 1 } .idle .cut
  · rw [boundary_unitsLeft (by rw [hz]; exact hcut) (by rw [hz, hx]; exact hleft), hz]
    exact setChannel_setChannel v c y _
  · have hover' : (z.desc d).runLength ≤ (z.channel c).units := by rw [hz, hx]; exact hover
    refine ⟨fun hlink => ?_, fun n hcut hlink hchain => ?_, fun n hcut hlink hchain => ?_⟩
    · rw [boundary_unlinked hover' (by rw [hx]; exact hlink), hleaves]
    · rw [boundary_linked (n := n) (by rw [hz]; exact hcut) hover' (by rw [hx]; exact hlink), if_neg (by rw [hz]; exact not_le.mpr hchain),
        hleaves, State.setChannel_channel_self]
    · rw [boundary_linked (n := n) (by rw [hz]; exact hcut) hover' (by rw [hx]; exact hlink), if_pos (by rw [hz]; exact hchain),
        hleaves, hx, failRun_eq, State.setChannel_channel_self]
      rw [show advanced.owner = some o from howner]

/-- Settles O47: the answer ERROR and the timeout fail the unit alike. -/
theorem aFailedAccessFailsTheUnit : Obligations.AFailedAccessFailsTheUnit := by
  intro s a c d data
  refine ⟨exec_memoryTimeout_none, ?_⟩
  intro ha hg hat _ hother failed
  refine ⟨fun htime => ?_, ?_⟩
  · obtain ⟨v, hfreed, hfails⟩ := failUnit_freed (d := d) hother .memError a.addr
    refine ⟨_, ?_, v, hfreed, hfails⟩
    rw [exec_memoryResponse_inTime ha hg (executing_iff.mpr hat) htime, if_pos rfl]
  · obtain ⟨v, hfreed, hfails⟩ := failUnit_freed (s := { s with tb := { s.tb with micros := max s.tb.micros a.deadline } })
      (d := d) hother .memTimeout a.addr
    exact ⟨_, exec_memoryTimeout_some ha hg (executing_iff.mpr hat), v, hfreed, hfails⟩
end

section
/-! The cut request at the Delegation Unit (R121, R137, R141). -/

open Sys2Proof Sys2Proof.Machine

namespace Sys2Proof.Machine

section
variable {s : State} {c : ChannelId} {d : DescId} {e : Source} {before after : List CutClaim} {stale : Bool}

/-! ### The channel's part -/

/-- The channel of a run whose result is reported is not cut any more (R137). -/
theorem cutChannel_reported (hreported : (s.channel c).reported = true) : s.cutChannel c = s := if_pos hreported

/-- A check asked for and a unit in flight go on under the mark (R141). -/
theorem cutChannel_marks (hreported : (s.channel c).reported = false)
    (hphase : (s.channel c).phase = .checking ∨ (s.channel c).phase = .reading ∨ (s.channel c).phase = .writing) :
    s.cutChannel c = s.setChannel c { s.channel c with cutMark := true } := by
  refine (if_neg (by simp [hreported])).trans ?_
  rcases hphase with hphase | hphase | hphase <;> simp only [hphase]

/-- A channel anywhere else stops (R141). -/
theorem cutChannel_stops (hreported : (s.channel c).reported = false)
    (hphase : (s.channel c).phase = .waitingPort ∨ (s.channel c).phase = .idle) :
    s.cutChannel c = (s.setChannel c { s.channel c with cutMark := true }).stopForCut c := by
  refine (if_neg (by simp [hreported])).trans ?_
  rcases hphase with hphase | hphase <;> simp only [hphase]

/-- The mark leaves the channel where it stands. -/
theorem marked_executing (s : State) (c : ChannelId) :
    (s.setChannel c { s.channel c with cutMark := true }).executing c = s.executing c :=
  executing_congr (by rw [State.setChannel_channel_self])

/-! ### The request taken -/

/-- The oldest cut request that names e is taken: void, it is discarded; else it goes to the channel that carries e (R121, R137). -/
theorem exec_cutRequest_oldest (hcuts : s.claims.cuts = before ++ { source := e, stale := stale } :: after)
    (hbefore : ∀ x ∈ before, x.source ≠ e) :
    exec (.cutRequest e) s = .next (
      let u : State := { s with claims := { s.claims with cuts := before ++ after } }
      if stale then u else if (s.channel 0).entry = some e then u.cutChannel 0
      else if (s.channel 1).entry = some e then u.cutChannel 1 else u) := by
  have hfound : s.claims.cuts.find? (fun x => x.source == e) = some { source := e, stale := stale } := by
    rw [hcuts]
    exact List.find?_eq_some_iff_append.mpr ⟨by simp, before, after, rfl, fun x hx => by simpa using hbefore x hx⟩
  have herase : s.claims.cuts.erase { source := e, stale := stale } = before ++ after := by
    rw [hcuts, List.erase_append_right _ fun hx => hbefore _ hx rfl, List.erase_cons_head]
  change execCutRequest e s = _
  unfold execCutRequest
  simp only [hfound, herase, apply_ite Host.Outcome.next]
  rfl

theorem exec_cutRequest_discarded (hcuts : s.claims.cuts = before ++ { source := e, stale := stale } :: after)
    (hbefore : ∀ x ∈ before, x.source ≠ e) (hvoid : stale = true ∨ s.carried e = false) :
    exec (.cutRequest e) s = .next { s with claims := { s.claims with cuts := before ++ after } } := by
  rw [exec_cutRequest_oldest hcuts hbefore]
  rcases hvoid with hstale | hcarried
  · simp [hstale]
  · obtain ⟨h0, h1⟩ : (s.channel 0).entry ≠ some e ∧ (s.channel 1).entry ≠ some e := by simpa [State.carried] using hcarried
    simp [h0, h1]

theorem exec_cutRequest_carried (hcuts : s.claims.cuts = before ++ { source := e, stale := false } :: after)
    (hbefore : ∀ x ∈ before, x.source ≠ e) (hcarries : (s.channel c).entry = some e) (hother : (s.channel (c + 1)).entry ≠ some e) :
    exec (.cutRequest e) s =
      .next (State.cutChannel { s with claims := { s.claims with cuts := before ++ after } } c) := by
  rw [exec_cutRequest_oldest hcuts hbefore]
  rcases channel_eq_or 0 c with rfl | rfl
  · simp [hcarries]
  · have h0 : (s.channel 0).entry ≠ some e := hother
    have h1 : (s.channel 1).entry = some e := hcarries
    simp [h0, h1]

end

end Sys2Proof.Machine

/-- Settles O49: the request reaches the one channel that carries the entry, and the phase of its unit decides. -/
theorem aCutRequestStopsTheChannel : Obligations.ACutRequestStopsTheChannel := by
  intro s e before after stale hcuts hbefore u
  refine ⟨exec_cutRequest_discarded hcuts hbefore, ?_⟩
  intro c hfresh hcarries hother m
  subst hfresh
  have hexec : (u.setChannel c m).executing c = s.executing c := marked_executing u c
  have htaken : exec (.cutRequest e) s = .next (u.cutChannel c) := exec_cutRequest_carried hcuts hbefore hcarries hother
  rw [htaken]
  refine ⟨fun hreported => congrArg _ (cutChannel_reported hreported),
    fun hreported => ⟨fun hphase => ?_, fun hphase d hd => ?_, fun hphase hnone => ?_⟩⟩
  · exact congrArg _ (cutChannel_marks hreported hphase)
  · exact congrArg _ ((cutChannel_stops (s := u) hreported (.inl hphase)).trans (stopForCut_executing (hexec.trans hd)))
  · exact congrArg _ ((cutChannel_stops (s := u) hreported (.inr hphase)).trans (stopForCut_idle (hexec.trans hnone)))
end

section
/-! The window that decides for an address, in the check of a unit (R139, R141, R146, R150 to R152) and in the record of a completed
write (R154). -/

open Sys2Proof Sys2Proof.Machine

namespace Sys2Proof.Machine

/-! ### The deciding window -/

section
variable {ws : Table Window 8} {a : Addr} {k : Fin 8}

theorem contains_eq_false_iff (w : Window) (a : Addr) :
    w.contains a = false ↔ ¬(w.base ≤ a.toNat / 4096 ∧ a.toNat / 4096 < w.base + w.count) := by
  rw [← contains_iff, Bool.not_eq_true]

/-- The deciding window by its pages: the first whose pages hold the address (R149, R151). -/
theorem decidingWindow_iff : decidingWindow ws a = some k ↔
    ((look ws k).base ≤ a.toNat / 4096 ∧ a.toNat / 4096 < (look ws k).base + (look ws k).count) ∧
    ∀ j : Fin 8, j < k → ¬((look ws j).base ≤ a.toNat / 4096 ∧ a.toNat / 4096 < (look ws j).base + (look ws j).count) := by
  simp only [decidingWindow_some, contains_iff, contains_eq_false_iff]

/-- The read check passes where the deciding window grants an access (R152). -/
theorem readPasses_iff : readPasses ws a = true ↔ ∃ k, decidingWindow ws a = some k ∧ (look ws k).access ≠ .none := by
  unfold readPasses grantedAt
  cases decidingWindow ws a <;> simp

/-- The write check passes where the deciding window grants reads and writes (R152). -/
theorem writePasses_iff : writePasses ws a = true ↔ ∃ k, decidingWindow ws a = some k ∧ (look ws k).access = .readWrite := by
  unfold writePasses grantedAt
  cases decidingWindow ws a <;> simp

end

/-! ### The check of a unit -/

section
variable {s : State} {c : ChannelId} {d : DescId} {o : HostId}

theorem exec_unitCheck_unasked (hphase : (s.channel c).phase ≠ .checking) : exec (.unitCheck c) s = .next s := by
  change execUnitCheck c s = _
  unfold execUnitCheck
  split
  next hchecking _ => exact absurd hchecking hphase
  next => rfl

/-- A unit that fails at its check holds no grant of the Memory Port that would be freed (R146). -/
theorem failUnit_beforePort (s : State) (c : ChannelId) (d : DescId) (kind : NoticeKind) (addr : Addr) :
    s.failUnit c d false kind addr = s.unitFailed c d kind addr := rfl

/-- The read check comes before the write check, and both before the cut (R141, R152). -/
theorem exec_unitCheck_asked (hphase : (s.channel c).phase = .checking) (hd : s.executing c = some d) (ho : (s.desc d).owner = some o) :
    exec (.unitCheck c) s = .next (
      if readPasses (s.windows o) (s.desc d).src = false then s.unitFailed c d .windowRead (s.desc d).src
      else if writePasses (s.windows o) (s.desc d).dst = false then s.unitFailed c d .windowWrite (s.desc d).dst
      else if (s.channel c).cutMark then (s.deactivate d).reporting c .cut
      else s.setChannel c { s.channel c with phase := .waitingPort }) := by
  have hwindows : s.ownerWindows d = some (s.windows o) := congrArg (Option.map s.windows) ho
  change execUnitCheck c s = _
  unfold execUnitCheck
  simp only [hphase, hd, hwindows, failUnit_beforePort, stopForCut_executing hd, apply_ite Host.Outcome.next, Bool.not_eq_true']

end

/-! ### The record of a write -/

section
variable {s : State} {c : ChannelId} {o : HostId} {a : Addr} {rest : List (HostId × Addr)}

theorem exec_writeRecord_none (hw : look s.claims.writes c = []) : exec (.writeRecord c) s = .next s := by
  change execWriteRecord c s = _
  unfold execWriteRecord
  rw [hw]

/-- The state with the oldest write of channel c taken, those after it left (log 33). -/
def State.writesLeft (s : State) (c : ChannelId) (rest : List (HostId × Addr)) : State :=
  { s with claims := { s.claims with writes := put s.claims.writes c rest } }

/-- A write at an address that no window contains marks none (R154). -/
theorem exec_writeRecord_unmarked (hw : look s.claims.writes c = (o, a) :: rest) (hd : decidingWindow (s.windows o) a = none) :
    exec (.writeRecord c) s = .next (s.writesLeft c rest) := by
  have hleft : decidingWindow ((s.writesLeft c rest).windows o) a = none := hd
  rw [State.writesLeft] at hleft
  change execWriteRecord c s = _
  unfold execWriteRecord
  simp only [hw, hleft]
  rfl

/-- A write marks the window that decides for its address, as the owner's windows now stand (R154). -/
theorem exec_writeRecord_marks (hw : look s.claims.writes c = (o, a) :: rest) {k : Fin 8} (hd : decidingWindow (s.windows o) a = some k) :
    exec (.writeRecord c) s = .next ((s.writesLeft c rest).setWindows o
      (put (s.windows o) k { look (s.windows o) k with written := true })) := by
  have hleft : decidingWindow ((s.writesLeft c rest).windows o) a = some k := hd
  rw [State.writesLeft] at hleft
  change execWriteRecord c s = _
  unfold execWriteRecord
  simp only [hw, hleft]
  rfl

end

end Sys2Proof.Machine

/-- Settles O43: the statement's terms are the deciding window and its two checks, which the Window Table makes one after the other. -/
theorem aUnitIsCheckedAgainstTheWindows : Obligations.AUnitIsCheckedAgainstTheWindows := by
  refine ⟨fun s c hphase => exec_unitCheck_unasked hphase, ?_⟩
  intro s c d o hphase hat ho x inside decides mayRead mayWrite
  have hread : mayRead x.src ↔ readPasses (s.windows o) x.src = true := by
    simp only [readPasses_iff, decidingWindow_iff]
    exact Iff.rfl
  have hwrite : mayWrite x.dst ↔ writePasses (s.windows o) x.dst = true := by
    simp only [writePasses_iff, decidingWindow_iff]
    exact Iff.rfl
  rw [exec_unitCheck_asked hphase (executing_iff.mpr hat) ho, hread, hwrite, Bool.not_eq_true, Bool.not_eq_true]
  refine ⟨fun hr => ?_, fun hr hw => ?_, fun hr hw => ⟨fun hcut => ?_, fun hcut => ?_⟩⟩
  · rw [if_pos hr]
  · rw [if_neg (ne_false_of_eq_true hr), if_pos hw]
  · rw [if_neg (ne_false_of_eq_true hr), if_neg (ne_false_of_eq_true hw), if_neg (by simp [hcut])]
  · rw [if_neg (ne_false_of_eq_true hr), if_neg (ne_false_of_eq_true hw), if_pos hcut]
    rfl

/-- Settles O48: the oldest write told of is taken, and its deciding window, as the owner's windows now stand, is the one marked. -/
theorem aWriteRecordMarksTheDecidingWindow : Obligations.AWriteRecordMarksTheDecidingWindow := by
  intro s c
  refine ⟨exec_writeRecord_none, fun o a rest hw => ?_⟩
  intro inside u
  refine ⟨fun hnone => exec_writeRecord_unmarked hw ?_,
    fun k hk hfirst => exec_writeRecord_marks hw (decidingWindow_iff.mpr ⟨hk, hfirst⟩)⟩
  exact decidingWindow_none.mpr fun k => (contains_eq_false_iff _ a).mpr (hnone k)
end

section
/-! What the laws of the board speak of: the windows, the Notice Queue and the ports (R149, R161, R168). The operations on offers, on
entries and on transfers change no window and no port's part in the law, and append to the queue only up to its depth. -/

open Sys2Proof Sys2Proof.Machine

namespace Sys2Proof.Machine

/-- The windows, the Notice Queue and the ports. -/
structure Board where
  windows : Table (Table Window 8) 4
  queue : NoticeQueue
  ports : Table Port 4

def State.board (s : State) : Board := { windows := s.wt, queue := s.nq, ports := s.ports }

/-- Every window is in t as it is in s, and the laws of the Notice Queue and of the ports hold in t if they do in s. -/
structure KeepsBoard (s t : State) : Prop where
  windows : t.wt = s.wt
  queue : s.nq.records.length ≤ Config.noticeDepth → t.nq.records.length ≤ Config.noticeDepth
  ports : (∀ h, PortLaw (s.port h)) → ∀ h, PortLaw (t.port h)

section
variable {r s t : State} {h : HostId} {e : Source}

theorem KeepsBoard.refl (s : State) : KeepsBoard s s := ⟨rfl, id, id⟩

theorem KeepsBoard.trans (hr : KeepsBoard r s) (hs : KeepsBoard s t) : KeepsBoard r t :=
  ⟨hs.windows.trans hr.windows, hs.queue ∘ hr.queue, hs.ports ∘ hr.ports⟩

theorem KeepsBoard.of_board (ht : t.board = s.board) : KeepsBoard s t := by
  have hports : ∀ h, t.port h = s.port h := fun h => congrArg (fun b : Board => look b.ports h) ht
  have hqueue : t.nq = s.nq := congrArg Board.queue ht
  exact ⟨congrArg Board.windows ht, fun hq => hqueue ▸ hq, fun hp h => hports h ▸ hp h⟩

theorem KeepsBoard.same (hs : KeepsBoard r s) (ht : t.board = s.board) : KeepsBoard r t := hs.trans (.of_board ht)

/-- A state that keeps the board of a lawful one keeps its laws. -/
theorem KeepsBoard.boardLaw (ht : KeepsBoard s t) (hs : BoardLaw s) : BoardLaw t := by
  obtain ⟨hwindows, hqueue, hports⟩ := hs
  have hsame : ∀ h, t.windows h = s.windows h := fun h => congrArg (look · h) ht.windows
  exact ⟨fun h k => hsame h ▸ hwindows h k, ht.queue hqueue, ht.ports hports⟩

/-- A port written anew by its own law. -/
theorem KeepsBoard.setPort (hs : KeepsBoard r s) {p : Port} (hp : PortLaw (s.port h) → PortLaw p) : KeepsBoard r (s.setPort h p) := by
  refine hs.trans ⟨rfl, id, fun hports k => ?_⟩
  rw [State.setPort_port]
  split
  · exact hp (hports h)
  · exact hports k

/-- An answer leaves the port's state as it is, and echoes a request code (R170). -/
theorem KeepsBoard.answer (hs : KeepsBoard r s) {code : Operand} (h : HostId) (x : ResultCode)
    (hcode : code.toNat ≤ 26 := by decide) : KeepsBoard r (s.answer h code x) :=
  hs.setPort fun ⟨hworking, hwaiting, _⟩ => ⟨hworking, hwaiting, hcode⟩

theorem KeepsBoard.answerRecord (hs : KeepsBoard r s) {code : Operand} (h : HostId) (w : Table Word 8)
    (hcode : code.toNat ≤ 26 := by decide) : KeepsBoard r (s.answerRecord h code w) :=
  hs.setPort fun ⟨hworking, hwaiting, _⟩ => ⟨hworking, hwaiting, hcode⟩

/-! ### The Notice Queue -/

/-- An append fills the queue up to its depth and no further (R162). -/
theorem append_within {q : NoticeQueue} (hq : q.records.length ≤ Config.noticeDepth) (n : Notice) :
    (q.append n).records.length ≤ Config.noticeDepth := by
  unfold NoticeQueue.append
  split
  next hspace => simpa using hspace
  next => exact hq

theorem KeepsBoard.append (hs : KeepsBoard r s) (n : Notice) : KeepsBoard r { s with nq := s.nq.append n } :=
  hs.trans ⟨rfl, fun hq => append_within hq n, id⟩

theorem KeepsBoard.takeAppend (hs : KeepsBoard r s) (n : Notice) : KeepsBoard r (s.takeAppend n) := (hs.append n).same rfl

theorem KeepsBoard.noteOn (hs : KeepsBoard r s) (e : Source) (o : Origin) (n : Notice) : KeepsBoard r (s.noteOn e o n) := by
  have happends : ∀ (l : List Notice) (t : State), KeepsBoard r t → KeepsBoard r (l.foldl State.takeAppend t) := by
    intro l
    induction l with
    | nil => exact fun _ ht => ht
    | cons x xs ih => exact fun t ht => ih _ (ht.takeAppend x)
  unfold State.noteOn
  split
  · refine KeepsBoard.append ?_ n
    exact happends _ _ (hs.same rfl)
  · exact hs.same rfl

/-! ### Offers -/

theorem OffersOnly.board (g : OffersOnly s t) : t.board = s.board := by
  rw [g.1]
  rfl

@[simp] theorem choose_board (s : State) (h : HostId) : (s.choose h).board = s.board := (choose_offersOnly s h).board
@[simp] theorem offerNews_board (s : State) (e : Source) : (s.offerNews e).board = s.board := (offerNews_offersOnly s e).board
@[simp] theorem tell_board (e : Source) (x : State × Bool) : (tell e x).board = x.1.board := (tell_offersOnly e x).board
@[simp] theorem chooseEach_board (s : State) (hs : List HostId) : (s.chooseEach hs).board = s.board := by
  obtain ⟨l, n, heq, -⟩ := chooseEach_eq s hs
  rw [heq]
  exact (chooseAll_offersOnly l (s.drawn n)).board
@[simp] theorem withdrawOffer_board (s : State) (h : HostId) : (s.withdrawOffer h).board = s.board := by
  unfold State.withdrawOffer
  split <;> rfl
@[simp] theorem setCtx_board (s : State) (h : HostId) (c : HostContext) : (s.setCtx h c).board = s.board := rfl
@[simp] theorem setView_board (s : State) (h : HostId) (l : List StackRecord) : (s.setView h l).board = s.board := rfl
@[simp] theorem hand_board (s : State) (h : HostId) (l : List Handed) : (s.hand h l).board = s.board := rfl
@[simp] theorem setTake_board (s : State) (h : HostId) (x : Option TakeClaim) : (s.setTake h x).board = s.board := rfl
@[simp] theorem setLapse_board (s : State) (h : HostId) (x : LapseClaim) : (s.setLapse h x).board = s.board := rfl
@[simp] theorem setUndo_board (s : State) (h : HostId) (x : Option Source) : (s.setUndo h x).board = s.board := rfl
@[simp] theorem handNotice_board (s : State) (o : Origin) (n : Notice) : (s.handNotice o n).board = s.board := rfl
@[simp] theorem giveBack_board (s : State) (h : HostId) : (s.giveBack h).board = s.board := by
  unfold State.giveBack
  simp
theorem takeHanded_board {p : Handed → Bool} {x : Handed} (ht : s.takeHanded h p = some (x, t)) : t.board = s.board := by
  obtain ⟨rest, -, rfl⟩ := takeHanded_some.mp ht
  rfl

/-! ### The life of an entry -/

theorem KeepsBoard.completesOnce {next : State → State × Bool} (hn : ∀ t, KeepsBoard r t → KeepsBoard r (next t).1)
    (hs : KeepsBoard r s) (e : Source) : KeepsBoard r (Machine.completesOnce next e s).1 := by
  have hagain : KeepsBoard r (((s.toIdle e).setProg e { (s.toIdle e).prog e with again := false }).latch e) := hs.same rfl
  unfold Machine.completesOnce
  simp only
  split_ifs
  · exact hagain.same rfl
  · exact hn _ hagain
  · exact hagain
  · exact hs.same rfl
  · exact hs.same rfl

theorem KeepsBoard.deliverRound {next : State → State × Bool} (hn : ∀ t, KeepsBoard r t → KeepsBoard r (next t).1)
    (hs : KeepsBoard r s) (o : Outcome) (e : Source) : KeepsBoard r (Machine.deliverRound next o e s).1 := by
  have hstart : KeepsBoard r (s.startDelivery e o) := hs.same rfl
  unfold Machine.deliverRound
  simp only
  split
  · exact hstart.completesOnce hn e
  · split
    · exact hstart
    · exact hstart.same rfl
    · split
      · exact (hstart.noteOn e _ _).completesOnce hn e
      · exact hstart.same rfl

theorem KeepsBoard.deliver (n : Nat) : ∀ {s : State} (o : Outcome) (e : Source), KeepsBoard r s →
    KeepsBoard r (Machine.deliver n o e s).1 := by
  induction n with
  | zero =>
    intro s o e hs
    rw [deliver_zero]
    exact hs.deliverRound (fun _ ht => ht) o e
  | succ n ih =>
    intro s o e hs
    rw [deliver_succ]
    exact hs.deliverRound (fun _ ht => ih .plain e ht) o e

theorem KeepsBoard.leaveLatchedPart (hs : KeepsBoard r s) (e : Source) : KeepsBoard r (s.leaveLatchedPart e).1 := by
  unfold State.leaveLatchedPart
  split
  · exact hs.same rfl
  · exact .deliver 1 .plain e hs

theorem KeepsBoard.latchAndGoPart (hs : KeepsBoard r s) (e : Source) : KeepsBoard r (s.latchAndGoPart e).1 := by
  have hlatched : KeepsBoard r (s.latch e) := hs.same rfl
  unfold State.latchAndGoPart
  simp only
  split
  · exact hlatched.leaveLatchedPart e
  · exact hlatched

theorem KeepsBoard.completePart (hs : KeepsBoard r s) (e : Source) : KeepsBoard r (s.completePart e).1 := by
  have hidle : KeepsBoard r (s.toIdle e) := hs.same rfl
  have hagain : KeepsBoard r ((s.toIdle e).setProg e { (s.toIdle e).prog e with again := false }) := hs.same rfl
  unfold State.completePart
  simp only
  split_ifs
  · exact hagain.latchAndGoPart e
  · exact hidle.latchAndGoPart e
  · exact hidle

theorem KeepsBoard.declinePart (hs : KeepsBoard r s) (e : Source) (h : HostId) : KeepsBoard r (s.declinePart e h).1 := by
  unfold State.declinePart
  simp only
  split
  · refine KeepsBoard.noteOn ?_ e _ _
    exact hs.same rfl
  · exact hs.same rfl

theorem KeepsBoard.skipPart (hs : KeepsBoard r s) (e : Source) (h : HostId) : KeepsBoard r (s.skipPart e h).1 := by
  have hleft : ∀ q, KeepsBoard r ((s.setProg e q).noteOn e (.host h) (deliveryNotice .skipped (some e) (some h))) := fun q => by
    refine KeepsBoard.noteOn ?_ e _ _
    exact hs.same rfl
  unfold State.skipPart
  simp only
  split
  · exact (hleft _).completePart e
  · exact hleft _

theorem KeepsBoard.finishPart (hs : KeepsBoard r s) (e : Source) (h : HostId) : KeepsBoard r (s.finishPart e h).1 := by
  have hset : ∀ q, KeepsBoard r (s.setProg e q) := fun _ => hs.same rfl
  unfold State.finishPart
  simp only
  split
  · split
    · split
      · exact (hset _).completePart e
      · exact hset _
    · exact (hset _).completePart e
  · exact hs

theorem KeepsBoard.releasePart (hs : KeepsBoard r s) (e : Source) (h : HostId) (skips : Bool) :
    KeepsBoard r (s.releasePart e h skips).1 := by
  unfold State.releasePart
  simp only
  split
  · split
    · exact hs.same rfl
    · exact hs.declinePart e h
    · split
      · exact hs.skipPart e h
      · exact hs.same rfl
  · exact hs

theorem KeepsBoard.tell {x : State × Bool} (hx : KeepsBoard r x.1) (e : Source) : KeepsBoard r (tell e x) := hx.same (tell_board e x)

theorem KeepsBoard.latchAndGo (hs : KeepsBoard r s) (e : Source) : KeepsBoard r (s.latchAndGo e) := (hs.latchAndGoPart e).tell e
theorem KeepsBoard.leaveLatched (hs : KeepsBoard r s) (e : Source) : KeepsBoard r (s.leaveLatched e) := (hs.leaveLatchedPart e).tell e
theorem KeepsBoard.complete (hs : KeepsBoard r s) (e : Source) : KeepsBoard r (s.complete e) := (hs.completePart e).tell e
theorem KeepsBoard.enterDelivering (hs : KeepsBoard r s) (e : Source) (o : Outcome) : KeepsBoard r (s.enterDelivering e o) :=
  (KeepsBoard.deliver 1 o e hs).tell e

theorem KeepsBoard.merge (hs : KeepsBoard r s) (e : Source) : KeepsBoard r (s.merge e) := by
  unfold State.merge
  simp only
  split_ifs
  · exact hs.same rfl
  · exact hs
  · refine KeepsBoard.noteOn ?_ e _ _
    exact hs.same rfl
  · exact hs.same rfl

theorem KeepsBoard.arrive (hs : KeepsBoard r s) (e : Source) : KeepsBoard r (s.arrive e) := by
  unfold State.arrive
  split
  · exact hs.latchAndGo e
  · exact hs.merge e

theorem KeepsBoard.assertLevel (hs : KeepsBoard r s) (e : Source) : KeepsBoard r (s.assertLevel e) := by
  unfold State.assertLevel
  split
  · exact hs.latchAndGo e
  · exact hs

theorem KeepsBoard.deassertLevel (hs : KeepsBoard r s) (e : Source) : KeepsBoard r (s.deassertLevel e) := by
  have hunheld : KeepsBoard r (s.setProg e { s.prog e with hold := false }) := hs.same rfl
  unfold State.deassertLevel
  simp only
  split_ifs
  · exact hunheld.leaveLatched e
  · exact hunheld
  · exact hs

theorem KeepsBoard.judgeLine (hs : KeepsBoard r s) (e : Source) (high : Bool) : KeepsBoard r (s.judgeLine e high) := by
  unfold State.judgeLine
  cases (s.cfg e).kind with
  | rising => cases high <;> [exact hs; exact hs.arrive e]
  | falling => cases high <;> [exact hs.arrive e; exact hs]
  | both => exact hs.arrive e
  | levelHigh => cases high <;> [exact hs.deassertLevel e; exact hs.assertLevel e]
  | levelLow => cases high <;> [exact hs.assertLevel e; exact hs.deassertLevel e]
  | posted => exact hs
  | notice => exact hs

theorem KeepsBoard.departAt (hs : KeepsBoard r s) (e : Source) (h : HostId) : KeepsBoard r (s.departAt e h) := by
  unfold State.departAt
  split
  · exact (hs.skipPart e h).tell e
  · exact hs

theorem KeepsBoard.withdrawAt (hs : KeepsBoard r s) (e : Source) (h : HostId) : KeepsBoard r (s.withdrawAt e h) := by
  unfold State.withdrawAt
  split
  · exact hs.same (offerNews_board (s.leaveOffered e h) e)
  · exact hs

/-- After FINISH and RELEASE the Offer Unit's choices follow (R87). -/
theorem KeepsBoard.tellStack {x : State × Bool} (hx : KeepsBoard r x.1) (h : HostId) (e : Source) : KeepsBoard r (tellStack h e x) :=
  hx.same ((choose_board _ h).trans (tell_board e (x.1.tellRemoval h e, x.2)))

theorem KeepsBoard.writeConfig (hs : KeepsBoard r s) (e : Source) (c : EntryConfig) : KeepsBoard r (s.writeConfig e c) := by
  have hwritten : KeepsBoard r (s.configured e c) := hs.same rfl
  rw [writeConfig_eq]
  split
  · exact hwritten.latchAndGo e
  · exact hwritten

theorem KeepsBoard.enableEntry (hs : KeepsBoard r s) (e : Source) : KeepsBoard r (s.enableEntry e) := by
  have hwritten : KeepsBoard r (s.enabledAs e true) := hs.same rfl
  rw [enableEntry_eq]
  split
  · exact hwritten.leaveLatched e
  · exact hwritten

theorem KeepsBoard.clearNow (hs : KeepsBoard r s) (e : Source) : KeepsBoard r (s.clearNow e) := by
  have hcleared : KeepsBoard r ((s.abandoned e).chooseEach (s.offeredHosts e)) := hs.same (chooseEach_board ..)
  rw [clearNow_eq]
  simp only
  split
  · exact hcleared.latchAndGo e
  · exact hcleared

end

/-! ### Delegated transfers -/

section
variable (s : State) (c : ChannelId) (d : DescId)

@[simp] theorem setChannel_board (x : Channel) : (s.setChannel c x).board = s.board := rfl
@[simp] theorem setDesc_board (x : Descriptor) : (s.setDesc d x).board = s.board := rfl
@[simp] theorem reportRun_board (x : RunResult) : (s.reportRun c x).board = s.board := rfl
@[simp] theorem failRun_board (k : NoticeKind) (o : Option HostId) (a : Option Addr) : (s.failRun c k o d a).board = s.board := rfl
@[simp] theorem stopForCut_board : (s.stopForCut c).board = s.board := by
  unfold State.stopForCut
  split <;> rfl
@[simp] theorem grantChannel_board : (s.grantChannel c).board = s.board := by
  unfold State.grantChannel
  split <;> rfl
@[simp] theorem arriveAt_board : (s.arriveAt c d).board = s.board := by
  unfold State.arriveAt
  simp only
  split_ifs <;> simp
@[simp] theorem grantPort_board : (s.grantPort c).board = s.board := by
  unfold State.grantPort
  split <;> rfl
@[simp] theorem nextGrant_board : s.nextGrant.board = s.board := by
  unfold State.nextGrant
  simp only
  split_ifs <;> simp
@[simp] theorem freePort_board : s.freePort.board = s.board := nextGrant_board _
@[simp] theorem failUnit_board (p : Bool) (k : NoticeKind) (a : Addr) : (s.failUnit c d p k a).board = s.board := by
  unfold State.failUnit
  cases p <;> simp
@[simp] theorem boundary_board : (s.boundary c d).board = s.board := by
  unfold State.boundary
  simp only
  split
  · simp
  · split
    · simp
    · cases (s.desc d).link with
      | none => rfl
      | some next => simp only; split <;> rfl
@[simp] theorem endUnit_board : (s.endUnit c d).board = s.board := by
  unfold State.endUnit
  rw [boundary_board, freePort_board]
  rfl
@[simp] theorem cutChannel_board : (s.cutChannel c).board = s.board := by
  unfold State.cutChannel
  simp only
  split
  · rfl
  · split <;> simp

end

/-! ### Run results -/

section
variable {r s : State}

theorem KeepsBoard.endRunAt (hs : KeepsBoard r s) (e : Source) (o : Outcome) : KeepsBoard r (s.endRunAt e o) := by
  refine KeepsBoard.enterDelivering ?_ e o
  exact hs.same rfl

theorem KeepsBoard.succeedAt (hs : KeepsBoard r s) (e : Source) : KeepsBoard r (s.succeedAt e) := by
  have hcounted : KeepsBoard r (s.setEntry e { s.entry e with
      bind := countRun (s.entry e).bind (s.entry e).prog.disarmPending
      prog := { (s.entry e).prog with disarmPending := false } }) := hs.same rfl
  unfold State.succeedAt
  simp only
  split
  · exact hcounted.enterDelivering e .ran
  · exact hcounted.enterDelivering e .ranLast
  · exact hcounted.enterDelivering e .ranLast
  · exact hcounted.complete e
  · exact hcounted.complete e

/-- A port whose DISARM is answered is READY again, with no DISARM recorded (R120, R174). -/
theorem KeepsBoard.answerDisarms (hs : KeepsBoard r s) (e : Source) : KeepsBoard r (s.answerDisarms e) := by
  refine hs.trans ⟨rfl, id, fun hports h => ?_⟩
  have hport := hports h
  unfold State.answerDisarms State.port
  rw [look_mapTable]
  split
  · obtain ⟨-, -, hecho⟩ := hport
    exact ⟨by simp, by simp, hecho⟩
  · exact hport

theorem KeepsBoard.takeResult (hs : KeepsBoard r s) (c : ChannelId) {apply : State → Source → State}
    (ha : ∀ (t : State) (e : Source), KeepsBoard r t → KeepsBoard r (apply t e)) : KeepsBoard r (s.takeResult c apply) := by
  have htaken : KeepsBoard r { s with claims := { s.claims with reports := put s.claims.reports c none } } := hs.same rfl
  unfold State.takeResult
  simp only
  split
  next => exact hs.same rfl
  next e _ =>
    split
    · exact ((ha _ e htaken).answerDisarms e).same rfl
    · exact hs.same rfl

end

end Sys2Proof.Machine
end

section
/-! No command but the supervisor's WRITE_WINDOW and full reset rewrites a window, and none breaks the laws of the windows, the Notice
Queue and the ports (R149, R150, R154, R155, R161, R168). -/

open Sys2Proof Sys2Proof.Machine

namespace Sys2Proof.Machine

/-! ### A request at its port -/

section
variable {P : State → Prop} {r s : State} {h : HostId} {code : Operand}

/-- A request is ignored, lost or refused by its port, or answered by the port's own checks, or does what its body does (R170, R171). -/
theorem request_cases {right : Right} {ns : Bool} {body : State → State} (hself : P s)
    (hlost : P (s.setPort h { s.port h with lost := true })) (hanswer : ∀ x, P (s.answered h code x))
    (hbody : PortTakes s h → s.holdsRight h right = true → P (body (s.taken h))) : Answers P (request h code right ns body s) := by
  by_cases hlow : s.pins.resetLow = true ∨ hasHost s.pins.hrst h = true
  · rw [request_ignored hlow]
    exact answers_next hself
  simp only [not_or, Bool.not_eq_true] at hlow
  obtain ⟨hreset, hhrst⟩ := hlow
  cases hworking : (s.port h).working with
  | true =>
    rw [request_lost hreset hhrst hworking]
    exact answers_next hlost
  | false =>
    by_cases hwaiting : (s.port h).waiting = none
    · have htakes : PortTakes s h := ⟨hreset, hhrst, hworking, hwaiting⟩
      rw [request_taken htakes]
      refine answers_next ?_
      split_ifs with hright
      · exact hanswer _
      · exact hanswer _
      · exact hbody htakes (by simpa using hright)
    · rw [request_held hreset hhrst hworking hwaiting]
      exact answers_refused _

theorem taken_keepsBoard (s : State) (h : HostId) : KeepsBoard s (s.taken h) := (KeepsBoard.refl s).setPort id

theorem answered_keepsBoard (s : State) (h : HostId) (x : ResultCode) (hcode : code.toNat ≤ 26 := by decide) :
    KeepsBoard s (s.answered h code x) := by
  rw [← State.taken_answer]
  exact (taken_keepsBoard s h).answer h x hcode

/-- The port of a request that is taken is READY and holds no bus write back (R168, R170). -/
structure PortFree (s : State) (h : HostId) : Prop where
  ready : (s.port h).working = false
  waitless : (s.port h).waiting = none

theorem PortTakes.free (hp : PortTakes s h) : PortFree (s.taken h) h := by
  obtain ⟨-, -, hworking, hwaiting⟩ := hp
  exact ⟨by rw [State.taken_port_self]; exact hworking, by rw [State.taken_waiting]; exact hwaiting⟩

theorem request_keepsBoard {right : Right} {ns : Bool} {body : State → State}
    (hbody : PortFree (s.taken h) h → KeepsBoard s (s.taken h) → KeepsBoard s (body (s.taken h)))
    (hcode : code.toNat ≤ 26 := by decide) : Answers (KeepsBoard s) (request h code right ns body s) :=
  request_cases (.refl s) ((KeepsBoard.refl s).setPort id) (answered_keepsBoard s h · hcode)
    fun hp _ => hbody hp.free (taken_keepsBoard s h)

theorem KeepsBoard.withIndex (hs : KeepsBoard r s) {n : Nat} {x : Operand} {body : Fin n → State → State}
    (hbody : ∀ i, KeepsBoard r (body i s)) (hcode : code.toNat ≤ 26 := by decide) :
    KeepsBoard r (Machine.withIndex n h code x body s) :=
  withIndex_cases (hs.answer h .range hcode) hbody

/-- A READY port may hold a bus write back (R84, R170). -/
theorem KeepsBoard.holdBack (hs : KeepsBoard r s) (hready : (s.port h).working = false) (x : BusWait) :
    KeepsBoard r (s.setPort h { s.port h with waiting := some x }) :=
  hs.setPort fun ⟨hworking, _, hecho⟩ => ⟨hworking, by simp [hready], hecho⟩

/-- A bus write that is held back may be answered (R170). -/
theorem KeepsBoard.letGo (hs : KeepsBoard r s) (h : HostId) : KeepsBoard r (s.setPort h { s.port h with waiting := none }) :=
  hs.setPort fun ⟨hworking, _, hecho⟩ => ⟨hworking, fun _ => rfl, hecho⟩

end

/-! ### The operations on one host -/

section
variable {r s : State} (hs : KeepsBoard r s)
include hs

theorem KeepsBoard.attachNow (h : HostId) : KeepsBoard r (s.attachNow h) := hs.same (choose_board ..)

theorem KeepsBoard.resumeAttach (h : HostId) : KeepsBoard r (s.resumeAttach h) := by
  unfold State.resumeAttach
  split
  · exact ((hs.letGo h).attachNow h).answer h .ok
  · exact hs

theorem KeepsBoard.answerTake (h : HostId) (x : ResultCode) : KeepsBoard r (s.answerTake h x) := by
  unfold State.answerTake
  split
  · exact (hs.letGo h).answer h x
  · exact hs

theorem KeepsBoard.writeThreshold (h : HostId) (v : Level) : KeepsBoard r (s.writeThreshold h v) := by
  refine hs.same ?_
  unfold State.writeThreshold
  simp only
  split_ifs <;> simp

theorem KeepsBoard.matchTake {h : HostId} (hready : (s.port h).working = false) (e : Source) : KeepsBoard r (s.matchTake h e) := by
  have hmatched : ∀ t : State, t.board = s.board → KeepsBoard r (t.setPort h { t.port h with waiting := some .take }) := fun t ht => by
    have hport : t.port h = s.port h := congrArg (fun b : Board => look b.ports h) ht
    exact (hs.same ht).holdBack (hport ▸ hready) .take
  unfold State.matchTake
  split
  · exact hs.answer h .stale
  next o _ =>
    simp only
    split
    · refine hmatched _ ?_
      split <;> rfl
    · exact hs.answer h .stale

theorem KeepsBoard.endService (h : HostId) {code : Operand} (e : Source) (x : Handed)
    (hcode : code.toNat ≤ 26 := by decide) : KeepsBoard r (s.endService h code e x) := by
  have hremoved : KeepsBoard r ((s.setCtx h (dropRecord (s.ctx h) e)).hand h [x]) := hs.same rfl
  unfold State.endService
  split
  · exact hremoved.answer h .ok hcode
  · exact hs.answer h .state hcode

/-- A DISARM that waits makes its port WORKING, which holds no bus write back (R174). -/
theorem KeepsBoard.askCut {h : HostId} (hfree : (s.port h).waiting = none) (e : Source) : KeepsBoard r (s.askCut h e) := by
  have hasked : ∀ t : State, t.board = s.board →
      KeepsBoard r (t.setPort h { t.port h with working := true, echo := 20, pendingDisarm := some e }) := fun t ht => by
    have hport : t.port h = s.port h := congrArg (fun b : Board => look b.ports h) ht
    exact (hs.same ht).setPort fun _ => ⟨by simp, fun _ => hport ▸ hfree, show (20 : Operand).toNat ≤ 26 by decide⟩
  unfold State.askCut
  simp only
  split
  · exact hasked s rfl
  · exact hasked _ rfl

theorem KeepsBoard.countLapse (h : HostId) : KeepsBoard r (s.countLapse h) := by
  refine hs.same ?_
  unfold State.countLapse State.becomeLapsed
  simp only
  split_ifs <;> simp

end

/-! ### The requests -/

/-- No request but WRITE_WINDOW changes a window, and none breaks the laws of the Notice Queue and the ports. -/
theorem exec_request_keepsBoard {c : Instr} {s : State} {h : HostId} (hc : c.port = some h)
    (hw : ∀ object sub, c ≠ .writeWindow h object sub) : Answers (KeepsBoard s) (exec c s) := by
  cases c with
  | attach k =>
    refine request_keepsBoard fun hp ht => ?_
    unfold attachBody
    split_ifs
    · exact ht.answer k .ok
    · exact ht.holdBack hp.ready .attach
    · exact (ht.attachNow k).answer k .ok
  | detach k =>
    refine request_keepsBoard fun _ ht => ?_
    unfold detachBody
    split
    · exact ht.answer k .ok
    · exact (ht.same (giveBack_board _ k)).answer k .ok
  | setThreshold k v =>
    exact request_keepsBoard fun _ ht => ht.withIndex fun v => (ht.writeThreshold k v).answer k .ok
  | take k x => exact request_keepsBoard fun hp ht => ht.withIndex fun e => ht.matchTake hp.ready e
  | finish k x => exact request_keepsBoard fun _ ht => ht.withIndex fun e => ht.endService k e _
  | release k x => exact request_keepsBoard fun _ ht => ht.withIndex fun e => ht.endService k e _
  | post k x =>
    refine request_keepsBoard fun _ ht => ht.withIndex fun e => ?_
    split_ifs
    · exact ht.answer k .range
    · exact ht.answer k .state
    · exact (ht.arrive e).answer k .ok
  | readEntry k x => exact request_keepsBoard fun _ ht => ht.withIndex fun e => ht.answerRecord k _
  | readDesc k x => exact request_keepsBoard fun _ ht => ht.withIndex fun d => ht.answerRecord k _
  | readWindow k x y =>
    exact request_keepsBoard fun _ ht => ht.withIndex fun i => ht.withIndex fun j =>
      ht.answerRecord k _
  | readHost k x => exact request_keepsBoard fun _ ht => ht.withIndex fun i => ht.answerRecord k _
  | popNotice k =>
    refine request_keepsBoard fun _ ht => ?_
    unfold popNoticeBody
    split
    next => exact ht.answer k .empty
    next n rest hrecords =>
      refine KeepsBoard.answerRecord ?_ k _
      refine ht.trans ⟨rfl, fun hq => ?_, id⟩
      rw [hrecords] at hq
      exact (Nat.le_succ rest.length).trans hq
  | readNoticeStatus k =>
    refine request_keepsBoard fun _ ht => ?_
    refine KeepsBoard.answerRecord ?_ k _
    exact ht.trans ⟨rfl, id, id⟩
  | writeEntry k x =>
    refine request_keepsBoard fun _ ht => ht.withIndex fun e => ?_
    split
    · exact ht.answer k .range
    · split
      · exact (ht.writeConfig e _).answer k .ok
      · exact ht.answer k .busy
  | enable k x v =>
    change Answers _ (execEnable k x v s)
    unfold execEnable
    split
    · exact answers_refused _
    · refine request_keepsBoard fun _ ht => ht.withIndex fun e => ?_
      split
      · exact (ht.enableEntry e).answer k .ok
      · exact ht.answer k .range
  | disable k x =>
    refine request_keepsBoard fun _ ht => ht.withIndex fun e => ?_
    refine KeepsBoard.answer ?_ k .ok
    exact ht.same rfl
  | clearEntry k x =>
    refine request_keepsBoard fun _ ht => ht.withIndex fun e => ?_
    have hcleared : KeepsBoard s (((s.taken k).clearNow e).answer k 16 .ok) := (ht.clearNow e).answer k .ok
    split
    · exact ht.answer k .ok
    · exact hcleared
    · exact hcleared
    · split
      · exact hcleared
      · exact ht.answer k .busy
    · exact ht.answer k .busy
    · exact ht.answer k .busy
  | retry k x =>
    refine request_keepsBoard fun _ ht => ht.withIndex fun e => ?_
    split
    · exact (ht.same (offerNews_board ((s.taken k).setProg e _) e)).answer k .ok
    · exact ht.answer k .state
  | writeBinding k x =>
    refine request_keepsBoard fun _ ht => ht.withIndex fun e => ?_
    split
    · exact ht.answer k .range
    · split
      · exact ht.answer k .range
      · split
        · exact ht.answer k .busy
        · refine KeepsBoard.answer ?_ k .ok
          exact ht.same rfl
  | arm k x =>
    refine request_keepsBoard fun _ ht => ht.withIndex fun e => ?_
    split_ifs
    · exact ht.answer k .range
    · exact ht.answer k .ok
    · exact ht.answer k .range
    · refine KeepsBoard.answer ?_ k .ok
      exact ht.same rfl
  | disarm k x =>
    refine request_keepsBoard fun hp ht => ht.withIndex fun e => ?_
    have hdisarmed : KeepsBoard s ((s.taken k).setBind e { (s.taken k).bind e with armed := false }) := ht.same rfl
    have hunqueued : KeepsBoard s (((s.taken k).setBind e { (s.taken k).bind e with armed := false }).unqueue e) := ht.same rfl
    split
    · exact ht.askCut hp.waitless e
    · exact (hunqueued.enterDelivering e .plain).answer k .ok
    · exact hdisarmed.answer k .ok
  | writeDesc k x =>
    refine request_keepsBoard fun _ ht => ht.withIndex fun d => ?_
    split
    · exact ht.answer k .range
    · split
      · exact ht.answer k .busy
      · refine KeepsBoard.answer ?_ k .ok
        exact ht.same rfl
  | writeWindow k x y =>
    cases hc
    exact absurd rfl (hw x y)
  | setHostLimits k x y z =>
    refine request_keepsBoard fun _ ht => ht.withIndex fun i => ht.withIndex fun limit => ?_
    split
    · exact ht.answer k .range
    · refine KeepsBoard.answer ?_ k .ok
      exact ht.same rfl
  | setRights k x v =>
    refine request_keepsBoard fun _ ht => ht.withIndex fun i => ?_
    split
    · refine KeepsBoard.answer ?_ k .ok
      exact ht.same rfl
    · exact ht.answer k .range
  | handOver k x =>
    refine request_keepsBoard fun _ ht => ht.withIndex fun i => ?_
    split_ifs
    · exact ht.answer k .ok
    · refine KeepsBoard.answer ?_ k .ok
      exact ht.same rfl
    · exact ht.answer k .state
  | evict k x =>
    refine request_keepsBoard fun _ ht => ht.withIndex fun i => ?_
    have hback : KeepsBoard s (((s.taken k).evictNoted i).giveBack i) := ht.same (giveBack_board ((s.taken k).evictNoted i) i)
    split
    · simp only
      split
      · exact (hback.answerTake i .stale).answer k .ok
      · exact hback.answer k .ok
    · exact ht.answer k .state
  | _ => cases hc

/-- WRITE_WINDOW of the supervisor writes a window that lies in the address space; of any other host it writes none (R149, R155). -/
theorem exec_writeWindow_keepsBoard (s : State) (h : HostId) (object sub : Operand) :
    Answers (fun t => KeepsBoard s t ∨ ∃ (k : HostId) (i : Fin 8) (w : Window), s.hcu.supervisor = h ∧ object.toNat = k.val ∧
      sub.toNat = i.val ∧ WindowLaw w ∧ KeepsBoard (s.setWindows k (put (s.windows k) i w)) t)
      (exec (.writeWindow h object sub) s) := by
  have htaken := taken_keepsBoard s h
  refine request_cases (.inl (.refl s)) (.inl ((KeepsBoard.refl s).setPort id)) (fun x => .inl (answered_keepsBoard s h x))
    fun _ hright => ?_
  have hsupervisor : s.hcu.supervisor = h := by simpa [State.holdsRight] using hright
  unfold writeWindowBody withIndex
  split
  next hk =>
    split
    next hi =>
      dsimp only
      split
      next => exact .inl (htaken.answer h .range)
      next w hstaged =>
        obtain ⟨-, hlaw, -⟩ := holdsWindow_of_staged hstaged
        refine .inr ⟨⟨object.toNat, hk⟩, ⟨sub.toNat, hi⟩, w, hsupervisor, rfl, rfl, hlaw, ?_⟩
        exact (taken_keepsBoard (s.setWindows _ (put (s.windows _) _ w)) h).answer h .ok
    next => exact .inl (htaken.answer h .range)
  next => exact .inl (htaken.answer h .range)

/-! ### The claims between hosts and entries -/

section
variable (s : State) (h : HostId)

theorem exec_offerExpiry_keepsBoard : Answers (KeepsBoard s) (exec (.offerExpiry h) s) := by
  change Answers _ (execOfferExpiry h s)
  unfold execOfferExpiry
  split
  next o due _ _ =>
    have hexpired : KeepsBoard s (s.expired h due) := .of_board rfl
    simp only
    split_ifs
    · exact answers_next ((hexpired.declinePart o.source h).tell o.source)
    · exact answers_next (hexpired.same (offerNews_board ((s.expired h due).leaveOffered o.source h) o.source))
    · exact answers_next hexpired
  next => exact answers_next (.refl s)

theorem exec_lapseReport_keepsBoard : Answers (KeepsBoard s) (exec (.lapseReport h) s) := by
  change Answers _ (execLapseReport h s)
  unfold execLapseReport
  simp only
  split
  · exact answers_next (((KeepsBoard.refl s).countLapse h).same rfl)
  · exact answers_next (.of_board rfl)
  · exact answers_next (.refl s)

theorem exec_lapseAnswer_keepsBoard : Answers (KeepsBoard s) (exec (.lapseAnswer h) s) := by
  change Answers _ (execLapseAnswer h s)
  unfold execLapseAnswer
  split <;> exact answers_next (.of_board (by simp))

theorem exec_takePush_keepsBoard : Answers (KeepsBoard s) (exec (.takePush h) s) := by
  change Answers _ (execTakePush h s)
  unfold execTakePush
  split
  · exact answers_next (.refl s)
  · simp only
    split <;> exact answers_next (.of_board (by simp))

theorem exec_takeHold_keepsBoard : Answers (KeepsBoard s) (exec (.takeHold h) s) := by
  change Answers _ (execTakeHold h s)
  unfold execTakeHold
  split
  next e cleared t ht =>
    have htaken := KeepsBoard.of_board (takeHanded_board ht)
    simp only
    split_ifs
    · refine answers_next (KeepsBoard.answerTake ?_ h .ok)
      exact htaken.same rfl
    · exact answers_next (htaken.same rfl)
    · exact answers_next (htaken.answerTake h .stale)
  next => exact answers_next (.refl s)

theorem exec_takeUndo_keepsBoard : Answers (KeepsBoard s) (exec (.takeUndo h) s) := by
  change Answers _ (execTakeUndo h s)
  unfold execTakeUndo
  split
  · exact answers_next (.refl s)
  · refine answers_next (KeepsBoard.answerTake (.of_board ?_) h .stale)
    rw [choose_board]
    rfl

theorem exec_finishReport_keepsBoard (e : Source) : Answers (KeepsBoard s) (exec (.finishReport h e) s) := by
  change Answers _ (execFinishReport h e s)
  unfold execFinishReport
  split
  next => exact answers_next (.refl s)
  next x t ht => exact answers_next (((KeepsBoard.of_board (takeHanded_board ht)).finishPart e h).tellStack h e)

theorem exec_releaseReport_keepsBoard (e : Source) : Answers (KeepsBoard s) (exec (.releaseReport h e) s) := by
  change Answers _ (execReleaseReport h e s)
  unfold execReleaseReport
  split
  next f lapsed t ht => exact answers_next (((KeepsBoard.of_board (takeHanded_board ht)).releasePart e h lapsed).tellStack h e)
  next => exact answers_next (.refl s)

theorem exec_stackRelease_keepsBoard : Answers (KeepsBoard s) (exec (.stackRelease h) s) := by
  change Answers _ (execStackRelease h s)
  unfold execStackRelease
  split
  next => exact answers_next (.refl s)
  next x t ht =>
    have hreleased := (KeepsBoard.of_board (takeHanded_board ht)).releasePart x.source h false
    exact answers_next ((hreleased.tell x.source).resumeAttach h)

theorem exec_owedDeparture_keepsBoard : Answers (KeepsBoard s) (exec (.owedDeparture h) s) := by
  change Answers _ (execOwedDeparture h s)
  unfold execOwedDeparture
  split
  next => exact answers_next (.refl s)
  next x t ht => exact answers_next (((KeepsBoard.of_board (takeHanded_board ht)).departAt x.source h).resumeAttach h)

theorem exec_withdrawalReport_keepsBoard : Answers (KeepsBoard s) (exec (.withdrawalReport h) s) := by
  change Answers _ (execWithdrawalReport h s)
  unfold execWithdrawalReport
  split
  next => exact answers_next (.refl s)
  next x t ht => exact answers_next ((KeepsBoard.of_board (takeHanded_board ht)).withdrawAt x.source h)

end

/-! ### Delegated transfers -/

section
variable (s : State) (c : ChannelId)

theorem exec_delegationInsert_keepsBoard (e : Source) : Answers (KeepsBoard s) (exec (.delegationInsert e) s) := by
  change Answers _ (execDelegationInsert e s)
  unfold execDelegationInsert
  simp only
  split_ifs
  · exact answers_next (.of_board (grantChannel_board ..))
  · exact answers_next (.of_board (grantChannel_board ..))
  · exact answers_next (.of_board rfl)
  · exact answers_next (.refl s)

theorem exec_channelRelease_keepsBoard : Answers (KeepsBoard s) (exec (.channelRelease c) s) := by
  change Answers _ (execChannelRelease c s)
  unfold execChannelRelease
  split
  · exact answers_next (.refl s)
  · exact answers_next (.of_board (grantChannel_board ..))

theorem exec_descriptorArrival_keepsBoard : Answers (KeepsBoard s) (exec (.descriptorArrival c) s) := by
  change Answers _ (execDescriptorArrival c s)
  unfold execDescriptorArrival
  split <;> exact answers_next (.of_board (by simp))

theorem exec_unitCheck_keepsBoard : Answers (KeepsBoard s) (exec (.unitCheck c) s) := by
  change Answers _ (execUnitCheck c s)
  unfold execUnitCheck
  simp only
  split
  · split_ifs <;> exact answers_next (.of_board (by simp))
  · exact answers_next (.refl s)

theorem exec_memoryResponse_keepsBoard (tag : BitVec 4) (error : Bool) (data : Word) :
    Answers (KeepsBoard s) (exec (.memoryResponse tag error data) s) := by
  change Answers _ (execMemoryResponse tag error data s)
  unfold execMemoryResponse
  split
  · split
    · exact answers_next (.refl s)
    · simp only
      split_ifs
      · exact answers_next (.refl s)
      · exact answers_next (.of_board (failUnit_board ..))
      · exact answers_next (.of_board (endUnit_board ..))
      · exact answers_next (.of_board rfl)
  · exact answers_next (.refl s)

theorem exec_memoryTimeout_keepsBoard : Answers (KeepsBoard s) (exec .memoryTimeout s) := by
  change Answers _ (execMemoryTimeout s)
  unfold execMemoryTimeout
  split
  · split
    · exact answers_next (.refl s)
    · exact answers_next (.of_board (failUnit_board ..))
  · exact answers_next (.refl s)

/-- The record of a write marks one window, or none (R154). -/
theorem exec_writeRecord_keepsBoard : Answers (fun t => KeepsBoard s t ∨ ∃ (o : HostId) (k : Fin 8),
    KeepsBoard (s.setWindows o (put (s.windows o) k { look (s.windows o) k with written := true })) t) (exec (.writeRecord c) s) := by
  cases hw : look s.claims.writes c with
  | nil =>
    rw [exec_writeRecord_none hw]
    exact answers_next (.inl (.refl s))
  | cons x rest =>
    obtain ⟨o, a⟩ := x
    cases hd : decidingWindow (s.windows o) a with
    | none =>
      rw [exec_writeRecord_unmarked hw hd]
      exact answers_next (.inl (.of_board rfl))
    | some k =>
      rw [exec_writeRecord_marks hw hd]
      exact answers_next (.inr ⟨o, k, .of_board rfl⟩)

theorem exec_cutRequest_keepsBoard (e : Source) : Answers (KeepsBoard s) (exec (.cutRequest e) s) := by
  change Answers _ (execCutRequest e s)
  unfold execCutRequest
  split
  · exact answers_next (.refl s)
  · simp only
    split_ifs
    · exact answers_next (.of_board rfl)
    · exact answers_next (.of_board (cutChannel_board ..))
    · exact answers_next (.of_board (cutChannel_board ..))
    · exact answers_next (.of_board rfl)

theorem exec_runSuccess_keepsBoard : Answers (KeepsBoard s) (exec (.runSuccess c) s) := by
  change Answers _ (execRunSuccess c s)
  unfold execRunSuccess
  split
  · exact answers_next ((KeepsBoard.refl s).takeResult c fun _ e ht => ht.succeedAt e)
  · exact answers_next (.refl s)

theorem exec_runFailure_keepsBoard : Answers (KeepsBoard s) (exec (.runFailure c) s) := by
  change Answers _ (execRunFailure c s)
  unfold execRunFailure
  split
  · exact answers_next ((KeepsBoard.refl s).takeResult c fun _ e ht => ht.endRunAt e .failed)
  · exact answers_next (.refl s)

theorem exec_runCut_keepsBoard : Answers (KeepsBoard s) (exec (.runCut c) s) := by
  change Answers _ (execRunCut c s)
  unfold execRunCut
  split
  · exact answers_next ((KeepsBoard.refl s).takeResult c fun _ e ht => ht.endRunAt e .cut)
  · exact answers_next (.refl s)

end

/-! ### The events of the board and the notices -/

section
variable (s : State) (h : HostId)

theorem exec_unknownRequest_keepsBoard (code : Operand) : Answers (KeepsBoard s) (exec (.unknownRequest h code) s) := by
  change Answers _ (execUnknownRequest h code s)
  unfold execUnknownRequest
  split
  · exact answers_refused _
  · exact request_keepsBoard fun _ ht => ht.answer h .unknown

theorem exec_lostRequest_keepsBoard : Answers (KeepsBoard s) (exec (.lostRequest h) s) := by
  change Answers _ (execLostRequest h s)
  unfold execLostRequest
  split_ifs
  · exact answers_next (.refl s)
  · exact answers_next ((KeepsBoard.refl s).setPort id)
  · exact answers_refused _

theorem exec_registerWrite_keepsBoard (offset : Fin 16) (word : Word) :
    Answers (KeepsBoard s) (exec (.registerWrite h offset word) s) := by
  change Answers _ (execRegisterWrite h offset word s)
  unfold execRegisterWrite
  split_ifs
  · exact answers_refused _
  · exact answers_next (.refl s)
  · exact answers_next ((KeepsBoard.refl s).setPort id)
  · exact answers_next (.refl s)

theorem exec_lineChange_keepsBoard (line : LineId) (high : Bool) : Answers (KeepsBoard s) (exec (.lineChange line high) s) := by
  change Answers _ (execLineChange line high s)
  unfold execLineChange
  split
  · exact answers_next (.refl s)
  · refine answers_next (KeepsBoard.judgeLine ?_ _ high)
    exact .of_board rfl

/-- A port after reset is READY, with no DISARM recorded (R168). -/
theorem resetPort_law : PortLaw resetPort := by simp [PortLaw, resetPort]

theorem exec_hostReset_keepsBoard : Answers (KeepsBoard s) (exec (.hostReset h) s) := by
  have hback : KeepsBoard s (if (s.ctx h).session = .detached then s else s.giveBack h) := by
    split
    · exact .refl s
    · exact .of_board (giveBack_board s h)
  have hported : ∀ t : State, KeepsBoard s t → KeepsBoard s (t.setPort h resetPort) := fun _ ht => ht.setPort fun _ => resetPort_law
  exact answers_next ((hported _ (hback.same (setCtx_board _ h _))).same rfl)

theorem exec_fullResetRelease_keepsBoard (evt : BitVec 48) (clksel supsel : BitVec 2) :
    Answers (KeepsBoard s) (exec (.fullResetRelease evt clksel supsel) s) := by
  change Answers _ (execFullResetRelease evt clksel supsel s)
  unfold execFullResetRelease
  split <;> exact answers_next (.of_board rfl)

theorem exec_noticeAppend_keepsBoard (o : Origin) : Answers (KeepsBoard s) (exec (.noticeAppend o) s) := by
  change Answers _ (execNoticeAppend o s)
  unfold execNoticeAppend
  split
  · exact answers_next (.refl s)
  · refine answers_next (KeepsBoard.takeAppend ?_ _)
    exact .of_board rfl

theorem exec_noticeLevelChange_keepsBoard : Answers (KeepsBoard s) (exec .noticeLevelChange s) := by
  change Answers _ (execNoticeLevelChange s)
  unfold execNoticeLevelChange
  split
  · exact answers_next (.refl s)
  next rest _ =>
    have htaken : KeepsBoard s { s with claims := { s.claims with levels := rest } } := .of_board rfl
    simp only
    split
    · exact answers_next (htaken.assertLevel 63)
    · exact answers_next (htaken.deassertLevel 63)

end

/-! ### Every command -/

/-- Only full reset, WRITE_WINDOW and WRITE_RECORD change a window, and no other command breaks the laws of the Notice Queue and the
ports. -/
theorem exec_keepsBoard {c : Instr} (s : State) (hreset : c ≠ .fullReset) (hwindow : ∀ h object sub, c ≠ .writeWindow h object sub)
    (hrecord : ∀ k, c ≠ .writeRecord k) : Answers (KeepsBoard s) (exec c s) := by
  cases hport : c.port with
  | some k => exact exec_request_keepsBoard hport (hwindow k)
  | none =>
    cases c with
    | unknownRequest k code => exact exec_unknownRequest_keepsBoard s k code
    | lostRequest k => exact exec_lostRequest_keepsBoard s k
    | registerWrite k offset word => exact exec_registerWrite_keepsBoard s k offset word
    | lineChange line high => exact exec_lineChange_keepsBoard s line high
    | hostReset k => exact exec_hostReset_keepsBoard s k
    | hostResetRelease k => exact answers_next (.of_board rfl)
    | fullReset => exact absurd rfl hreset
    | fullResetRelease evt clksel supsel => exact exec_fullResetRelease_keepsBoard s evt clksel supsel
    | offerExpiry k => exact exec_offerExpiry_keepsBoard s k
    | lapseReport k => exact exec_lapseReport_keepsBoard s k
    | lapseAnswer k => exact exec_lapseAnswer_keepsBoard s k
    | takePush k => exact exec_takePush_keepsBoard s k
    | takeHold k => exact exec_takeHold_keepsBoard s k
    | takeUndo k => exact exec_takeUndo_keepsBoard s k
    | finishReport k e => exact exec_finishReport_keepsBoard s k e
    | releaseReport k e => exact exec_releaseReport_keepsBoard s k e
    | stackRelease k => exact exec_stackRelease_keepsBoard s k
    | owedDeparture k => exact exec_owedDeparture_keepsBoard s k
    | withdrawalReport k => exact exec_withdrawalReport_keepsBoard s k
    | delegationInsert e => exact exec_delegationInsert_keepsBoard s e
    | channelRelease c => exact exec_channelRelease_keepsBoard s c
    | descriptorArrival c => exact exec_descriptorArrival_keepsBoard s c
    | unitCheck c => exact exec_unitCheck_keepsBoard s c
    | memoryGrant => exact answers_next (.of_board (nextGrant_board s))
    | memoryResponse tag error data => exact exec_memoryResponse_keepsBoard s tag error data
    | memoryTimeout => exact exec_memoryTimeout_keepsBoard s
    | writeRecord c => exact absurd rfl (hrecord c)
    | cutRequest e => exact exec_cutRequest_keepsBoard s e
    | runSuccess c => exact exec_runSuccess_keepsBoard s c
    | runFailure c => exact exec_runFailure_keepsBoard s c
    | runCut c => exact exec_runCut_keepsBoard s c
    | noticeAppend o => exact exec_noticeAppend_keepsBoard s o
    | noticeLevelChange => exact exec_noticeLevelChange_keepsBoard s
    | _ => cases hport

/-! ### One window written anew -/

section
variable {s : State} {o k : HostId} {i j : Fin 8} {w : Window}

/-- The windows after one of them is written. -/
theorem look_windowWritten : look ((s.setWindows o (put (s.windows o) j w)).windows k) i =
    if k = o ∧ i = j then w else look (s.windows k) i := by
  rw [State.setWindows_windows]
  by_cases hk : k = o
  · subst hk
    simp [look_put]
  · simp [hk]

theorem BoardLaw.windowWritten (hs : BoardLaw s) (hw : WindowLaw w) : BoardLaw (s.setWindows o (put (s.windows o) j w)) := by
  obtain ⟨hwindows, hqueue, hports⟩ := hs
  refine ⟨fun k i => ?_, hqueue, hports⟩
  rw [look_windowWritten]
  split
  · exact hw
  · exact hwindows k i

theorem KeepsBoard.look_windows {t : State} (ht : KeepsBoard s t) (k : HostId) (i : Fin 8) :
    look (t.windows k) i = look (s.windows k) i :=
  congrArg (fun ws => look (look ws k) i) ht.windows

end

/-- No command breaks the laws of the windows, the Notice Queue and the ports. -/
theorem exec_boardLaw (c : Instr) {s : State} (hs : BoardLaw s) : Answers BoardLaw (exec c s) := by
  intro t ht
  have ⟨hwindows, _⟩ := hs
  cases c with
  | fullReset =>
    cases ht
    exact reset_boardLaw
  | writeWindow h object sub =>
    obtain hkept | ⟨k, i, w, -, -, -, hlaw, hkept⟩ := exec_writeWindow_keepsBoard s h object sub t ht
    · exact hkept.boardLaw hs
    · exact hkept.boardLaw (hs.windowWritten hlaw)
  | writeRecord c =>
    obtain hkept | ⟨o, k, hkept⟩ := exec_writeRecord_keepsBoard s c t ht
    · exact hkept.boardLaw hs
    · exact hkept.boardLaw (hs.windowWritten (hwindows o k))
  | _ => exact (exec_keepsBoard s (by simp) (by simp) (by simp) t ht).boardLaw hs

/-- The window grants in y what it grants in x, and is marked as written if it was (R149, R150). -/
def Window.KeepsGrant (x y : Window) : Prop :=
  y.base = x.base ∧ y.count = x.count ∧ y.access = x.access ∧ (x.written = true → y.written = true)

theorem Window.keepsGrant_of_eq {x y : Window} (h : y = x) : x.KeepsGrant y := h ▸ ⟨rfl, rfl, rfl, id⟩

end Sys2Proof.Machine

/-- Settles O57: a step is a microsecond that the board does not see, or a command, which writes only windows in the address space. -/
theorem everyStepKeepsTheBoardLaw : Obligations.EveryStepKeepsTheBoardLaw := by
  intro s t ⟨_, _, _, _, hboard⟩ hstep
  unfold step at hstep
  split at hstep
  next =>
    cases hstep
    exact hboard
  next c rest _ =>
    have hrest : BoardLaw { s with pending := rest } := hboard
    exact exec_boardLaw c hrest t hstep

/-- Settles O58: of the two other commands that touch a window, WRITE_WINDOW writes one for the supervisor alone, and WRITE_RECORD only
marks one as written. -/
theorem onlyTheSupervisorChangesWindows : Obligations.OnlyTheSupervisorChangesWindows := by
  intro c s t k i ht hreset hother
  change Window.KeepsGrant (look (s.windows k) i) (look (t.windows k) i)
  cases c with
  | fullReset => exact absurd rfl hreset
  | writeWindow h object sub =>
    obtain hkept | ⟨l, j, w, rfl, hobject, hsub, -, hkept⟩ := exec_writeWindow_keepsBoard s h object sub t ht
    · exact Window.keepsGrant_of_eq (hkept.look_windows k i)
    · refine Window.keepsGrant_of_eq ?_
      rw [hkept.look_windows, look_windowWritten, if_neg]
      rintro ⟨rfl, rfl⟩
      exact (hother object sub rfl).elim (· hobject) (· hsub)
  | writeRecord c =>
    obtain hkept | ⟨o, j, hkept⟩ := exec_writeRecord_keepsBoard s c t ht
    · exact Window.keepsGrant_of_eq (hkept.look_windows k i)
    · rw [hkept.look_windows, look_windowWritten]
      split
      next hmarked =>
        obtain ⟨rfl, rfl⟩ := hmarked
        exact ⟨rfl, rfl, rfl, fun _ => rfl⟩
      next => exact Window.keepsGrant_of_eq rfl
  | _ => exact Window.keepsGrant_of_eq ((exec_keepsBoard s (by simp) (by simp) (by simp) t ht).look_windows k i)
end
